-- ==== Sys2Proof/Word.lean ====
section
/-! DEFINITION. The words of the block and its smallest named sets: bytes, 16-bit and 32-bit words,
endpoint numbers, banks, directions, data toggles, token PIDs, the SETUP packet and a command word with
its payload, and arrays indexed by endpoint, direction and bank. -/

namespace Sys2Proof

/-- `u8` (R8). -/
abbrev Byte := BitVec 8

/-- `u16` (R8). -/
abbrev Half := BitVec 16

/-- `u32` (R8). -/
abbrev Word := BitVec 32

/-- An endpoint number, 0 to 15 (R85 gives it four bits, R99 refuses any other). -/
abbrev Ep := Fin 16

/-- EVEN or ODD, one of the two slots of an endpoint and direction (R12, R24). -/
inductive Bank where
  | even
  | odd
  deriving DecidableEq, Repr

/-- RX (host to device) or TX (device to host) (R9, R24). -/
inductive Dir where
  | rx
  | tx
  deriving DecidableEq, Repr

/-- The data toggle (R12, R25). -/
inductive Toggle where
  | data0
  | data1
  deriving DecidableEq, Repr

/-- The three tokens of the model (R84). -/
inductive Pid where
  | outToken
  | inToken
  | setupToken
  deriving DecidableEq, Repr

/-- `other(EVEN) = ODD`, `other(ODD) = EVEN` (R9). -/
def Bank.other : Bank → Bank
  | .even => .odd
  | .odd => .even

/-- The other data toggle (R188). -/
def Toggle.other : Toggle → Toggle
  | .data0 => .data1
  | .data1 => .data0

/-- One value for each bank. -/
structure Banks (α : Type) where
  even : α
  odd : α
  deriving DecidableEq, Repr

/-- One value for each direction. -/
structure Dirs (α : Type) where
  rx : α
  tx : α
  deriving DecidableEq, Repr

/-- One value for each endpoint number. An entry above NUM_ENDPOINTS belongs to no endpoint. -/
abbrev PerEp (α : Type) := Vector α 16

def Banks.get {α : Type} (v : Banks α) : Bank → α
  | .even => v.even
  | .odd => v.odd

def Banks.put {α : Type} (v : Banks α) : Bank → α → Banks α
  | .even, x => { v with even := x }
  | .odd, x => { v with odd := x }

def Dirs.get {α : Type} (v : Dirs α) : Dir → α
  | .rx => v.rx
  | .tx => v.tx

def Dirs.put {α : Type} (v : Dirs α) : Dir → α → Dirs α
  | .rx, x => { v with rx := x }
  | .tx, x => { v with tx := x }

def epGet {α : Type} (v : PerEp α) (e : Ep) : α := v.get e

def epPut {α : Type} (v : PerEp α) (e : Ep) (x : α) : PerEp α := v.set e.val x e.isLt

/-- The SETUP packet by its fields (R31, R91). -/
structure SetupPacket where
  bmRequestType : Byte
  bRequest : Byte
  wValue : Half
  wIndex : Half
  wLength : Half
  deriving DecidableEq, Repr

/-- Which way a request's data goes (R92, bit 7). -/
inductive RequestDirection where
  | hostToDevice
  | deviceToHost
  deriving DecidableEq, Repr

/-- The type of a request (R92, bits 6:5). -/
inductive RequestKind where
  | standard
  | classSpecific
  | vendor
  | reserved
  deriving DecidableEq, Repr

/-- Whom a request is for (R92, bits 4:0); `reserved` keeps the code of the others. -/
inductive RequestRecipient where
  | device
  | interface
  | endpoint
  | other
  | reserved (code : BitVec 5)
  deriving DecidableEq, Repr

/-- A command as the environment issues it: the 32-bit command word and the payload outside the word
(R96, R102). -/
structure Command where
  word : Word
  payload : List Byte
  deriving DecidableEq, Repr

end Sys2Proof
end

