-- ==== Sys2Proof/Config.lean ====
section
/-! DEFINITION. What an implementation fixes (the parameters of 00_scope.md R6) and the source of every free
value of the model. The parameters are plain data that State carries, so that every statement over all
states is a statement for all parameter values. -/

namespace Sys2Proof

/-- EP0_SIZE, "32 or 64, build-time" (R6). -/
inductive Ep0Size where
  | b32
  | b64
  deriving DecidableEq, Repr

def Ep0Size.toNat : Ep0Size → Nat
  | .b32 => 32
  | .b64 => 64

/-- One entry of DESC_TABLE: `(wValue, wIndex, region, length)` (R6); `data` is what the region holds at
power-on (R342). -/
structure DescEntry where
  wValue : Half
  wIndex : Half
  length : Half
  data : List Byte
  deriving DecidableEq, Repr

/-- The model arguments of R6. `reportLen` is the length the HID collaborator declares for its report
region (R61). -/
structure Params where
  nPackets : Nat
  ep0Size : Ep0Size
  numEndpoints : Ep
  epConfig : PerEp Byte
  descTable : List DescEntry
  powerNegEnabled : Bool
  loweredBMaxPower : Byte
  bMaxPowerOffset : Nat
  statDepth : Nat
  allocZeroesBuf : Bool
  reportLen : Nat
  deriving DecidableEq, Repr

/-- The ranges R6 gives its parameters: N_PACKETS ≥ 1, 1 ≤ NUM_ENDPOINTS ≤ 15, STAT_DEPTH ≥ 1, and an
EP_CONFIG byte has STALL and the reserved bits 0 (R88). -/
def Params.wf (c : Params) : Bool :=
  decide (1 ≤ c.nPackets) && decide (1 ≤ c.numEndpoints.val) && decide (1 ≤ c.statDepth) &&
    c.epConfig.toList.all (fun b => decide (b &&& 0xE2 = 0))

/-- PACKET_SIZE: "fixed 64-byte transport buffers" (R6). -/
def Config.packetSize : Nat := 64

/-- EP_MAX_PACKET, the max packet size of every non-control endpoint (R6). -/
def Config.epMaxPacket : Nat := 64

/-- The free values of the model, in the order they are taken: which free packet ALLOC returns (R111), what a
collaborator answers and what its region's bytes are (R233). Nothing is known of any of them. Log entry 8. -/
opaque Config.draw : Nat → Nat

/-- Parameter set P-A of 95_test_vectors.md. DESIGN CHOICE (log entries 1 and 2): a descriptor byte the
vectors give no value is 0, and so is the report region's 64 a choice. -/
def Params.pA : Params where
  nPackets := 30
  ep0Size := .b64
  numEndpoints := 2
  epConfig := epPut (epPut (Vector.replicate 16 0x00) 1 0x15) 2 0x19
  descTable :=
    [{ wValue := 0x0100, wIndex := 0x0000, length := 18, data := 0x12 :: List.replicate 17 0 },
     { wValue := 0x0200, wIndex := 0x0000, length := 41,
       data := List.replicate 8 0 ++ 0xFA :: List.replicate 32 0 },
     { wValue := 0x0300, wIndex := 0x0000, length := 4, data := [0x04, 0x03, 0x09, 0x04] },
     { wValue := 0x0302, wIndex := 0x0409, length := 64, data := 0x1A :: List.replicate 63 0 }]
  powerNegEnabled := true
  loweredBMaxPower := 0x32
  bMaxPowerOffset := 8
  statDepth := 4
  allocZeroesBuf := true
  reportLen := 64

end Sys2Proof
end

