-- ==== Sys2Proof/Syntax.lean ====
section
/-! DEFINITION. The operations of the block and its environment: one constructor per row of
spec/opcode_table.json, the nineteen command words of R97 and the eighteen SETUP requests of R94. -/

namespace Sys2Proof

/-- An instruction. A handle is the 16-bit `arg` of the command word read as a packet id, a target address
its low seven bits (R98). A SETUP request carries the fields of its packet that the code leaves free (R91). -/
inductive Instr where
  | init
  | alloc
  | free (h : Half)
  | tx (ep : Ep) (h : Half)
  | rx (ep : Ep)
  | txByteCount (ep : Ep)
  | txPacketCount (ep : Ep)
  | rxByteCount (ep : Ep)
  | configured
  | reinit
  | deviceReload
  | pktFill (h : Half) (data : List Byte)
  | pktRead (h : Half)
  | tokenDone
  | powerTimeout
  | hostSetup (a : BitVec 7) (p : SetupPacket)
  | hostOut (ep : Ep) (a : BitVec 7) (data : List Byte)
  | hostIn (ep : Ep) (a : BitVec 7)
  | hostBusReset
  | getStatusDevice (wValue wIndex wLength : Half)
  | getStatusEndpoint (wValue wIndex wLength : Half)
  | clearFeatureEndpoint (wValue wIndex wLength : Half)
  | setFeatureEndpoint (wValue wIndex wLength : Half)
  | setAddress (wValue wIndex wLength : Half)
  | getDescriptorDevice (wValue wIndex wLength : Half)
  | getDescriptorInterface (wValue wIndex wLength : Half)
  | getConfiguration (wValue wIndex wLength : Half)
  | setConfiguration (wValue wIndex wLength : Half)
  | hidGetReport (wValue wIndex wLength : Half)
  | hidGetIdle (wValue wIndex wLength : Half)
  | hidGetProtocol (wValue wIndex wLength : Half)
  | hidSetReport (wValue wIndex wLength : Half)
  | hidSetIdle (wValue wIndex wLength : Half)
  | hidSetProtocol (wValue wIndex wLength : Half)
  | cdcSetLineCoding (wValue wIndex wLength : Half)
  | cdcGetLineCoding (wValue wIndex wLength : Half)
  | cdcSetControlLineState (wValue wIndex wLength : Half)
  deriving DecidableEq, Repr

end Sys2Proof
end

