-- ==== Sys2Proof/WellFormed.lean ====
section
/-! DEFINITION. Which instructions a command word and payload can spell. The types of `Instr` already hold
every endpoint number to 0..15, every address to seven bits and every SETUP packet to eight bytes. -/

namespace Sys2Proof

/-- A PKT_FILL payload has at most 64 bytes (R99, R168); no other constructor is restricted. HOST_OUT is not:
a payload too long for the endpoint is a run-time matter (R293), not one of R99's illegal words. -/
def Instr.wellFormed : Instr → Bool
  | .pktFill _ data => decide (data.length ≤ 64)
  | .init | .alloc | .free _ | .tx _ _ | .rx _ | .txByteCount _ | .txPacketCount _ | .rxByteCount _
  | .configured | .reinit | .deviceReload | .pktRead _ | .tokenDone | .powerTimeout | .hostSetup _ _
  | .hostOut _ _ _ | .hostIn _ _ | .hostBusReset
  | .getStatusDevice _ _ _ | .getStatusEndpoint _ _ _ | .clearFeatureEndpoint _ _ _
  | .setFeatureEndpoint _ _ _ | .setAddress _ _ _ | .getDescriptorDevice _ _ _
  | .getDescriptorInterface _ _ _ | .getConfiguration _ _ _ | .setConfiguration _ _ _
  | .hidGetReport _ _ _ | .hidGetIdle _ _ _ | .hidGetProtocol _ _ _ | .hidSetReport _ _ _
  | .hidSetIdle _ _ _ | .hidSetProtocol _ _ _ | .cdcSetLineCoding _ _ _ | .cdcGetLineCoding _ _ _
  | .cdcSetControlLineState _ _ _ => true

/-- The form statements use: the check answers yes. -/
abbrev Instr.WellFormed (i : Instr) : Prop := i.wellFormed = true

end Sys2Proof
end

