-- ==== Sys2Proof/Decode.lean ====
section
/-! DEFINITION. The decoder and the encoder of the two instruction spaces: the command word of R96 to R99 and
the SETUP packet of R91 to R95. Then the rows of the opcode table, and the pseudo-commands of R101. -/

namespace Sys2Proof

/-- Why a command word or a SETUP packet spells no instruction. Raised by the decoder alone; safe, since no
step happens (R99) or, for a request, endpoint 0 stalls (R95). -/
inductive DecodeError where
  /-- `op` is not in R97's table. -/
  | unknownOp
  /-- A field the command does not use is not 0 (R98, R99). -/
  | unusedField
  /-- `arg[15:7] ≠ 0` in a host command (R99). -/
  | badAddress
  /-- `ep` is outside 0..15 (R99). -/
  | badEndpoint
  /-- A payload of the wrong length (R99). -/
  | badPayload
  /-- A SETUP packet whose code is not in R94's table (R95). -/
  | unsupportedRequest
  deriving DecidableEq, Repr

/-- What is decoded: a command word with its payload, or the SETUP packet of a control transfer. -/
inductive Encoded where
  | command (c : Command)
  | setup (p : SetupPacket)
  deriving DecidableEq, Repr

/-! ### Command words (R96 to R99) -/

/-- `op`, bits 31:24 (R96). -/
def opField (w : Word) : Byte := w.extractLsb' 24 8

/-- `ep`, bits 23:16 (R96). -/
def epField (w : Word) : Byte := w.extractLsb' 16 8

/-- `arg`, bits 15:0 (R96). -/
def argField (w : Word) : Half := w.extractLsb' 0 16

/-- The endpoint number of an `ep` field, none outside 0..15 (R99). -/
def epNumber (b : Byte) : Option Ep :=
  if h : b.toNat < 16 then some ⟨b.toNat, h⟩ else none

/-- The target address of an `arg` field, none when `arg[15:7] ≠ 0` (R98). -/
def targetAddress (arg : Half) : Option (BitVec 7) :=
  if arg.extractLsb' 7 9 = 0 then some (arg.extractLsb' 0 7) else none

/-- A command with no operand: `ep`, `arg` and the payload are empty. -/
def decodePlain (c : Command) (i : Instr) : Except DecodeError Instr :=
  if epField c.word ≠ 0 ∨ argField c.word ≠ 0 then .error .unusedField
  else if c.payload ≠ [] then .error .badPayload
  else .ok i

/-- A command whose one operand is a handle. -/
def decodeHandle (c : Command) (f : Half → Instr) : Except DecodeError Instr :=
  if epField c.word ≠ 0 then .error .unusedField
  else if c.payload ≠ [] then .error .badPayload
  else .ok (f (argField c.word))

/-- A command whose one operand is an endpoint. -/
def decodeEndpoint (c : Command) (f : Ep → Instr) : Except DecodeError Instr :=
  match epNumber (epField c.word) with
  | none => .error .badEndpoint
  | some ep =>
    if argField c.word ≠ 0 then .error .unusedField
    else if c.payload ≠ [] then .error .badPayload
    else .ok (f ep)

/-- TX: an endpoint and a handle. -/
def decodeEndpointHandle (c : Command) (f : Ep → Half → Instr) : Except DecodeError Instr :=
  match epNumber (epField c.word) with
  | none => .error .badEndpoint
  | some ep => if c.payload ≠ [] then .error .badPayload else .ok (f ep (argField c.word))

/-- PKT_FILL: a handle and a payload of at most 64 bytes (R99). -/
def decodeFill (c : Command) : Except DecodeError Instr :=
  if epField c.word ≠ 0 then .error .unusedField
  else if 64 < c.payload.length then .error .badPayload
  else .ok (.pktFill (argField c.word) c.payload)

/-- The SETUP packet of eight bytes in arrival order, the 16-bit fields little-endian (R91). -/
def setupOfBytes : List Byte → Option SetupPacket
  | [b0, b1, b2, b3, b4, b5, b6, b7] =>
    some { bmRequestType := b0, bRequest := b1, wValue := b3 ++ b2, wIndex := b5 ++ b4, wLength := b7 ++ b6 }
  | _ => none

/-- The eight bytes of a SETUP packet in arrival order (R91). -/
def setupBytes (p : SetupPacket) : List Byte :=
  [p.bmRequestType, p.bRequest, p.wValue.extractLsb' 0 8, p.wValue.extractLsb' 8 8,
    p.wIndex.extractLsb' 0 8, p.wIndex.extractLsb' 8 8, p.wLength.extractLsb' 0 8, p.wLength.extractLsb' 8 8]

/-- HOST_SETUP: endpoint 0, a target address and eight bytes. -/
def decodeHostSetup (c : Command) : Except DecodeError Instr :=
  if epField c.word ≠ 0 then .error .unusedField
  else
    match targetAddress (argField c.word) with
    | none => .error .badAddress
    | some a =>
      match setupOfBytes c.payload with
      | none => .error .badPayload
      | some p => .ok (.hostSetup a p)

/-- HOST_OUT: an endpoint, a target address and a payload. -/
def decodeHostOut (c : Command) : Except DecodeError Instr :=
  match epNumber (epField c.word), targetAddress (argField c.word) with
  | none, _ => .error .badEndpoint
  | some _, none => .error .badAddress
  | some ep, some a => .ok (.hostOut ep a c.payload)

/-- HOST_IN: an endpoint and a target address. -/
def decodeHostIn (c : Command) : Except DecodeError Instr :=
  match epNumber (epField c.word), targetAddress (argField c.word) with
  | none, _ => .error .badEndpoint
  | some _, none => .error .badAddress
  | some ep, some a => if c.payload ≠ [] then .error .badPayload else .ok (.hostIn ep a)

/-- The command decoder, by the op table of R97. DESIGN CHOICE (log entry 27): R99 names no reason for a word that breaks
several conditions at once, and the model names the first that fails of the op, the `ep` field, the `arg` field and the
payload, in this order. -/
def decodeCommand (c : Command) : Except DecodeError Instr :=
  match (opField c.word).toNat with
  | 0x01 => decodePlain c .init
  | 0x02 => decodePlain c .alloc
  | 0x03 => decodeHandle c .free
  | 0x04 => decodeEndpointHandle c .tx
  | 0x05 => decodeEndpoint c .rx
  | 0x06 => decodeEndpoint c .txByteCount
  | 0x07 => decodeEndpoint c .txPacketCount
  | 0x08 => decodeEndpoint c .rxByteCount
  | 0x09 => decodePlain c .configured
  | 0x0A => decodePlain c .reinit
  | 0x0B => decodePlain c .deviceReload
  | 0x0C => decodeFill c
  | 0x0D => decodeHandle c .pktRead
  | 0x10 => decodePlain c .tokenDone
  | 0x11 => decodePlain c .powerTimeout
  | 0x20 => decodeHostSetup c
  | 0x21 => decodeHostOut c
  | 0x22 => decodeHostIn c
  | 0x23 => decodePlain c .hostBusReset
  | _ => .error .unknownOp

/-! ### SETUP requests (R91 to R95) -/

/-- `wRequestAndType = bmRequestType | bRequest << 8` (R91). -/
def requestCode (p : SetupPacket) : Half := p.bRequest ++ p.bmRequestType

/-- The direction of a `bmRequestType`, bit 7 (R92). -/
def requestDirection (b : Byte) : RequestDirection := if b.getLsbD 7 then .deviceToHost else .hostToDevice

/-- The type of a `bmRequestType`, bits 6:5 (R92). -/
def requestKind (b : Byte) : RequestKind :=
  match (b.extractLsb' 5 2).toNat with
  | 0 => .standard
  | 1 => .classSpecific
  | 2 => .vendor
  | _ => .reserved

/-- The recipient of a `bmRequestType`, bits 4:0 (R92). -/
def requestRecipient (b : Byte) : RequestRecipient :=
  match (b.extractLsb' 0 5).toNat with
  | 0 => .device
  | 1 => .interface
  | 2 => .endpoint
  | 3 => .other
  | _ => .reserved (b.extractLsb' 0 5)

/-- The `bmRequestType` of a direction, a type and a recipient (R92). -/
def requestTypeByte (d : RequestDirection) (k : RequestKind) (r : RequestRecipient) : Byte :=
  let top : BitVec 1 := match d with
    | .hostToDevice => 0
    | .deviceToHost => 1
  let kind : BitVec 2 := match k with
    | .standard => 0
    | .classSpecific => 1
    | .vendor => 2
    | .reserved => 3
  let recipient : BitVec 5 := match r with
    | .device => 0
    | .interface => 1
    | .endpoint => 2
    | .other => 3
    | .reserved c => c
  top ++ kind ++ recipient

/-- The fixed request table of R94, matched on the whole 16-bit code. -/
def decodeRequest (p : SetupPacket) : Option Instr :=
  match (requestCode p).toNat with
  | 0x0080 => some (.getStatusDevice p.wValue p.wIndex p.wLength)
  | 0x0082 => some (.getStatusEndpoint p.wValue p.wIndex p.wLength)
  | 0x0102 => some (.clearFeatureEndpoint p.wValue p.wIndex p.wLength)
  | 0x0302 => some (.setFeatureEndpoint p.wValue p.wIndex p.wLength)
  | 0x0500 => some (.setAddress p.wValue p.wIndex p.wLength)
  | 0x0680 => some (.getDescriptorDevice p.wValue p.wIndex p.wLength)
  | 0x0681 => some (.getDescriptorInterface p.wValue p.wIndex p.wLength)
  | 0x0880 => some (.getConfiguration p.wValue p.wIndex p.wLength)
  | 0x0900 => some (.setConfiguration p.wValue p.wIndex p.wLength)
  | 0x01A1 => some (.hidGetReport p.wValue p.wIndex p.wLength)
  | 0x02A1 => some (.hidGetIdle p.wValue p.wIndex p.wLength)
  | 0x03A1 => some (.hidGetProtocol p.wValue p.wIndex p.wLength)
  | 0x0921 => some (.hidSetReport p.wValue p.wIndex p.wLength)
  | 0x0A21 => some (.hidSetIdle p.wValue p.wIndex p.wLength)
  | 0x0B21 => some (.hidSetProtocol p.wValue p.wIndex p.wLength)
  | 0x2021 => some (.cdcSetLineCoding p.wValue p.wIndex p.wLength)
  | 0x21A1 => some (.cdcGetLineCoding p.wValue p.wIndex p.wLength)
  | 0x2221 => some (.cdcSetControlLineState p.wValue p.wIndex p.wLength)
  | _ => none

/-- Decoding, total on every command word with payload and every SETUP packet. -/
def decode : Encoded → Except DecodeError Instr
  | .command c => decodeCommand c
  | .setup p =>
    match decodeRequest p with
    | some i => .ok i
    | none => .error .unsupportedRequest

/-! ### The encoder -/

/-- `op << 24 | ep << 16 | arg` (R96). -/
def commandWord (op ep : Byte) (arg : Half) : Word := op ++ ep ++ arg

/-- The `ep` field of an endpoint number. -/
def epByte (ep : Ep) : Byte := BitVec.ofNat 8 ep.val

/-- The `arg` field of a target address: bits 15:7 are 0 (R98). -/
def addressArg (a : BitVec 7) : Half := a.setWidth 16

/-- A command word with no payload. -/
def bare (w : Word) : Encoded := .command { word := w, payload := [] }

/-- The SETUP packet of a request: its code's two bytes and the three fields (R91, R94). -/
def requestPacket (bmRequestType bRequest : Byte) (wValue wIndex wLength : Half) : SetupPacket where
  bmRequestType := bmRequestType
  bRequest := bRequest
  wValue := wValue
  wIndex := wIndex
  wLength := wLength

/-- The words of an instruction, written from R96 to R98 and R94. -/
def encode : Instr → Encoded
  | .init => bare (commandWord 0x01 0 0)
  | .alloc => bare (commandWord 0x02 0 0)
  | .free h => bare (commandWord 0x03 0 h)
  | .tx ep h => bare (commandWord 0x04 (epByte ep) h)
  | .rx ep => bare (commandWord 0x05 (epByte ep) 0)
  | .txByteCount ep => bare (commandWord 0x06 (epByte ep) 0)
  | .txPacketCount ep => bare (commandWord 0x07 (epByte ep) 0)
  | .rxByteCount ep => bare (commandWord 0x08 (epByte ep) 0)
  | .configured => bare (commandWord 0x09 0 0)
  | .reinit => bare (commandWord 0x0A 0 0)
  | .deviceReload => bare (commandWord 0x0B 0 0)
  | .pktFill h data => .command { word := commandWord 0x0C 0 h, payload := data }
  | .pktRead h => bare (commandWord 0x0D 0 h)
  | .tokenDone => bare (commandWord 0x10 0 0)
  | .powerTimeout => bare (commandWord 0x11 0 0)
  | .hostSetup a p => .command { word := commandWord 0x20 0 (addressArg a), payload := setupBytes p }
  | .hostOut ep a data => .command { word := commandWord 0x21 (epByte ep) (addressArg a), payload := data }
  | .hostIn ep a => bare (commandWord 0x22 (epByte ep) (addressArg a))
  | .hostBusReset => bare (commandWord 0x23 0 0)
  | .getStatusDevice v i l => .setup (requestPacket 0x80 0x00 v i l)
  | .getStatusEndpoint v i l => .setup (requestPacket 0x82 0x00 v i l)
  | .clearFeatureEndpoint v i l => .setup (requestPacket 0x02 0x01 v i l)
  | .setFeatureEndpoint v i l => .setup (requestPacket 0x02 0x03 v i l)
  | .setAddress v i l => .setup (requestPacket 0x00 0x05 v i l)
  | .getDescriptorDevice v i l => .setup (requestPacket 0x80 0x06 v i l)
  | .getDescriptorInterface v i l => .setup (requestPacket 0x81 0x06 v i l)
  | .getConfiguration v i l => .setup (requestPacket 0x80 0x08 v i l)
  | .setConfiguration v i l => .setup (requestPacket 0x00 0x09 v i l)
  | .hidGetReport v i l => .setup (requestPacket 0xA1 0x01 v i l)
  | .hidGetIdle v i l => .setup (requestPacket 0xA1 0x02 v i l)
  | .hidGetProtocol v i l => .setup (requestPacket 0xA1 0x03 v i l)
  | .hidSetReport v i l => .setup (requestPacket 0x21 0x09 v i l)
  | .hidSetIdle v i l => .setup (requestPacket 0x21 0x0A v i l)
  | .hidSetProtocol v i l => .setup (requestPacket 0x21 0x0B v i l)
  | .cdcSetLineCoding v i l => .setup (requestPacket 0x21 0x20 v i l)
  | .cdcGetLineCoding v i l => .setup (requestPacket 0xA1 0x21 v i l)
  | .cdcSetControlLineState v i l => .setup (requestPacket 0x21 0x22 v i l)

/-! ### The opcode table's numbering -/

/-- The instruction of a table row's 32-bit command word, its operand words zero: HOST_SETUP's payload is
eight zero bytes, every other payload is empty. -/
def tableCommand (w : Nat) : Command where
  word := BitVec.ofNat 32 w
  payload := if opField (BitVec.ofNat 32 w) = 0x20 then List.replicate 8 0 else []

/-- The SETUP packet of a table row's 16-bit code: bits 7:0 are byte 0 and bits 15:8 byte 1 of the packet,
wValue, wIndex and wLength zero. -/
def tableSetup (w : Nat) : SetupPacket :=
  requestPacket (BitVec.ofNat 8 w) (BitVec.ofNat 8 (w / 256)) 0 0 0

/-- What the decoder reads from a table row's bits: 32 bits are a command word, 16 a request code. -/
def decodeTableWord (nbits w : Nat) : Option Instr :=
  match nbits with
  | 16 => decodeRequest (tableSetup w)
  | 32 => (decodeCommand (tableCommand w)).toOption
  | _ => none

/-- A row of spec/opcode_table.json: the name, the mask and the pattern. -/
structure TableRow where
  mnemonic : String
  mask : Word
  pattern : Word
  deriving DecidableEq, Repr

/-- The nineteen command rows. -/
def commandRows : List TableRow :=
  [⟨"INIT", 0xFFFFFFFF, 0x01000000⟩, ⟨"ALLOC", 0xFFFFFFFF, 0x02000000⟩, ⟨"FREE", 0xFFFF0000, 0x03000000⟩,
   ⟨"TX", 0xFF000000, 0x04000000⟩, ⟨"RX", 0xFF00FFFF, 0x05000000⟩, ⟨"TX_BYTE_COUNT", 0xFF00FFFF, 0x06000000⟩,
   ⟨"TX_PACKET_COUNT", 0xFF00FFFF, 0x07000000⟩, ⟨"RX_BYTE_COUNT", 0xFF00FFFF, 0x08000000⟩,
   ⟨"CONFIGURED", 0xFFFFFFFF, 0x09000000⟩, ⟨"REINIT", 0xFFFFFFFF, 0x0A000000⟩,
   ⟨"DEVICE_RELOAD", 0xFFFFFFFF, 0x0B000000⟩, ⟨"PKT_FILL", 0xFFFF0000, 0x0C000000⟩,
   ⟨"PKT_READ", 0xFFFF0000, 0x0D000000⟩, ⟨"TOKEN_DONE", 0xFFFFFFFF, 0x10000000⟩,
   ⟨"POWER_TIMEOUT", 0xFFFFFFFF, 0x11000000⟩, ⟨"HOST_SETUP", 0xFFFFFF80, 0x20000000⟩,
   ⟨"HOST_OUT", 0xFF00FF80, 0x21000000⟩, ⟨"HOST_IN", 0xFF00FF80, 0x22000000⟩,
   ⟨"HOST_BUS_RESET", 0xFFFFFFFF, 0x23000000⟩]

/-- The eighteen request rows. -/
def requestRows : List TableRow :=
  [⟨"GET_STATUS_DEVICE", 0xFFFF, 0x0080⟩, ⟨"GET_STATUS_ENDPOINT", 0xFFFF, 0x0082⟩,
   ⟨"CLEAR_FEATURE_ENDPOINT", 0xFFFF, 0x0102⟩, ⟨"SET_FEATURE_ENDPOINT", 0xFFFF, 0x0302⟩,
   ⟨"SET_ADDRESS", 0xFFFF, 0x0500⟩, ⟨"GET_DESCRIPTOR_DEVICE", 0xFFFF, 0x0680⟩,
   ⟨"GET_DESCRIPTOR_INTERFACE", 0xFFFF, 0x0681⟩, ⟨"GET_CONFIGURATION", 0xFFFF, 0x0880⟩,
   ⟨"SET_CONFIGURATION", 0xFFFF, 0x0900⟩, ⟨"HID_GET_REPORT", 0xFFFF, 0x01A1⟩,
   ⟨"HID_GET_IDLE", 0xFFFF, 0x02A1⟩, ⟨"HID_GET_PROTOCOL", 0xFFFF, 0x03A1⟩,
   ⟨"HID_SET_REPORT", 0xFFFF, 0x0921⟩, ⟨"HID_SET_IDLE", 0xFFFF, 0x0A21⟩,
   ⟨"HID_SET_PROTOCOL", 0xFFFF, 0x0B21⟩, ⟨"CDC_SET_LINE_CODING", 0xFFFF, 0x2021⟩,
   ⟨"CDC_GET_LINE_CODING", 0xFFFF, 0x21A1⟩, ⟨"CDC_SET_CONTROL_LINE_STATE", 0xFFFF, 0x2221⟩]

/-- A word has a row's pattern. -/
def TableRow.matches (r : TableRow) (w : Word) : Bool := decide (w &&& r.mask = r.pattern)

/-- The word the table numbers: the command word, or the 16-bit request code zero-extended. -/
def tableWord : Encoded → Word
  | .command c => c.word
  | .setup p => (requestCode p).setWidth 32

/-- The row of an instruction, by its mnemonic. -/
def Instr.mnemonic : Instr → String
  | .init => "INIT"
  | .alloc => "ALLOC"
  | .free _ => "FREE"
  | .tx _ _ => "TX"
  | .rx _ => "RX"
  | .txByteCount _ => "TX_BYTE_COUNT"
  | .txPacketCount _ => "TX_PACKET_COUNT"
  | .rxByteCount _ => "RX_BYTE_COUNT"
  | .configured => "CONFIGURED"
  | .reinit => "REINIT"
  | .deviceReload => "DEVICE_RELOAD"
  | .pktFill _ _ => "PKT_FILL"
  | .pktRead _ => "PKT_READ"
  | .tokenDone => "TOKEN_DONE"
  | .powerTimeout => "POWER_TIMEOUT"
  | .hostSetup _ _ => "HOST_SETUP"
  | .hostOut _ _ _ => "HOST_OUT"
  | .hostIn _ _ => "HOST_IN"
  | .hostBusReset => "HOST_BUS_RESET"
  | .getStatusDevice _ _ _ => "GET_STATUS_DEVICE"
  | .getStatusEndpoint _ _ _ => "GET_STATUS_ENDPOINT"
  | .clearFeatureEndpoint _ _ _ => "CLEAR_FEATURE_ENDPOINT"
  | .setFeatureEndpoint _ _ _ => "SET_FEATURE_ENDPOINT"
  | .setAddress _ _ _ => "SET_ADDRESS"
  | .getDescriptorDevice _ _ _ => "GET_DESCRIPTOR_DEVICE"
  | .getDescriptorInterface _ _ _ => "GET_DESCRIPTOR_INTERFACE"
  | .getConfiguration _ _ _ => "GET_CONFIGURATION"
  | .setConfiguration _ _ _ => "SET_CONFIGURATION"
  | .hidGetReport _ _ _ => "HID_GET_REPORT"
  | .hidGetIdle _ _ _ => "HID_GET_IDLE"
  | .hidGetProtocol _ _ _ => "HID_GET_PROTOCOL"
  | .hidSetReport _ _ _ => "HID_SET_REPORT"
  | .hidSetIdle _ _ _ => "HID_SET_IDLE"
  | .hidSetProtocol _ _ _ => "HID_SET_PROTOCOL"
  | .cdcSetLineCoding _ _ _ => "CDC_SET_LINE_CODING"
  | .cdcGetLineCoding _ _ _ => "CDC_GET_LINE_CODING"
  | .cdcSetControlLineState _ _ _ => "CDC_SET_CONTROL_LINE_STATE"

/-- The rows of a word's space: command words or request codes. -/
def tableRows : Encoded → List TableRow
  | .command _ => commandRows
  | .setup _ => requestRows

/-! ### Pseudo-commands (R101) -/

/-- The six pseudo-commands of R101. -/
inductive Pseudo where
  | setup (a : BitVec 7) (p : SetupPacket)
  | inp (ep : Ep) (a : BitVec 7)
  | out (ep : Ep) (a : BitVec 7) (data : List Byte)
  | zlpOut (a : BitVec 7)
  | controlRead (a : BitVec 7) (p : SetupPacket) (k : Nat)
  | controlNoData (a : BitVec 7) (p : SetupPacket)
  deriving DecidableEq, Repr

/-- Each expansion is exact; a pseudo-command has no meaning of its own (R101). -/
def expandPseudo : Pseudo → List Instr
  | .setup a p => [.hostSetup a p, .tokenDone]
  | .inp ep a => [.hostIn ep a, .tokenDone]
  | .out ep a data => [.hostOut ep a data, .tokenDone]
  | .zlpOut a => [.hostOut 0 a [], .tokenDone]
  | .controlRead a p k =>
    [.hostSetup a p, .tokenDone] ++ (List.replicate k [Instr.hostIn 0 a, Instr.tokenDone]).flatten ++
      [.hostOut 0 a [], .tokenDone]
  | .controlNoData a p => [.hostSetup a p, .tokenDone, .hostIn 0 a, .tokenDone]

end Sys2Proof
end

