-- ==== Sys2Proof/Machine/State.lean ====
section
/-! DEFINITION. The whole state of the block as plain data, field by field as 10_state.md names it, the reasons
a step can stop, and the state after power-on reset. -/

namespace Sys2Proof.Machine

/-! ### Memory and buffer references -/

/-- The names of the collaborator regions `COLLAB(name)` (R39). DESIGN CHOICE, log entry 10. -/
inductive CollabName where
  | lineCoding
  | hidReport
  deriving DecidableEq, Repr

/-- The byte regions outside the pool (R39). -/
inductive Region where
  | ep0rx (b : Bank)
  | reply
  | desc (k : Nat)
  | collab (n : CollabName)
  deriving DecidableEq, Repr

/-- Where a byte can stand: a pool packet's buffer or a region (R60). -/
inductive Buffer where
  | pool (i : Nat)
  | region (r : Region)
  deriving DecidableEq, Repr

/-- `BufRef = Null | Pool(i) | Reg(r, off)` (R62). An offset is a number, so that `ref + k` never wraps (R8; DESIGN
CHOICE, log entry 29): a handler's reference has a `u16` offset, and the chunks after it go on from there. -/
inductive BufRef where
  | null
  | pool (i : Nat)
  | reg (r : Region) (off : Nat)
  deriving DecidableEq, Repr

/-- The bytes that differ from what an unlisted address reads as, by rising address (R60; log entry 13). -/
abbrev Memory := List Host.Cell

/-! ### Packet pool -/

/-- The header of a packet; its 64 buffer bytes are in the memory (R22). `index` is the caller's read position, which no
command writes but with 0 (log entry 30). -/
structure Header where
  len : Half
  index : Half
  next : Option Nat
  deriving DecidableEq, Repr

/-- The owner of a packet (R23, R44), ghost state. -/
inductive Owner where
  | pool
  | queue (ep : Ep) (dir : Dir)
  | slot (ep : Ep) (dir : Dir) (bank : Bank)
  | caller
  deriving DecidableEq, Repr

/-! ### Buffer descriptor table and endpoints -/

/-- The descriptor word by its fields (R25, R81). `low` is bits 5:2, one home for two readings: KEEP, NINC, DTS
and BDT_STALL as the block writes them, TOK_PID as the SIE writes it back. The reserved bits, written 0 and
never read (U29), are not held. Log entry 15. -/
structure Desc where
  own : Bool
  data1 : Toggle
  bc : BitVec 10
  low : BitVec 4
  deriving DecidableEq, Repr

/-- A slot `{ desc, addr }` (R25). -/
structure Slot where
  desc : Desc
  addr : BufRef
  deriving DecidableEq, Repr

/-- The six states of the TX bank machine (R26). -/
inductive TxState where
  | bothFreeEvenFirst
  | bothFreeOddFirst
  | evenFree
  | oddFree
  | noneFreeEvenFirst
  | noneFreeOddFirst
  deriving DecidableEq, Repr

/-- A token-done entry (R41, R85). -/
structure StatEntry where
  ep : Ep
  dir : Dir
  bank : Bank
  deriving DecidableEq, Repr

/-! ### Endpoint 0 -/

/-- The endpoint-0 control state (R21). -/
inductive Ctl where
  | idle
  | dataIn
  | dataOut
  | statusIn
  | statusOut
  deriving DecidableEq, Repr

/-- The Control Transfer Context (R32); the offset of `pending` is a number as in a reference (log entry 29). -/
structure Ep0 where
  pending : Option (Region × Nat)
  pendingLen : Half
  bank : Bank
  toggle : Toggle
  deriving DecidableEq, Repr

/-- The collaborator sinks: `HID_REPORT(wValue, wIndex)` and `LINE_CODING` (R233, R240). -/
inductive SinkId where
  | hidReport (wValue wIndex : Half)
  | lineCoding
  deriving DecidableEq, Repr

/-- The DATA_OUT context (R33). -/
structure Ep0Out where
  received : Half
  sink : Option SinkId
  deriving DecidableEq, Repr

/-- The power-negotiation monitor (R38). -/
structure Pwr where
  armed : Bool
  lowered : Bool
  deriving DecidableEq, Repr

/-! ### What the outside sees -/

/-- One entry of the host observation log (R46). -/
inductive HostObs where
  | inData (ep : Ep) (toggle : Toggle) (bytes : List Byte)
  | outAck (ep : Ep) (n : Nat)
  | setupAck
  | stall (ep : Ep) (pid : Pid)
  | reconnect
  deriving DecidableEq, Repr

/-- A call to a collaborator function or sink (R233, R240). -/
inductive CollabCall where
  | getReport (wValue wIndex : Half)
  | idle (wIndex : Half) (reportId : Byte)
  | protocol (wIndex : Half)
  | setIdle (wIndex : Half) (reportId duration : Byte)
  | setProtocol (wIndex : Half) (protocol : Byte)
  | lineCodingRef
  | setControlLineState (wValue : Half)
  | sinkWrite (sink : SinkId) (offset : Half) (bytes : List Byte)
  | sinkComplete (sink : SinkId) (n : Half)
  deriving DecidableEq, Repr

/-- The `Ok` values of R311's table. -/
inductive RetVal where
  | unit
  | handle (h : Nat)
  | count (n : Word)
  | bool (b : Bool)
  | packet (len index : Half) (bytes : List Byte)
  deriving DecidableEq, Repr

/-- The error codes of R311. -/
inductive ErrCode where
  | badEndpoint
  | notConfigured
  deriving DecidableEq, Repr

/-- The returned result of a foreground command (R310 (a) and (b), R311). -/
inductive Result where
  | ok (v : RetVal)
  | none
  | err (e : ErrCode)
  deriving DecidableEq, Repr

/-- The nine fault reasons of R313. A step that raises one writes the fault mark and nothing else. -/
inductive FaultReason where
  /-- 0x01: a packet id out of range or not owned by the caller; raised by FREE, TX, PKT_FILL and PKT_READ. -/
  | invalidHandle
  /-- 0x02: a non-forced write of a slot the SIE owns; raised by every ordinary descriptor write (R131). -/
  | ownedDescriptorWrite
  /-- 0x03: a TX completion on a bank the bank machine holds free; raised by TX completion (R138). -/
  | bankStateMismatch
  /-- 0x04: a TX completion in EVEN_FREE or ODD_FREE with a non-empty TX FIFO; raised by TX completion (R138). -/
  | queueInvariant
  /-- 0x05: a token-done entry of an owned slot, an illegal (ep, dir, PID), or a completed non-EP0 slot without a
  pool packet; raised by TOKEN_DONE and the completions (R136, R137, R140). -/
  | unexpectedToken
  /-- 0x06: an EP0 IN completion on a bank other than `ep0.bank`; raised by the IN completion (R188). -/
  | ep0BankMismatch
  /-- 0x07: a packet longer than EP_MAX_PACKET; raised by TX (R160). -/
  | packetTooLong
  /-- 0x08: an access through Null or past the end of a buffer; raised by every memory access (R62). -/
  | outOfBounds
  /-- 0x09: a read of a byte no rule wrote; raised by every memory read (R49, R342). -/
  | unwrittenRead
  deriving DecidableEq, Repr

/-- Why the machine has stopped for good. -/
inductive Fault where
  /-- The state bears a fault mark, so no agent has a step (R47, R313). Raised by every instruction; safe. -/
  | faulted (r : FaultReason)
  /-- The device has been reloaded, so no agent has a step (R276). Raised by every instruction; safe. -/
  | reloaded
  deriving DecidableEq, Repr

/-- Why a step is refused. -/
inductive Refusal where
  /-- The arm of an instruction that has no meaning yet. Raised by `exec` alone; safe. -/
  | notModelled (mnemonic : String)
  /-- The next command word spells no command: "the decoder refuses it by name and the model takes no step for
  it" (R99). Raised by `step` alone; safe. -/
  | illegalCommand (e : DecodeError)
  deriving DecidableEq, Repr

/-! ### The state -/

/-- The record `st` (R20), its parameters, and the model's own fields (the last five). -/
structure State where
  /-- The model arguments (R6); no step writes them. -/
  cfg : Params
  /-- Packet headers, N_PACKETS of them (R22). -/
  pkt : List Header
  /-- The free mask, bit i at position i (R23). -/
  free : List Bool
  /-- The ghost owners (R23). -/
  owner : List Owner
  /-- The bytes of the pool buffers and of the regions (R22, R39). -/
  mem : Memory
  /-- The BDT (R24). -/
  bdt : PerEp (Dirs (Banks Slot))
  /-- TX bank-availability states (R26). -/
  txState : PerEp TxState
  /-- TX FIFOs, head first (R27). -/
  txq : PerEp (List Nat)
  /-- RX FIFOs, head first (R27). -/
  rxq : PerEp (List Nat)
  /-- RX byte counts (R28). -/
  rxBytes : PerEp Word
  /-- The starvation counter (R30). -/
  rxNeeded : Word
  /-- The last SETUP packet (R31). -/
  setup : SetupPacket
  /-- The endpoint-0 control state (R21). -/
  ctl : Ctl
  /-- The Control Transfer Context (R32). -/
  ep0 : Ep0
  /-- The DATA_OUT context (R33). -/
  ep0out : Ep0Out
  /-- The address to be written when the status IN completes (R34). -/
  setAddrPending : Option (BitVec 7)
  /-- `usb_configuration`, 0 = not configured (R35). -/
  config : Byte
  /-- The endpoint control registers (R36, R88). -/
  endpt : PerEp Byte
  /-- The device address register (R37, R89). -/
  addr : BitVec 7
  /-- The power-negotiation monitor (R38). -/
  pwr : Pwr
  /-- The SIE's ping-pong pointers (R40). -/
  pp : PerEp (Dirs Bank)
  /-- The token-done FIFO, head first (R41). -/
  stat : List StatEntry
  /-- Set by a SETUP, cleared when it has been handled (R42). -/
  tokenSuspend : Bool
  /-- The pull-up is on (R43). -/
  attached : Bool
  /-- The number of REINITs (R43). -/
  reconnects : Word
  /-- Set by DEVICE_RELOAD (R43). -/
  reloaded : Bool
  /-- The host observation log, oldest first (R46). -/
  obs : List HostObs
  /-- The fault mark (R47). -/
  fault : Option FaultReason
  /-- The model's own: what the last foreground command returned (R310; log entry 7). -/
  result : Option Result
  /-- The model's own: every call made to a collaborator, oldest first (R233; log entry 9). -/
  calls : List CollabCall
  /-- The model's own: the commands issued and not yet taken, next first (R96, R320; log entry 5). -/
  cmds : List Command
  /-- The model's own: free values laid out in advance, next first (log entry 8). -/
  draws : List Nat
  /-- The model's own: how many free values `Config.draw` has given (log entry 8). -/
  drawn : Nat
  deriving DecidableEq, Repr

/-- A slot at power-on: every field of desc is 0 and addr is Null (R24). -/
def Slot.cleared : Slot where
  desc := { own := false, data1 := .data0, bc := 0, low := 0 }
  addr := .null

/-- The power-on state of R49 for any parameters. What R49 leaves unspecified: memory lists nothing (log entry
12), and a packet header and the SETUP packet are zero (DESIGN CHOICE, log entry 11). -/
def State.powerOn (c : Params) : State where
  cfg := c
  pkt := List.replicate c.nPackets { len := 0, index := 0, next := none }
  free := List.replicate c.nPackets true
  owner := List.replicate c.nPackets .pool
  mem := []
  bdt := Vector.replicate 16
    { rx := { even := Slot.cleared, odd := Slot.cleared }, tx := { even := Slot.cleared, odd := Slot.cleared } }
  txState := Vector.replicate 16 .bothFreeEvenFirst
  txq := Vector.replicate 16 []
  rxq := Vector.replicate 16 []
  rxBytes := Vector.replicate 16 0
  rxNeeded := 0
  setup := { bmRequestType := 0, bRequest := 0, wValue := 0, wIndex := 0, wLength := 0 }
  ctl := .idle
  ep0 := { pending := none, pendingLen := 0, bank := .even, toggle := .data0 }
  ep0out := { received := 0, sink := none }
  setAddrPending := none
  config := 0
  endpt := Vector.replicate 16 0
  addr := 0
  pwr := { armed := false, lowered := false }
  pp := Vector.replicate 16 { rx := .even, tx := .even }
  stat := []
  tokenSuspend := false
  attached := false
  reconnects := 0
  reloaded := false
  obs := []
  fault := none
  result := none
  calls := []
  cmds := []
  draws := []
  drawn := 0

/-- The machine right after power-on reset (R49, R340), with parameter set P-A (log entry 1). -/
def State.reset : State := State.powerOn Params.pA

end Sys2Proof.Machine
end

