-- ==== Sys2Proof/Machine/Operands.lean ====
section
/-! DEFINITION. Every operand form: endpoint numbers, buffers and buffer references with their lengths, the bytes
of the memory, descriptor words, and the packings of the other encoded formats of 30_encoding.md. -/

namespace Sys2Proof.Machine

/-! ### Endpoints -/

/-- `ep` in 1..NUM_ENDPOINTS. -/
def isDataEp (c : Params) (ep : Ep) : Bool := decide (1 ≤ ep.val) && decide (ep.val ≤ c.numEndpoints.val)

/-- `ep` in 0..NUM_ENDPOINTS. -/
def isEndpoint (c : Params) (ep : Ep) : Bool := decide (ep.val ≤ c.numEndpoints.val)

/-- Every endpoint number, ascending. -/
def everyEp : List Ep := [0, 1, 2, 3, 4, 5, 6, 7, 8, 9, 10, 11, 12, 13, 14, 15]

/-- The endpoints 1..NUM_ENDPOINTS, ascending. -/
def dataEps (c : Params) : List Ep := everyEp.filter (isDataEp c)

/-- The endpoints 0..NUM_ENDPOINTS, ascending. -/
def endpoints (c : Params) : List Ep := everyEp.filter (isEndpoint c)

/-- A handle is `arg` read as a packet id (R98). -/
def handleId (h : Half) : Nat := h.toNat

/-! ### Buffers and references (R61, R62) -/

/-- The length of a buffer (R61). -/
def bufferLen (c : Params) : Buffer → Nat
  | .pool i => if i < c.nPackets then Config.packetSize else 0
  | .region (.ep0rx _) => c.ep0Size.toNat
  | .region .reply => 8
  | .region (.desc k) => (c.descTable.map (fun e => e.data.length)).getD k 0
  | .region (.collab .lineCoding) => 7
  | .region (.collab .hidReport) => c.reportLen

/-- The buffer a reference designates and the offset in it; Null designates none (R62). -/
def refTarget : BufRef → Option (Buffer × Nat)
  | .null => none
  | .pool i => some (.pool i, 0)
  | .reg r off => some (.region r, off)

/-- `Reg(EP0RX[b], 0)` (R181). -/
def ep0rxRef (b : Bank) : BufRef := .reg (.ep0rx b) 0

/-! ### The bytes of the memory -/

/-- The number of a buffer among all buffers; any one-to-one numbering would do (R75; log entry 13). -/
def bufferIndex : Buffer → Nat
  | .region (.ep0rx .even) => 0
  | .region (.ep0rx .odd) => 1
  | .region .reply => 2
  | .region (.collab .lineCoding) => 3
  | .region (.collab .hidReport) => 4
  | .region (.desc k) => 5 + 2 * k
  | .pool i => 6 + 2 * i

/-- How many keys each buffer has of its own: no buffer is longer (R61; log entry 13). -/
def blockSize (c : Params) : Nat := Config.packetSize + c.reportLen + (c.descTable.map (fun e => e.data.length)).sum

/-- The memory key of a byte of a buffer. -/
def bufferKey (c : Params) (b : Buffer) (off : Nat) : Nat := bufferIndex b * blockSize c + off

/-- What an address that memory does not list reads as: DESC(k) holds DESC_TABLE's contents from power-on (R342);
any other byte has no value until a rule writes it (R49). -/
def initialByte (c : Params) (a : Nat) : Option Byte :=
  if 5 ≤ a / blockSize c ∧ (a / blockSize c - 5) % 2 = 0 then
    ((c.descTable.map DescEntry.data).getD ((a / blockSize c - 5) / 2) [])[a % blockSize c]?
  else none

/-- The listed byte at an address. -/
def memFind : Memory → Nat → Option Byte
  | [], _ => none
  | (k, v) :: m, a => if a = k then some v else memFind m a

/-- Remove the entry of an address. -/
def memErase : Memory → Nat → Memory
  | [], _ => []
  | (k, v) :: m, a => if a = k then m else (k, v) :: memErase m a

/-- List a byte at an address, keeping the addresses rising. -/
def memInsert : Memory → Nat → Byte → Memory
  | [], a, x => [(a, x)]
  | (k, v) :: m, a, x =>
    if a < k then (a, x) :: (k, v) :: m
    else if a = k then (a, x) :: m
    else (k, v) :: memInsert m a x

/-- The byte at an address, none where nothing has written one. -/
def readByte (c : Params) (m : Memory) (a : Nat) : Option Byte :=
  match memFind m a with
  | some v => some v
  | none => initialByte c a

/-- Write a byte. Writing what an unlisted address reads as removes the entry. -/
def writeByte (c : Params) (m : Memory) (a : Nat) (v : Byte) : Memory :=
  if initialByte c a = some v then memErase m a else memInsert m a v

/-- `n` bytes from an address up; a byte no rule wrote faults (R49, R342). -/
def readBytes (c : Params) (m : Memory) (a : Nat) : Nat → Except FaultReason (List Byte)
  | 0 => .ok []
  | n + 1 =>
    match readByte c m a, readBytes c m (a + 1) n with
    | some v, .ok vs => .ok (v :: vs)
    | none, _ => .error .unwrittenRead
    | some _, .error r => .error r

/-- Write a list of bytes from an address up. -/
def writeBytes (c : Params) (m : Memory) (a : Nat) : List Byte → Memory
  | [] => m
  | v :: vs => writeBytes c (writeByte c m a v) (a + 1) vs

/-- The canonical form: addresses strictly rising, and no entry equal to what an unlisted address reads as. -/
abbrev Memory.wf (c : Params) (m : Memory) : Prop :=
  m.Pairwise (fun x y => x.1 < y.1) ∧ ∀ x ∈ m, initialByte c x.1 ≠ some x.2

/-! ### Descriptor words (R81, R82) -/

/-- The released word: every field 0 (R82). -/
def releasedDesc : Desc := { own := false, data1 := .data0, bc := 0, low := 0 }

/-- `BDT_DESC(count, t)`: OWN and DTS set (R82). -/
def armedDesc (count : BitVec 10) (t : Toggle) : Desc := { own := true, data1 := t, bc := count, low := 0x2 }

/-- "desc is 0": every field is 0 (R82). -/
def descIsZero (d : Desc) : Bool := decide (d = releasedDesc)

/-- The PID codes (R84). -/
def pidCode : Pid → BitVec 4
  | .outToken => 0x1
  | .inToken => 0x9
  | .setupToken => 0xD

/-- The PID of a completed slot, none for a code the SIE does not write (R84). -/
def pidOf (low : BitVec 4) : Option Pid :=
  if low = 0x1 then some .outToken
  else if low = 0x9 then some .inToken
  else if low = 0xD then some .setupToken
  else none

/-- What the SIE leaves after sending: OWN 0, TOK_PID written, BC unchanged (R81, R294). -/
def completedTx (d : Desc) : Desc := { d with own := false, low := pidCode .inToken }

/-- What the SIE leaves after receiving `n` bytes: OWN 0, BC and TOK_PID written (R81, R292, R293). -/
def completedRx (d : Desc) (p : Pid) (n : Nat) : Desc :=
  { d with own := false, bc := BitVec.ofNat 10 n, low := pidCode p }

/-- The toggle of a bank on endpoints 1..NUM_ENDPOINTS (R134). -/
def bankToggle : Bank → Toggle
  | .even => .data0
  | .odd => .data1

/-- DATA1 as a bit (R81). -/
def toggleBit : Toggle → BitVec 1
  | .data0 => 0
  | .data1 => 1

/-- The packing of R81. -/
def descWord (d : Desc) : Word :=
  (0 : BitVec 6) ++ d.bc ++ (0 : BitVec 8) ++ BitVec.ofBool d.own ++ toggleBit d.data1 ++ d.low ++ (0 : BitVec 2)

/-- The fields of a packed descriptor word (R81). -/
def descOfWord (w : Word) : Desc where
  own := w.getLsbD 7
  data1 := if w.getLsbD 6 then .data1 else .data0
  bc := w.extractLsb' 16 10
  low := w.extractLsb' 2 4

/-! ### The other encoded formats -/

/-- `bit(EVEN) = 0`, `bit(ODD) = 1` (R9). -/
def bankBit : Bank → Nat
  | .even => 0
  | .odd => 1

/-- `index(ep, dir, bank) = 4·ep + 2·TX + bit(bank)` (R83). -/
def slotIndex (ep : Ep) (d : Dir) (b : Bank) : Nat :=
  4 * ep.val + (match d with | .rx => 0 | .tx => 2) + bankBit b

/-- The token-done byte: ENDP bits 7:4, TX bit 3, ODD bit 2 (R85). -/
def statByte (e : StatEntry) : Byte := BitVec.ofNat 8 (4 * slotIndex e.ep e.dir e.bank)

/-- The numeric code of a bank state (R90). -/
def txStateCode : TxState → Nat
  | .bothFreeEvenFirst => 0
  | .bothFreeOddFirst => 1
  | .evenFree => 2
  | .oddFree => 3
  | .noneFreeEvenFirst => 4
  | .noneFreeOddFirst => 5

/-- The address register: bits 6:0 the address, bit 7 written 0 (R89). -/
def addrRegister (a : BitVec 7) : Byte := a.setWidth 8

/-- The numeric error codes (R311). -/
def errCode : ErrCode → Nat
  | .badEndpoint => 0x01
  | .notConfigured => 0x02

/-- The numeric fault codes (R313). -/
def faultCode : FaultReason → Nat
  | .invalidHandle => 0x01
  | .ownedDescriptorWrite => 0x02
  | .bankStateMismatch => 0x03
  | .queueInvariant => 0x04
  | .unexpectedToken => 0x05
  | .ep0BankMismatch => 0x06
  | .packetTooLong => 0x07
  | .outOfBounds => 0x08
  | .unwrittenRead => 0x09

end Sys2Proof.Machine
end

