-- ==== Sys2Proof/Machine/Flags.lean ====
section
/-! DEFINITION. Every flag and every table a rule decides by: the bits of the endpoint control byte, the block's
status flags (R48), the TX bank machine's three tables, and which token-done entries are legal. -/

namespace Sys2Proof.Machine

/-! ### Endpoint control byte (R88) -/

def hshkBit (e : Byte) : Bool := e.getLsbD 0
def stallBit (e : Byte) : Bool := e.getLsbD 1
def txenBit (e : Byte) : Bool := e.getLsbD 2
def rxenBit (e : Byte) : Bool := e.getLsbD 3
def ctldisBit (e : Byte) : Bool := e.getLsbD 4

/-- `endpt.STALL <- 1`. -/
def withStall (e : Byte) : Byte := e ||| 0x02

/-- `endpt.STALL <- 0`. -/
def withoutStall (e : Byte) : Byte := e &&& 0xFD

/-- EP0_CONTROL: RXEN, TXEN and HSHK (R88). -/
def ep0Control : Byte := 0x0D

/-- EP_CONFIG[ep] (R6). -/
def epConfigOf (c : Params) (ep : Ep) : Byte := epGet c.epConfig ep

/-- An endpoint in 1..NUM_ENDPOINTS whose configuration enables TX (R160). -/
def txEnabled (c : Params) (ep : Ep) : Bool := isDataEp c ep && txenBit (epConfigOf c ep)

/-- An endpoint in 1..NUM_ENDPOINTS whose configuration enables RX (R162). -/
def rxEnabled (c : Params) (ep : Ep) : Bool := isDataEp c ep && rxenBit (epConfigOf c ep)

/-- The RX slots a starved packet may go to and a new configuration seeds: endpoints ascending, EVEN before ODD
(R115, R264). -/
def rxSlots (c : Params) : List (Ep × Bank) :=
  ((dataEps c).filter (rxEnabled c)).flatMap (fun ep => [(ep, Bank.even), (ep, Bank.odd)])

/-! ### Status flags (R48) -/

/-- The starvation flag, `rx_needed > 0` (R30). -/
def starving (s : State) : Bool := decide (s.rxNeeded ≠ 0)

/-- `config ≠ 0` (R35, R167). -/
def isConfigured (s : State) : Bool := decide (s.config ≠ 0)

/-- An agent has a step: no fault mark and not reloaded (R47, R276). -/
def alive (s : State) : Bool := s.fault.isNone && !s.reloaded

/-- The common enabling condition of the host commands (R290), but for `alive`. -/
def tokenReaches (s : State) (a : BitVec 7) : Bool :=
  s.attached && decide (a = s.addr) && decide (s.stat.length < s.cfg.statDepth)

/-! ### The TX bank machine (R135, R138, R262) -/

/-- The submit table: the bank armed and the next state, none where the packet is queued (R135). -/
def submitTable : TxState → Option (Bank × TxState)
  | .bothFreeEvenFirst => some (.even, .oddFree)
  | .bothFreeOddFirst => some (.odd, .evenFree)
  | .evenFree => some (.even, .noneFreeOddFirst)
  | .oddFree => some (.odd, .noneFreeEvenFirst)
  | .noneFreeEvenFirst => none
  | .noneFreeOddFirst => none

/-- The completion table (R138): whether the bank is refilled, and the next state. -/
def completionTable (s : TxState) (c : Bank) (empty : Bool) : Except FaultReason (Bool × TxState) :=
  match s, c, empty with
  | .bothFreeEvenFirst, _, _ => .error .bankStateMismatch
  | .bothFreeOddFirst, _, _ => .error .bankStateMismatch
  | .evenFree, .odd, true => .ok (false, .bothFreeEvenFirst)
  | .evenFree, .odd, false => .error .queueInvariant
  | .evenFree, .even, _ => .error .bankStateMismatch
  | .oddFree, .even, true => .ok (false, .bothFreeOddFirst)
  | .oddFree, .even, false => .error .queueInvariant
  | .oddFree, .odd, _ => .error .bankStateMismatch
  | .noneFreeEvenFirst, .even, true => .ok (false, .evenFree)
  | .noneFreeEvenFirst, .even, false => .ok (true, .noneFreeOddFirst)
  | .noneFreeEvenFirst, .odd, true => .ok (false, .oddFree)
  | .noneFreeEvenFirst, .odd, false => .ok (true, .noneFreeEvenFirst)
  | .noneFreeOddFirst, .even, true => .ok (false, .evenFree)
  | .noneFreeOddFirst, .even, false => .ok (true, .noneFreeOddFirst)
  | .noneFreeOddFirst, .odd, true => .ok (false, .oddFree)
  | .noneFreeOddFirst, .odd, false => .ok (true, .noneFreeEvenFirst)

/-- `BothFree(s)`: both banks free, the bank the SIE will use next first (R262). -/
def bothFree : TxState → TxState
  | .bothFreeEvenFirst => .bothFreeEvenFirst
  | .bothFreeOddFirst => .bothFreeOddFirst
  | .evenFree => .bothFreeOddFirst
  | .oddFree => .bothFreeEvenFirst
  | .noneFreeEvenFirst => .bothFreeEvenFirst
  | .noneFreeOddFirst => .bothFreeOddFirst

/-- Which TX banks a state says are armed (R26). -/
def txArmed : TxState → Bank → Bool
  | .bothFreeEvenFirst, _ => false
  | .bothFreeOddFirst, _ => false
  | .evenFree, b => decide (b = .odd)
  | .oddFree, b => decide (b = .even)
  | .noneFreeEvenFirst, _ => true
  | .noneFreeOddFirst, _ => true

/-! ### Token-done entries (R87) -/

/-- The legal (ep, dir, PID) combinations. -/
def legalToken (c : Params) (ep : Ep) (d : Dir) (p : Pid) : Bool :=
  match d, p with
  | .rx, .setupToken => decide (ep = 0)
  | .rx, .outToken => decide (ep = 0) || isDataEp c ep
  | .tx, .inToken => decide (ep = 0) || isDataEp c ep
  | .rx, .inToken => false
  | .tx, .setupToken => false
  | .tx, .outToken => false

end Sys2Proof.Machine
end

