-- ==== Sys2Proof/Machine/Ops.lean ====
section
/-! DEFINITION. The named operations over the state: one update per field that rules write entry by entry, free
values, memory access, descriptor writes, the packet pool, the FIFOs, bus reset, raising a fault, and the frame
every meaning is written in. -/

namespace Sys2Proof.Machine

/-! ### Entries of the arrays -/

/-- `st.bdt[ep][dir][bank]` (R24). -/
def State.slot (s : State) (ep : Ep) (d : Dir) (b : Bank) : Slot := ((epGet s.bdt ep).get d).get b

def State.setSlot (s : State) (ep : Ep) (d : Dir) (b : Bank) (x : Slot) : State :=
  { s with bdt := epPut s.bdt ep ((epGet s.bdt ep).put d (((epGet s.bdt ep).get d).put b x)) }

/-- `st.pkt[h]` but for its buffer (R22). -/
def State.header (s : State) (h : Nat) : Header := s.pkt.getD h { len := 0, index := 0, next := none }

def State.setHeader (s : State) (h : Nat) (x : Header) : State := { s with pkt := s.pkt.set h x }

/-- `st.free[i] = 1` (R23). -/
def State.isFree (s : State) (i : Nat) : Bool := s.free.getD i false

def State.setFree (s : State) (i : Nat) (x : Bool) : State := { s with free := s.free.set i x }

def State.setOwner (s : State) (i : Nat) (x : Owner) : State := { s with owner := s.owner.set i x }

def State.setTxState (s : State) (ep : Ep) (x : TxState) : State := { s with txState := epPut s.txState ep x }

def State.setTxq (s : State) (ep : Ep) (x : List Nat) : State := { s with txq := epPut s.txq ep x }

def State.setRxq (s : State) (ep : Ep) (x : List Nat) : State := { s with rxq := epPut s.rxq ep x }

def State.setRxBytes (s : State) (ep : Ep) (x : Word) : State := { s with rxBytes := epPut s.rxBytes ep x }

def State.setEndpt (s : State) (ep : Ep) (x : Byte) : State := { s with endpt := epPut s.endpt ep x }

/-- `st.pp[ep][dir]` (R40). -/
def State.ppBank (s : State) (ep : Ep) (d : Dir) : Bank := (epGet s.pp ep).get d

def State.setPp (s : State) (ep : Ep) (d : Dir) (x : Bank) : State :=
  { s with pp := epPut s.pp ep ((epGet s.pp ep).put d x) }

def State.setMem (s : State) (m : Memory) : State := { s with mem := m }

/-- `emit Obs(...)` (R9, R46). -/
def State.emit (s : State) (o : HostObs) : State := { s with obs := s.obs ++ [o] }

/-- A call to a collaborator (R233). -/
def State.call (s : State) (c : CollabCall) : State := { s with calls := s.calls ++ [c] }

/-- `return` of a foreground command (R9, R311). -/
def State.returning (s : State) (r : Result) : State := { s with result := some r }

/-! ### Outcomes -/

/-- What an instruction answers. -/
abbrev Out := Host.Outcome State Fault Refusal

/-- A fault is raised (R313): the step "writes `st.fault <- Some(reason)` and nothing else". There is no entry to
any handler, nothing is saved, and there is no return from it (R323, R324). -/
def State.raise (s : State) (r : FaultReason) : State := { s with fault := some r }

/-- The step's body has been run: either all its writes take effect or, on a fault, none but the mark (R313). -/
def commit (s : State) (body : Except FaultReason State) : Out :=
  match body with
  | .ok t => .next t
  | .error r => .next (s.raise r)

/-- An agent has a step only without a fault mark (R47, R313) and before a reload (R276). -/
def whenAlive (s : State) (k : Out) : Out :=
  match s.fault with
  | some r => .fault (.faulted r)
  | none => if s.reloaded then .fault .reloaded else k

/-- A command that is not enabled has no step: nothing changes and the other agents go on (R296, R310 (e); log
entry 4). -/
def noStep (s : State) : Out := .next s

/-! ### Free values (log entry 8) -/

/-- The next free value: the one laid out in advance, or else one of which nothing is known. -/
def State.drawValue (s : State) : Nat :=
  match s.draws with
  | d :: _ => d
  | [] => Config.draw s.drawn

/-- The next free value has been taken. -/
def State.drop (s : State) : State :=
  match s.draws with
  | _ :: ds => { s with draws := ds }
  | [] => { s with drawn := s.drawn + 1 }

/-- `n` free bytes. -/
def drawBytes (s : State) : Nat → List Byte × State
  | 0 => ([], s)
  | n + 1 =>
    let rest := drawBytes s.drop n
    (BitVec.ofNat 8 s.drawValue :: rest.1, rest.2)

/-! ### Memory access (R62) -/

/-- The byte at an offset of a buffer, none where no rule has written one. -/
def State.byteAt (s : State) (b : Buffer) (off : Nat) : Option Byte := readByte s.cfg s.mem (bufferKey s.cfg b off)

/-- Bytes `off .. off+n-1` of a buffer of the block. -/
def State.readBuffer (s : State) (b : Buffer) (off n : Nat) : Except FaultReason (List Byte) :=
  if bufferLen s.cfg b < off + n then .error .outOfBounds
  else readBytes s.cfg s.mem (bufferKey s.cfg b off) n

/-- The bytes have been written from `off` up; the caller has checked the bounds. -/
def State.putBytes (s : State) (b : Buffer) (off : Nat) (bs : List Byte) : State :=
  s.setMem (writeBytes s.cfg s.mem (bufferKey s.cfg b off) bs)

/-- Write bytes from `off` up within a buffer's length. -/
def State.writeBuffer (s : State) (b : Buffer) (off : Nat) (bs : List Byte) : Except FaultReason State :=
  if bufferLen s.cfg b < off + bs.length then .error .outOfBounds else .ok (s.putBytes b off bs)

/-- A collaborator's region: its bytes are the collaborator's, free values at every read (log entry 10). -/
def isCollab : Buffer → Bool
  | .region (.collab _) => true
  | .region (.ep0rx _) => false
  | .region .reply => false
  | .region (.desc _) => false
  | .pool _ => false

/-- `MemRead(ref, n)` (R62), with the state after the free values it took. -/
def memRead (s : State) (ref : BufRef) (n : Nat) : Except FaultReason (List Byte × State) :=
  match refTarget ref with
  | none => .error .outOfBounds
  | some (b, off) =>
    if isCollab b then
      if bufferLen s.cfg b < off + n then .error .outOfBounds else .ok (drawBytes s n)
    else
      match s.readBuffer b off n with
      | .ok bs => .ok (bs, s)
      | .error r => .error r

/-- `MemWrite(ref, n, bytes)` (R62). -/
def memWrite (s : State) (ref : BufRef) (bs : List Byte) : Except FaultReason State :=
  match refTarget ref with
  | none => .error .outOfBounds
  | some (b, off) => s.writeBuffer b off bs

/-! ### Descriptor writes (R131 to R133) -/

/-- `DescForce`: no ownership check (R132). -/
def State.descForce (s : State) (ep : Ep) (d : Dir) (b : Bank) (addr : BufRef) (desc : Desc) : State :=
  s.setSlot ep d b { desc := desc, addr := addr }

/-- `DescWrite`: a slot the SIE owns is not written (R131). -/
def descWrite (s : State) (ep : Ep) (d : Dir) (b : Bank) (addr : BufRef) (desc : Desc) :
    Except FaultReason State :=
  if (s.slot ep d b).desc.own then .error .ownedDescriptorWrite else .ok (s.descForce ep d b addr desc)

/-- `Arm` (R133). -/
def arm (s : State) (ep : Ep) (d : Dir) (b : Bank) (ref : BufRef) (count : BitVec 10) (t : Toggle) :
    Except FaultReason State :=
  descWrite s ep d b ref (armedDesc count t)

/-- `Release slot` (R133). -/
def releaseSlot (s : State) (ep : Ep) (d : Dir) (b : Bank) : Except FaultReason State :=
  descWrite s ep d b .null releasedDesc

/-! ### Packet pool (R110 to R115) -/

/-- The ids of the free packets, ascending. -/
def State.freeIds (s : State) : List Nat := (List.range s.free.length).filter s.isFree

/-- The free packet ALLOC takes: "any packet id with st.free[i] = 1 -- a draw" (R110, R111). -/
def State.pick (s : State) : Nat := s.freeIds.getD (s.drawValue % s.freeIds.length) 0

/-- Packet `i` has been taken by the caller: header zeroed, and the 64 data bytes when ALLOC_ZEROES_BUF (R110). -/
def State.claim (s : State) (i : Nat) : State :=
  let t := ((s.setFree i false).setOwner i .caller).setHeader i { len := 0, index := 0, next := none }
  if s.cfg.allocZeroesBuf then t.putBytes (.pool i) 0 (List.replicate Config.packetSize 0) else t

/-- `ALLOC()` (R110): a free packet and the state that has taken it, or none. -/
def allocPacket (s : State) : Option (Nat × State) :=
  match s.freeIds with
  | [] => none
  | _ :: _ => some (s.pick, s.drop.claim s.pick)

/-- `ToPool(h)` (R114). -/
def State.toPool (s : State) (h : Nat) : State := (s.setFree h true).setOwner h .pool

/-- The first RX slot that needs a buffer (R115). -/
def State.redirectTarget (s : State) : Option (Ep × Bank) :=
  (rxSlots s.cfg).find? (fun x => descIsZero (s.slot x.1 .rx x.2).desc)

/-- `Redirect(h)` (R115). -/
def State.redirect (s : State) (h : Nat) : State :=
  match s.redirectTarget with
  | some (ep, b) =>
    let t := (s.descForce ep .rx b (.pool h) (armedDesc 64 (bankToggle b))).setOwner h (.slot ep .rx b)
    { t with rxNeeded := s.rxNeeded - 1 }
  | none => ({ s with rxNeeded := 0 } : State).toPool h

/-- `Release(h)` (R113). -/
def State.release (s : State) (h : Nat) : State :=
  if starving s && isConfigured s then s.redirect h else s.toPool h

/-- A packet id the caller owns (R112, R160, R168, R169). -/
def State.callerOwns (s : State) (h : Nat) : Bool :=
  decide (h < s.cfg.nPackets) && decide (s.owner.getD h .pool = .caller)

/-! ### FIFOs and their links (R27) -/

/-- `st.pkt[h].next <- x`. -/
def State.setNext (s : State) (h : Nat) (x : Option Nat) : State := s.setHeader h { s.header h with next := x }

/-- The links after `h` has been appended to a FIFO: the last element's `next` is `h`, and `h`'s is None. -/
def State.linkLast (s : State) (q : List Nat) (h : Nat) : State :=
  match q.getLast? with
  | none => s.setNext h none
  | some l => (s.setNext h none).setNext l (some h)

/-- Append to `st.txq[ep]`. -/
def State.enqueueTx (s : State) (ep : Ep) (h : Nat) : State :=
  (s.linkLast (epGet s.txq ep) h).setTxq ep (epGet s.txq ep ++ [h])

/-- Append to `st.rxq[ep]`. -/
def State.enqueueRx (s : State) (ep : Ep) (h : Nat) : State :=
  (s.linkLast (epGet s.rxq ep) h).setRxq ep (epGet s.rxq ep ++ [h])

/-- `Σ st.pkt[p].len for p in q` (R29, R164). -/
def State.sumLens (s : State) (q : List Nat) : Word :=
  q.foldr (fun p n => (s.header p).len.setWidth 32 + n) 0

/-! ### Reclaiming and bus reset (R261, R262, R343) -/

/-- A slot is emptied by force, its packet going to the pool (R261, R343 step 3). -/
def State.reclaimSlot (s : State) (ep : Ep) (d : Dir) (b : Bank) : State :=
  match (s.slot ep d b).addr with
  | .pool h => (s.toPool h).descForce ep d b .null releasedDesc
  | .null => s.descForce ep d b .null releasedDesc
  | .reg _ _ => s.descForce ep d b .null releasedDesc

/-- The four slots of one endpoint. -/
def State.reclaimEp (s : State) (ep : Ep) : State :=
  (((s.reclaimSlot ep .rx .even).reclaimSlot ep .rx .odd).reclaimSlot ep .tx .even).reclaimSlot ep .tx .odd

/-- `ReclaimSlots()` (R261). -/
def State.reclaimSlots (s : State) : State := (dataEps s.cfg).foldl State.reclaimEp s

/-- Both FIFOs of one endpoint are drained into the pool (R262). -/
def State.drainEp (s : State) (ep : Ep) : State :=
  let t := (epGet s.rxq ep ++ epGet s.txq ep).foldl State.toPool s
  ((t.setRxq ep []).setTxq ep []).setRxBytes ep 0

/-- `DrainQueues()` (R262). -/
def State.drainQueues (s : State) : State := (dataEps s.cfg).foldl State.drainEp s

/-- Both ppbits of an endpoint to EVEN (R343 step 2). -/
def State.resetPp (s : State) (ep : Ep) : State := (s.setPp ep .rx .even).setPp ep .tx .even

/-- The bank machine and the control byte of an endpoint after a bus reset (R343 step 4). -/
def State.disableEp (s : State) (ep : Ep) : State := (s.setTxState ep .bothFreeEvenFirst).setEndpt ep 0x00

/-- Both endpoint-0 TX slots to not-owned, by force (R132, R183 step 3, R343 step 6). -/
def State.cancelEp0Tx (s : State) : State :=
  (s.descForce 0 .tx .even .null releasedDesc).descForce 0 .tx .odd .null releasedDesc

/-- EP0_SIZE as a byte count of a descriptor. -/
def ep0Count (c : Params) : BitVec 10 := BitVec.ofNat 10 c.ep0Size.toNat

/-- Both endpoint-0 RX slots armed, by force (R343 step 7). -/
def State.armEp0Rx (s : State) : State :=
  (s.descForce 0 .rx .even (ep0rxRef .even) (armedDesc (ep0Count s.cfg) .data1)).descForce 0 .rx .odd
    (ep0rxRef .odd) (armedDesc (ep0Count s.cfg) .data1)

/-- Steps 1 to 4 of R343: the token-done entries are discarded, every ppbit goes to EVEN, and endpoints
1..NUM_ENDPOINTS lose their packets and are disabled. -/
def State.resetEndpoints (s : State) : State :=
  (dataEps s.cfg).foldl State.disableEp
    ((endpoints s.cfg).foldl State.resetPp { s with stat := [] }).reclaimSlots.drainQueues

/-- Steps 5 to 10 of R343: the device is unconfigured at address 0 and endpoint 0 waits for a SETUP. -/
def State.resetControl (s : State) : State :=
  { s.cancelEp0Tx.armEp0Rx.setEndpt 0 ep0Control with
    rxNeeded := 0
    config := 0
    ep0 := { pending := none, pendingLen := 0, bank := .even, toggle := .data1 }
    ep0out := { received := 0, sink := none }
    setAddrPending := none
    ctl := .idle
    addr := 0
    tokenSuspend := false }

/-- `BusResetState()` (R343). -/
def State.busReset (s : State) : State := s.resetEndpoints.resetControl

/-! ### Fetching (log entry 5) -/

/-- The next command is taken from the head of the commands issued: none when there is none. -/
def fetchCommand (s : State) : Option (Except DecodeError Instr × State) :=
  match s.cmds with
  | [] => none
  | c :: cs => some (decodeCommand c, { s with cmds := cs })

/-- A command has been issued ahead of all others. -/
def State.issue (s : State) (c : Command) : State := { s with cmds := c :: s.cmds }

/-- The SIE has completed the SETUP transaction of a packet in the EVEN receive buffer of endpoint 0, and its
token-done entry is the next one (R292). -/
def State.placeSetup (s : State) (p : SetupPacket) : State :=
  let t := (s.putBytes (.region (.ep0rx .even)) 0 (setupBytes p)).descForce 0 .rx .even (ep0rxRef .even)
    (completedRx (armedDesc (ep0Count s.cfg) .data1) .setupToken 8)
  { t with stat := { ep := 0, dir := .rx, bank := .even } :: s.stat }

end Sys2Proof.Machine
end

