-- ==== Sys2Proof/Machine/Bdt.lean ====
section
/-! DEFINITION. The completions of endpoints 1..NUM_ENDPOINTS (41_bdt_manager.md). -/

namespace Sys2Proof.Machine

/-- The head of the TX FIFO is armed in the bank just completed (R137, action REFILL). -/
def refillTx (s : State) (ep : Ep) (c : Bank) : Except FaultReason State :=
  match epGet s.txq ep with
  | [] => .ok s
  | q :: rest =>
    let t := (s.setTxq ep rest).setNext q none
    match arm t ep .tx c (.pool q) ((s.header q).len.setWidth 10) (bankToggle c) with
    | .ok u => .ok (u.setOwner q (.slot ep .tx c))
    | .error r => .error r

/-- TX completion `TxDone(ep, c)` (R137). -/
def txDone (s : State) (ep : Ep) (c : Bank) : Except FaultReason State :=
  match completionTable (epGet s.txState ep) c (epGet s.txq ep).isEmpty with
  | .error r => .error r
  | .ok (refill, st) =>
    match (s.slot ep .tx c).addr with
    | .null => .error .unexpectedToken
    | .reg _ _ => .error .unexpectedToken
    | .pool h =>
      match releaseSlot s ep .tx c with
      | .error r => .error r
      | .ok t =>
        match (if refill then refillTx (t.release h) ep c else .ok (t.release h)) with
        | .error r => .error r
        | .ok u => .ok (u.setTxState ep st)

/-- A received packet of `n > 0` bytes is queued (R140). -/
def acceptRx (s : State) (ep : Ep) (h : Nat) (n : BitVec 10) : State :=
  let t := s.setHeader h { len := n.setWidth 16, index := 0, next := none }
  ((t.enqueueRx ep h).setOwner h (.queue ep .rx)).setRxBytes ep (epGet s.rxBytes ep + n.setWidth 32)

/-- The slot just emptied gets a fresh packet, or is left released and counted as starved (R140, R141). -/
def refillRx (s : State) (ep : Ep) (b : Bank) : Except FaultReason State :=
  match allocPacket s with
  | some (p, t) =>
    match arm t ep .rx b (.pool p) 64 (bankToggle b) with
    | .ok u => .ok (u.setOwner p (.slot ep .rx b))
    | .error r => .error r
  | none =>
    match releaseSlot s ep .rx b with
    | .ok u => .ok { u with rxNeeded := u.rxNeeded + 1 }
    | .error r => .error r

/-- RX completion `RxDone(ep, b, n)` (R140). -/
def rxDone (s : State) (ep : Ep) (b : Bank) (n : BitVec 10) : Except FaultReason State :=
  match (s.slot ep .rx b).addr with
  | .null => .error .unexpectedToken
  | .reg _ _ => .error .unexpectedToken
  | .pool h =>
    if n ≠ 0 then refillRx (acceptRx s ep h n) ep b
    else arm s ep .rx b (.pool h) 64 (bankToggle b)

end Sys2Proof.Machine
end

