-- ==== Sys2Proof/Machine/Control.lean ====
section
/-! DEFINITION. The control transfer engine of endpoint 0 (43_control_transfer.md): the SETUP stage around a
request handler, the data and status stages, and the stall primitive. -/

namespace Sys2Proof.Machine

/-- What a request handler returns (R184); `In(ref, datalen)` names a region and an offset. -/
inductive HandlerResult where
  | stall
  | dataIn (r : Region) (off : Half) (len : Half)
  | dataOut (sink : SinkId)
  | noData
  deriving DecidableEq, Repr

/-- A request handler: it may change the state, may fault, and returns a result (R184). -/
abbrev Handler := State → Except FaultReason (State × HandlerResult)

/-- `min` of two `u16` (R8). -/
def minHalf (a b : Half) : Half := if a ≤ b then a else b

/-- EP0_SIZE as a `u16`. -/
def ep0Half (c : Params) : Half := BitVec.ofNat 16 c.ep0Size.toNat

/-! ### IN stages (R185, R186, R189) -/

/-- `ArmNextIn()` with the pending reference given (R186). -/
def armNextIn (s : State) (r : Region) (off : Nat) : Except FaultReason State :=
  let size := minHalf s.ep0.pendingLen (ep0Half s.cfg)
  match arm s 0 .tx s.ep0.bank (.reg r off) (size.setWidth 10) s.ep0.toggle with
  | .error e => .error e
  | .ok t =>
    let left := s.ep0.pendingLen - size
    .ok { t with
      ep0 := { s.ep0 with
        pendingLen := left
        pending := if left ≠ 0 ∨ size = ep0Half s.cfg then some (r, off + size.toNat) else none } }

/-- `StartIn(ref, datalen)` (R185). -/
def startIn (s : State) (r : Region) (off len : Half) : Except FaultReason State :=
  armNextIn
    { s with
      ep0 := { s.ep0 with pending := some (r, off.toNat), pendingLen := minHalf len s.setup.wLength }
      ctl := .dataIn }
    r off.toNat

/-- `StartStatusIn()` (R189). -/
def startStatusIn (s : State) : Except FaultReason State :=
  arm { s with ctl := .statusIn } 0 .tx s.ep0.bank (.reg .reply 0) 0 s.ep0.toggle

/-! ### OUT stage and stall (R190, R196) -/

/-- `StartOut(sink)` (R190). -/
def startOut (s : State) (sink : SinkId) : Except FaultReason State :=
  if s.setup.wLength = 0 then startStatusIn (s.call (.sinkComplete sink 0))
  else .ok { s with ctl := .dataOut, ep0out := { received := 0, sink := some sink } }

/-- `Ep0Stall()` (R196). -/
def ep0Stall (s : State) : State :=
  { s.setEndpt 0 (withStall ep0Control) with
    ep0 := { s.ep0 with pending := none, pendingLen := 0 }
    ctl := .idle }

/-! ### SETUP stage (R183) -/

/-- Steps 1 and 3 to 5: the packet is recorded, both TX slots are taken back, the transfer in progress is
abandoned and the power timer disarmed (R183). -/
def State.beginSetup (s : State) (p : SetupPacket) : State :=
  { s.cancelEp0Tx with
    setup := p
    ep0 := { s.ep0 with toggle := .data1, pending := none, pendingLen := 0 }
    ep0out := { received := 0, sink := none }
    setAddrPending := none
    pwr := { s.pwr with armed := false } }

/-- Step 7: the stage the handler's result starts (R183). -/
def applyResult (s : State) : HandlerResult → Except FaultReason State
  | .stall => .ok (ep0Stall s)
  | .dataIn r off len => startIn s r off len
  | .dataOut sink => startOut s sink
  | .noData => startStatusIn s

/-- Steps 1 and 3 to 9 of R183 for a packet and the handler its code selects. -/
def setupStage (p : SetupPacket) (h : Handler) (s : State) : Except FaultReason State :=
  match h (s.beginSetup p) with
  | .error r => .error r
  | .ok (t, res) =>
    match applyResult t res with
    | .error r => .error r
    | .ok u => .ok { u with tokenSuspend := false }

/-! ### Completions (R188, R191) -/

/-- `Ep0InDone(c)` (R188). -/
def ep0InDone (s : State) (c : Bank) : Except FaultReason State :=
  if c ≠ s.ep0.bank then .error .ep0BankMismatch
  else
    match releaseSlot s 0 .tx c with
    | .error r => .error r
    | .ok t =>
      let u : State := { t with ep0 := { s.ep0 with bank := c.other, toggle := s.ep0.toggle.other } }
      match s.ctl with
      | .dataIn =>
        match s.ep0.pending with
        | some (r, off) => armNextIn u r off
        | none => .ok { u with ctl := .statusOut }
      | .statusIn =>
        match s.setAddrPending with
        | some a => .ok { u with addr := a, setAddrPending := none, ctl := .idle }
        | none => .ok { u with ctl := .idle }
      | .idle => .ok u
      | .dataOut => .ok u
      | .statusOut => .ok u

/-- A call to the sink of the data stage, if it has one (log entry 18). -/
def callSink (s : State) (f : SinkId → CollabCall) : State :=
  match s.ep0out.sink with
  | some sink => s.call (f sink)
  | none => s

/-- An OUT packet of the data stage (R191, DATA_OUT). -/
def dataOutPacket (s : State) (data : List Byte) : Except FaultReason State :=
  let k := min data.length (s.setup.wLength.toNat - s.ep0out.received.toNat)
  let t := callSink s (fun sink => .sinkWrite sink s.ep0out.received (data.take k))
  let got := s.ep0out.received + BitVec.ofNat 16 k
  let u : State := { t with ep0out := { s.ep0out with received := got } }
  if s.setup.wLength ≤ got ∨ data.length < s.cfg.ep0Size.toNat then
    startStatusIn (callSink u (fun sink => .sinkComplete sink got))
  else .ok u

/-- `Ep0OutDone(b, n)` (R191). -/
def ep0OutDone (s : State) (b : Bank) (n : BitVec 10) : Except FaultReason State :=
  match s.readBuffer (.region (.ep0rx b)) 0 n.toNat with
  | .error r => .error r
  | .ok data =>
    match arm s 0 .rx b (ep0rxRef b) (ep0Count s.cfg) .data1 with
    | .error r => .error r
    | .ok t =>
      match s.ctl with
      | .dataOut => dataOutPacket t data
      | .statusOut => .ok { t with ctl := .idle }
      | .dataIn => .ok { t with ep0 := { t.ep0 with pending := none, pendingLen := 0 }, ctl := .idle }
      | .idle => .ok t
      | .statusIn => .ok t

end Sys2Proof.Machine
end

