-- ==== Sys2Proof/Machine/Power.lean ====
section
/-! DEFINITION. Configuration, power negotiation, reinit and reload (45_configuration_power.md), and the two bus
resets of 70_reset_and_hazards.md: INIT and HOST_BUS_RESET. -/

namespace Sys2Proof.Machine

/-! ### SET_CONFIGURATION (R260 to R264) -/

/-- One RX slot is given a fresh packet, or counted as starved (R264). -/
def seedSlot (s : State) (ep : Ep) (b : Bank) : Except FaultReason State :=
  match allocPacket s with
  | some (p, t) =>
    match arm t ep .rx b (.pool p) 64 (bankToggle b) with
    | .ok u => .ok (u.setOwner p (.slot ep .rx b))
    | .error r => .error r
  | none => .ok { s with rxNeeded := s.rxNeeded + 1 }

/-- The slots of a list are seeded in order. -/
def seedSlots : List (Ep × Bank) → State → Except FaultReason State
  | [], s => .ok s
  | (ep, b) :: rest, s =>
    match seedSlot s ep b with
    | .ok t => seedSlots rest t
    | .error r => .error r

/-- Steps 5 and 6 of R260 for one endpoint: the bank machine to both-free, the control byte to EP_CONFIG (R262,
R263). -/
def State.configureEp (s : State) (ep : Ep) : State :=
  (s.setTxState ep (bothFree (epGet s.txState ep))).setEndpt ep (epConfigOf s.cfg ep)

/-- `Reconfigure(v)` (R260), steps in order. -/
def reconfigure (s : State) (v : Byte) : Except FaultReason State :=
  let s2 : State := { s with config := v, rxNeeded := 0 }
  let s4 := s2.reclaimSlots.drainQueues
  let s6 := (dataEps s.cfg).foldl State.configureEp s4
  seedSlots (rxSlots s.cfg) s6

/-! ### The power-negotiation monitor (R270 to R273) -/

/-- The bMaxPower byte of one descriptor is lowered if it is a configuration descriptor (R272). -/
def lowerEntry (s : State) (k : Nat) : Except FaultReason State :=
  match s.cfg.descTable[k]? with
  | none => .ok s
  | some e =>
    if e.wValue.extractLsb' 8 8 = 2 then
      s.writeBuffer (.region (.desc k)) s.cfg.bMaxPowerOffset [s.cfg.loweredBMaxPower]
    else .ok s

/-- The entries of a list of indexes are lowered in order. -/
def lowerEntries : List Nat → State → Except FaultReason State
  | [], s => .ok s
  | k :: rest, s =>
    match lowerEntry s k with
    | .ok t => lowerEntries rest t
    | .error r => .error r

/-- `LowerPower()` (R272). -/
def lowerPower (s : State) : Except FaultReason State :=
  match lowerEntries (List.range s.cfg.descTable.length) s with
  | .ok t => .ok { t with pwr := { t.pwr with lowered := true } }
  | .error r => .error r

/-- `Reinit()` (R274). -/
def State.reinit (s : State) : State :=
  ({ s.busReset with reconnects := s.reconnects + 1 } : State).emit .reconnect

/-- POWER_TIMEOUT (R271); without an armed timer it has no step. -/
def execPowerTimeout (s : State) : Out :=
  whenAlive s <|
    if s.pwr.armed then
      commit s <|
        match lowerPower { s with pwr := { s.pwr with armed := false } } with
        | .ok t => .ok t.reinit
        | .error r => .error r
    else noStep s

/-- REINIT (R274, R275). -/
def execReinit (s : State) : Out := whenAlive s (.next (s.reinit.returning (.ok .unit)))

/-- DEVICE_RELOAD (R276). -/
def execDeviceReload (s : State) : Out :=
  whenAlive s (.next (({ s with reloaded := true } : State).returning (.ok .unit)))

/-! ### Bus reset (R343, R347) -/

/-- INIT (R347). -/
def execInit (s : State) : Out :=
  whenAlive s (.next (({ s.busReset with attached := true } : State).returning (.ok .unit)))

/-- HOST_BUS_RESET (R343); a device that is not attached sees none. -/
def execHostBusReset (s : State) : Out :=
  whenAlive s (if s.attached then .next s.busReset else noStep s)

end Sys2Proof.Machine
end

