-- ==== Sys2Proof/Machine/Requests.lean ====
section
/-! DEFINITION. The eighteen request handlers of 44_requests.md, one instruction for each, and the dispatch of a
SETUP packet to its handler. A request instruction is the SETUP stage of its packet: steps 1 and 3 to 9 of R183;
TOKEN_DONE adds the token-done entry and step 2, the receive buffer given back (log entry 6). -/

namespace Sys2Proof.Machine

/-- The SETUP stage of a packet as one step: every write, or none but the fault mark. -/
def runRequest (p : SetupPacket) (h : Handler) (s : State) : Out := whenAlive s (commit s (setupStage p h s))

/-- Bytes put at the start of REPLY (R39). -/
def State.reply (s : State) (bs : List Byte) : State := s.putBytes (.region .reply) 0 bs

/-- `In(Reg(REPLY, 0), n)`. -/
def replyIn (n : Half) : HandlerResult := .dataIn .reply 0 n

/-- The endpoint `i = wIndex[6:0]`, none above NUM_ENDPOINTS (R221, R226). -/
def requestEp (c : Params) (wIndex : Half) : Option Ep :=
  if h : (wIndex.extractLsb' 0 7).toNat < 16 then
    if (wIndex.extractLsb' 0 7).toNat ≤ c.numEndpoints.val then some ⟨(wIndex.extractLsb' 0 7).toNat, h⟩ else none
  else none

/-- `wValueL = wValue[7:0]` (R91). -/
def lowByte (v : Half) : Byte := v.extractLsb' 0 8

/-- `wValueH = wValue[15:8]` (R91). -/
def highByte (v : Half) : Byte := v.extractLsb' 8 8

/-! ### Standard requests -/

/-- GET_STATUS to the device answers `00 00` (R220). -/
def handleGetStatusDevice : Handler := fun s => .ok (s.reply [0x00, 0x00], replyIn 2)

/-- GET_STATUS to an endpoint answers its STALL bit (R221). -/
def handleGetStatusEndpoint (wIndex : Half) : Handler := fun s =>
  match requestEp s.cfg wIndex with
  | none => .ok (s, .stall)
  | some i => .ok (s.reply [if stallBit (epGet s.endpt i) then 0x01 else 0x00, 0x00], replyIn 2)

/-- CLEAR_FEATURE(ENDPOINT_HALT) (R227). -/
def handleClearFeatureEndpoint (wValue wIndex : Half) : Handler := fun s =>
  match requestEp s.cfg wIndex with
  | none => .ok (s, .stall)
  | some i =>
    if wValue ≠ 0 then .ok (s, .stall) else .ok (s.setEndpt i (withoutStall (epGet s.endpt i)), .noData)

/-- SET_FEATURE(ENDPOINT_HALT) (R226), of endpoint 0 too: R226, R36 and the last row of vector E14 say that it then sets
STALL of endpoint 0 and goes on to the status stage, against R181's "only by the stall primitive" (DEDUCED, log entry
28). -/
def handleSetFeatureEndpoint (wValue wIndex : Half) : Handler := fun s =>
  match requestEp s.cfg wIndex with
  | none => .ok (s, .stall)
  | some i =>
    if wValue ≠ 0 then .ok (s, .stall) else .ok (s.setEndpt i (withStall (epGet s.endpt i)), .noData)

/-- SET_ADDRESS records the address; the register is written when the status IN completes (R225, R193). -/
def handleSetAddress (wValue : Half) : Handler := fun s =>
  .ok ({ s with setAddrPending := some (wValue.extractLsb' 0 7) }, .noData)

/-- The first index of DESC_TABLE with both fields equal (R228). -/
def findDescriptor (c : Params) (wValue wIndex : Half) : Option Nat :=
  c.descTable.findIdx? (fun e => decide (e.wValue = wValue) && decide (e.wIndex = wIndex))

/-- The length a descriptor reports: a string's own first byte, or the table's `length` (R230). -/
def descriptorLength (s : State) (k : Nat) (wValue : Half) : Except FaultReason Half :=
  if highByte wValue = 3 then
    match s.readBuffer (.region (.desc k)) 0 1 with
    | .ok bs => .ok ((bs.headD 0).setWidth 16)
    | .error r => .error r
  else .ok ((s.cfg.descTable.map DescEntry.length).getD k 0)

/-- `GetDescriptor()` (R228), also arming the power timer for a configuration descriptor (R270). -/
def getDescriptor (wValue wIndex : Half) : Handler := fun s =>
  match findDescriptor s.cfg wValue wIndex with
  | none => .ok (s, .stall)
  | some k =>
    match descriptorLength s k wValue with
    | .error r => .error r
    | .ok len =>
      let armed := if highByte wValue = 2 ∧ s.cfg.powerNegEnabled = true then true else s.pwr.armed
      .ok ({ s with pwr := { s.pwr with armed := armed } }, .dataIn (.desc k) 0 len)

/-- GET_DESCRIPTOR with the device as recipient (R228). -/
def handleGetDescriptorDevice (wValue wIndex : Half) : Handler := getDescriptor wValue wIndex

/-- GET_DESCRIPTOR with the interface as recipient: the same handler (R229). -/
def handleGetDescriptorInterface (wValue wIndex : Half) : Handler := getDescriptor wValue wIndex

/-- GET_CONFIGURATION (R231). -/
def handleGetConfiguration : Handler := fun s => .ok (s.reply [s.config], replyIn 1)

/-- SET_CONFIGURATION (R232). -/
def handleSetConfiguration (wValue : Half) : Handler := fun s =>
  match reconfigure s (lowByte wValue) with
  | .ok t => .ok (t, .noData)
  | .error r => .error r

/-! ### Class requests (R233 to R243); a collaborator's answer is a free value (log entry 9) -/

/-- The answer of `HID.get_report` a free value stands for: Stall, or `In(ref, len)` with any offset in the report
region and any length (R233). -/
def reportAnswer : Nat → HandlerResult
  | 0 => .stall
  | n + 1 => .dataIn (.collab .hidReport) (BitVec.ofNat 16 (n / 65536)) (BitVec.ofNat 16 n)

/-- HID GET_REPORT (R234). -/
def handleHidGetReport (wValue wIndex : Half) : Handler := fun s =>
  .ok (s.drop.call (.getReport wValue wIndex), reportAnswer s.drawValue)

/-- HID GET_IDLE (R235). -/
def handleHidGetIdle (wValue wIndex : Half) : Handler := fun s =>
  .ok ((s.drop.call (.idle wIndex (lowByte wValue))).reply [BitVec.ofNat 8 s.drawValue], replyIn 1)

/-- HID GET_PROTOCOL (R236). -/
def handleHidGetProtocol (wIndex : Half) : Handler := fun s =>
  .ok ((s.drop.call (.protocol wIndex)).reply [BitVec.ofNat 8 s.drawValue], replyIn 1)

/-- HID SET_REPORT (R237). -/
def handleHidSetReport (wValue wIndex : Half) : Handler := fun s => .ok (s, .dataOut (.hidReport wValue wIndex))

/-- HID SET_IDLE (R238). -/
def handleHidSetIdle (wValue wIndex : Half) : Handler := fun s =>
  .ok (s.call (.setIdle wIndex (lowByte wValue) (highByte wValue)), .noData)

/-- HID SET_PROTOCOL (R239). -/
def handleHidSetProtocol (wValue wIndex : Half) : Handler := fun s =>
  .ok (s.call (.setProtocol wIndex (lowByte wValue)), .noData)

/-- CDC SET_LINE_CODING (R241). -/
def handleCdcSetLineCoding : Handler := fun s => .ok (s, .dataOut .lineCoding)

/-- CDC GET_LINE_CODING (R242). -/
def handleCdcGetLineCoding : Handler := fun s => .ok (s.call .lineCodingRef, .dataIn (.collab .lineCoding) 0 7)

/-- CDC SET_CONTROL_LINE_STATE (R243). -/
def handleCdcSetControlLineState (wValue : Half) : Handler := fun s =>
  .ok (s.call (.setControlLineState wValue), .noData)

/-- Every code outside R94's table (R95, R222). -/
def handleUnsupported : Handler := fun s => .ok (s, .stall)

/-! ### Dispatch (R184) -/

/-- The handler of a decoded request; a command is no request. -/
def requestHandler : Instr → Handler
  | .getStatusDevice _ _ _ => handleGetStatusDevice
  | .getStatusEndpoint _ i _ => handleGetStatusEndpoint i
  | .clearFeatureEndpoint v i _ => handleClearFeatureEndpoint v i
  | .setFeatureEndpoint v i _ => handleSetFeatureEndpoint v i
  | .setAddress v _ _ => handleSetAddress v
  | .getDescriptorDevice v i _ => handleGetDescriptorDevice v i
  | .getDescriptorInterface v i _ => handleGetDescriptorInterface v i
  | .getConfiguration _ _ _ => handleGetConfiguration
  | .setConfiguration v _ _ => handleSetConfiguration v
  | .hidGetReport v i _ => handleHidGetReport v i
  | .hidGetIdle v i _ => handleHidGetIdle v i
  | .hidGetProtocol _ i _ => handleHidGetProtocol i
  | .hidSetReport v i _ => handleHidSetReport v i
  | .hidSetIdle v i _ => handleHidSetIdle v i
  | .hidSetProtocol v i _ => handleHidSetProtocol v i
  | .cdcSetLineCoding _ _ _ => handleCdcSetLineCoding
  | .cdcGetLineCoding _ _ _ => handleCdcGetLineCoding
  | .cdcSetControlLineState v _ _ => handleCdcSetControlLineState v
  | .init | .alloc | .free _ | .tx _ _ | .rx _ | .txByteCount _ | .txPacketCount _ | .rxByteCount _
  | .configured | .reinit | .deviceReload | .pktFill _ _ | .pktRead _ | .tokenDone | .powerTimeout
  | .hostSetup _ _ | .hostOut _ _ _ | .hostIn _ _ | .hostBusReset => handleUnsupported

/-- `Dispatch(setup)` (R184). -/
def dispatchRequest (p : SetupPacket) : Handler :=
  match decodeRequest p with
  | some i => requestHandler i
  | none => handleUnsupported

/-! ### The request instructions -/

def execGetStatusDevice (v i l : Half) (s : State) : Out :=
  runRequest (requestPacket 0x80 0x00 v i l) handleGetStatusDevice s

def execGetStatusEndpoint (v i l : Half) (s : State) : Out :=
  runRequest (requestPacket 0x82 0x00 v i l) (handleGetStatusEndpoint i) s

def execClearFeatureEndpoint (v i l : Half) (s : State) : Out :=
  runRequest (requestPacket 0x02 0x01 v i l) (handleClearFeatureEndpoint v i) s

def execSetFeatureEndpoint (v i l : Half) (s : State) : Out :=
  runRequest (requestPacket 0x02 0x03 v i l) (handleSetFeatureEndpoint v i) s

def execSetAddress (v i l : Half) (s : State) : Out :=
  runRequest (requestPacket 0x00 0x05 v i l) (handleSetAddress v) s

def execGetDescriptorDevice (v i l : Half) (s : State) : Out :=
  runRequest (requestPacket 0x80 0x06 v i l) (handleGetDescriptorDevice v i) s

def execGetDescriptorInterface (v i l : Half) (s : State) : Out :=
  runRequest (requestPacket 0x81 0x06 v i l) (handleGetDescriptorInterface v i) s

def execGetConfiguration (v i l : Half) (s : State) : Out :=
  runRequest (requestPacket 0x80 0x08 v i l) handleGetConfiguration s

def execSetConfiguration (v i l : Half) (s : State) : Out :=
  runRequest (requestPacket 0x00 0x09 v i l) (handleSetConfiguration v) s

def execHidGetReport (v i l : Half) (s : State) : Out :=
  runRequest (requestPacket 0xA1 0x01 v i l) (handleHidGetReport v i) s

def execHidGetIdle (v i l : Half) (s : State) : Out :=
  runRequest (requestPacket 0xA1 0x02 v i l) (handleHidGetIdle v i) s

def execHidGetProtocol (v i l : Half) (s : State) : Out :=
  runRequest (requestPacket 0xA1 0x03 v i l) (handleHidGetProtocol i) s

def execHidSetReport (v i l : Half) (s : State) : Out :=
  runRequest (requestPacket 0x21 0x09 v i l) (handleHidSetReport v i) s

def execHidSetIdle (v i l : Half) (s : State) : Out :=
  runRequest (requestPacket 0x21 0x0A v i l) (handleHidSetIdle v i) s

def execHidSetProtocol (v i l : Half) (s : State) : Out :=
  runRequest (requestPacket 0x21 0x0B v i l) (handleHidSetProtocol v i) s

def execCdcSetLineCoding (v i l : Half) (s : State) : Out :=
  runRequest (requestPacket 0x21 0x20 v i l) handleCdcSetLineCoding s

def execCdcGetLineCoding (v i l : Half) (s : State) : Out :=
  runRequest (requestPacket 0xA1 0x21 v i l) handleCdcGetLineCoding s

def execCdcSetControlLineState (v i l : Half) (s : State) : Out :=
  runRequest (requestPacket 0x21 0x22 v i l) (handleCdcSetControlLineState v) s

end Sys2Proof.Machine
end

