-- ==== Sys2Proof/Machine/Interrupt.lean ====
section
/-! DEFINITION. The interrupt context's TOKEN_DONE (41_bdt_manager.md R136) and the dispatch of an endpoint-0 entry
(43_control_transfer.md R182). -/

namespace Sys2Proof.Machine

/-- `Ep0Setup(b)` (R183). The eight bytes read always make a packet. -/
def ep0Setup (s : State) (b : Bank) : Except FaultReason State :=
  match s.readBuffer (.region (.ep0rx b)) 0 8 with
  | .error r => .error r
  | .ok bytes =>
    match setupOfBytes bytes with
    | none => .error .outOfBounds
    | some p =>
      match arm s 0 .rx b (ep0rxRef b) (ep0Count s.cfg) .data1 with
      | .error r => .error r
      | .ok t => setupStage p (dispatchRequest p) t

/-- `Ep0Token(dir, b, p, n)` (R182); no other combination is legal (R87). -/
def ep0Token (s : State) (d : Dir) (b : Bank) (p : Pid) (n : BitVec 10) : Except FaultReason State :=
  match d, p with
  | .rx, .setupToken => ep0Setup s b
  | .rx, .outToken => ep0OutDone s b n
  | .tx, .inToken => ep0InDone s b
  | .rx, .inToken => .error .unexpectedToken
  | .tx, .setupToken => .error .unexpectedToken
  | .tx, .outToken => .error .unexpectedToken

/-- One token-done entry, already removed from the FIFO, is handled (R136). -/
def handleEntry (s : State) (e : StatEntry) : Except FaultReason State :=
  let d := (s.slot e.ep e.dir e.bank).desc
  if d.own then .error .unexpectedToken
  else
    match pidOf d.low with
    | none => .error .unexpectedToken
    | some p =>
      if !legalToken s.cfg e.ep e.dir p then .error .unexpectedToken
      else if e.ep = 0 then ep0Token s e.dir e.bank p d.bc
      else
        match e.dir with
        | .tx => txDone s e.ep e.bank
        | .rx => rxDone s e.ep e.bank d.bc

/-- TOKEN_DONE (R136): exactly one entry, in FIFO order; with no entry it has no step. -/
def execTokenDone (s : State) : Out :=
  whenAlive s <|
    match s.stat with
    | [] => noStep s
    | e :: rest => commit s (handleEntry { s with stat := rest } e)

end Sys2Proof.Machine
end

