-- ==== Sys2Proof/Machine/Pool.lean ====
section
/-! DEFINITION. The packet pool's commands (40_packet_pool.md): ALLOC and FREE. -/

namespace Sys2Proof.Machine

/-- ALLOC (R110): `Ok(i)` for a free packet, or `None`. -/
def execAlloc (s : State) : Out :=
  whenAlive s <|
    match allocPacket s with
    | some (i, t) => .next (t.returning (.ok (.handle i)))
    | none => .next (s.returning .none)

/-- FREE (R112). -/
def execFree (h : Half) (s : State) : Out :=
  whenAlive s <|
    if s.callerOwns (handleId h) then .next ((s.release (handleId h)).returning (.ok .unit))
    else .next (s.raise .invalidHandle)

end Sys2Proof.Machine
end

