-- ==== Sys2Proof/Machine/Queue.lean ====
section
/-! DEFINITION. The endpoint queue manager's commands (42_endpoint_queue.md): TX, RX, the counts, CONFIGURED, and
the caller's PKT_FILL and PKT_READ. -/

namespace Sys2Proof.Machine

/-- TX once every check has passed: the packet is armed in the bank the bank machine gives, or queued (R160). -/
def submitPacket (s : State) (ep : Ep) (h : Nat) : Except FaultReason State :=
  match submitTable (epGet s.txState ep) with
  | some (b, st) =>
    match arm s ep .tx b (.pool h) ((s.header h).len.setWidth 10) (bankToggle b) with
    | .ok t => .ok ((t.setOwner h (.slot ep .tx b)).setTxState ep st)
    | .error r => .error r
  | none => .ok ((s.enqueueTx ep h).setOwner h (.queue ep .tx))

/-- TX (R160), its checks in the order written (R314). -/
def execTx (ep : Ep) (h : Half) (s : State) : Out :=
  whenAlive s <|
    if !txEnabled s.cfg ep then .next (s.returning (.err .badEndpoint))
    else if !s.callerOwns (handleId h) then .next (s.raise .invalidHandle)
    else if Config.epMaxPacket < (s.header (handleId h)).len.toNat then .next (s.raise .packetTooLong)
    else if !isConfigured s then .next (s.returning (.err .notConfigured))
    else
      commit s <|
        match submitPacket s ep (handleId h) with
        | .ok t => .ok (t.returning (.ok .unit))
        | .error r => .error r

/-- The head of the RX FIFO passes to the caller (R162). -/
def takeRx (s : State) (ep : Ep) (h : Nat) (rest : List Nat) : State :=
  let t := (s.setRxq ep rest).setRxBytes ep (epGet s.rxBytes ep - (s.header h).len.setWidth 32)
  (t.setNext h none).setOwner h .caller

/-- RX (R162). -/
def execRx (ep : Ep) (s : State) : Out :=
  whenAlive s <|
    if !rxEnabled s.cfg ep then .next (s.returning (.err .badEndpoint))
    else if !isConfigured s then .next (s.returning .none)
    else
      match epGet s.rxq ep with
      | [] => .next (s.returning .none)
      | h :: rest => .next ((takeRx s ep h rest).returning (.ok (.handle h)))

/-- A count of an endpoint in 1..NUM_ENDPOINTS, whatever its direction and without a configuration gate (R164 to
R166). -/
def returnCount (s : State) (ep : Ep) (n : Word) : Out :=
  whenAlive s <|
    if isDataEp s.cfg ep then .next (s.returning (.ok (.count n))) else .next (s.returning (.err .badEndpoint))

/-- TX_BYTE_COUNT (R164). -/
def execTxByteCount (ep : Ep) (s : State) : Out := returnCount s ep (s.sumLens (epGet s.txq ep))

/-- TX_PACKET_COUNT (R165). -/
def execTxPacketCount (ep : Ep) (s : State) : Out := returnCount s ep (BitVec.ofNat 32 (epGet s.txq ep).length)

/-- RX_BYTE_COUNT (R166). -/
def execRxByteCount (ep : Ep) (s : State) : Out := returnCount s ep (epGet s.rxBytes ep)

/-- CONFIGURED (R167). -/
def execConfigured (s : State) : Out := whenAlive s (.next (s.returning (.ok (.bool (isConfigured s)))))

/-- PKT_FILL (R168): the payload's bytes and its length. DESIGN CHOICE (log entry 30): R163 lets a caller write `index`
too, R97 gives no command that does, and the model adds none, so no step writes an `index` other than 0. -/
def execPktFill (h : Half) (data : List Byte) (s : State) : Out :=
  whenAlive s <|
    if !s.callerOwns (handleId h) then .next (s.raise .invalidHandle)
    else
      commit s <|
        match s.writeBuffer (.pool (handleId h)) 0 data with
        | .ok t =>
          .ok ((t.setHeader (handleId h) { s.header (handleId h) with len := BitVec.ofNat 16 data.length }).returning
            (.ok .unit))
        | .error r => .error r

/-- PKT_READ (R169). -/
def execPktRead (h : Half) (s : State) : Out :=
  whenAlive s <|
    if !s.callerOwns (handleId h) then .next (s.raise .invalidHandle)
    else
      commit s <|
        match s.readBuffer (.pool (handleId h)) 0 (s.header (handleId h)).len.toNat with
        | .ok bs => .ok (s.returning (.ok (.packet (s.header (handleId h)).len (s.header (handleId h)).index bs)))
        | .error r => .error r

end Sys2Proof.Machine
end

