-- ==== Sys2Proof/Machine/Sie.lean ====
section
/-! DEFINITION. The SIE and host transactions (46_sie_interface.md): HOST_SETUP, HOST_OUT and HOST_IN, with the
STALL handshake (R295) and the NAK, which is no step (R296). -/

namespace Sys2Proof.Machine

/-- The max packet size of an endpoint (R293, R6). -/
def maxPacket (c : Params) (ep : Ep) : Nat := if ep = 0 then c.ep0Size.toNat else Config.epMaxPacket

/-- The slot the SIE will use next (R40). -/
def State.nextSlot (s : State) (ep : Ep) (d : Dir) : Slot := s.slot ep d (s.ppBank ep d)

/-- A transaction has completed on the SIE's next bank: the slot is handed back, the ppbit flips, and a token-done
entry is queued (R292 to R294). -/
def State.completeTransaction (s : State) (ep : Ep) (d : Dir) (desc : Desc) : State :=
  let b := s.ppBank ep d
  let t := (s.setSlot ep d b { (s.slot ep d b) with desc := desc }).setPp ep d b.other
  { t with stat := s.stat ++ [{ ep := ep, dir := d, bank := b }] }

/-- HOST_SETUP is enabled (R290, R292); `token_suspend` and STALL do not matter. -/
def setupEnabled (s : State) (a : BitVec 7) : Bool :=
  tokenReaches s a && rxenBit (epGet s.endpt 0) && (s.nextSlot 0 .rx).desc.own &&
    decide (8 ≤ (s.nextSlot 0 .rx).desc.bc.toNat)

/-- HOST_SETUP (R292, R291). -/
def execHostSetup (a : BitVec 7) (p : SetupPacket) (s : State) : Out :=
  whenAlive s <|
    if setupEnabled s a then
      commit s <|
        match memWrite s (s.nextSlot 0 .rx).addr (setupBytes p) with
        | .error r => .error r
        | .ok t =>
          let u := t.completeTransaction 0 .rx (completedRx (s.nextSlot 0 .rx).desc .setupToken 8)
          .ok (({ u.setEndpt 0 (withoutStall (epGet s.endpt 0)) with tokenSuspend := true } : State).emit .setupAck)
    else noStep s

/-- What HOST_OUT and HOST_IN need before the endpoint's own state is looked at (R290, R293 to R295). -/
def transactionReaches (s : State) (ep : Ep) (a : BitVec 7) : Bool :=
  tokenReaches s a && !s.tokenSuspend && isEndpoint s.cfg ep

/-- HOST_OUT on an enabled endpoint that is not stalled, the packet fitting the slot (R293). -/
def receiveOut (s : State) (ep : Ep) (data : List Byte) : Except FaultReason State :=
  match memWrite s (s.nextSlot ep .rx).addr data with
  | .error r => .error r
  | .ok t =>
    .ok ((t.completeTransaction ep .rx (completedRx (s.nextSlot ep .rx).desc .outToken data.length)).emit
      (.outAck ep data.length))

/-- HOST_OUT (R293, R295, R296). -/
def execHostOut (ep : Ep) (a : BitVec 7) (data : List Byte) (s : State) : Out :=
  whenAlive s <|
    if transactionReaches s ep a && rxenBit (epGet s.endpt ep) && decide (data.length ≤ maxPacket s.cfg ep) then
      if stallBit (epGet s.endpt ep) then .next (s.emit (.stall ep .outToken))
      else if (s.nextSlot ep .rx).desc.own && decide (data.length ≤ (s.nextSlot ep .rx).desc.bc.toNat) then
        commit s (receiveOut s ep data)
      else noStep s
    else noStep s

/-- HOST_IN on an enabled endpoint that is not stalled, its slot armed: the bytes are read now (R294, R74). -/
def sendIn (s : State) (ep : Ep) : Except FaultReason State :=
  match memRead s (s.nextSlot ep .tx).addr (s.nextSlot ep .tx).desc.bc.toNat with
  | .error r => .error r
  | .ok (bytes, t) =>
    .ok ((t.completeTransaction ep .tx (completedTx (s.nextSlot ep .tx).desc)).emit
      (.inData ep (s.nextSlot ep .tx).desc.data1 bytes))

/-- HOST_IN (R294, R295, R296). -/
def execHostIn (ep : Ep) (a : BitVec 7) (s : State) : Out :=
  whenAlive s <|
    if transactionReaches s ep a && txenBit (epGet s.endpt ep) then
      if stallBit (epGet s.endpt ep) then .next (s.emit (.stall ep .inToken))
      else if (s.nextSlot ep .tx).desc.own then commit s (sendIn s ep)
      else noStep s
    else noStep s

end Sys2Proof.Machine
end

