-- ==== Sys2Proof/Machine/Dispatch.lean ====
section
/-! DEFINITION. The dispatch: one arm per constructor of Instr, each one call of its meaning. -/

namespace Sys2Proof.Machine

def exec (i : Instr) (s : State) : Host.Outcome State Fault Refusal :=
  match i with
  | .init => Sys2Proof.Machine.execInit s
  | .alloc => Sys2Proof.Machine.execAlloc s
  | .free h => Sys2Proof.Machine.execFree h s
  | .tx ep h => Sys2Proof.Machine.execTx ep h s
  | .rx ep => Sys2Proof.Machine.execRx ep s
  | .txByteCount ep => Sys2Proof.Machine.execTxByteCount ep s
  | .txPacketCount ep => Sys2Proof.Machine.execTxPacketCount ep s
  | .rxByteCount ep => Sys2Proof.Machine.execRxByteCount ep s
  | .configured => Sys2Proof.Machine.execConfigured s
  | .reinit => Sys2Proof.Machine.execReinit s
  | .deviceReload => Sys2Proof.Machine.execDeviceReload s
  | .pktFill h data => Sys2Proof.Machine.execPktFill h data s
  | .pktRead h => Sys2Proof.Machine.execPktRead h s
  | .tokenDone => Sys2Proof.Machine.execTokenDone s
  | .powerTimeout => Sys2Proof.Machine.execPowerTimeout s
  | .hostSetup a p => Sys2Proof.Machine.execHostSetup a p s
  | .hostOut ep a data => Sys2Proof.Machine.execHostOut ep a data s
  | .hostIn ep a => Sys2Proof.Machine.execHostIn ep a s
  | .hostBusReset => Sys2Proof.Machine.execHostBusReset s
  | .getStatusDevice v w l => Sys2Proof.Machine.execGetStatusDevice v w l s
  | .getStatusEndpoint v w l => Sys2Proof.Machine.execGetStatusEndpoint v w l s
  | .clearFeatureEndpoint v w l => Sys2Proof.Machine.execClearFeatureEndpoint v w l s
  | .setFeatureEndpoint v w l => Sys2Proof.Machine.execSetFeatureEndpoint v w l s
  | .setAddress v w l => Sys2Proof.Machine.execSetAddress v w l s
  | .getDescriptorDevice v w l => Sys2Proof.Machine.execGetDescriptorDevice v w l s
  | .getDescriptorInterface v w l => Sys2Proof.Machine.execGetDescriptorInterface v w l s
  | .getConfiguration v w l => Sys2Proof.Machine.execGetConfiguration v w l s
  | .setConfiguration v w l => Sys2Proof.Machine.execSetConfiguration v w l s
  | .hidGetReport v w l => Sys2Proof.Machine.execHidGetReport v w l s
  | .hidGetIdle v w l => Sys2Proof.Machine.execHidGetIdle v w l s
  | .hidGetProtocol v w l => Sys2Proof.Machine.execHidGetProtocol v w l s
  | .hidSetReport v w l => Sys2Proof.Machine.execHidSetReport v w l s
  | .hidSetIdle v w l => Sys2Proof.Machine.execHidSetIdle v w l s
  | .hidSetProtocol v w l => Sys2Proof.Machine.execHidSetProtocol v w l s
  | .cdcSetLineCoding v w l => Sys2Proof.Machine.execCdcSetLineCoding v w l s
  | .cdcGetLineCoding v w l => Sys2Proof.Machine.execCdcGetLineCoding v w l s
  | .cdcSetControlLineState v w l => Sys2Proof.Machine.execCdcSetControlLineState v w l s

end Sys2Proof.Machine
end

