-- ==== Sys2Proof/Machine/Step.lean ====
section
/-! DEFINITION. The step: the next command issued is decoded and executed. How a program comes to run is log
entry 5: the commands are the schedule, and there is no program counter (R21, R320, R340). -/

namespace Sys2Proof.Machine

/-- One step. With no command issued nothing happens; a word that spells no command is refused by name (R99). -/
def step (s : State) : Host.Outcome State Fault Refusal :=
  match fetchCommand s with
  | none => .next s
  | some (.error e, _) => .refused (.illegalCommand e)
  | some (.ok i, t) => exec i t

/-- `s` with a table row's instruction placed where the next step fetches it. A 32-bit word is issued as the next
command. A 16-bit request code is the code of a SETUP packet that the SIE has just received on endpoint 0, with
the TOKEN_DONE that handles it issued as the next command. -/
def State.withFetchWord (s : State) (nbits w : Nat) : State :=
  match nbits with
  | 16 => (s.placeSetup (tableSetup w)).issue { word := 0x10000000, payload := [] }
  | 32 => s.issue (tableCommand w)
  | _ => s

end Sys2Proof.Machine
end

