-- ==== Sys2Proof/Safety.lean ====
section
/-! DEFINITION. What a safe run is, in the terms the statements use: when an agent has a step, the invariants of
10_state.md R32, R44 and R45 and of 43_control_transfer.md R198, and the stages a SETUP can start. -/

namespace Sys2Proof

/-- A command of R97, as against a SETUP request of R94. -/
def Instr.isCommand : Instr → Bool
  | .init | .alloc | .free _ | .tx _ _ | .rx _ | .txByteCount _ | .txPacketCount _ | .rxByteCount _
  | .configured | .reinit | .deviceReload | .pktFill _ _ | .pktRead _ | .tokenDone | .powerTimeout
  | .hostSetup _ _ | .hostOut _ _ _ | .hostIn _ _ | .hostBusReset => true
  | .getStatusDevice _ _ _ | .getStatusEndpoint _ _ _ | .clearFeatureEndpoint _ _ _
  | .setFeatureEndpoint _ _ _ | .setAddress _ _ _ | .getDescriptorDevice _ _ _
  | .getDescriptorInterface _ _ _ | .getConfiguration _ _ _ | .setConfiguration _ _ _
  | .hidGetReport _ _ _ | .hidGetIdle _ _ _ | .hidGetProtocol _ _ _ | .hidSetReport _ _ _
  | .hidSetIdle _ _ _ | .hidSetProtocol _ _ _ | .cdcSetLineCoding _ _ _ | .cdcGetLineCoding _ _ _
  | .cdcSetControlLineState _ _ _ => false

end Sys2Proof

namespace Sys2Proof.Machine

/-! ### Views -/

/-- An agent has a step: no fault mark, not reloaded (R47, R276). -/
abbrev State.Alive (s : State) : Prop := s.fault = none ∧ s.reloaded = false

/-- The owner of a packet id; an id out of range has none, and reads as `pool`. -/
def State.ownerOf (s : State) (h : Nat) : Owner := s.owner.getD h .pool

/-- The banks of the token-done entries of one endpoint and direction, oldest first (R41). -/
def State.pending (s : State) (ep : Ep) (d : Dir) : List Bank :=
  (s.stat.filter (fun e => decide (e.ep = ep) && decide (e.dir = d))).map StatEntry.bank

/-- A reference to a pool packet. -/
def BufRef.isPool : BufRef → Bool
  | .pool _ => true
  | .null => false
  | .reg _ _ => false

/-- The TX bank a bank state says the SIE completes next, or will use next (R26, R262). -/
def firstBank : TxState → Bank
  | .bothFreeEvenFirst => .even
  | .bothFreeOddFirst => .odd
  | .evenFree => .odd
  | .oddFree => .even
  | .noneFreeEvenFirst => .even
  | .noneFreeOddFirst => .odd

/-- Both TX banks are armed: the two states in which TX queues (R135). -/
def noneFree : TxState → Bool
  | .noneFreeEvenFirst => true
  | .noneFreeOddFirst => true
  | .bothFreeEvenFirst => false
  | .bothFreeOddFirst => false
  | .evenFree => false
  | .oddFree => false

/-! ### Invariants -/

/-- The memory is in its canonical form. -/
abbrev State.MemoryCanonical (s : State) : Prop := Memory.wf s.cfg s.mem

/-- R45(b): packets wait in a TX FIFO only while both TX banks are armed. -/
abbrev State.QueueGate (s : State) : Prop :=
  ∀ ep : Ep, epGet s.txq ep ≠ [] → noneFree (epGet s.txState ep) = true

/-- R44, with what it needs of the arrays: every packet has one owner, and is where its owner says and nowhere
else. Also a released slot holds no buffer, endpoint 0 and the numbers above NUM_ENDPOINTS hold no packet, and a TX bank
holds a packet exactly when its bank state says it is armed (R26). -/
structure State.Ownership (s : State) : Prop where
  headers : s.pkt.length = s.cfg.nPackets
  masks : s.free.length = s.cfg.nPackets
  owners : s.owner.length = s.cfg.nPackets
  poolIffFree : ∀ h < s.cfg.nPackets, s.isFree h = true ↔ s.ownerOf h = .pool
  txQueued : ∀ (ep : Ep) (h : Nat), h ∈ epGet s.txq ep ↔ h < s.cfg.nPackets ∧ s.ownerOf h = .queue ep .tx
  rxQueued : ∀ (ep : Ep) (h : Nat), h ∈ epGet s.rxq ep ↔ h < s.cfg.nPackets ∧ s.ownerOf h = .queue ep .rx
  txOnce : ∀ ep : Ep, (epGet s.txq ep).Nodup
  rxOnce : ∀ ep : Ep, (epGet s.rxq ep).Nodup
  inSlot : ∀ (ep : Ep) (d : Dir) (b : Bank) (h : Nat),
    (s.slot ep d b).addr = .pool h ↔ h < s.cfg.nPackets ∧ s.ownerOf h = .slot ep d b
  released : ∀ (ep : Ep) (d : Dir) (b : Bank), (s.slot ep d b).desc = releasedDesc → (s.slot ep d b).addr = .null
  elsewhere : ∀ ep : Ep, isDataEp s.cfg ep = false →
    epGet s.txq ep = [] ∧ epGet s.rxq ep = [] ∧ ∀ (d : Dir) (b : Bank), (s.slot ep d b).addr.isPool = false
  txBanks : ∀ ep : Ep, isDataEp s.cfg ep = true → ∀ b : Bank,
    (s.slot ep .tx b).addr.isPool = txArmed (epGet s.txState ep) b

/-- R45(a): the running byte count of every RX FIFO is the sum of its packets' lengths. -/
abbrev State.RxBytesExact (s : State) : Prop := ∀ ep : Ep, epGet s.rxBytes ep = s.sumLens (epGet s.rxq ep)

/-- The RX slots of RX-enabled endpoints that hold no buffer (R45(d)). -/
def State.starvedSlots (s : State) : List (Ep × Bank) :=
  (rxSlots s.cfg).filter (fun x => decide ((s.slot x.1 .rx x.2) = Slot.cleared))

/-- R45(d), with what it needs: only RX slots of RX-enabled endpoints hold pool packets, and while configured the
starvation counter is the number of RX slots without a buffer. -/
structure State.StarvationExact (s : State) : Prop where
  seededOnly : ∀ (ep : Ep) (b : Bank), (s.slot ep .rx b).addr.isPool = true → (ep, b) ∈ rxSlots s.cfg
  counter : s.config ≠ 0 → s.rxNeeded = BitVec.ofNat 32 s.starvedSlots.length

/-- What a token-done entry says of its slot: completed by the SIE, with the PID and the buffer of its kind (R67(c),
R87, R181). -/
structure State.EntryMatches (s : State) (e : StatEntry) : Prop where
  inRange : isEndpoint s.cfg e.ep = true
  completed : (s.slot e.ep e.dir e.bank).desc.own = false
  pid : ∃ p, pidOf (s.slot e.ep e.dir e.bank).desc.low = some p ∧ legalToken s.cfg e.ep e.dir p = true
  buffer : e.ep ≠ 0 → (s.slot e.ep e.dir e.bank).addr.isPool = true

/-- The completed slot of an entry carries the SETUP PID. -/
def State.isSetupEntry (s : State) (e : StatEntry) : Bool :=
  decide ((s.slot e.ep e.dir e.bank).desc.low = pidCode .setupToken)

/-- The block and the SIE agree (R32, R45(c), R181, R198): entries match their slots, the SIE's banks alternate, the TX
bank machine and `ep0.bank` follow the SIE, a SETUP not yet handled is the last entry while `token_suspend` is set, and
once INIT or a bus reset has run (the device is attached, or a REINIT is counted) an endpoint-0 RX slot is the SIE's
unless its token-done entry is waiting. -/
structure State.InStep (s : State) : Prop where
  entries : ∀ e ∈ s.stat, s.EntryMatches e
  alternate : ∀ (ep : Ep) (d : Dir), s.pending ep d = [] ∨ s.pending ep d = [(s.ppBank ep d).other] ∨
    s.pending ep d = [s.ppBank ep d, (s.ppBank ep d).other]
  suspended : s.tokenSuspend = true →
    ∃ before e, s.stat = before ++ [e] ∧ s.isSetupEntry e = true ∧ ∀ x ∈ before, s.isSetupEntry x = false
  running : s.tokenSuspend = false → ∀ x ∈ s.stat, s.isSetupEntry x = false
  rxOwned : ∀ ep : Ep, isDataEp s.cfg ep = true → ∀ b : Bank,
    (s.slot ep .rx b).desc.own = true → (s.slot ep .rx b).addr.isPool = true
  txOwned : ∀ ep : Ep, isDataEp s.cfg ep = true → ∀ b : Bank,
    (s.slot ep .tx b).desc.own = (txArmed (epGet s.txState ep) b && !decide (b ∈ s.pending ep .tx))
  txFirst : ∀ ep : Ep, isDataEp s.cfg ep = true →
    firstBank (epGet s.txState ep) = ((s.pending ep .tx).head?).getD (s.ppBank ep .tx)
  ep0First : s.ep0.bank = ((s.pending 0 .tx).head?).getD (s.ppBank 0 .tx)
  ep0Single : (s.pending 0 .tx).length ≤ 1
  ep0Other : (s.slot 0 .tx s.ep0.bank.other).desc.own = false
  ep0Rx : s.attached = true ∨ s.reconnects ≠ 0 → ∀ b : Bank,
    (s.slot 0 .rx b).desc.own = !decide (b ∈ s.pending 0 .rx) ∧ (s.slot 0 .rx b).addr = ep0rxRef b
  dataOutIdle : s.ctl = .dataOut → s.pending 0 .tx = [] ∧ (s.slot 0 .tx s.ep0.bank).desc.own = false

/-- R27: the links of a FIFO agree with its list: each element's `next` is its successor, the final one's is None. -/
def State.Linked (s : State) (q : List Nat) : Prop := ∀ (k : Nat) (h : k < q.length), (s.header q[k]).next = q[k + 1]?

/-- R27 for every FIFO. -/
abbrev State.LinksAgree (s : State) : Prop := ∀ ep : Ep, s.Linked (epGet s.txq ep) ∧ s.Linked (epGet s.rxq ep)

/-- R134: a slot of endpoints 1..NUM_ENDPOINTS that the SIE owns carries the toggle of its bank. -/
abbrev State.TogglesFollowBanks (s : State) : Prop :=
  ∀ ep : Ep, isDataEp s.cfg ep = true → ∀ (d : Dir) (b : Bank),
    (s.slot ep d b).desc.own = true → (s.slot ep d b).desc.data1 = bankToggle b

/-- A reason R313 calls unreachable when the invariants hold. -/
def FaultReason.isInternal : FaultReason → Bool
  | .ownedDescriptorWrite => true
  | .bankStateMismatch => true
  | .queueInvariant => true
  | .unexpectedToken => true
  | .ep0BankMismatch => true
  | .invalidHandle => false
  | .packetTooLong => false
  | .outOfBounds => false
  | .unwrittenRead => false

/-! ### What a SETUP stage leaves (R183) -/

/-- The control context every SETUP starts from: DATA1, nothing pending, the bank kept (R183 steps 4 and 8). -/
def Ep0.fresh (e : Ep0) : Ep0 := { e with toggle := .data1, pending := none, pendingLen := 0 }

/-- `s` after the SETUP stage of packet `p`, but for what its handler writes: the packet, the stage it started with its
context and BDT, an empty DATA_OUT context, no pending address, the power timer disarmed and `token_suspend` cleared. -/
def State.staged (s : State) (p : SetupPacket) (c : Ctl) (e : Ep0) (bdt : PerEp (Dirs (Banks Slot))) : State :=
  { s with
    setup := p
    ctl := c
    ep0 := e
    bdt := bdt
    ep0out := { received := 0, sink := none }
    setAddrPending := none
    pwr := { s.pwr with armed := false }
    tokenSuspend := false }

/-- Of endpoint 0's TX slots, the one of bank `ep0.bank` holds `x` and the other is released; every other slot of the
BDT is as it was. -/
def Ep0TxIs (s t : State) (x : Slot) : Prop :=
  t.slot 0 .tx s.ep0.bank = x ∧ t.slot 0 .tx s.ep0.bank.other = Slot.cleared ∧
    ∀ (ep : Ep) (d : Dir) (b : Bank), ¬(ep = 0 ∧ d = .tx) → t.slot ep d b = s.slot ep d b

/-- The zero-length status packet, armed DATA1 (R189). -/
def statusSlot : Slot := { desc := armedDesc 0 .data1, addr := .reg .reply 0 }

/-- The clamped length of a response, `min(datalen, wLength)` (R185). -/
def responseLen (len wLength : Half) : Half := minHalf len wLength

/-- The size of the first chunk, `min(pending_len, EP0_SIZE)` (R186). -/
def chunkLen (c : Params) (left : Half) : Half := minHalf left (ep0Half c)

/-- The slot of a chunk of `left` bytes still to send from `Reg(r, off)` (R186). -/
def chunkSlot (c : Params) (r : Region) (off : Nat) (left : Half) (t : Toggle) : Slot :=
  { desc := armedDesc ((chunkLen c left).setWidth 10) t, addr := .reg r off }

/-- The context after that chunk has been armed: what is left, and where it starts unless nothing more is owed (R186). -/
def afterChunk (c : Params) (e : Ep0) (r : Region) (off : Nat) (left : Half) : Ep0 :=
  { e with
    pendingLen := left - chunkLen c left
    pending := if left - chunkLen c left ≠ 0 ∨ chunkLen c left = ep0Half c then some (r, off + (chunkLen c left).toNat)
      else none }

/-! ### Bus reset (R343) -/

/-- A packet in a slot or a FIFO of endpoints 1..NUM_ENDPOINTS. -/
def State.inTransit (s : State) (h : Nat) : Bool :=
  (dataEps s.cfg).any (fun ep =>
    (epGet s.rxq ep).contains h || (epGet s.txq ep).contains h ||
      [Dir.rx, Dir.tx].any (fun d => [Bank.even, Bank.odd].any (fun b => decide ((s.slot ep d b).addr = .pool h))))

/-- `t` is `s` after the ten steps of R343: what each step writes, and that nothing else is written. -/
structure BusResetDone (s t : State) : Prop where
  fields : t = { s with
    free := t.free
    owner := t.owner
    bdt := t.bdt
    txState := t.txState
    txq := t.txq
    rxq := t.rxq
    rxBytes := t.rxBytes
    endpt := t.endpt
    pp := t.pp
    stat := []
    rxNeeded := 0
    config := 0
    ep0 := { pending := none, pendingLen := 0, bank := .even, toggle := .data1 }
    ep0out := { received := 0, sink := none }
    setAddrPending := none
    ctl := .idle
    addr := 0
    tokenSuspend := false }
  ppbits : ∀ (ep : Ep) (d : Dir), ep.val ≤ s.cfg.numEndpoints.val → t.ppBank ep d = .even
  slots : ∀ (ep : Ep) (d : Dir) (b : Bank), isDataEp s.cfg ep = true → t.slot ep d b = Slot.cleared
  queues : ∀ ep : Ep, isDataEp s.cfg ep = true →
    epGet t.rxq ep = [] ∧ epGet t.txq ep = [] ∧ epGet t.rxBytes ep = 0 ∧
      epGet t.txState ep = .bothFreeEvenFirst ∧ epGet t.endpt ep = 0x00
  ep0Tx : ∀ b : Bank, t.slot 0 .tx b = Slot.cleared
  ep0Rx : ∀ b : Bank, t.slot 0 .rx b =
    { desc := armedDesc (BitVec.ofNat 10 s.cfg.ep0Size.toNat) .data1, addr := .reg (.ep0rx b) 0 }
  ep0Endpt : epGet t.endpt 0 = 0x0D
  unused : ∀ ep : Ep, isEndpoint s.cfg ep = false → epGet t.bdt ep = epGet s.bdt ep ∧ epGet t.pp ep = epGet s.pp ep ∧
    epGet t.txState ep = epGet s.txState ep ∧ epGet t.txq ep = epGet s.txq ep ∧ epGet t.rxq ep = epGet s.rxq ep ∧
      epGet t.rxBytes ep = epGet s.rxBytes ep ∧ epGet t.endpt ep = epGet s.endpt ep
  ep0Queues : epGet t.txState 0 = epGet s.txState 0 ∧ epGet t.txq 0 = epGet s.txq 0 ∧
    epGet t.rxq 0 = epGet s.rxq 0 ∧ epGet t.rxBytes 0 = epGet s.rxBytes 0
  freed : ∀ h < s.free.length, t.isFree h = (s.isFree h || s.inTransit h)
  owned : ∀ h : Nat, t.ownerOf h = if s.inTransit h = true then .pool else s.ownerOf h

/-! ### Sequences of commands -/

/-- The commands of a list, one after another; the first stop ends the sequence. -/
def execAll : List Instr → State → Out
  | [], s => .next s
  | i :: is, s =>
    match exec i s with
    | .next t => execAll is t
    | .fault r => .fault r
    | .refused r => .refused r

/-- How many packets SET_CONFIGURATION finds free once it has taken back those in slots and FIFOs (R261, R262). -/
def State.reclaimable (s : State) : Nat :=
  ((List.range s.free.length).filter (fun h => s.isFree h || s.inTransit h)).length

end Sys2Proof.Machine
end

