-- ==== Sys2Proof/Certificates/Slice0/Obligations.lean ====
section
/-! DEFINITION. The statements for the provers. A packet id `h : Half` is read as `h.toNat`; every statement holds for
every parameter set, which a state carries in `cfg`, unless it says otherwise. -/

open Sys2Proof Sys2Proof.Machine

/-! ### Encodings -/

/-- A few words written out from R96 to R98 and R94, and what they decode to; and the direction, type and recipient of
a few `bmRequestType` bytes (R92). -/
def Obligations.DecodedWords : Prop :=
  decodeCommand { word := 0x01000000, payload := [] } = .ok .init ∧
    decodeCommand { word := 0x03000005, payload := [] } = .ok (.free 5) ∧
    decodeCommand { word := 0x04010002, payload := [] } = .ok (.tx 1 2) ∧
    decodeCommand { word := 0x0C000002, payload := [0x01, 0x02] } = .ok (.pktFill 2 [0x01, 0x02]) ∧
    decodeCommand { word := 0x10000000, payload := [] } = .ok .tokenDone ∧
    decodeCommand { word := 0x21020007, payload := [0x0A] } = .ok (.hostOut 2 7 [0x0A]) ∧
    decodeCommand { word := 0x22000080, payload := [] } = .error .badAddress ∧
    decodeRequest (requestPacket 0x80 0x06 0x0100 0x0000 0x0012) =
      some (.getDescriptorDevice 0x0100 0x0000 0x0012) ∧
    decodeRequest (requestPacket 0x00 0x99 0 0 0) = none ∧
    (requestDirection 0x82 = .deviceToHost ∧ requestKind 0x82 = .standard ∧ requestRecipient 0x82 = .endpoint) ∧
    (requestDirection 0x21 = .hostToDevice ∧ requestKind 0x21 = .classSpecific ∧
      requestRecipient 0x21 = .interface) ∧
    (requestDirection 0xC0 = .deviceToHost ∧ requestKind 0xC0 = .vendor ∧ requestRecipient 0xC0 = .device) ∧
    (requestKind 0x63 = .reserved ∧ requestRecipient 0x63 = .other ∧ requestRecipient 0x04 = .reserved 4)

/-- Decoding undoes encoding, for every well-formed instruction. -/
def Obligations.DecodeEncode : Prop := ∀ i : Instr, i.WellFormed → decode (encode i) = .ok i

/-- Encoding undoes decoding: whatever word or packet decodes, it is the one word of its instruction, which is well
formed. -/
def Obligations.EncodeDecode : Prop :=
  ∀ (e : Encoded) (i : Instr), decode e = .ok i → encode i = e ∧ i.WellFormed

/-- Which command words are legal (R97, R98, R99): those that match a row of the table, name an endpoint in 0..15, and
carry a payload of the length their op allows: at most 64 bytes for PKT_FILL, eight for HOST_SETUP, any for HOST_OUT,
and none for every other op, where R97 to R99 are silent (the model's reading, log entry 16, DEDUCED). No word matches
two rows, among the command rows and among the request rows. -/
def Obligations.LegalCommandWords : Prop :=
  (∀ c : Command,
    (∃ i, decodeCommand c = .ok i) ↔
      (∃ r ∈ commandRows, r.matches c.word = true) ∧ (epField c.word).toNat < 16 ∧
        (if opField c.word = 0x0C then c.payload.length ≤ 64
         else if opField c.word = 0x20 then c.payload.length = 8
         else if opField c.word = 0x21 then True
         else c.payload = [])) ∧
    ∀ rows ∈ [commandRows, requestRows], ∀ r ∈ rows, ∀ r' ∈ rows, ∀ w : Word,
      r.matches w = true → r'.matches w = true → r = r'

/-- The packing of a descriptor word (R81, R82): the arming word, the released word, the SIE's completion words, that
no field is lost, and that a word is 0 exactly when every field is 0. -/
def Obligations.DescriptorWords : Prop :=
  (∀ (n : BitVec 10) (t : Toggle), descWord (armedDesc n t) =
      0x88 ||| (if t = .data1 then 0x40 else 0) ||| (n.setWidth 32 <<< 16)) ∧
    descWord releasedDesc = 0 ∧
    (∀ (d : Desc) (p : Pid) (n : Nat), descWord (completedRx d p n) =
      ((BitVec.ofNat 10 n).setWidth 32 <<< 16) ||| ((toggleBit d.data1).setWidth 32 <<< 6) |||
        ((pidCode p).setWidth 32 <<< 2)) ∧
    (∀ d : Desc, descWord (completedTx d) =
      (d.bc.setWidth 32 <<< 16) ||| ((toggleBit d.data1).setWidth 32 <<< 6) ||| (0x9 <<< 2)) ∧
    (∀ d : Desc, descOfWord (descWord d) = d) ∧
    ∀ d : Desc, descWord d = 0 ↔ d = { own := false, data1 := .data0, bc := 0, low := 0 }

/-! ### Steps -/

/-- A step runs the decoded command on the state with that command taken; an illegal word has no step (R99). That the
commands issued stand in the list `cmds`, that a step takes its head, and that with no command issued nothing happens
is the model's choice (log entry 5, DESIGN CHOICE): the spec says only that any enabled step may be next (R320). -/
def Obligations.StepRunsDecoded : Prop :=
  ∀ (s : State) (c : Command) (cs : List Command),
    (s.cmds = c :: cs →
      (∀ i, decodeCommand c = .ok i → step s = exec i { s with cmds := cs }) ∧
        (∀ e, decodeCommand c = .error e → step s = .refused (.illegalCommand e))) ∧
      (s.cmds = [] → step s = .next s)

/-- TOKEN_DONE on a completed SETUP runs the request its packet decodes to, on the state with the entry removed and the
receive buffer given back (R136, R182 to R184); a fault of the request leaves the state before it, with the mark. -/
def Obligations.TokenDoneRunsRequest : Prop :=
  ∀ (s : State) (b : Bank) (rest : List StatEntry) (bytes : List Byte) (p : SetupPacket) (i : Instr),
    s.Alive → s.stat = { ep := 0, dir := .rx, bank := b } :: rest →
    (s.slot 0 .rx b).desc.own = false → (s.slot 0 .rx b).desc.low = 0xD →
    s.readBuffer (.region (.ep0rx b)) 0 8 = .ok bytes → setupOfBytes bytes = some p → decodeRequest p = some i →
    (∀ t, exec i (({ s with stat := rest } : State).setSlot 0 .rx b
          { desc := armedDesc (ep0Count s.cfg) .data1, addr := .reg (.ep0rx b) 0 }) = .next t → t.fault = none →
        exec .tokenDone s = .next t) ∧
      (∀ t r, exec i (({ s with stat := rest } : State).setSlot 0 .rx b
          { desc := armedDesc (ep0Count s.cfg) .data1, addr := .reg (.ep0rx b) 0 }) = .next t → t.fault = some r →
        exec .tokenDone s = .next (s.raise r))

/-- R313 and R47: a marked or reloaded machine has no step, and a step that raises a fault writes the mark and nothing
else. -/
def Obligations.FaultsWriteTheMarkOnly : Prop :=
  ∀ (i : Instr) (s : State),
    (∀ r, s.fault = some r → exec i s = .fault (.faulted r)) ∧
      (s.fault = none → s.reloaded = true → exec i s = .fault .reloaded) ∧
      (s.Alive → ∃ t, exec i s = .next t ∧ (t.fault = none ∨ ∃ r, t = { s with fault := some r }))

/-- The power-on value of every field that R49 gives one, and of every byte: the descriptors hold DESC_TABLE's contents
and no other byte has a value (R342). For every parameter set. -/
def Obligations.PowerOnState : Prop :=
  ∀ c : Params,
    let s := State.powerOn c
    s.cfg = c ∧ s.free = List.replicate c.nPackets true ∧ s.owner = List.replicate c.nPackets .pool ∧
      (∀ ep d b, s.slot ep d b = Slot.cleared) ∧
      (∀ ep, epGet s.txState ep = .bothFreeEvenFirst ∧ epGet s.txq ep = [] ∧ epGet s.rxq ep = [] ∧
        epGet s.rxBytes ep = 0 ∧ epGet s.endpt ep = 0 ∧ ∀ d, s.ppBank ep d = .even) ∧
      s.rxNeeded = 0 ∧ s.ctl = .idle ∧
      s.ep0 = { pending := none, pendingLen := 0, bank := .even, toggle := .data0 } ∧
      s.ep0out = { received := 0, sink := none } ∧ s.setAddrPending = none ∧ s.config = 0 ∧ s.addr = 0 ∧
      s.pwr = { armed := false, lowered := false } ∧ s.stat = [] ∧ s.tokenSuspend = false ∧
      s.attached = false ∧ s.reconnects = 0 ∧ s.reloaded = false ∧ s.obs = [] ∧ s.fault = none ∧
      ∀ (b : Buffer) (k : Nat), k < bufferLen c b → s.byteAt b k =
        match b with
        | .region (.desc d) => ((c.descTable.map DescEntry.data).getD d [])[k]?
        | .region (.ep0rx _) | .region .reply | .region (.collab _) | .pool _ => none

/-- R340 and part of R341: from power-on no host step and no interrupt-context step is enabled, which the model shows as
a next state equal to the state before (log entry 4, DEDUCED); TX of an enabled endpoint needs a configuration, RX
returns None, CONFIGURED false and the counts 0. FREE, PKT_FILL, PKT_READ and REINIT, which R341 also names, are in the
statements about them, which hold in every state. -/
def Obligations.BeforeInit : Prop :=
  ∀ (c : Params) (ep : Ep) (a : BitVec 7) (p : SetupPacket) (d : List Byte),
    let s := State.powerOn c
    exec (.hostSetup a p) s = .next s ∧ exec (.hostOut ep a d) s = .next s ∧ exec (.hostIn ep a) s = .next s ∧
      exec .hostBusReset s = .next s ∧ exec .tokenDone s = .next s ∧ exec .powerTimeout s = .next s ∧
      exec .configured s = .next (s.returning (.ok (.bool false))) ∧
      (rxEnabled c ep = true → exec (.rx ep) s = .next (s.returning .none)) ∧
      (isDataEp c ep = true →
        exec (.txByteCount ep) s = .next (s.returning (.ok (.count 0))) ∧
          exec (.txPacketCount ep) s = .next (s.returning (.ok (.count 0))) ∧
          exec (.rxByteCount ep) s = .next (s.returning (.ok (.count 0)))) ∧
      (txEnabled c ep = true → 0 < c.nPackets → ∃ t h, exec .alloc s = .next t ∧
        t.result = some (.ok (.handle h)) ∧
        (h < 65536 → exec (.tx ep (BitVec.ofNat 16 h)) t = .next (t.returning (.err .notConfigured))))

/-! ### Packet pool -/

/-- ALLOC (R110, R111): None and no other change with no free packet; otherwise some free packet, its header zeroed, its
owner the caller; and every free packet is what it returns for some free value. -/
def Obligations.AllocTakesFreePacket : Prop :=
  ∀ s : State, s.Alive →
    ((∀ i, s.isFree i = false) → exec .alloc s = .next { s with result := some .none }) ∧
      ((∃ i, s.isFree i = true) → ∃ i t, s.isFree i = true ∧ exec .alloc s = .next t ∧
        t = { s with
          free := s.free.set i false
          owner := s.owner.set i .caller
          pkt := s.pkt.set i { len := 0, index := 0, next := none }
          mem := if s.cfg.allocZeroesBuf = true then
              writeBytes s.cfg s.mem (bufferKey s.cfg (.pool i) 0) (List.replicate 64 0)
            else s.mem
          draws := t.draws
          drawn := t.drawn
          result := some (.ok (.handle i)) }) ∧
      (∀ i, s.isFree i = true → ∃ n t, exec .alloc { s with draws := n :: s.draws } = .next t ∧
        t.result = some (.ok (.handle i)))

/-- R117: with all N packets free, N ALLOCs in a row succeed and give out every packet, the next returns None, and after
a FREE of any of them (a handle has 16 bits) the next ALLOC returns that packet. -/
def Obligations.PoolLaws : Prop :=
  ∀ s : State, s.Alive → s.free.length = s.cfg.nPackets → s.owner.length = s.cfg.nPackets →
    s.rxNeeded = 0 → (∀ h < s.cfg.nPackets, s.isFree h = true) →
    ∃ t, execAll (List.replicate s.cfg.nPackets .alloc) s = .next t ∧
      (∀ h, t.isFree h = false) ∧ (∀ h < s.cfg.nPackets, t.ownerOf h = .caller) ∧
      exec .alloc t = .next (t.returning .none) ∧
      ∀ h < s.cfg.nPackets, h < 65536 → ∃ u v, exec (.free (BitVec.ofNat 16 h)) t = .next u ∧ exec .alloc u = .next v ∧
        v.result = some (.ok (.handle h))

/-- FREE (R112, R113, R114): INVALID_HANDLE unless the caller owns the packet; otherwise, unless the machine is starved
and configured, the packet is free and the pool's. -/
def Obligations.FreeReturnsPacket : Prop :=
  ∀ (s : State) (h : Half), s.Alive →
    (¬(h.toNat < s.cfg.nPackets ∧ s.ownerOf h.toNat = .caller) → exec (.free h) s = .next (s.raise .invalidHandle)) ∧
      (h.toNat < s.cfg.nPackets → s.ownerOf h.toNat = .caller → ¬(s.rxNeeded ≠ 0 ∧ s.config ≠ 0) →
        exec (.free h) s = .next { s with
          free := s.free.set h.toNat true
          owner := s.owner.set h.toNat .pool
          result := some (.ok .unit) })

/-- FREE while starved and configured (R115): the packet is armed in the first RX slot of an RX-enabled endpoint whose
descriptor is 0, endpoints ascending and EVEN before ODD; with none the counter is cleared and the packet is free. -/
def Obligations.FreeRedirects : Prop :=
  ∀ (s : State) (h : Half), s.Alive → h.toNat < s.cfg.nPackets → s.ownerOf h.toNat = .caller →
    s.rxNeeded ≠ 0 → s.config ≠ 0 →
    ((rxSlots s.cfg).Pairwise (fun x y => slotIndex x.1 .rx x.2 < slotIndex y.1 .rx y.2) ∧
        ∀ ep b, (ep, b) ∈ rxSlots s.cfg ↔ isDataEp s.cfg ep = true ∧ rxenBit (epConfigOf s.cfg ep) = true) ∧
      (∀ before ep b after, rxSlots s.cfg = before ++ (ep, b) :: after →
        (∀ x ∈ before, (s.slot x.1 .rx x.2).desc ≠ releasedDesc) → (s.slot ep .rx b).desc = releasedDesc →
        exec (.free h) s = .next
          { s.setSlot ep .rx b { desc := armedDesc 64 (bankToggle b), addr := .pool h.toNat } with
            owner := s.owner.set h.toNat (.slot ep .rx b)
            rxNeeded := s.rxNeeded - 1
            result := some (.ok .unit) }) ∧
      ((∀ x ∈ rxSlots s.cfg, (s.slot x.1 .rx x.2).desc ≠ releasedDesc) →
        exec (.free h) s = .next { s with
          free := s.free.set h.toNat true
          owner := s.owner.set h.toNat .pool
          rxNeeded := 0
          result := some (.ok .unit) })

/-! ### Endpoint queues -/

/-- TX's checks in the order written, the first that fails deciding (R160, R314). -/
def Obligations.TxChecksInOrder : Prop :=
  ∀ (s : State) (ep : Ep) (h : Half), s.Alive →
    (¬(1 ≤ ep.val ∧ ep.val ≤ s.cfg.numEndpoints.val ∧ txenBit (epConfigOf s.cfg ep) = true) →
        exec (.tx ep h) s = .next { s with result := some (.err .badEndpoint) }) ∧
      (txEnabled s.cfg ep = true → ¬(h.toNat < s.cfg.nPackets ∧ s.ownerOf h.toNat = .caller) →
        exec (.tx ep h) s = .next (s.raise .invalidHandle)) ∧
      (txEnabled s.cfg ep = true → s.callerOwns h.toNat = true → 64 < (s.header h.toNat).len.toNat →
        exec (.tx ep h) s = .next (s.raise .packetTooLong)) ∧
      (txEnabled s.cfg ep = true → s.callerOwns h.toNat = true → (s.header h.toNat).len.toNat ≤ 64 → s.config = 0 →
        exec (.tx ep h) s = .next { s with result := some (.err .notConfigured) })

/-- TX of a packet that passes the checks (R160, R135): the bank the bank machine gives is armed with it and the machine
moves on, or, with both banks armed, it is appended to the FIFO; and no descriptor the SIE owns is written (R131). -/
def Obligations.TxSubmits : Prop :=
  ∀ (s : State) (ep : Ep) (h : Half), s.Alive → txEnabled s.cfg ep = true → s.callerOwns h.toNat = true →
    (s.header h.toNat).len.toNat ≤ 64 → s.config ≠ 0 →
    (∀ x ∈ [(TxState.bothFreeEvenFirst, Bank.even, TxState.oddFree),
          (TxState.bothFreeOddFirst, Bank.odd, TxState.evenFree),
          (TxState.evenFree, Bank.even, TxState.noneFreeOddFirst),
          (TxState.oddFree, Bank.odd, TxState.noneFreeEvenFirst)],
        epGet s.txState ep = x.1 →
          ((s.slot ep .tx x.2.1).desc.own = false → exec (.tx ep h) s = .next
            { s.setSlot ep .tx x.2.1
                { desc := armedDesc ((s.header h.toNat).len.setWidth 10) (bankToggle x.2.1), addr := .pool h.toNat } with
              owner := s.owner.set h.toNat (.slot ep .tx x.2.1)
              txState := epPut s.txState ep x.2.2
              result := some (.ok .unit) }) ∧
            ((s.slot ep .tx x.2.1).desc.own = true →
              exec (.tx ep h) s = .next (s.raise .ownedDescriptorWrite))) ∧
      (epGet s.txState ep = .noneFreeEvenFirst ∨ epGet s.txState ep = .noneFreeOddFirst →
        exec (.tx ep h) s = .next { s with
          pkt := (s.linkLast (epGet s.txq ep) h.toNat).pkt
          txq := epPut s.txq ep (epGet s.txq ep ++ [h.toNat])
          owner := s.owner.set h.toNat (.queue ep .tx)
          result := some (.ok .unit) })

/-- R139: three TX commands with no completion between them arm EVEN, then ODD, then queue the third packet without a
descriptor write. -/
def Obligations.ThreeSubmissions : Prop :=
  ∀ (s : State) (ep : Ep) (h1 h2 h3 : Half), s.Alive → txEnabled s.cfg ep = true → s.config ≠ 0 →
    h1 ≠ h2 → h1 ≠ h3 → h2 ≠ h3 →
    (∀ h ∈ [h1, h2, h3], s.callerOwns h.toNat = true ∧ (s.header h.toNat).len.toNat ≤ 64) →
    epGet s.txState ep = .bothFreeEvenFirst → epGet s.txq ep = [] →
    (∀ b, (s.slot ep .tx b).desc.own = false) →
    ∃ t1 t2 t3, exec (.tx ep h1) s = .next t1 ∧ exec (.tx ep h2) t1 = .next t2 ∧ exec (.tx ep h3) t2 = .next t3 ∧
      t1.slot ep .tx .even = { desc := armedDesc ((s.header h1.toNat).len.setWidth 10) .data0, addr := .pool h1.toNat } ∧
      t2.slot ep .tx .odd = { desc := armedDesc ((s.header h2.toNat).len.setWidth 10) .data1, addr := .pool h2.toNat } ∧
      epGet t2.txq ep = [] ∧ epGet t3.txq ep = [h3.toNat] ∧ t3.bdt = t2.bdt ∧
      epGet t1.txState ep = .oddFree ∧ epGet t2.txState ep = .noneFreeEvenFirst ∧
      epGet t3.txState ep = .noneFreeEvenFirst

/-- RX (R162): its checks in order, and the head of the RX FIFO passed to the caller with the byte count lowered. -/
def Obligations.RxTakesHead : Prop :=
  ∀ (s : State) (ep : Ep), s.Alive →
    (¬(1 ≤ ep.val ∧ ep.val ≤ s.cfg.numEndpoints.val ∧ rxenBit (epConfigOf s.cfg ep) = true) →
        exec (.rx ep) s = .next { s with result := some (.err .badEndpoint) }) ∧
      (rxEnabled s.cfg ep = true → s.config = 0 ∨ epGet s.rxq ep = [] →
        exec (.rx ep) s = .next { s with result := some .none }) ∧
      (rxEnabled s.cfg ep = true → s.config ≠ 0 → ∀ h rest, epGet s.rxq ep = h :: rest →
        exec (.rx ep) s = .next { s with
          rxq := epPut s.rxq ep rest
          rxBytes := epPut s.rxBytes ep (epGet s.rxBytes ep - (s.header h).len.setWidth 32)
          pkt := s.pkt.set h { s.header h with next := none }
          owner := s.owner.set h .caller
          result := some (.ok (.handle h)) })

/-- The three counts (R164 to R166) of endpoints 1..NUM_ENDPOINTS, BAD_ENDPOINT for any other, and CONFIGURED
(R167). -/
def Obligations.CountsAndConfigured : Prop :=
  ∀ (s : State) (ep : Ep), s.Alive →
    (1 ≤ ep.val ∧ ep.val ≤ s.cfg.numEndpoints.val →
        exec (.txByteCount ep) s = .next { s with result := some (.ok (.count
          (((epGet s.txq ep).map (fun p => (s.header p).len.setWidth 32)).foldr (fun x y => x + y) 0))) } ∧
          exec (.txPacketCount ep) s = .next { s with result := some (.ok (.count
            (BitVec.ofNat 32 (epGet s.txq ep).length))) } ∧
          exec (.rxByteCount ep) s = .next { s with result := some (.ok (.count (epGet s.rxBytes ep))) }) ∧
      (¬(1 ≤ ep.val ∧ ep.val ≤ s.cfg.numEndpoints.val) →
        exec (.txByteCount ep) s = .next { s with result := some (.err .badEndpoint) } ∧
          exec (.txPacketCount ep) s = .next { s with result := some (.err .badEndpoint) } ∧
          exec (.rxByteCount ep) s = .next { s with result := some (.err .badEndpoint) }) ∧
      exec .configured s = .next { s with result := some (.ok (.bool (decide (s.config ≠ 0)))) }

/-- PKT_FILL (R168): INVALID_HANDLE unless the caller owns the packet; otherwise the payload is the packet's first bytes
and its length the payload's, every other byte of every buffer as it was. -/
def Obligations.PktFillWritesPayload : Prop :=
  ∀ (s : State) (h : Half) (d : List Byte), s.Alive → s.MemoryCanonical → d.length ≤ 64 →
    (¬(h.toNat < s.cfg.nPackets ∧ s.ownerOf h.toNat = .caller) →
        exec (.pktFill h d) s = .next (s.raise .invalidHandle)) ∧
      (h.toNat < s.cfg.nPackets → s.ownerOf h.toNat = .caller → ∃ t, exec (.pktFill h d) s = .next t ∧
        t = { s with
          pkt := s.pkt.set h.toNat { s.header h.toNat with len := BitVec.ofNat 16 d.length }
          mem := t.mem
          result := some (.ok .unit) } ∧
        (∀ (k : Nat) (hk : k < d.length), t.byteAt (.pool h.toNat) k = some d[k]) ∧
        (∀ (b : Buffer) (k : Nat), k < bufferLen s.cfg b → ¬(b = .pool h.toNat ∧ k < d.length) →
          t.byteAt b k = s.byteAt b k))

/-- PKT_READ (R169): INVALID_HANDLE unless the caller owns the packet; otherwise the length, the index and the first
`len` bytes, or UNWRITTEN_READ when one of them has never been written. A length past the buffer faults (R62). -/
def Obligations.PktReadReturnsPacket : Prop :=
  ∀ (s : State) (h : Half), s.Alive →
    (¬(h.toNat < s.cfg.nPackets ∧ s.ownerOf h.toNat = .caller) →
        exec (.pktRead h) s = .next (s.raise .invalidHandle)) ∧
      (h.toNat < s.cfg.nPackets → s.ownerOf h.toNat = .caller → (s.header h.toNat).len.toNat ≤ 64 →
        (∀ bs : List Byte, bs.length = (s.header h.toNat).len.toNat →
          (∀ (k : Nat) (hk : k < bs.length), s.byteAt (.pool h.toNat) k = some bs[k]) →
          exec (.pktRead h) s = .next { s with
            result := some (.ok (.packet (s.header h.toNat).len (s.header h.toNat).index bs)) }) ∧
        (∀ k < (s.header h.toNat).len.toNat, s.byteAt (.pool h.toNat) k = none →
          exec (.pktRead h) s = .next (s.raise .unwrittenRead))) ∧
      (h.toNat < s.cfg.nPackets → s.ownerOf h.toNat = .caller → 64 < (s.header h.toNat).len.toNat →
        exec (.pktRead h) s = .next (s.raise .outOfBounds))

/-! ### Bus reset, power and reload -/

/-- HOST_BUS_RESET of an attached device, INIT and REINIT all do the ten steps of BusResetState (R343), INIT also
attaching (R347) and REINIT also counting and logging a reconnect (R274). -/
def Obligations.BusResets : Prop :=
  ∀ s : State, s.Alive → ∃ t, BusResetDone s t ∧
    (s.attached = true → exec .hostBusReset s = .next t) ∧
    exec .init s = .next { t with attached := true, result := some (.ok .unit) } ∧
    exec .reinit s = .next { t with
      reconnects := s.reconnects + 1
      obs := s.obs ++ [.reconnect]
      result := some (.ok .unit) }

/-- R345: after each command that does BusResetState, every packet is the pool's or the caller's, every slot of
endpoints 1..NUM_ENDPOINTS is Null with desc 0, and the only SIE-owned slots of endpoints 0..NUM_ENDPOINTS are the two
endpoint-0 RX slots. -/
def Obligations.OwnersAfterBusReset : Prop :=
  ∀ (i : Instr) (s t : State), s.Ownership → i ∈ [Instr.init, .reinit, .hostBusReset, .powerTimeout] →
    (i = .hostBusReset → s.attached = true) → (i = .powerTimeout → s.pwr.armed = true) →
    exec i s = .next t → t.fault = none →
    (∀ h < s.cfg.nPackets, (t.ownerOf h = .pool ∧ t.isFree h = true) ∨ (t.ownerOf h = .caller ∧ t.isFree h = false)) ∧
      (∀ ep d b, isDataEp s.cfg ep = true → t.slot ep d b = Slot.cleared) ∧
      ∀ ep d b, isEndpoint s.cfg ep = true → ((t.slot ep d b).desc.own = true ↔ ep = 0 ∧ d = .rx)

/-- DEVICE_RELOAD (R276): the device is marked reloaded and nothing else changes; after it no agent has a step. -/
def Obligations.DeviceReloadStops : Prop :=
  ∀ s : State, s.Alive → exec .deviceReload s = .next { s with reloaded := true, result := some (.ok .unit) } ∧
    ∀ (i : Instr) (t : State), exec .deviceReload s = .next t → exec i t = .fault .reloaded

/-- POWER_TIMEOUT while armed (R271, R272, R274): every configuration descriptor's bMaxPower byte is lowered, no other
byte is written, the timer is disarmed, and REINIT's effects follow; a configuration descriptor too short for the
byte faults OUT_OF_BOUNDS (the model's reading of R62, log entry 19). -/
def Obligations.PowerTimeoutLowers : Prop :=
  ∀ s : State, s.Alive → s.MemoryCanonical → s.pwr.armed = true →
    ((∀ (k : Nat) (e : DescEntry), s.cfg.descTable[k]? = some e → e.wValue.extractLsb' 8 8 = 2 →
        s.cfg.bMaxPowerOffset < bufferLen s.cfg (.region (.desc k))) →
      ∃ u m, exec .powerTimeout s = .next u ∧
        BusResetDone { s with pwr := { armed := false, lowered := true }, mem := m }
          { u with reconnects := s.reconnects, obs := s.obs } ∧
        u.reconnects = s.reconnects + 1 ∧ u.obs = s.obs ++ [.reconnect] ∧
        (∀ (k : Nat) (e : DescEntry), s.cfg.descTable[k]? = some e → e.wValue.extractLsb' 8 8 = 2 →
          u.byteAt (.region (.desc k)) s.cfg.bMaxPowerOffset = some s.cfg.loweredBMaxPower) ∧
        (∀ (b : Buffer) (j : Nat), j < bufferLen s.cfg b →
          ¬(∃ k e, b = .region (.desc k) ∧ s.cfg.descTable[k]? = some e ∧ e.wValue.extractLsb' 8 8 = 2 ∧
            j = s.cfg.bMaxPowerOffset) → u.byteAt b j = s.byteAt b j)) ∧
      ((∃ (k : Nat) (e : DescEntry), s.cfg.descTable[k]? = some e ∧ e.wValue.extractLsb' 8 8 = 2 ∧
          bufferLen s.cfg (.region (.desc k)) ≤ s.cfg.bMaxPowerOffset) →
        exec .powerTimeout s = .next (s.raise .outOfBounds))

/-- What is not enabled has no step (R310 (e)), which the model shows as a next state equal to the state before (log
entry 4, DEDUCED): TOKEN_DONE with no entry, POWER_TIMEOUT unarmed, HOST_BUS_RESET unattached, and a host transaction
that R290 to R296 do not enable. That a packet longer than the endpoint takes has no step, and that a token to an
endpoint above NUM_ENDPOINTS has none, is the model's reading (log entries 17 and 22, DEDUCED). -/
def Obligations.NotEnabledNoStep : Prop :=
  ∀ (s : State) (ep : Ep) (a : BitVec 7) (p : SetupPacket) (d : List Byte), s.Alive →
    (s.stat = [] → exec .tokenDone s = .next s) ∧
      (s.pwr.armed = false → exec .powerTimeout s = .next s) ∧
      (s.attached = false → exec .hostBusReset s = .next s) ∧
      (s.attached = false ∨ a ≠ s.addr ∨ s.cfg.statDepth ≤ s.stat.length →
        exec (.hostSetup a p) s = .next s ∧ exec (.hostOut ep a d) s = .next s ∧ exec (.hostIn ep a) s = .next s) ∧
      (rxenBit (epGet s.endpt 0) = false ∨ (s.slot 0 .rx (s.ppBank 0 .rx)).desc.own = false ∨
          (s.slot 0 .rx (s.ppBank 0 .rx)).desc.bc.toNat < 8 → exec (.hostSetup a p) s = .next s) ∧
      (s.tokenSuspend = true ∨ s.cfg.numEndpoints.val < ep.val →
        exec (.hostOut ep a d) s = .next s ∧ exec (.hostIn ep a) s = .next s) ∧
      (rxenBit (epGet s.endpt ep) = false ∨ (if ep = 0 then s.cfg.ep0Size.toNat else 64) < d.length →
        exec (.hostOut ep a d) s = .next s) ∧
      (txenBit (epGet s.endpt ep) = false → exec (.hostIn ep a) s = .next s) ∧
      (stallBit (epGet s.endpt ep) = false → (s.slot ep .rx (s.ppBank ep .rx)).desc.own = false ∨
          (s.slot ep .rx (s.ppBank ep .rx)).desc.bc.toNat < d.length → exec (.hostOut ep a d) s = .next s) ∧
      (stallBit (epGet s.endpt ep) = false → (s.slot ep .tx (s.ppBank ep .tx)).desc.own = false →
        exec (.hostIn ep a) s = .next s)

/-! ### TOKEN_DONE on endpoints 1..NUM_ENDPOINTS -/

/-- TOKEN_DONE of an entry that cannot be (R136, R84, R87): UNEXPECTED_TOKEN on a slot still owned, on a PID the SIE does
not write, and on an illegal combination of endpoint, direction and PID. -/
def Obligations.TokenDoneRejects : Prop :=
  ∀ (s : State) (e : StatEntry) (rest : List StatEntry), s.Alive → s.stat = e :: rest →
    ((s.slot e.ep e.dir e.bank).desc.own = true ∨
        ¬((e.ep = 0 ∧ e.dir = .rx ∧ (s.slot e.ep e.dir e.bank).desc.low = 0xD) ∨
          (e.dir = .rx ∧ (s.slot e.ep e.dir e.bank).desc.low = 0x1 ∧ e.ep.val ≤ s.cfg.numEndpoints.val) ∨
          (e.dir = .tx ∧ (s.slot e.ep e.dir e.bank).desc.low = 0x9 ∧ e.ep.val ≤ s.cfg.numEndpoints.val)) →
      exec .tokenDone s = .next (s.raise .unexpectedToken))

/-- TX completion (R137, R138): a bank the machine holds free faults BANK_STATE_MISMATCH, a queued packet with a bank
free QUEUE_INVARIANT, a slot without a packet UNEXPECTED_TOKEN; otherwise the slot is released, its packet given back,
and the machine moves on, and with both banks busy and a packet queued that packet is armed in the completed bank. -/
def Obligations.TxCompletion : Prop :=
  ∀ (s : State) (ep : Ep) (c : Bank) (rest : List StatEntry), s.Alive →
    s.stat = { ep := ep, dir := .tx, bank := c } :: rest → isDataEp s.cfg ep = true →
    (s.slot ep .tx c).desc.own = false → (s.slot ep .tx c).desc.low = 0x9 →
    let st := epGet s.txState ep
    (st = .bothFreeEvenFirst ∨ st = .bothFreeOddFirst ∨ (st = .evenFree ∧ c = .even) ∨ (st = .oddFree ∧ c = .odd) →
        exec .tokenDone s = .next (s.raise .bankStateMismatch)) ∧
      ((st = .evenFree ∧ c = .odd) ∨ (st = .oddFree ∧ c = .even) → epGet s.txq ep ≠ [] →
        exec .tokenDone s = .next (s.raise .queueInvariant)) ∧
      (noneFree st = true ∨ (((st = .evenFree ∧ c = .odd) ∨ (st = .oddFree ∧ c = .even)) ∧ epGet s.txq ep = []) →
        (s.slot ep .tx c).addr.isPool = false → exec .tokenDone s = .next (s.raise .unexpectedToken)) ∧
      ∀ h : Nat, (s.slot ep .tx c).addr = .pool h →
        let u := (({ s with stat := rest } : State).setSlot ep .tx c Slot.cleared).release h
        (∀ x ∈ [(TxState.evenFree, Bank.odd, TxState.bothFreeEvenFirst),
              (TxState.oddFree, Bank.even, TxState.bothFreeOddFirst),
              (TxState.noneFreeEvenFirst, Bank.even, TxState.evenFree),
              (TxState.noneFreeEvenFirst, Bank.odd, TxState.oddFree),
              (TxState.noneFreeOddFirst, Bank.even, TxState.evenFree),
              (TxState.noneFreeOddFirst, Bank.odd, TxState.oddFree)],
            st = x.1 → c = x.2.1 → epGet s.txq ep = [] →
            exec .tokenDone s = .next { u with txState := epPut s.txState ep x.2.2 }) ∧
          (∀ q qs, noneFree st = true → epGet s.txq ep = q :: qs →
            exec .tokenDone s = .next
              { u.setSlot ep .tx c
                  { desc := armedDesc ((s.header q).len.setWidth 10) (bankToggle c), addr := .pool q } with
                txq := epPut s.txq ep qs
                pkt := s.pkt.set q { s.header q with next := none }
                owner := u.owner.set q (.slot ep .tx c)
                txState := epPut s.txState ep (if c = .even then .noneFreeOddFirst else .noneFreeEvenFirst) })

/-- RX completion (R140, R141): a packet of n > 0 bytes is queued and the slot gets a fresh packet or is left starved;
a zero-length one leaves no trace and the same buffer is armed again; a slot without a packet faults. -/
def Obligations.RxCompletion : Prop :=
  ∀ (s : State) (ep : Ep) (b : Bank) (rest : List StatEntry), s.Alive →
    s.stat = { ep := ep, dir := .rx, bank := b } :: rest → isDataEp s.cfg ep = true →
    (s.slot ep .rx b).desc.own = false → (s.slot ep .rx b).desc.low = 0x1 →
    ((s.slot ep .rx b).addr.isPool = false → exec .tokenDone s = .next (s.raise .unexpectedToken)) ∧
      ∀ h : Nat, (s.slot ep .rx b).addr = .pool h →
        let n := (s.slot ep .rx b).desc.bc
        let u : State := { s with
          stat := rest
          pkt := ((s.setHeader h { len := n.setWidth 16, index := 0, next := none }).linkLast (epGet s.rxq ep) h).pkt
          rxq := epPut s.rxq ep (epGet s.rxq ep ++ [h])
          owner := s.owner.set h (.queue ep .rx)
          rxBytes := epPut s.rxBytes ep (epGet s.rxBytes ep + n.setWidth 32) }
        (n = 0 → exec .tokenDone s = .next (({ s with stat := rest } : State).setSlot ep .rx b
            { desc := armedDesc 64 (bankToggle b), addr := .pool h })) ∧
          (n ≠ 0 → (∀ i, s.isFree i = false) →
            exec .tokenDone s = .next { u.setSlot ep .rx b Slot.cleared with rxNeeded := s.rxNeeded + 1 }) ∧
          (n ≠ 0 → (∃ i, s.isFree i = true) → ∃ i t, s.isFree i = true ∧ exec .tokenDone s = .next t ∧
            t = { u.setSlot ep .rx b { desc := armedDesc 64 (bankToggle b), addr := .pool i } with
              free := s.free.set i false
              owner := u.owner.set i (.slot ep .rx b)
              pkt := u.pkt.set i { len := 0, index := 0, next := none }
              mem := if s.cfg.allocZeroesBuf = true then
                  writeBytes s.cfg s.mem (bufferKey s.cfg (.pool i) 0) (List.replicate 64 0)
                else s.mem
              draws := t.draws
              drawn := t.drawn })

/-! ### TOKEN_DONE on endpoint 0 -/

/-- An endpoint-0 IN completion (R188, R186): the bank must be the control context's; the slot is released, bank and
toggle advance, and the stage goes on. The offset of the chunk after the one armed does not wrap at 65536 (the model's
choice, log entry 29). -/
def Obligations.ControlInCompletion : Prop :=
  ∀ (s : State) (c : Bank) (rest : List StatEntry), s.Alive →
    s.stat = { ep := 0, dir := .tx, bank := c } :: rest →
    (s.slot 0 .tx c).desc.own = false → (s.slot 0 .tx c).desc.low = 0x9 →
    let e : Ep0 := { s.ep0 with bank := c.other, toggle := s.ep0.toggle.other }
    let u : State := { ({ s with stat := rest } : State).setSlot 0 .tx c Slot.cleared with ep0 := e }
    (c ≠ s.ep0.bank → exec .tokenDone s = .next (s.raise .ep0BankMismatch)) ∧
      (c = s.ep0.bank →
        (s.ctl = .dataIn → s.ep0.pending = none → exec .tokenDone s = .next { u with ctl := .statusOut }) ∧
        (s.ctl = .dataIn → ∀ r off, s.ep0.pending = some (r, off) →
          ((s.slot 0 .tx c.other).desc.own = false → exec .tokenDone s = .next
            { u.setSlot 0 .tx c.other (chunkSlot s.cfg r off s.ep0.pendingLen s.ep0.toggle.other) with
              ep0 := afterChunk s.cfg e r off s.ep0.pendingLen }) ∧
          ((s.slot 0 .tx c.other).desc.own = true →
            exec .tokenDone s = .next (s.raise .ownedDescriptorWrite))) ∧
        (s.ctl = .statusIn → ∀ a, s.setAddrPending = some a →
          exec .tokenDone s = .next { u with addr := a, setAddrPending := none, ctl := .idle }) ∧
        (s.ctl = .statusIn → s.setAddrPending = none → exec .tokenDone s = .next { u with ctl := .idle }) ∧
        (s.ctl = .idle ∨ s.ctl = .dataOut ∨ s.ctl = .statusOut → exec .tokenDone s = .next u))

/-- An endpoint-0 OUT completion (R191): the buffer is given back; a data stage passes its bytes to the sink, bytes
beyond wLength discarded, and ends with a short packet or at wLength; elsewhere it ends the transfer or changes
nothing. -/
def Obligations.ControlOutCompletion : Prop :=
  ∀ (s : State) (b : Bank) (rest : List StatEntry) (data : List Byte), s.Alive →
    s.stat = { ep := 0, dir := .rx, bank := b } :: rest →
    (s.slot 0 .rx b).desc.own = false → (s.slot 0 .rx b).desc.low = 0x1 →
    let input := s.readBuffer (.region (.ep0rx b)) 0 (s.slot 0 .rx b).desc.bc.toNat
    let u := ({ s with stat := rest } : State).setSlot 0 .rx b
      { desc := armedDesc (BitVec.ofNat 10 s.cfg.ep0Size.toNat) .data1, addr := .reg (.ep0rx b) 0 }
    (∀ r, input = .error r → exec .tokenDone s = .next (s.raise r)) ∧
      (input = .ok data → s.ctl = .statusOut → exec .tokenDone s = .next { u with ctl := .idle }) ∧
      (input = .ok data → s.ctl = .dataIn → exec .tokenDone s = .next { u with
        ctl := .idle
        ep0 := { s.ep0 with pending := none, pendingLen := 0 } }) ∧
      (input = .ok data → s.ctl = .idle ∨ s.ctl = .statusIn → exec .tokenDone s = .next u) ∧
      (input = .ok data → s.ctl = .dataOut → ∀ sink, s.ep0out.sink = some sink →
        let k := min data.length (s.setup.wLength.toNat - s.ep0out.received.toNat)
        let got := s.ep0out.received + BitVec.ofNat 16 k
        let w := CollabCall.sinkWrite sink s.ep0out.received (data.take k)
        (¬(s.setup.wLength ≤ got ∨ data.length < s.cfg.ep0Size.toNat) →
          exec .tokenDone s = .next { u with
            calls := s.calls ++ [w]
            ep0out := { received := got, sink := some sink } }) ∧
        (s.setup.wLength ≤ got ∨ data.length < s.cfg.ep0Size.toNat → (s.slot 0 .tx s.ep0.bank).desc.own = true →
          exec .tokenDone s = .next (s.raise .ownedDescriptorWrite)) ∧
        (s.setup.wLength ≤ got ∨ data.length < s.cfg.ep0Size.toNat → (s.slot 0 .tx s.ep0.bank).desc.own = false →
          exec .tokenDone s = .next
            { u.setSlot 0 .tx s.ep0.bank { desc := armedDesc 0 s.ep0.toggle, addr := .reg .reply 0 } with
              calls := s.calls ++ [w, .sinkComplete sink got]
              ep0out := { received := got, sink := some sink }
              ctl := .statusIn }))

/-- R197: a SETUP whose code is not in R94's table stalls endpoint 0, arms no TX slot of it, and changes nothing outside
endpoint 0 and the power monitor but the entry handled. -/
def Obligations.UnknownRequestStalls : Prop :=
  ∀ (s : State) (b : Bank) (rest : List StatEntry) (bytes : List Byte) (p : SetupPacket),
    s.Alive → s.stat = { ep := 0, dir := .rx, bank := b } :: rest →
    (s.slot 0 .rx b).desc.own = false → (s.slot 0 .rx b).desc.low = 0xD →
    s.readBuffer (.region (.ep0rx b)) 0 8 = .ok bytes → setupOfBytes bytes = some p → decodeRequest p = none →
    ∃ t, exec .tokenDone s = .next t ∧
      t = { s.staged p .idle s.ep0.fresh t.bdt with stat := rest, endpt := epPut s.endpt 0 0x0F } ∧
      t.slot 0 .rx b = { desc := armedDesc (ep0Count s.cfg) .data1, addr := .reg (.ep0rx b) 0 } ∧
      (∀ c, t.slot 0 .tx c = Slot.cleared) ∧
      ∀ ep d c, ¬(ep = 0 ∧ d = .tx) → ¬(ep = 0 ∧ d = .rx ∧ c = b) → t.slot ep d c = s.slot ep d c

/-! ### The SIE and the host -/

/-- HOST_SETUP (R292, R291): the eight bytes land in the slot's buffer, the slot is handed back, the ppbit flips, STALL of
endpoint 0 is cleared, `token_suspend` set, the entry queued and SetupAck logged; a buffer too short faults. -/
def Obligations.HostSetupLands : Prop :=
  ∀ (s : State) (a : BitVec 7) (p : SetupPacket), s.Alive → s.attached = true → a = s.addr →
    s.stat.length < s.cfg.statDepth → rxenBit (epGet s.endpt 0) = true →
    let b := s.ppBank 0 .rx
    let x := s.slot 0 .rx b
    x.desc.own = true → 8 ≤ x.desc.bc.toNat →
    (∀ buf off, refTarget x.addr = some (buf, off) → off + 8 ≤ bufferLen s.cfg buf →
      exec (.hostSetup a p) s = .next
        { (s.setSlot 0 .rx b { desc := { x.desc with own := false, bc := 8, low := 0xD }, addr := x.addr }).setPp 0 .rx
            b.other with
          mem := writeBytes s.cfg s.mem (bufferKey s.cfg buf off) (setupBytes p)
          endpt := epPut s.endpt 0 (epGet s.endpt 0 &&& 0xFD)
          tokenSuspend := true
          stat := s.stat ++ [{ ep := 0, dir := .rx, bank := b }]
          obs := s.obs ++ [.setupAck] }) ∧
      ((∀ buf off, refTarget x.addr = some (buf, off) → bufferLen s.cfg buf < off + 8) →
        exec (.hostSetup a p) s = .next (s.raise .outOfBounds))

/-- HOST_OUT (R293): the packet lands in the slot's buffer, the slot is handed back with its byte count and PID, the ppbit
flips, the entry is queued and OutAck logged; a buffer too short faults. -/
def Obligations.HostOutLands : Prop :=
  ∀ (s : State) (ep : Ep) (a : BitVec 7) (d : List Byte), s.Alive → s.attached = true → a = s.addr →
    s.stat.length < s.cfg.statDepth → s.tokenSuspend = false → ep.val ≤ s.cfg.numEndpoints.val →
    rxenBit (epGet s.endpt ep) = true → stallBit (epGet s.endpt ep) = false →
    d.length ≤ (if ep = 0 then s.cfg.ep0Size.toNat else 64) →
    let b := s.ppBank ep .rx
    let x := s.slot ep .rx b
    x.desc.own = true → d.length ≤ x.desc.bc.toNat →
    (∀ buf off, refTarget x.addr = some (buf, off) → off + d.length ≤ bufferLen s.cfg buf →
      exec (.hostOut ep a d) s = .next
        { (s.setSlot ep .rx b
            { desc := { x.desc with own := false, bc := BitVec.ofNat 10 d.length, low := 0x1 }, addr := x.addr }).setPp
            ep .rx b.other with
          mem := writeBytes s.cfg s.mem (bufferKey s.cfg buf off) d
          stat := s.stat ++ [{ ep := ep, dir := .rx, bank := b }]
          obs := s.obs ++ [.outAck ep d.length] }) ∧
      ((∀ buf off, refTarget x.addr = some (buf, off) → bufferLen s.cfg buf < off + d.length) →
        exec (.hostOut ep a d) s = .next (s.raise .outOfBounds))

/-- HOST_IN (R294, R74): the host receives the bytes the slot's buffer holds now, with the slot's toggle; the slot is
handed back with its byte count kept, the ppbit flips and the entry is queued. From a collaborator's region the bytes
are free values (log entry 10); past the buffer's end, or on a byte never written, it faults. -/
def Obligations.HostInSends : Prop :=
  ∀ (s : State) (ep : Ep) (a : BitVec 7), s.Alive → s.attached = true → a = s.addr →
    s.stat.length < s.cfg.statDepth → s.tokenSuspend = false → ep.val ≤ s.cfg.numEndpoints.val →
    txenBit (epGet s.endpt ep) = true → stallBit (epGet s.endpt ep) = false →
    let b := s.ppBank ep .tx
    let x := s.slot ep .tx b
    x.desc.own = true →
    (∀ buf off, refTarget x.addr = some (buf, off) → off + x.desc.bc.toNat ≤ bufferLen s.cfg buf →
      (isCollab buf = true ∨ ∀ k < x.desc.bc.toNat, (s.byteAt buf (off + k)).isSome = true) →
      ∃ bs t, exec (.hostIn ep a) s = .next t ∧ bs.length = x.desc.bc.toNat ∧
        (isCollab buf = false → ∀ (k : Nat) (hk : k < bs.length), s.byteAt buf (off + k) = some bs[k]) ∧
        (isCollab buf = false → t.draws = s.draws ∧ t.drawn = s.drawn) ∧
        t = { (s.setSlot ep .tx b { desc := { x.desc with own := false, low := 0x9 }, addr := x.addr }).setPp ep .tx
            b.other with
          stat := s.stat ++ [{ ep := ep, dir := .tx, bank := b }]
          obs := s.obs ++ [.inData ep x.desc.data1 bs]
          draws := t.draws
          drawn := t.drawn }) ∧
      ((∀ buf off, refTarget x.addr = some (buf, off) → bufferLen s.cfg buf < off + x.desc.bc.toNat) →
        exec (.hostIn ep a) s = .next (s.raise .outOfBounds)) ∧
      (∀ buf off, refTarget x.addr = some (buf, off) → off + x.desc.bc.toNat ≤ bufferLen s.cfg buf →
        isCollab buf = false → (∃ k < x.desc.bc.toNat, s.byteAt buf (off + k) = none) →
        exec (.hostIn ep a) s = .next (s.raise .unwrittenRead))

/-- R295: on a stalled endpoint an IN or OUT is answered with a STALL handshake and changes nothing else. -/
def Obligations.StallHandshake : Prop :=
  ∀ (s : State) (ep : Ep) (a : BitVec 7) (d : List Byte), s.Alive → s.attached = true → a = s.addr →
    s.stat.length < s.cfg.statDepth → s.tokenSuspend = false → ep.val ≤ s.cfg.numEndpoints.val →
    stallBit (epGet s.endpt ep) = true →
    (rxenBit (epGet s.endpt ep) = true → d.length ≤ (if ep = 0 then s.cfg.ep0Size.toNat else 64) →
        exec (.hostOut ep a d) s = .next { s with obs := s.obs ++ [.stall ep .outToken] }) ∧
      (txenBit (epGet s.endpt ep) = true →
        exec (.hostIn ep a) s = .next { s with obs := s.obs ++ [.stall ep .inToken] })

/-- What the SIE's transactions may write (R20, R298): the memory, descriptors but never `addr`, `data1` or an arming,
ppbits, the token-done FIFO, `token_suspend`, endpoint 0's control byte and the log; and every IN packet the host
receives is one the block armed. -/
def Obligations.SieNeverArms : Prop :=
  ∀ (i : Instr) (s t : State), ((∃ a p, i = .hostSetup a p) ∨ (∃ ep a d, i = .hostOut ep a d) ∨ ∃ ep a, i = .hostIn ep a) →
    exec i s = .next t → t.fault = none →
    t = { s with
        mem := t.mem
        bdt := t.bdt
        pp := t.pp
        stat := t.stat
        tokenSuspend := t.tokenSuspend
        endpt := t.endpt
        obs := t.obs
        draws := t.draws
        drawn := t.drawn } ∧
      (∀ ep, ep ≠ 0 → epGet t.endpt ep = epGet s.endpt ep) ∧
      (∀ ep d b, (t.slot ep d b).addr = (s.slot ep d b).addr ∧ (t.slot ep d b).desc.data1 = (s.slot ep d b).desc.data1 ∧
        ((t.slot ep d b).desc.own = true → (s.slot ep d b).desc.own = true)) ∧
      (∀ ep tg bs, t.obs = s.obs ++ [.inData ep tg bs] → ∃ b, (s.slot ep .tx b).desc.own = true ∧
        (s.slot ep .tx b).desc.data1 = tg ∧ bs.length = (s.slot ep .tx b).desc.bc.toNat)

/-! ### Requests: the SETUP stage of each (R183 steps 1 and 3 to 9) -/

/-- The requests without a data stage: the status IN is armed DATA1, and each does its own one thing. SET_ADDRESS records
the address and leaves the address register alone (R225); SET_FEATURE and CLEAR_FEATURE set and clear STALL of
endpoint `wIndex[6:0]` (R226, R227; endpoint 0 too, as R226, R36 and vector E14 say: log entry 28), stalling endpoint 0 above
NUM_ENDPOINTS or for a selector other than 0; SET_IDLE, SET_PROTOCOL and SET_CONTROL_LINE_STATE call their
collaborator (R238, R239, R243). -/
def Obligations.RequestsWithoutData : Prop :=
  ∀ (s : State) (v w l : Half), s.Alive →
    (∃ t, exec (.setAddress v w l) s = .next t ∧ Ep0TxIs s t statusSlot ∧
        t = { s.staged (requestPacket 0x00 0x05 v w l) .statusIn s.ep0.fresh t.bdt with
          setAddrPending := some (v.extractLsb' 0 7) }) ∧
      (∀ i : Ep, i.val = (w.extractLsb' 0 7).toNat → i.val ≤ s.cfg.numEndpoints.val → v = 0 →
        (∃ t, exec (.setFeatureEndpoint v w l) s = .next t ∧ Ep0TxIs s t statusSlot ∧
          t = { s.staged (requestPacket 0x02 0x03 v w l) .statusIn s.ep0.fresh t.bdt with
            endpt := epPut s.endpt i (epGet s.endpt i ||| 0x02) }) ∧
        (∃ t, exec (.clearFeatureEndpoint v w l) s = .next t ∧ Ep0TxIs s t statusSlot ∧
          t = { s.staged (requestPacket 0x02 0x01 v w l) .statusIn s.ep0.fresh t.bdt with
            endpt := epPut s.endpt i (epGet s.endpt i &&& 0xFD) })) ∧
      (s.cfg.numEndpoints.val < (w.extractLsb' 0 7).toNat ∨ v ≠ 0 →
        (∃ t, exec (.setFeatureEndpoint v w l) s = .next t ∧ Ep0TxIs s t Slot.cleared ∧
          t = { s.staged (requestPacket 0x02 0x03 v w l) .idle s.ep0.fresh t.bdt with
            endpt := epPut s.endpt 0 0x0F }) ∧
        (∃ t, exec (.clearFeatureEndpoint v w l) s = .next t ∧ Ep0TxIs s t Slot.cleared ∧
          t = { s.staged (requestPacket 0x02 0x01 v w l) .idle s.ep0.fresh t.bdt with
            endpt := epPut s.endpt 0 0x0F })) ∧
      (∃ t, exec (.hidSetIdle v w l) s = .next t ∧ Ep0TxIs s t statusSlot ∧
        t = { s.staged (requestPacket 0x21 0x0A v w l) .statusIn s.ep0.fresh t.bdt with
          calls := s.calls ++ [.setIdle w (v.extractLsb' 0 8) (v.extractLsb' 8 8)] }) ∧
      (∃ t, exec (.hidSetProtocol v w l) s = .next t ∧ Ep0TxIs s t statusSlot ∧
        t = { s.staged (requestPacket 0x21 0x0B v w l) .statusIn s.ep0.fresh t.bdt with
          calls := s.calls ++ [.setProtocol w (v.extractLsb' 0 8)] }) ∧
      (∃ t, exec (.cdcSetControlLineState v w l) s = .next t ∧ Ep0TxIs s t statusSlot ∧
        t = { s.staged (requestPacket 0x21 0x22 v w l) .statusIn s.ep0.fresh t.bdt with
          calls := s.calls ++ [.setControlLineState v] })

/-- The requests answered from REPLY (R220, R221, R231, R235, R236): the answer's bytes stand at REPLY, and a data IN
stage of it, clamped to wLength, is armed DATA1 from REPLY. GET_STATUS of an endpoint above NUM_ENDPOINTS stalls. -/
def Obligations.RequestsFromReply : Prop :=
  ∀ (s : State) (v w l : Half), s.Alive →
    let ctx := fun n : Half => afterChunk s.cfg s.ep0.fresh .reply 0 (responseLen n l)
    let slot := fun n : Half => chunkSlot s.cfg .reply 0 (responseLen n l) .data1
    let put := fun bs : List Byte => writeBytes s.cfg s.mem (bufferKey s.cfg (.region .reply) 0) bs
    (∃ t, exec (.getStatusDevice v w l) s = .next t ∧ Ep0TxIs s t (slot 2) ∧
        t = { s.staged (requestPacket 0x80 0x00 v w l) .dataIn (ctx 2) t.bdt with mem := put [0x00, 0x00] }) ∧
      (∀ i : Ep, i.val = (w.extractLsb' 0 7).toNat → i.val ≤ s.cfg.numEndpoints.val →
        ∃ t, exec (.getStatusEndpoint v w l) s = .next t ∧ Ep0TxIs s t (slot 2) ∧
          t = { s.staged (requestPacket 0x82 0x00 v w l) .dataIn (ctx 2) t.bdt with
            mem := put [if stallBit (epGet s.endpt i) = true then 0x01 else 0x00, 0x00] }) ∧
      (s.cfg.numEndpoints.val < (w.extractLsb' 0 7).toNat →
        ∃ t, exec (.getStatusEndpoint v w l) s = .next t ∧ Ep0TxIs s t Slot.cleared ∧
          t = { s.staged (requestPacket 0x82 0x00 v w l) .idle s.ep0.fresh t.bdt with
            endpt := epPut s.endpt 0 0x0F }) ∧
      (∃ t, exec (.getConfiguration v w l) s = .next t ∧ Ep0TxIs s t (slot 1) ∧
        t = { s.staged (requestPacket 0x80 0x08 v w l) .dataIn (ctx 1) t.bdt with mem := put [s.config] }) ∧
      (∃ t x, exec (.hidGetIdle v w l) s = .next t ∧ Ep0TxIs s t (slot 1) ∧
        t = { s.staged (requestPacket 0xA1 0x02 v w l) .dataIn (ctx 1) t.bdt with
          mem := put [x]
          calls := s.calls ++ [.idle w (v.extractLsb' 0 8)]
          draws := t.draws
          drawn := t.drawn }) ∧
      (∃ t x, exec (.hidGetProtocol v w l) s = .next t ∧ Ep0TxIs s t (slot 1) ∧
        t = { s.staged (requestPacket 0xA1 0x03 v w l) .dataIn (ctx 1) t.bdt with
          mem := put [x]
          calls := s.calls ++ [.protocol w]
          draws := t.draws
          drawn := t.drawn })

/-- GET_DESCRIPTOR, of the device and of the interface (R228, R229, R230, R270): the first entry of DESC_TABLE equal in
both fields is sent from its start, its length its own first byte for a string and the table's otherwise, clamped to
wLength; a configuration descriptor arms the power timer when the monitor is enabled; no such entry stalls. -/
def Obligations.GetDescriptor : Prop :=
  ∀ (s : State) (v w l : Half), s.Alive →
    ((∀ e ∈ s.cfg.descTable, ¬(e.wValue = v ∧ e.wIndex = w)) →
        (∃ t, exec (.getDescriptorDevice v w l) s = .next t ∧ Ep0TxIs s t Slot.cleared ∧
          t = { s.staged (requestPacket 0x80 0x06 v w l) .idle s.ep0.fresh t.bdt with
            endpt := epPut s.endpt 0 0x0F }) ∧
        (∃ t, exec (.getDescriptorInterface v w l) s = .next t ∧ Ep0TxIs s t Slot.cleared ∧
          t = { s.staged (requestPacket 0x81 0x06 v w l) .idle s.ep0.fresh t.bdt with
            endpt := epPut s.endpt 0 0x0F })) ∧
      (∀ (k : Nat) (e : DescEntry) (n : Half), s.cfg.descTable[k]? = some e → e.wValue = v → e.wIndex = w →
        (∀ e' ∈ s.cfg.descTable.take k, ¬(e'.wValue = v ∧ e'.wIndex = w)) →
        (if v.extractLsb' 8 8 = 3 then
            0 < bufferLen s.cfg (.region (.desc k)) ∧
              ∃ x : Byte, s.byteAt (.region (.desc k)) 0 = some x ∧ n = x.setWidth 16
          else n = e.length) →
        (∃ t, exec (.getDescriptorDevice v w l) s = .next t ∧
          Ep0TxIs s t (chunkSlot s.cfg (.desc k) 0 (responseLen n l) .data1) ∧
          t = { s.staged (requestPacket 0x80 0x06 v w l) .dataIn
              (afterChunk s.cfg s.ep0.fresh (.desc k) 0 (responseLen n l)) t.bdt with
            pwr := { s.pwr with armed := decide (v.extractLsb' 8 8 = 2) && s.cfg.powerNegEnabled } }) ∧
        (∃ t, exec (.getDescriptorInterface v w l) s = .next t ∧
          Ep0TxIs s t (chunkSlot s.cfg (.desc k) 0 (responseLen n l) .data1) ∧
          t = { s.staged (requestPacket 0x81 0x06 v w l) .dataIn
              (afterChunk s.cfg s.ep0.fresh (.desc k) 0 (responseLen n l)) t.bdt with
            pwr := { s.pwr with armed := decide (v.extractLsb' 8 8 = 2) && s.cfg.powerNegEnabled } }))

/-- The requests answered from a collaborator's region (R234, R242): GET_REPORT stalls or sends what the collaborator
answers, any length at any offset of its region (the model's choice of region, log entry 10), the chunks after the
first going on from there without a wrap (log entry 29), and either answer can occur; GET_LINE_CODING sends 7 bytes. -/
def Obligations.RequestsFromCollaborators : Prop :=
  ∀ (s : State) (v w l : Half), s.Alive →
    (∃ t, exec (.hidGetReport v w l) s = .next t ∧
        ((Ep0TxIs s t Slot.cleared ∧
            t = { s.staged (requestPacket 0xA1 0x01 v w l) .idle s.ep0.fresh t.bdt with
              endpt := epPut s.endpt 0 0x0F
              calls := s.calls ++ [.getReport v w]
              draws := t.draws
              drawn := t.drawn }) ∨
          ∃ off n : Half, Ep0TxIs s t (chunkSlot s.cfg (.collab .hidReport) off.toNat (responseLen n l) .data1) ∧
            t = { s.staged (requestPacket 0xA1 0x01 v w l) .dataIn
                (afterChunk s.cfg s.ep0.fresh (.collab .hidReport) off.toNat (responseLen n l)) t.bdt with
              calls := s.calls ++ [.getReport v w]
              draws := t.draws
              drawn := t.drawn })) ∧
      (∃ x t, exec (.hidGetReport v w l) { s with draws := x :: s.draws } = .next t ∧ t.ctl = .idle) ∧
      (∀ off n : Half, ∃ x t, exec (.hidGetReport v w l) { s with draws := x :: s.draws } = .next t ∧
        Ep0TxIs s t (chunkSlot s.cfg (.collab .hidReport) off.toNat (responseLen n l) .data1)) ∧
      (∃ t, exec (.cdcGetLineCoding v w l) s = .next t ∧
        Ep0TxIs s t (chunkSlot s.cfg (.collab .lineCoding) 0 (responseLen 7 l) .data1) ∧
        t = { s.staged (requestPacket 0xA1 0x21 v w l) .dataIn
            (afterChunk s.cfg s.ep0.fresh (.collab .lineCoding) 0 (responseLen 7 l)) t.bdt with
          calls := s.calls ++ [.lineCodingRef] })

/-- The requests that take host data (R237, R241, R190): a DATA_OUT stage to their sink, or, with wLength 0, the sink
completed with 0 bytes and the status IN armed at once. -/
def Obligations.RequestsWithHostData : Prop :=
  ∀ (s : State) (v w l : Half), s.Alive →
    (l ≠ 0 →
        (∃ t, exec (.hidSetReport v w l) s = .next t ∧ Ep0TxIs s t Slot.cleared ∧
          t = { s.staged (requestPacket 0x21 0x09 v w l) .dataOut s.ep0.fresh t.bdt with
            ep0out := { received := 0, sink := some (.hidReport v w) } }) ∧
        (∃ t, exec (.cdcSetLineCoding v w l) s = .next t ∧ Ep0TxIs s t Slot.cleared ∧
          t = { s.staged (requestPacket 0x21 0x20 v w l) .dataOut s.ep0.fresh t.bdt with
            ep0out := { received := 0, sink := some .lineCoding } })) ∧
      (l = 0 →
        (∃ t, exec (.hidSetReport v w l) s = .next t ∧ Ep0TxIs s t statusSlot ∧
          t = { s.staged (requestPacket 0x21 0x09 v w l) .statusIn s.ep0.fresh t.bdt with
            calls := s.calls ++ [.sinkComplete (.hidReport v w) 0] }) ∧
        (∃ t, exec (.cdcSetLineCoding v w l) s = .next t ∧ Ep0TxIs s t statusSlot ∧
          t = { s.staged (requestPacket 0x21 0x20 v w l) .statusIn s.ep0.fresh t.bdt with
            calls := s.calls ++ [.sinkComplete .lineCoding 0] }))

/-- SET_CONFIGURATION (R232, R260 to R264): the value is recorded; every endpoint 1..NUM_ENDPOINTS is drained, disabled
of TX slots, set both-free with the SIE's next bank first, and enabled by EP_CONFIG; the first RX slots in scan order
get a free packet each, as many as there are, and the others are counted as starved; then the status IN is armed. -/
def Obligations.SetConfigurationReseeds : Prop :=
  ∀ (s : State) (v w l : Half), s.Alive →
    ∃ t, exec (.setConfiguration v w l) s = .next t ∧
      t = { s.staged (requestPacket 0x00 0x09 v w l) .statusIn s.ep0.fresh t.bdt with
        config := v.extractLsb' 0 8
        rxNeeded := BitVec.ofNat 32 ((rxSlots s.cfg).length - s.reclaimable)
        free := t.free
        owner := t.owner
        pkt := t.pkt
        mem := t.mem
        rxq := t.rxq
        txq := t.txq
        rxBytes := t.rxBytes
        txState := t.txState
        endpt := t.endpt
        draws := t.draws
        drawn := t.drawn } ∧
      (∀ ep, isDataEp s.cfg ep = true → epGet t.rxq ep = [] ∧ epGet t.txq ep = [] ∧ epGet t.rxBytes ep = 0 ∧
        epGet t.txState ep = bothFree (epGet s.txState ep) ∧ epGet t.endpt ep = epConfigOf s.cfg ep ∧
        (∀ b, t.slot ep .tx b = Slot.cleared) ∧
        (rxEnabled s.cfg ep = false → ∀ b, t.slot ep .rx b = Slot.cleared)) ∧
      (∀ ep, isDataEp s.cfg ep = false → epGet t.rxq ep = epGet s.rxq ep ∧ epGet t.txq ep = epGet s.txq ep ∧
        epGet t.rxBytes ep = epGet s.rxBytes ep ∧ epGet t.txState ep = epGet s.txState ep ∧
        epGet t.endpt ep = epGet s.endpt ep ∧ ∀ d b, ¬(ep = 0 ∧ d = .tx) → t.slot ep d b = s.slot ep d b) ∧
      (∀ (k : Nat) (ep : Ep) (b : Bank), (rxSlots s.cfg)[k]? = some (ep, b) →
        (k < s.reclaimable → ∃ p, t.slot ep .rx b = { desc := armedDesc 64 (bankToggle b), addr := .pool p } ∧
          t.isFree p = false ∧ (s.isFree p = true ∨ s.inTransit p = true)) ∧
        (s.reclaimable ≤ k → t.slot ep .rx b = Slot.cleared)) ∧
      t.freeIds.length = s.reclaimable - (rxSlots s.cfg).length ∧
      t.slot 0 .tx s.ep0.bank = statusSlot ∧ t.slot 0 .tx s.ep0.bank.other = Slot.cleared

/-- R265, with its frame: a second SET_CONFIGURATION with the same value (wValue's low byte) writes its SETUP packet and
otherwise only which packets are armed in the RX slots: the FIFOs are empty, the byte counts 0, the bank states both-free
and the endpoints enabled by EP_CONFIG, as after the first; every descriptor word is the same, and every slot but the
data endpoints' RX slots is; as many packets are free; and a packet that was neither free nor in an RX slot keeps its
owner, its header and its bytes. -/
def Obligations.SetConfigurationIdempotent : Prop :=
  ∀ (s t u : State) (v w l v' w' l' : Half), s.Alive → v'.extractLsb' 0 8 = v.extractLsb' 0 8 →
    exec (.setConfiguration v w l) s = .next t → exec (.setConfiguration v' w' l') t = .next u →
    u = { t with
      setup := requestPacket 0x00 0x09 v' w' l'
      bdt := u.bdt
      free := u.free
      owner := u.owner
      pkt := u.pkt
      mem := u.mem
      draws := u.draws
      drawn := u.drawn } ∧
    u.freeIds.length = t.freeIds.length ∧
    (∀ ep d b, (u.slot ep d b).desc = (t.slot ep d b).desc) ∧
    (∀ ep d b, ¬(isDataEp s.cfg ep = true ∧ d = .rx) → u.slot ep d b = t.slot ep d b) ∧
    (∀ ep, isDataEp s.cfg ep = true →
      epGet u.txq ep = [] ∧ epGet u.rxq ep = [] ∧ epGet u.rxBytes ep = 0 ∧
      (epGet u.txState ep = .bothFreeEvenFirst ∨ epGet u.txState ep = .bothFreeOddFirst) ∧
      epGet u.endpt ep = epConfigOf s.cfg ep) ∧
    ∀ h, t.isFree h = false → t.inTransit h = false →
      u.ownerOf h = t.ownerOf h ∧ u.header h = t.header h ∧ ∀ k < 64, u.byteAt (.pool h) k = t.byteAt (.pool h) k

/-! ### Memory -/

/-- The instructions that store nothing leave every byte of every buffer as it was. -/
def Obligations.MemoryKept : Prop :=
  ∀ (s t : State) (h v w l : Half) (ep : Ep) (a : BitVec 7) (i : Instr),
    i ∈ [Instr.init, .free h, .tx ep h, .rx ep, .txByteCount ep, .txPacketCount ep, .rxByteCount ep, .configured,
      .reinit, .deviceReload, .pktRead h, .hostIn ep a, .hostBusReset, .clearFeatureEndpoint v w l,
      .setFeatureEndpoint v w l, .setAddress v w l, .getDescriptorDevice v w l, .getDescriptorInterface v w l,
      .hidGetReport v w l, .hidSetReport v w l, .hidSetIdle v w l, .hidSetProtocol v w l, .cdcSetLineCoding v w l,
      .cdcGetLineCoding v w l, .cdcSetControlLineState v w l] →
    exec i s = .next t → ∀ (b : Buffer) (k : Nat), t.byteAt b k = s.byteAt b k

/-- The instructions that store leave every byte outside what they store as it was: ALLOC writes the packet it takes,
HOST_SETUP and HOST_OUT the buffer of the slot the SIE uses next, the REPLY requests the start of REPLY,
SET_CONFIGURATION packets that were free or in transit, and TOKEN_DONE only REPLY and such packets. -/
def Obligations.StoresStayInBounds : Prop :=
  ∀ (s t : State) (ep : Ep) (a : BitVec 7) (p : SetupPacket) (d : List Byte) (v w l : Half) (b : Buffer) (k : Nat),
    k < bufferLen s.cfg b →
    (exec .alloc s = .next t → b ≠ .pool s.pick → t.byteAt b k = s.byteAt b k) ∧
      (∀ buf off, refTarget (s.slot 0 .rx (s.ppBank 0 .rx)).addr = some (buf, off) →
        exec (.hostSetup a p) s = .next t → ¬(b = buf ∧ off ≤ k ∧ k < off + 8) → t.byteAt b k = s.byteAt b k) ∧
      (∀ buf off, refTarget (s.slot ep .rx (s.ppBank ep .rx)).addr = some (buf, off) →
        exec (.hostOut ep a d) s = .next t → ¬(b = buf ∧ off ≤ k ∧ k < off + d.length) →
        t.byteAt b k = s.byteAt b k) ∧
      (∀ i ∈ [Instr.getStatusDevice v w l, .getStatusEndpoint v w l], exec i s = .next t →
        ¬(b = .region .reply ∧ k < 2) → t.byteAt b k = s.byteAt b k) ∧
      (∀ i ∈ [Instr.getConfiguration v w l, .hidGetIdle v w l, .hidGetProtocol v w l], exec i s = .next t →
        ¬(b = .region .reply ∧ k < 1) → t.byteAt b k = s.byteAt b k) ∧
      (exec (.setConfiguration v w l) s = .next t →
        (∀ h, b = .pool h → s.isFree h = false ∧ s.inTransit h = false) → t.byteAt b k = s.byteAt b k) ∧
      (exec .tokenDone s = .next t → b ≠ .region .reply →
        (∀ h, b = .pool h → s.isFree h = false ∧ s.inTransit h = false) → t.byteAt b k = s.byteAt b k)

/-! ### Invariants -/

/-- Every invariant below holds at power-on, for every parameter set. -/
def Obligations.InvariantsAtPowerOn : Prop :=
  ∀ c : Params,
    let s := State.powerOn c
    s.MemoryCanonical ∧ s.QueueGate ∧ s.Ownership ∧ s.RxBytesExact ∧ s.StarvationExact ∧ s.LinksAgree ∧
      s.TogglesFollowBanks ∧ s.InStep

/-- The memory keeps its canonical form in every step. -/
def Obligations.MemoryCanonicalKept : Prop :=
  ∀ s t : State, s.MemoryCanonical → step s = .next t → t.MemoryCanonical

/-- R45(b) and R134 are kept by every instruction: packets wait in a TX FIFO only while both banks are armed, and what
the SIE owns on endpoints 1..NUM_ENDPOINTS carries its bank's toggle. -/
def Obligations.GateAndTogglesKept : Prop :=
  ∀ (i : Instr) (s t : State), exec i s = .next t →
    (s.QueueGate → t.QueueGate) ∧ (s.TogglesFollowBanks → t.TogglesFollowBanks)

/-- R44 is kept by every instruction: every packet has one owner and is where its owner says and nowhere else. -/
def Obligations.OwnershipKept : Prop :=
  ∀ (i : Instr) (s t : State), s.Ownership → exec i s = .next t → t.Ownership

/-- R45(a) and R27 are kept by every instruction: the RX byte counts are exact and the links agree with the FIFOs. -/
def Obligations.QueueCountsKept : Prop :=
  ∀ (i : Instr) (s t : State), s.Ownership → exec i s = .next t →
    (s.RxBytesExact → t.RxBytesExact) ∧ (s.LinksAgree → t.LinksAgree)

/-- R45(d) is kept by every instruction: while configured, the starvation counter is the number of RX slots of
RX-enabled endpoints without a buffer. -/
def Obligations.StarvationKept : Prop :=
  ∀ (i : Instr) (s t : State), s.Ownership → s.StarvationExact → exec i s = .next t → t.StarvationExact

/-- R32, R45(c), R181's endpoint-0 slots and R198 are kept by every step, as long as the host sends no SETUP before the
last one has been handled (log entry 25): the block's banks follow the SIE's, and once INIT or a bus reset has run every
endpoint-0 RX slot is armed from its own buffer, except one whose token-done entry is waiting. -/
def Obligations.InStepKept : Prop :=
  ∀ s t : State, s.Ownership → s.InStep →
    (∀ a p u, fetchCommand s = some (.ok (.hostSetup a p), u) → s.tokenSuspend = false) →
    step s = .next t → t.InStep

/-- R313: the reasons it calls unreachable are raised by no command from a state that meets the invariants. -/
def Obligations.InternalFaultsUnreachable : Prop :=
  ∀ (i : Instr) (s t : State) (r : FaultReason), s.Ownership → s.QueueGate → s.InStep → i.isCommand = true →
    exec i s = .next t → t.fault = some r → r.isInternal = false

/-! ### Rules about the whole machine -/

/-- R37 and R193: the address register changes only when the status IN of a SET_ADDRESS completes, to the recorded
address, or to 0 by a bus reset or a REINIT. -/
def Obligations.AddressWrittenOnly : Prop :=
  ∀ (i : Instr) (s t : State), exec i s = .next t → t.addr ≠ s.addr →
    (i = .tokenDone ∧ s.ctl = .statusIn ∧ s.setAddrPending = some t.addr ∧
        ∃ rest, s.stat = { ep := 0, dir := .tx, bank := s.ep0.bank } :: rest) ∨
      ((i = .init ∨ i = .reinit ∨ i = .hostBusReset ∨ i = .powerTimeout) ∧ t.addr = 0)

/-- R180 and R343: what moves the endpoint-0 control state. A bus reset (HOST_BUS_RESET, and INIT, REINIT and
POWER_TIMEOUT, which do one) sends it to IDLE, which is R343 and no arc of R180's table; every other move is an arc of
that table: a TOKEN_DONE of a SETUP sends it anywhere but STATUS_OUT; one of an IN takes DATA_IN with nothing owed to
STATUS_OUT and STATUS_IN to IDLE; one of an OUT takes DATA_IN and STATUS_OUT to IDLE and DATA_OUT to STATUS_IN. No
other command moves it. -/
def Obligations.ControlStateMoves : Prop :=
  ∀ (i : Instr) (s t : State), i.isCommand = true → exec i s = .next t → t.ctl ≠ s.ctl →
    ((i = .init ∨ i = .reinit ∨ i = .hostBusReset ∨ i = .powerTimeout) ∧ t.ctl = .idle) ∨
      (i = .tokenDone ∧ ∃ e rest, s.stat = e :: rest ∧ e.ep = 0 ∧
        ((e.dir = .rx ∧ (s.slot 0 .rx e.bank).desc.low = 0xD ∧ t.ctl ≠ .statusOut) ∨
          (e.dir = .tx ∧ (s.slot 0 .tx e.bank).desc.low = 0x9 ∧
            ((s.ctl = .dataIn ∧ s.ep0.pending = none ∧ t.ctl = .statusOut) ∨ (s.ctl = .statusIn ∧ t.ctl = .idle))) ∨
          (e.dir = .rx ∧ (s.slot 0 .rx e.bank).desc.low = 0x1 ∧
            ((s.ctl = .dataIn ∧ t.ctl = .idle) ∨ (s.ctl = .dataOut ∧ t.ctl = .statusIn) ∨
              (s.ctl = .statusOut ∧ t.ctl = .idle)))))

/-- R46: the log is only appended to, at most one entry a step, each kind by its own command. -/
def Obligations.ObservationsAppended : Prop :=
  ∀ (i : Instr) (s t : State), exec i s = .next t → t.obs = s.obs ∨ ∃ o, t.obs = s.obs ++ [o] ∧
    match o with
    | .inData ep _ _ => ∃ a, i = .hostIn ep a
    | .outAck ep n => ∃ a d, i = .hostOut ep a d ∧ d.length = n
    | .setupAck => ∃ a p, i = .hostSetup a p
    | .stall ep .inToken => ∃ a, i = .hostIn ep a
    | .stall ep .outToken => ∃ a d, i = .hostOut ep a d
    | .stall _ .setupToken => False
    | .reconnect => i = .reinit ∨ i = .powerTimeout

/-- R40 and R346: the block never moves a ppbit but in a bus reset; only the SIE's transactions flip one. -/
def Obligations.PpbitsAreTheSies : Prop :=
  ∀ (i : Instr) (s t : State), exec i s = .next t → t.pp ≠ s.pp →
    (∃ a p, i = .hostSetup a p) ∨ (∃ ep a d, i = .hostOut ep a d) ∨ (∃ ep a, i = .hostIn ep a) ∨
      ((i = .init ∨ i = .reinit ∨ i = .hostBusReset ∨ i = .powerTimeout) ∧
        ∀ ep d, isEndpoint s.cfg ep = true → t.ppBank ep d = .even)

/-- R170(b) and (c): a TX FIFO changes only by TX adding its packet at the end or a TOKEN_DONE taking its head, an RX
FIFO only by a TOKEN_DONE adding a packet at the end or RX taking its head; and either is emptied, on endpoints
1..NUM_ENDPOINTS, only by INIT, REINIT, HOST_BUS_RESET and POWER_TIMEOUT (R343) or by SET_CONFIGURATION and the TOKEN_DONE
of the SETUP that asks for it (R262). -/
def Obligations.QueuesAreFifos : Prop :=
  ∀ (i : Instr) (s t : State) (ep : Ep), exec i s = .next t →
    let emptying := isDataEp s.cfg ep = true ∧
      (i ∈ [Instr.init, .reinit, .hostBusReset, .powerTimeout] ∨ (∃ v w l, i = .setConfiguration v w l) ∨
        (i = .tokenDone ∧ requestCode t.setup = 0x0900 ∧ ∃ b rest,
          s.stat = { ep := 0, dir := .rx, bank := b } :: rest ∧ (s.slot 0 .rx b).desc.low = 0xD))
    (epGet t.txq ep = epGet s.txq ep ∨
        (∃ h : Half, i = .tx ep h ∧ epGet t.txq ep = epGet s.txq ep ++ [h.toNat]) ∨
        (i = .tokenDone ∧ ∃ h, epGet s.txq ep = h :: epGet t.txq ep) ∨ (emptying ∧ epGet t.txq ep = [])) ∧
      (epGet t.rxq ep = epGet s.rxq ep ∨
        (i = .tokenDone ∧ ∃ h, epGet t.rxq ep = epGet s.rxq ep ++ [h]) ∨
        (i = .rx ep ∧ ∃ h, epGet s.rxq ep = h :: epGet t.rxq ep) ∨ (emptying ∧ epGet t.rxq ep = []))

/-- R163 and R343: a packet the caller owns is left alone, its owner, header and bytes, by every instruction but a FREE,
a TX or a PKT_FILL of that very packet. -/
def Obligations.CallerPacketsIsolated : Prop :=
  ∀ (i : Instr) (s t : State) (h : Nat), s.Ownership → h < s.cfg.nPackets → s.ownerOf h = .caller →
    (∀ x : Half, x.toNat = h → i ≠ .free x ∧ (∀ ep, i ≠ .tx ep x) ∧ ∀ d, i ≠ .pktFill x d) →
    exec i s = .next t →
    t.ownerOf h = .caller ∧ t.header h = s.header h ∧ ∀ k < 64, t.byteAt (.pool h) k = s.byteAt (.pool h) k
end

