-- ==== Sys2Proof/Laws/State.lean ====
section
/-! SUPPORT. One lemma for each field of State and each named update: what the update writes, and that it writes
nothing else. -/

namespace Sys2Proof.Machine

/-! ### setSlot -/

@[simp] theorem State.setSlot_cfg (s : State) (ep : Ep) (d : Dir) (b : Bank) (x : Slot) : (s.setSlot ep d b x).cfg = s.cfg := rfl
@[simp] theorem State.setSlot_pkt (s : State) (ep : Ep) (d : Dir) (b : Bank) (x : Slot) : (s.setSlot ep d b x).pkt = s.pkt := rfl
@[simp] theorem State.setSlot_free (s : State) (ep : Ep) (d : Dir) (b : Bank) (x : Slot) : (s.setSlot ep d b x).free = s.free := rfl
@[simp] theorem State.setSlot_owner (s : State) (ep : Ep) (d : Dir) (b : Bank) (x : Slot) : (s.setSlot ep d b x).owner = s.owner := rfl
@[simp] theorem State.setSlot_mem (s : State) (ep : Ep) (d : Dir) (b : Bank) (x : Slot) : (s.setSlot ep d b x).mem = s.mem := rfl
@[simp] theorem State.setSlot_bdt (s : State) (ep : Ep) (d : Dir) (b : Bank) (x : Slot) : (s.setSlot ep d b x).bdt = epPut s.bdt ep ((epGet s.bdt ep).put d (((epGet s.bdt ep).get d).put b x)) := rfl
@[simp] theorem State.setSlot_txState (s : State) (ep : Ep) (d : Dir) (b : Bank) (x : Slot) : (s.setSlot ep d b x).txState = s.txState := rfl
@[simp] theorem State.setSlot_txq (s : State) (ep : Ep) (d : Dir) (b : Bank) (x : Slot) : (s.setSlot ep d b x).txq = s.txq := rfl
@[simp] theorem State.setSlot_rxq (s : State) (ep : Ep) (d : Dir) (b : Bank) (x : Slot) : (s.setSlot ep d b x).rxq = s.rxq := rfl
@[simp] theorem State.setSlot_rxBytes (s : State) (ep : Ep) (d : Dir) (b : Bank) (x : Slot) : (s.setSlot ep d b x).rxBytes = s.rxBytes := rfl
@[simp] theorem State.setSlot_rxNeeded (s : State) (ep : Ep) (d : Dir) (b : Bank) (x : Slot) : (s.setSlot ep d b x).rxNeeded = s.rxNeeded := rfl
@[simp] theorem State.setSlot_setup (s : State) (ep : Ep) (d : Dir) (b : Bank) (x : Slot) : (s.setSlot ep d b x).setup = s.setup := rfl
@[simp] theorem State.setSlot_ctl (s : State) (ep : Ep) (d : Dir) (b : Bank) (x : Slot) : (s.setSlot ep d b x).ctl = s.ctl := rfl
@[simp] theorem State.setSlot_ep0 (s : State) (ep : Ep) (d : Dir) (b : Bank) (x : Slot) : (s.setSlot ep d b x).ep0 = s.ep0 := rfl
@[simp] theorem State.setSlot_ep0out (s : State) (ep : Ep) (d : Dir) (b : Bank) (x : Slot) : (s.setSlot ep d b x).ep0out = s.ep0out := rfl
@[simp] theorem State.setSlot_setAddrPending (s : State) (ep : Ep) (d : Dir) (b : Bank) (x : Slot) : (s.setSlot ep d b x).setAddrPending = s.setAddrPending := rfl
@[simp] theorem State.setSlot_config (s : State) (ep : Ep) (d : Dir) (b : Bank) (x : Slot) : (s.setSlot ep d b x).config = s.config := rfl
@[simp] theorem State.setSlot_endpt (s : State) (ep : Ep) (d : Dir) (b : Bank) (x : Slot) : (s.setSlot ep d b x).endpt = s.endpt := rfl
@[simp] theorem State.setSlot_addr (s : State) (ep : Ep) (d : Dir) (b : Bank) (x : Slot) : (s.setSlot ep d b x).addr = s.addr := rfl
@[simp] theorem State.setSlot_pwr (s : State) (ep : Ep) (d : Dir) (b : Bank) (x : Slot) : (s.setSlot ep d b x).pwr = s.pwr := rfl
@[simp] theorem State.setSlot_pp (s : State) (ep : Ep) (d : Dir) (b : Bank) (x : Slot) : (s.setSlot ep d b x).pp = s.pp := rfl
@[simp] theorem State.setSlot_stat (s : State) (ep : Ep) (d : Dir) (b : Bank) (x : Slot) : (s.setSlot ep d b x).stat = s.stat := rfl
@[simp] theorem State.setSlot_tokenSuspend (s : State) (ep : Ep) (d : Dir) (b : Bank) (x : Slot) : (s.setSlot ep d b x).tokenSuspend = s.tokenSuspend := rfl
@[simp] theorem State.setSlot_attached (s : State) (ep : Ep) (d : Dir) (b : Bank) (x : Slot) : (s.setSlot ep d b x).attached = s.attached := rfl
@[simp] theorem State.setSlot_reconnects (s : State) (ep : Ep) (d : Dir) (b : Bank) (x : Slot) : (s.setSlot ep d b x).reconnects = s.reconnects := rfl
@[simp] theorem State.setSlot_reloaded (s : State) (ep : Ep) (d : Dir) (b : Bank) (x : Slot) : (s.setSlot ep d b x).reloaded = s.reloaded := rfl
@[simp] theorem State.setSlot_obs (s : State) (ep : Ep) (d : Dir) (b : Bank) (x : Slot) : (s.setSlot ep d b x).obs = s.obs := rfl
@[simp] theorem State.setSlot_fault (s : State) (ep : Ep) (d : Dir) (b : Bank) (x : Slot) : (s.setSlot ep d b x).fault = s.fault := rfl
@[simp] theorem State.setSlot_result (s : State) (ep : Ep) (d : Dir) (b : Bank) (x : Slot) : (s.setSlot ep d b x).result = s.result := rfl
@[simp] theorem State.setSlot_calls (s : State) (ep : Ep) (d : Dir) (b : Bank) (x : Slot) : (s.setSlot ep d b x).calls = s.calls := rfl
@[simp] theorem State.setSlot_cmds (s : State) (ep : Ep) (d : Dir) (b : Bank) (x : Slot) : (s.setSlot ep d b x).cmds = s.cmds := rfl
@[simp] theorem State.setSlot_draws (s : State) (ep : Ep) (d : Dir) (b : Bank) (x : Slot) : (s.setSlot ep d b x).draws = s.draws := rfl
@[simp] theorem State.setSlot_drawn (s : State) (ep : Ep) (d : Dir) (b : Bank) (x : Slot) : (s.setSlot ep d b x).drawn = s.drawn := rfl

/-! ### setHeader -/

@[simp] theorem State.setHeader_cfg (s : State) (h : Nat) (x : Header) : (s.setHeader h x).cfg = s.cfg := rfl
@[simp] theorem State.setHeader_pkt (s : State) (h : Nat) (x : Header) : (s.setHeader h x).pkt = s.pkt.set h x := rfl
@[simp] theorem State.setHeader_free (s : State) (h : Nat) (x : Header) : (s.setHeader h x).free = s.free := rfl
@[simp] theorem State.setHeader_owner (s : State) (h : Nat) (x : Header) : (s.setHeader h x).owner = s.owner := rfl
@[simp] theorem State.setHeader_mem (s : State) (h : Nat) (x : Header) : (s.setHeader h x).mem = s.mem := rfl
@[simp] theorem State.setHeader_bdt (s : State) (h : Nat) (x : Header) : (s.setHeader h x).bdt = s.bdt := rfl
@[simp] theorem State.setHeader_txState (s : State) (h : Nat) (x : Header) : (s.setHeader h x).txState = s.txState := rfl
@[simp] theorem State.setHeader_txq (s : State) (h : Nat) (x : Header) : (s.setHeader h x).txq = s.txq := rfl
@[simp] theorem State.setHeader_rxq (s : State) (h : Nat) (x : Header) : (s.setHeader h x).rxq = s.rxq := rfl
@[simp] theorem State.setHeader_rxBytes (s : State) (h : Nat) (x : Header) : (s.setHeader h x).rxBytes = s.rxBytes := rfl
@[simp] theorem State.setHeader_rxNeeded (s : State) (h : Nat) (x : Header) : (s.setHeader h x).rxNeeded = s.rxNeeded := rfl
@[simp] theorem State.setHeader_setup (s : State) (h : Nat) (x : Header) : (s.setHeader h x).setup = s.setup := rfl
@[simp] theorem State.setHeader_ctl (s : State) (h : Nat) (x : Header) : (s.setHeader h x).ctl = s.ctl := rfl
@[simp] theorem State.setHeader_ep0 (s : State) (h : Nat) (x : Header) : (s.setHeader h x).ep0 = s.ep0 := rfl
@[simp] theorem State.setHeader_ep0out (s : State) (h : Nat) (x : Header) : (s.setHeader h x).ep0out = s.ep0out := rfl
@[simp] theorem State.setHeader_setAddrPending (s : State) (h : Nat) (x : Header) : (s.setHeader h x).setAddrPending = s.setAddrPending := rfl
@[simp] theorem State.setHeader_config (s : State) (h : Nat) (x : Header) : (s.setHeader h x).config = s.config := rfl
@[simp] theorem State.setHeader_endpt (s : State) (h : Nat) (x : Header) : (s.setHeader h x).endpt = s.endpt := rfl
@[simp] theorem State.setHeader_addr (s : State) (h : Nat) (x : Header) : (s.setHeader h x).addr = s.addr := rfl
@[simp] theorem State.setHeader_pwr (s : State) (h : Nat) (x : Header) : (s.setHeader h x).pwr = s.pwr := rfl
@[simp] theorem State.setHeader_pp (s : State) (h : Nat) (x : Header) : (s.setHeader h x).pp = s.pp := rfl
@[simp] theorem State.setHeader_stat (s : State) (h : Nat) (x : Header) : (s.setHeader h x).stat = s.stat := rfl
@[simp] theorem State.setHeader_tokenSuspend (s : State) (h : Nat) (x : Header) : (s.setHeader h x).tokenSuspend = s.tokenSuspend := rfl
@[simp] theorem State.setHeader_attached (s : State) (h : Nat) (x : Header) : (s.setHeader h x).attached = s.attached := rfl
@[simp] theorem State.setHeader_reconnects (s : State) (h : Nat) (x : Header) : (s.setHeader h x).reconnects = s.reconnects := rfl
@[simp] theorem State.setHeader_reloaded (s : State) (h : Nat) (x : Header) : (s.setHeader h x).reloaded = s.reloaded := rfl
@[simp] theorem State.setHeader_obs (s : State) (h : Nat) (x : Header) : (s.setHeader h x).obs = s.obs := rfl
@[simp] theorem State.setHeader_fault (s : State) (h : Nat) (x : Header) : (s.setHeader h x).fault = s.fault := rfl
@[simp] theorem State.setHeader_result (s : State) (h : Nat) (x : Header) : (s.setHeader h x).result = s.result := rfl
@[simp] theorem State.setHeader_calls (s : State) (h : Nat) (x : Header) : (s.setHeader h x).calls = s.calls := rfl
@[simp] theorem State.setHeader_cmds (s : State) (h : Nat) (x : Header) : (s.setHeader h x).cmds = s.cmds := rfl
@[simp] theorem State.setHeader_draws (s : State) (h : Nat) (x : Header) : (s.setHeader h x).draws = s.draws := rfl
@[simp] theorem State.setHeader_drawn (s : State) (h : Nat) (x : Header) : (s.setHeader h x).drawn = s.drawn := rfl

/-! ### setFree -/

@[simp] theorem State.setFree_cfg (s : State) (i : Nat) (x : Bool) : (s.setFree i x).cfg = s.cfg := rfl
@[simp] theorem State.setFree_pkt (s : State) (i : Nat) (x : Bool) : (s.setFree i x).pkt = s.pkt := rfl
@[simp] theorem State.setFree_free (s : State) (i : Nat) (x : Bool) : (s.setFree i x).free = s.free.set i x := rfl
@[simp] theorem State.setFree_owner (s : State) (i : Nat) (x : Bool) : (s.setFree i x).owner = s.owner := rfl
@[simp] theorem State.setFree_mem (s : State) (i : Nat) (x : Bool) : (s.setFree i x).mem = s.mem := rfl
@[simp] theorem State.setFree_bdt (s : State) (i : Nat) (x : Bool) : (s.setFree i x).bdt = s.bdt := rfl
@[simp] theorem State.setFree_txState (s : State) (i : Nat) (x : Bool) : (s.setFree i x).txState = s.txState := rfl
@[simp] theorem State.setFree_txq (s : State) (i : Nat) (x : Bool) : (s.setFree i x).txq = s.txq := rfl
@[simp] theorem State.setFree_rxq (s : State) (i : Nat) (x : Bool) : (s.setFree i x).rxq = s.rxq := rfl
@[simp] theorem State.setFree_rxBytes (s : State) (i : Nat) (x : Bool) : (s.setFree i x).rxBytes = s.rxBytes := rfl
@[simp] theorem State.setFree_rxNeeded (s : State) (i : Nat) (x : Bool) : (s.setFree i x).rxNeeded = s.rxNeeded := rfl
@[simp] theorem State.setFree_setup (s : State) (i : Nat) (x : Bool) : (s.setFree i x).setup = s.setup := rfl
@[simp] theorem State.setFree_ctl (s : State) (i : Nat) (x : Bool) : (s.setFree i x).ctl = s.ctl := rfl
@[simp] theorem State.setFree_ep0 (s : State) (i : Nat) (x : Bool) : (s.setFree i x).ep0 = s.ep0 := rfl
@[simp] theorem State.setFree_ep0out (s : State) (i : Nat) (x : Bool) : (s.setFree i x).ep0out = s.ep0out := rfl
@[simp] theorem State.setFree_setAddrPending (s : State) (i : Nat) (x : Bool) : (s.setFree i x).setAddrPending = s.setAddrPending := rfl
@[simp] theorem State.setFree_config (s : State) (i : Nat) (x : Bool) : (s.setFree i x).config = s.config := rfl
@[simp] theorem State.setFree_endpt (s : State) (i : Nat) (x : Bool) : (s.setFree i x).endpt = s.endpt := rfl
@[simp] theorem State.setFree_addr (s : State) (i : Nat) (x : Bool) : (s.setFree i x).addr = s.addr := rfl
@[simp] theorem State.setFree_pwr (s : State) (i : Nat) (x : Bool) : (s.setFree i x).pwr = s.pwr := rfl
@[simp] theorem State.setFree_pp (s : State) (i : Nat) (x : Bool) : (s.setFree i x).pp = s.pp := rfl
@[simp] theorem State.setFree_stat (s : State) (i : Nat) (x : Bool) : (s.setFree i x).stat = s.stat := rfl
@[simp] theorem State.setFree_tokenSuspend (s : State) (i : Nat) (x : Bool) : (s.setFree i x).tokenSuspend = s.tokenSuspend := rfl
@[simp] theorem State.setFree_attached (s : State) (i : Nat) (x : Bool) : (s.setFree i x).attached = s.attached := rfl
@[simp] theorem State.setFree_reconnects (s : State) (i : Nat) (x : Bool) : (s.setFree i x).reconnects = s.reconnects := rfl
@[simp] theorem State.setFree_reloaded (s : State) (i : Nat) (x : Bool) : (s.setFree i x).reloaded = s.reloaded := rfl
@[simp] theorem State.setFree_obs (s : State) (i : Nat) (x : Bool) : (s.setFree i x).obs = s.obs := rfl
@[simp] theorem State.setFree_fault (s : State) (i : Nat) (x : Bool) : (s.setFree i x).fault = s.fault := rfl
@[simp] theorem State.setFree_result (s : State) (i : Nat) (x : Bool) : (s.setFree i x).result = s.result := rfl
@[simp] theorem State.setFree_calls (s : State) (i : Nat) (x : Bool) : (s.setFree i x).calls = s.calls := rfl
@[simp] theorem State.setFree_cmds (s : State) (i : Nat) (x : Bool) : (s.setFree i x).cmds = s.cmds := rfl
@[simp] theorem State.setFree_draws (s : State) (i : Nat) (x : Bool) : (s.setFree i x).draws = s.draws := rfl
@[simp] theorem State.setFree_drawn (s : State) (i : Nat) (x : Bool) : (s.setFree i x).drawn = s.drawn := rfl

/-! ### setOwner -/

@[simp] theorem State.setOwner_cfg (s : State) (i : Nat) (x : Owner) : (s.setOwner i x).cfg = s.cfg := rfl
@[simp] theorem State.setOwner_pkt (s : State) (i : Nat) (x : Owner) : (s.setOwner i x).pkt = s.pkt := rfl
@[simp] theorem State.setOwner_free (s : State) (i : Nat) (x : Owner) : (s.setOwner i x).free = s.free := rfl
@[simp] theorem State.setOwner_owner (s : State) (i : Nat) (x : Owner) : (s.setOwner i x).owner = s.owner.set i x := rfl
@[simp] theorem State.setOwner_mem (s : State) (i : Nat) (x : Owner) : (s.setOwner i x).mem = s.mem := rfl
@[simp] theorem State.setOwner_bdt (s : State) (i : Nat) (x : Owner) : (s.setOwner i x).bdt = s.bdt := rfl
@[simp] theorem State.setOwner_txState (s : State) (i : Nat) (x : Owner) : (s.setOwner i x).txState = s.txState := rfl
@[simp] theorem State.setOwner_txq (s : State) (i : Nat) (x : Owner) : (s.setOwner i x).txq = s.txq := rfl
@[simp] theorem State.setOwner_rxq (s : State) (i : Nat) (x : Owner) : (s.setOwner i x).rxq = s.rxq := rfl
@[simp] theorem State.setOwner_rxBytes (s : State) (i : Nat) (x : Owner) : (s.setOwner i x).rxBytes = s.rxBytes := rfl
@[simp] theorem State.setOwner_rxNeeded (s : State) (i : Nat) (x : Owner) : (s.setOwner i x).rxNeeded = s.rxNeeded := rfl
@[simp] theorem State.setOwner_setup (s : State) (i : Nat) (x : Owner) : (s.setOwner i x).setup = s.setup := rfl
@[simp] theorem State.setOwner_ctl (s : State) (i : Nat) (x : Owner) : (s.setOwner i x).ctl = s.ctl := rfl
@[simp] theorem State.setOwner_ep0 (s : State) (i : Nat) (x : Owner) : (s.setOwner i x).ep0 = s.ep0 := rfl
@[simp] theorem State.setOwner_ep0out (s : State) (i : Nat) (x : Owner) : (s.setOwner i x).ep0out = s.ep0out := rfl
@[simp] theorem State.setOwner_setAddrPending (s : State) (i : Nat) (x : Owner) : (s.setOwner i x).setAddrPending = s.setAddrPending := rfl
@[simp] theorem State.setOwner_config (s : State) (i : Nat) (x : Owner) : (s.setOwner i x).config = s.config := rfl
@[simp] theorem State.setOwner_endpt (s : State) (i : Nat) (x : Owner) : (s.setOwner i x).endpt = s.endpt := rfl
@[simp] theorem State.setOwner_addr (s : State) (i : Nat) (x : Owner) : (s.setOwner i x).addr = s.addr := rfl
@[simp] theorem State.setOwner_pwr (s : State) (i : Nat) (x : Owner) : (s.setOwner i x).pwr = s.pwr := rfl
@[simp] theorem State.setOwner_pp (s : State) (i : Nat) (x : Owner) : (s.setOwner i x).pp = s.pp := rfl
@[simp] theorem State.setOwner_stat (s : State) (i : Nat) (x : Owner) : (s.setOwner i x).stat = s.stat := rfl
@[simp] theorem State.setOwner_tokenSuspend (s : State) (i : Nat) (x : Owner) : (s.setOwner i x).tokenSuspend = s.tokenSuspend := rfl
@[simp] theorem State.setOwner_attached (s : State) (i : Nat) (x : Owner) : (s.setOwner i x).attached = s.attached := rfl
@[simp] theorem State.setOwner_reconnects (s : State) (i : Nat) (x : Owner) : (s.setOwner i x).reconnects = s.reconnects := rfl
@[simp] theorem State.setOwner_reloaded (s : State) (i : Nat) (x : Owner) : (s.setOwner i x).reloaded = s.reloaded := rfl
@[simp] theorem State.setOwner_obs (s : State) (i : Nat) (x : Owner) : (s.setOwner i x).obs = s.obs := rfl
@[simp] theorem State.setOwner_fault (s : State) (i : Nat) (x : Owner) : (s.setOwner i x).fault = s.fault := rfl
@[simp] theorem State.setOwner_result (s : State) (i : Nat) (x : Owner) : (s.setOwner i x).result = s.result := rfl
@[simp] theorem State.setOwner_calls (s : State) (i : Nat) (x : Owner) : (s.setOwner i x).calls = s.calls := rfl
@[simp] theorem State.setOwner_cmds (s : State) (i : Nat) (x : Owner) : (s.setOwner i x).cmds = s.cmds := rfl
@[simp] theorem State.setOwner_draws (s : State) (i : Nat) (x : Owner) : (s.setOwner i x).draws = s.draws := rfl
@[simp] theorem State.setOwner_drawn (s : State) (i : Nat) (x : Owner) : (s.setOwner i x).drawn = s.drawn := rfl

/-! ### setTxState -/

@[simp] theorem State.setTxState_cfg (s : State) (ep : Ep) (x : TxState) : (s.setTxState ep x).cfg = s.cfg := rfl
@[simp] theorem State.setTxState_pkt (s : State) (ep : Ep) (x : TxState) : (s.setTxState ep x).pkt = s.pkt := rfl
@[simp] theorem State.setTxState_free (s : State) (ep : Ep) (x : TxState) : (s.setTxState ep x).free = s.free := rfl
@[simp] theorem State.setTxState_owner (s : State) (ep : Ep) (x : TxState) : (s.setTxState ep x).owner = s.owner := rfl
@[simp] theorem State.setTxState_mem (s : State) (ep : Ep) (x : TxState) : (s.setTxState ep x).mem = s.mem := rfl
@[simp] theorem State.setTxState_bdt (s : State) (ep : Ep) (x : TxState) : (s.setTxState ep x).bdt = s.bdt := rfl
@[simp] theorem State.setTxState_txState (s : State) (ep : Ep) (x : TxState) : (s.setTxState ep x).txState = epPut s.txState ep x := rfl
@[simp] theorem State.setTxState_txq (s : State) (ep : Ep) (x : TxState) : (s.setTxState ep x).txq = s.txq := rfl
@[simp] theorem State.setTxState_rxq (s : State) (ep : Ep) (x : TxState) : (s.setTxState ep x).rxq = s.rxq := rfl
@[simp] theorem State.setTxState_rxBytes (s : State) (ep : Ep) (x : TxState) : (s.setTxState ep x).rxBytes = s.rxBytes := rfl
@[simp] theorem State.setTxState_rxNeeded (s : State) (ep : Ep) (x : TxState) : (s.setTxState ep x).rxNeeded = s.rxNeeded := rfl
@[simp] theorem State.setTxState_setup (s : State) (ep : Ep) (x : TxState) : (s.setTxState ep x).setup = s.setup := rfl
@[simp] theorem State.setTxState_ctl (s : State) (ep : Ep) (x : TxState) : (s.setTxState ep x).ctl = s.ctl := rfl
@[simp] theorem State.setTxState_ep0 (s : State) (ep : Ep) (x : TxState) : (s.setTxState ep x).ep0 = s.ep0 := rfl
@[simp] theorem State.setTxState_ep0out (s : State) (ep : Ep) (x : TxState) : (s.setTxState ep x).ep0out = s.ep0out := rfl
@[simp] theorem State.setTxState_setAddrPending (s : State) (ep : Ep) (x : TxState) : (s.setTxState ep x).setAddrPending = s.setAddrPending := rfl
@[simp] theorem State.setTxState_config (s : State) (ep : Ep) (x : TxState) : (s.setTxState ep x).config = s.config := rfl
@[simp] theorem State.setTxState_endpt (s : State) (ep : Ep) (x : TxState) : (s.setTxState ep x).endpt = s.endpt := rfl
@[simp] theorem State.setTxState_addr (s : State) (ep : Ep) (x : TxState) : (s.setTxState ep x).addr = s.addr := rfl
@[simp] theorem State.setTxState_pwr (s : State) (ep : Ep) (x : TxState) : (s.setTxState ep x).pwr = s.pwr := rfl
@[simp] theorem State.setTxState_pp (s : State) (ep : Ep) (x : TxState) : (s.setTxState ep x).pp = s.pp := rfl
@[simp] theorem State.setTxState_stat (s : State) (ep : Ep) (x : TxState) : (s.setTxState ep x).stat = s.stat := rfl
@[simp] theorem State.setTxState_tokenSuspend (s : State) (ep : Ep) (x : TxState) : (s.setTxState ep x).tokenSuspend = s.tokenSuspend := rfl
@[simp] theorem State.setTxState_attached (s : State) (ep : Ep) (x : TxState) : (s.setTxState ep x).attached = s.attached := rfl
@[simp] theorem State.setTxState_reconnects (s : State) (ep : Ep) (x : TxState) : (s.setTxState ep x).reconnects = s.reconnects := rfl
@[simp] theorem State.setTxState_reloaded (s : State) (ep : Ep) (x : TxState) : (s.setTxState ep x).reloaded = s.reloaded := rfl
@[simp] theorem State.setTxState_obs (s : State) (ep : Ep) (x : TxState) : (s.setTxState ep x).obs = s.obs := rfl
@[simp] theorem State.setTxState_fault (s : State) (ep : Ep) (x : TxState) : (s.setTxState ep x).fault = s.fault := rfl
@[simp] theorem State.setTxState_result (s : State) (ep : Ep) (x : TxState) : (s.setTxState ep x).result = s.result := rfl
@[simp] theorem State.setTxState_calls (s : State) (ep : Ep) (x : TxState) : (s.setTxState ep x).calls = s.calls := rfl
@[simp] theorem State.setTxState_cmds (s : State) (ep : Ep) (x : TxState) : (s.setTxState ep x).cmds = s.cmds := rfl
@[simp] theorem State.setTxState_draws (s : State) (ep : Ep) (x : TxState) : (s.setTxState ep x).draws = s.draws := rfl
@[simp] theorem State.setTxState_drawn (s : State) (ep : Ep) (x : TxState) : (s.setTxState ep x).drawn = s.drawn := rfl

/-! ### setTxq -/

@[simp] theorem State.setTxq_cfg (s : State) (ep : Ep) (x : List Nat) : (s.setTxq ep x).cfg = s.cfg := rfl
@[simp] theorem State.setTxq_pkt (s : State) (ep : Ep) (x : List Nat) : (s.setTxq ep x).pkt = s.pkt := rfl
@[simp] theorem State.setTxq_free (s : State) (ep : Ep) (x : List Nat) : (s.setTxq ep x).free = s.free := rfl
@[simp] theorem State.setTxq_owner (s : State) (ep : Ep) (x : List Nat) : (s.setTxq ep x).owner = s.owner := rfl
@[simp] theorem State.setTxq_mem (s : State) (ep : Ep) (x : List Nat) : (s.setTxq ep x).mem = s.mem := rfl
@[simp] theorem State.setTxq_bdt (s : State) (ep : Ep) (x : List Nat) : (s.setTxq ep x).bdt = s.bdt := rfl
@[simp] theorem State.setTxq_txState (s : State) (ep : Ep) (x : List Nat) : (s.setTxq ep x).txState = s.txState := rfl
@[simp] theorem State.setTxq_txq (s : State) (ep : Ep) (x : List Nat) : (s.setTxq ep x).txq = epPut s.txq ep x := rfl
@[simp] theorem State.setTxq_rxq (s : State) (ep : Ep) (x : List Nat) : (s.setTxq ep x).rxq = s.rxq := rfl
@[simp] theorem State.setTxq_rxBytes (s : State) (ep : Ep) (x : List Nat) : (s.setTxq ep x).rxBytes = s.rxBytes := rfl
@[simp] theorem State.setTxq_rxNeeded (s : State) (ep : Ep) (x : List Nat) : (s.setTxq ep x).rxNeeded = s.rxNeeded := rfl
@[simp] theorem State.setTxq_setup (s : State) (ep : Ep) (x : List Nat) : (s.setTxq ep x).setup = s.setup := rfl
@[simp] theorem State.setTxq_ctl (s : State) (ep : Ep) (x : List Nat) : (s.setTxq ep x).ctl = s.ctl := rfl
@[simp] theorem State.setTxq_ep0 (s : State) (ep : Ep) (x : List Nat) : (s.setTxq ep x).ep0 = s.ep0 := rfl
@[simp] theorem State.setTxq_ep0out (s : State) (ep : Ep) (x : List Nat) : (s.setTxq ep x).ep0out = s.ep0out := rfl
@[simp] theorem State.setTxq_setAddrPending (s : State) (ep : Ep) (x : List Nat) : (s.setTxq ep x).setAddrPending = s.setAddrPending := rfl
@[simp] theorem State.setTxq_config (s : State) (ep : Ep) (x : List Nat) : (s.setTxq ep x).config = s.config := rfl
@[simp] theorem State.setTxq_endpt (s : State) (ep : Ep) (x : List Nat) : (s.setTxq ep x).endpt = s.endpt := rfl
@[simp] theorem State.setTxq_addr (s : State) (ep : Ep) (x : List Nat) : (s.setTxq ep x).addr = s.addr := rfl
@[simp] theorem State.setTxq_pwr (s : State) (ep : Ep) (x : List Nat) : (s.setTxq ep x).pwr = s.pwr := rfl
@[simp] theorem State.setTxq_pp (s : State) (ep : Ep) (x : List Nat) : (s.setTxq ep x).pp = s.pp := rfl
@[simp] theorem State.setTxq_stat (s : State) (ep : Ep) (x : List Nat) : (s.setTxq ep x).stat = s.stat := rfl
@[simp] theorem State.setTxq_tokenSuspend (s : State) (ep : Ep) (x : List Nat) : (s.setTxq ep x).tokenSuspend = s.tokenSuspend := rfl
@[simp] theorem State.setTxq_attached (s : State) (ep : Ep) (x : List Nat) : (s.setTxq ep x).attached = s.attached := rfl
@[simp] theorem State.setTxq_reconnects (s : State) (ep : Ep) (x : List Nat) : (s.setTxq ep x).reconnects = s.reconnects := rfl
@[simp] theorem State.setTxq_reloaded (s : State) (ep : Ep) (x : List Nat) : (s.setTxq ep x).reloaded = s.reloaded := rfl
@[simp] theorem State.setTxq_obs (s : State) (ep : Ep) (x : List Nat) : (s.setTxq ep x).obs = s.obs := rfl
@[simp] theorem State.setTxq_fault (s : State) (ep : Ep) (x : List Nat) : (s.setTxq ep x).fault = s.fault := rfl
@[simp] theorem State.setTxq_result (s : State) (ep : Ep) (x : List Nat) : (s.setTxq ep x).result = s.result := rfl
@[simp] theorem State.setTxq_calls (s : State) (ep : Ep) (x : List Nat) : (s.setTxq ep x).calls = s.calls := rfl
@[simp] theorem State.setTxq_cmds (s : State) (ep : Ep) (x : List Nat) : (s.setTxq ep x).cmds = s.cmds := rfl
@[simp] theorem State.setTxq_draws (s : State) (ep : Ep) (x : List Nat) : (s.setTxq ep x).draws = s.draws := rfl
@[simp] theorem State.setTxq_drawn (s : State) (ep : Ep) (x : List Nat) : (s.setTxq ep x).drawn = s.drawn := rfl

/-! ### setRxq -/

@[simp] theorem State.setRxq_cfg (s : State) (ep : Ep) (x : List Nat) : (s.setRxq ep x).cfg = s.cfg := rfl
@[simp] theorem State.setRxq_pkt (s : State) (ep : Ep) (x : List Nat) : (s.setRxq ep x).pkt = s.pkt := rfl
@[simp] theorem State.setRxq_free (s : State) (ep : Ep) (x : List Nat) : (s.setRxq ep x).free = s.free := rfl
@[simp] theorem State.setRxq_owner (s : State) (ep : Ep) (x : List Nat) : (s.setRxq ep x).owner = s.owner := rfl
@[simp] theorem State.setRxq_mem (s : State) (ep : Ep) (x : List Nat) : (s.setRxq ep x).mem = s.mem := rfl
@[simp] theorem State.setRxq_bdt (s : State) (ep : Ep) (x : List Nat) : (s.setRxq ep x).bdt = s.bdt := rfl
@[simp] theorem State.setRxq_txState (s : State) (ep : Ep) (x : List Nat) : (s.setRxq ep x).txState = s.txState := rfl
@[simp] theorem State.setRxq_txq (s : State) (ep : Ep) (x : List Nat) : (s.setRxq ep x).txq = s.txq := rfl
@[simp] theorem State.setRxq_rxq (s : State) (ep : Ep) (x : List Nat) : (s.setRxq ep x).rxq = epPut s.rxq ep x := rfl
@[simp] theorem State.setRxq_rxBytes (s : State) (ep : Ep) (x : List Nat) : (s.setRxq ep x).rxBytes = s.rxBytes := rfl
@[simp] theorem State.setRxq_rxNeeded (s : State) (ep : Ep) (x : List Nat) : (s.setRxq ep x).rxNeeded = s.rxNeeded := rfl
@[simp] theorem State.setRxq_setup (s : State) (ep : Ep) (x : List Nat) : (s.setRxq ep x).setup = s.setup := rfl
@[simp] theorem State.setRxq_ctl (s : State) (ep : Ep) (x : List Nat) : (s.setRxq ep x).ctl = s.ctl := rfl
@[simp] theorem State.setRxq_ep0 (s : State) (ep : Ep) (x : List Nat) : (s.setRxq ep x).ep0 = s.ep0 := rfl
@[simp] theorem State.setRxq_ep0out (s : State) (ep : Ep) (x : List Nat) : (s.setRxq ep x).ep0out = s.ep0out := rfl
@[simp] theorem State.setRxq_setAddrPending (s : State) (ep : Ep) (x : List Nat) : (s.setRxq ep x).setAddrPending = s.setAddrPending := rfl
@[simp] theorem State.setRxq_config (s : State) (ep : Ep) (x : List Nat) : (s.setRxq ep x).config = s.config := rfl
@[simp] theorem State.setRxq_endpt (s : State) (ep : Ep) (x : List Nat) : (s.setRxq ep x).endpt = s.endpt := rfl
@[simp] theorem State.setRxq_addr (s : State) (ep : Ep) (x : List Nat) : (s.setRxq ep x).addr = s.addr := rfl
@[simp] theorem State.setRxq_pwr (s : State) (ep : Ep) (x : List Nat) : (s.setRxq ep x).pwr = s.pwr := rfl
@[simp] theorem State.setRxq_pp (s : State) (ep : Ep) (x : List Nat) : (s.setRxq ep x).pp = s.pp := rfl
@[simp] theorem State.setRxq_stat (s : State) (ep : Ep) (x : List Nat) : (s.setRxq ep x).stat = s.stat := rfl
@[simp] theorem State.setRxq_tokenSuspend (s : State) (ep : Ep) (x : List Nat) : (s.setRxq ep x).tokenSuspend = s.tokenSuspend := rfl
@[simp] theorem State.setRxq_attached (s : State) (ep : Ep) (x : List Nat) : (s.setRxq ep x).attached = s.attached := rfl
@[simp] theorem State.setRxq_reconnects (s : State) (ep : Ep) (x : List Nat) : (s.setRxq ep x).reconnects = s.reconnects := rfl
@[simp] theorem State.setRxq_reloaded (s : State) (ep : Ep) (x : List Nat) : (s.setRxq ep x).reloaded = s.reloaded := rfl
@[simp] theorem State.setRxq_obs (s : State) (ep : Ep) (x : List Nat) : (s.setRxq ep x).obs = s.obs := rfl
@[simp] theorem State.setRxq_fault (s : State) (ep : Ep) (x : List Nat) : (s.setRxq ep x).fault = s.fault := rfl
@[simp] theorem State.setRxq_result (s : State) (ep : Ep) (x : List Nat) : (s.setRxq ep x).result = s.result := rfl
@[simp] theorem State.setRxq_calls (s : State) (ep : Ep) (x : List Nat) : (s.setRxq ep x).calls = s.calls := rfl
@[simp] theorem State.setRxq_cmds (s : State) (ep : Ep) (x : List Nat) : (s.setRxq ep x).cmds = s.cmds := rfl
@[simp] theorem State.setRxq_draws (s : State) (ep : Ep) (x : List Nat) : (s.setRxq ep x).draws = s.draws := rfl
@[simp] theorem State.setRxq_drawn (s : State) (ep : Ep) (x : List Nat) : (s.setRxq ep x).drawn = s.drawn := rfl

/-! ### setRxBytes -/

@[simp] theorem State.setRxBytes_cfg (s : State) (ep : Ep) (x : Word) : (s.setRxBytes ep x).cfg = s.cfg := rfl
@[simp] theorem State.setRxBytes_pkt (s : State) (ep : Ep) (x : Word) : (s.setRxBytes ep x).pkt = s.pkt := rfl
@[simp] theorem State.setRxBytes_free (s : State) (ep : Ep) (x : Word) : (s.setRxBytes ep x).free = s.free := rfl
@[simp] theorem State.setRxBytes_owner (s : State) (ep : Ep) (x : Word) : (s.setRxBytes ep x).owner = s.owner := rfl
@[simp] theorem State.setRxBytes_mem (s : State) (ep : Ep) (x : Word) : (s.setRxBytes ep x).mem = s.mem := rfl
@[simp] theorem State.setRxBytes_bdt (s : State) (ep : Ep) (x : Word) : (s.setRxBytes ep x).bdt = s.bdt := rfl
@[simp] theorem State.setRxBytes_txState (s : State) (ep : Ep) (x : Word) : (s.setRxBytes ep x).txState = s.txState := rfl
@[simp] theorem State.setRxBytes_txq (s : State) (ep : Ep) (x : Word) : (s.setRxBytes ep x).txq = s.txq := rfl
@[simp] theorem State.setRxBytes_rxq (s : State) (ep : Ep) (x : Word) : (s.setRxBytes ep x).rxq = s.rxq := rfl
@[simp] theorem State.setRxBytes_rxBytes (s : State) (ep : Ep) (x : Word) : (s.setRxBytes ep x).rxBytes = epPut s.rxBytes ep x := rfl
@[simp] theorem State.setRxBytes_rxNeeded (s : State) (ep : Ep) (x : Word) : (s.setRxBytes ep x).rxNeeded = s.rxNeeded := rfl
@[simp] theorem State.setRxBytes_setup (s : State) (ep : Ep) (x : Word) : (s.setRxBytes ep x).setup = s.setup := rfl
@[simp] theorem State.setRxBytes_ctl (s : State) (ep : Ep) (x : Word) : (s.setRxBytes ep x).ctl = s.ctl := rfl
@[simp] theorem State.setRxBytes_ep0 (s : State) (ep : Ep) (x : Word) : (s.setRxBytes ep x).ep0 = s.ep0 := rfl
@[simp] theorem State.setRxBytes_ep0out (s : State) (ep : Ep) (x : Word) : (s.setRxBytes ep x).ep0out = s.ep0out := rfl
@[simp] theorem State.setRxBytes_setAddrPending (s : State) (ep : Ep) (x : Word) : (s.setRxBytes ep x).setAddrPending = s.setAddrPending := rfl
@[simp] theorem State.setRxBytes_config (s : State) (ep : Ep) (x : Word) : (s.setRxBytes ep x).config = s.config := rfl
@[simp] theorem State.setRxBytes_endpt (s : State) (ep : Ep) (x : Word) : (s.setRxBytes ep x).endpt = s.endpt := rfl
@[simp] theorem State.setRxBytes_addr (s : State) (ep : Ep) (x : Word) : (s.setRxBytes ep x).addr = s.addr := rfl
@[simp] theorem State.setRxBytes_pwr (s : State) (ep : Ep) (x : Word) : (s.setRxBytes ep x).pwr = s.pwr := rfl
@[simp] theorem State.setRxBytes_pp (s : State) (ep : Ep) (x : Word) : (s.setRxBytes ep x).pp = s.pp := rfl
@[simp] theorem State.setRxBytes_stat (s : State) (ep : Ep) (x : Word) : (s.setRxBytes ep x).stat = s.stat := rfl
@[simp] theorem State.setRxBytes_tokenSuspend (s : State) (ep : Ep) (x : Word) : (s.setRxBytes ep x).tokenSuspend = s.tokenSuspend := rfl
@[simp] theorem State.setRxBytes_attached (s : State) (ep : Ep) (x : Word) : (s.setRxBytes ep x).attached = s.attached := rfl
@[simp] theorem State.setRxBytes_reconnects (s : State) (ep : Ep) (x : Word) : (s.setRxBytes ep x).reconnects = s.reconnects := rfl
@[simp] theorem State.setRxBytes_reloaded (s : State) (ep : Ep) (x : Word) : (s.setRxBytes ep x).reloaded = s.reloaded := rfl
@[simp] theorem State.setRxBytes_obs (s : State) (ep : Ep) (x : Word) : (s.setRxBytes ep x).obs = s.obs := rfl
@[simp] theorem State.setRxBytes_fault (s : State) (ep : Ep) (x : Word) : (s.setRxBytes ep x).fault = s.fault := rfl
@[simp] theorem State.setRxBytes_result (s : State) (ep : Ep) (x : Word) : (s.setRxBytes ep x).result = s.result := rfl
@[simp] theorem State.setRxBytes_calls (s : State) (ep : Ep) (x : Word) : (s.setRxBytes ep x).calls = s.calls := rfl
@[simp] theorem State.setRxBytes_cmds (s : State) (ep : Ep) (x : Word) : (s.setRxBytes ep x).cmds = s.cmds := rfl
@[simp] theorem State.setRxBytes_draws (s : State) (ep : Ep) (x : Word) : (s.setRxBytes ep x).draws = s.draws := rfl
@[simp] theorem State.setRxBytes_drawn (s : State) (ep : Ep) (x : Word) : (s.setRxBytes ep x).drawn = s.drawn := rfl

/-! ### setEndpt -/

@[simp] theorem State.setEndpt_cfg (s : State) (ep : Ep) (x : Byte) : (s.setEndpt ep x).cfg = s.cfg := rfl
@[simp] theorem State.setEndpt_pkt (s : State) (ep : Ep) (x : Byte) : (s.setEndpt ep x).pkt = s.pkt := rfl
@[simp] theorem State.setEndpt_free (s : State) (ep : Ep) (x : Byte) : (s.setEndpt ep x).free = s.free := rfl
@[simp] theorem State.setEndpt_owner (s : State) (ep : Ep) (x : Byte) : (s.setEndpt ep x).owner = s.owner := rfl
@[simp] theorem State.setEndpt_mem (s : State) (ep : Ep) (x : Byte) : (s.setEndpt ep x).mem = s.mem := rfl
@[simp] theorem State.setEndpt_bdt (s : State) (ep : Ep) (x : Byte) : (s.setEndpt ep x).bdt = s.bdt := rfl
@[simp] theorem State.setEndpt_txState (s : State) (ep : Ep) (x : Byte) : (s.setEndpt ep x).txState = s.txState := rfl
@[simp] theorem State.setEndpt_txq (s : State) (ep : Ep) (x : Byte) : (s.setEndpt ep x).txq = s.txq := rfl
@[simp] theorem State.setEndpt_rxq (s : State) (ep : Ep) (x : Byte) : (s.setEndpt ep x).rxq = s.rxq := rfl
@[simp] theorem State.setEndpt_rxBytes (s : State) (ep : Ep) (x : Byte) : (s.setEndpt ep x).rxBytes = s.rxBytes := rfl
@[simp] theorem State.setEndpt_rxNeeded (s : State) (ep : Ep) (x : Byte) : (s.setEndpt ep x).rxNeeded = s.rxNeeded := rfl
@[simp] theorem State.setEndpt_setup (s : State) (ep : Ep) (x : Byte) : (s.setEndpt ep x).setup = s.setup := rfl
@[simp] theorem State.setEndpt_ctl (s : State) (ep : Ep) (x : Byte) : (s.setEndpt ep x).ctl = s.ctl := rfl
@[simp] theorem State.setEndpt_ep0 (s : State) (ep : Ep) (x : Byte) : (s.setEndpt ep x).ep0 = s.ep0 := rfl
@[simp] theorem State.setEndpt_ep0out (s : State) (ep : Ep) (x : Byte) : (s.setEndpt ep x).ep0out = s.ep0out := rfl
@[simp] theorem State.setEndpt_setAddrPending (s : State) (ep : Ep) (x : Byte) : (s.setEndpt ep x).setAddrPending = s.setAddrPending := rfl
@[simp] theorem State.setEndpt_config (s : State) (ep : Ep) (x : Byte) : (s.setEndpt ep x).config = s.config := rfl
@[simp] theorem State.setEndpt_endpt (s : State) (ep : Ep) (x : Byte) : (s.setEndpt ep x).endpt = epPut s.endpt ep x := rfl
@[simp] theorem State.setEndpt_addr (s : State) (ep : Ep) (x : Byte) : (s.setEndpt ep x).addr = s.addr := rfl
@[simp] theorem State.setEndpt_pwr (s : State) (ep : Ep) (x : Byte) : (s.setEndpt ep x).pwr = s.pwr := rfl
@[simp] theorem State.setEndpt_pp (s : State) (ep : Ep) (x : Byte) : (s.setEndpt ep x).pp = s.pp := rfl
@[simp] theorem State.setEndpt_stat (s : State) (ep : Ep) (x : Byte) : (s.setEndpt ep x).stat = s.stat := rfl
@[simp] theorem State.setEndpt_tokenSuspend (s : State) (ep : Ep) (x : Byte) : (s.setEndpt ep x).tokenSuspend = s.tokenSuspend := rfl
@[simp] theorem State.setEndpt_attached (s : State) (ep : Ep) (x : Byte) : (s.setEndpt ep x).attached = s.attached := rfl
@[simp] theorem State.setEndpt_reconnects (s : State) (ep : Ep) (x : Byte) : (s.setEndpt ep x).reconnects = s.reconnects := rfl
@[simp] theorem State.setEndpt_reloaded (s : State) (ep : Ep) (x : Byte) : (s.setEndpt ep x).reloaded = s.reloaded := rfl
@[simp] theorem State.setEndpt_obs (s : State) (ep : Ep) (x : Byte) : (s.setEndpt ep x).obs = s.obs := rfl
@[simp] theorem State.setEndpt_fault (s : State) (ep : Ep) (x : Byte) : (s.setEndpt ep x).fault = s.fault := rfl
@[simp] theorem State.setEndpt_result (s : State) (ep : Ep) (x : Byte) : (s.setEndpt ep x).result = s.result := rfl
@[simp] theorem State.setEndpt_calls (s : State) (ep : Ep) (x : Byte) : (s.setEndpt ep x).calls = s.calls := rfl
@[simp] theorem State.setEndpt_cmds (s : State) (ep : Ep) (x : Byte) : (s.setEndpt ep x).cmds = s.cmds := rfl
@[simp] theorem State.setEndpt_draws (s : State) (ep : Ep) (x : Byte) : (s.setEndpt ep x).draws = s.draws := rfl
@[simp] theorem State.setEndpt_drawn (s : State) (ep : Ep) (x : Byte) : (s.setEndpt ep x).drawn = s.drawn := rfl

/-! ### setPp -/

@[simp] theorem State.setPp_cfg (s : State) (ep : Ep) (d : Dir) (x : Bank) : (s.setPp ep d x).cfg = s.cfg := rfl
@[simp] theorem State.setPp_pkt (s : State) (ep : Ep) (d : Dir) (x : Bank) : (s.setPp ep d x).pkt = s.pkt := rfl
@[simp] theorem State.setPp_free (s : State) (ep : Ep) (d : Dir) (x : Bank) : (s.setPp ep d x).free = s.free := rfl
@[simp] theorem State.setPp_owner (s : State) (ep : Ep) (d : Dir) (x : Bank) : (s.setPp ep d x).owner = s.owner := rfl
@[simp] theorem State.setPp_mem (s : State) (ep : Ep) (d : Dir) (x : Bank) : (s.setPp ep d x).mem = s.mem := rfl
@[simp] theorem State.setPp_bdt (s : State) (ep : Ep) (d : Dir) (x : Bank) : (s.setPp ep d x).bdt = s.bdt := rfl
@[simp] theorem State.setPp_txState (s : State) (ep : Ep) (d : Dir) (x : Bank) : (s.setPp ep d x).txState = s.txState := rfl
@[simp] theorem State.setPp_txq (s : State) (ep : Ep) (d : Dir) (x : Bank) : (s.setPp ep d x).txq = s.txq := rfl
@[simp] theorem State.setPp_rxq (s : State) (ep : Ep) (d : Dir) (x : Bank) : (s.setPp ep d x).rxq = s.rxq := rfl
@[simp] theorem State.setPp_rxBytes (s : State) (ep : Ep) (d : Dir) (x : Bank) : (s.setPp ep d x).rxBytes = s.rxBytes := rfl
@[simp] theorem State.setPp_rxNeeded (s : State) (ep : Ep) (d : Dir) (x : Bank) : (s.setPp ep d x).rxNeeded = s.rxNeeded := rfl
@[simp] theorem State.setPp_setup (s : State) (ep : Ep) (d : Dir) (x : Bank) : (s.setPp ep d x).setup = s.setup := rfl
@[simp] theorem State.setPp_ctl (s : State) (ep : Ep) (d : Dir) (x : Bank) : (s.setPp ep d x).ctl = s.ctl := rfl
@[simp] theorem State.setPp_ep0 (s : State) (ep : Ep) (d : Dir) (x : Bank) : (s.setPp ep d x).ep0 = s.ep0 := rfl
@[simp] theorem State.setPp_ep0out (s : State) (ep : Ep) (d : Dir) (x : Bank) : (s.setPp ep d x).ep0out = s.ep0out := rfl
@[simp] theorem State.setPp_setAddrPending (s : State) (ep : Ep) (d : Dir) (x : Bank) : (s.setPp ep d x).setAddrPending = s.setAddrPending := rfl
@[simp] theorem State.setPp_config (s : State) (ep : Ep) (d : Dir) (x : Bank) : (s.setPp ep d x).config = s.config := rfl
@[simp] theorem State.setPp_endpt (s : State) (ep : Ep) (d : Dir) (x : Bank) : (s.setPp ep d x).endpt = s.endpt := rfl
@[simp] theorem State.setPp_addr (s : State) (ep : Ep) (d : Dir) (x : Bank) : (s.setPp ep d x).addr = s.addr := rfl
@[simp] theorem State.setPp_pwr (s : State) (ep : Ep) (d : Dir) (x : Bank) : (s.setPp ep d x).pwr = s.pwr := rfl
@[simp] theorem State.setPp_pp (s : State) (ep : Ep) (d : Dir) (x : Bank) : (s.setPp ep d x).pp = epPut s.pp ep ((epGet s.pp ep).put d x) := rfl
@[simp] theorem State.setPp_stat (s : State) (ep : Ep) (d : Dir) (x : Bank) : (s.setPp ep d x).stat = s.stat := rfl
@[simp] theorem State.setPp_tokenSuspend (s : State) (ep : Ep) (d : Dir) (x : Bank) : (s.setPp ep d x).tokenSuspend = s.tokenSuspend := rfl
@[simp] theorem State.setPp_attached (s : State) (ep : Ep) (d : Dir) (x : Bank) : (s.setPp ep d x).attached = s.attached := rfl
@[simp] theorem State.setPp_reconnects (s : State) (ep : Ep) (d : Dir) (x : Bank) : (s.setPp ep d x).reconnects = s.reconnects := rfl
@[simp] theorem State.setPp_reloaded (s : State) (ep : Ep) (d : Dir) (x : Bank) : (s.setPp ep d x).reloaded = s.reloaded := rfl
@[simp] theorem State.setPp_obs (s : State) (ep : Ep) (d : Dir) (x : Bank) : (s.setPp ep d x).obs = s.obs := rfl
@[simp] theorem State.setPp_fault (s : State) (ep : Ep) (d : Dir) (x : Bank) : (s.setPp ep d x).fault = s.fault := rfl
@[simp] theorem State.setPp_result (s : State) (ep : Ep) (d : Dir) (x : Bank) : (s.setPp ep d x).result = s.result := rfl
@[simp] theorem State.setPp_calls (s : State) (ep : Ep) (d : Dir) (x : Bank) : (s.setPp ep d x).calls = s.calls := rfl
@[simp] theorem State.setPp_cmds (s : State) (ep : Ep) (d : Dir) (x : Bank) : (s.setPp ep d x).cmds = s.cmds := rfl
@[simp] theorem State.setPp_draws (s : State) (ep : Ep) (d : Dir) (x : Bank) : (s.setPp ep d x).draws = s.draws := rfl
@[simp] theorem State.setPp_drawn (s : State) (ep : Ep) (d : Dir) (x : Bank) : (s.setPp ep d x).drawn = s.drawn := rfl

/-! ### setMem -/

@[simp] theorem State.setMem_cfg (s : State) (m : Memory) : (s.setMem m).cfg = s.cfg := rfl
@[simp] theorem State.setMem_pkt (s : State) (m : Memory) : (s.setMem m).pkt = s.pkt := rfl
@[simp] theorem State.setMem_free (s : State) (m : Memory) : (s.setMem m).free = s.free := rfl
@[simp] theorem State.setMem_owner (s : State) (m : Memory) : (s.setMem m).owner = s.owner := rfl
@[simp] theorem State.setMem_mem (s : State) (m : Memory) : (s.setMem m).mem = m := rfl
@[simp] theorem State.setMem_bdt (s : State) (m : Memory) : (s.setMem m).bdt = s.bdt := rfl
@[simp] theorem State.setMem_txState (s : State) (m : Memory) : (s.setMem m).txState = s.txState := rfl
@[simp] theorem State.setMem_txq (s : State) (m : Memory) : (s.setMem m).txq = s.txq := rfl
@[simp] theorem State.setMem_rxq (s : State) (m : Memory) : (s.setMem m).rxq = s.rxq := rfl
@[simp] theorem State.setMem_rxBytes (s : State) (m : Memory) : (s.setMem m).rxBytes = s.rxBytes := rfl
@[simp] theorem State.setMem_rxNeeded (s : State) (m : Memory) : (s.setMem m).rxNeeded = s.rxNeeded := rfl
@[simp] theorem State.setMem_setup (s : State) (m : Memory) : (s.setMem m).setup = s.setup := rfl
@[simp] theorem State.setMem_ctl (s : State) (m : Memory) : (s.setMem m).ctl = s.ctl := rfl
@[simp] theorem State.setMem_ep0 (s : State) (m : Memory) : (s.setMem m).ep0 = s.ep0 := rfl
@[simp] theorem State.setMem_ep0out (s : State) (m : Memory) : (s.setMem m).ep0out = s.ep0out := rfl
@[simp] theorem State.setMem_setAddrPending (s : State) (m : Memory) : (s.setMem m).setAddrPending = s.setAddrPending := rfl
@[simp] theorem State.setMem_config (s : State) (m : Memory) : (s.setMem m).config = s.config := rfl
@[simp] theorem State.setMem_endpt (s : State) (m : Memory) : (s.setMem m).endpt = s.endpt := rfl
@[simp] theorem State.setMem_addr (s : State) (m : Memory) : (s.setMem m).addr = s.addr := rfl
@[simp] theorem State.setMem_pwr (s : State) (m : Memory) : (s.setMem m).pwr = s.pwr := rfl
@[simp] theorem State.setMem_pp (s : State) (m : Memory) : (s.setMem m).pp = s.pp := rfl
@[simp] theorem State.setMem_stat (s : State) (m : Memory) : (s.setMem m).stat = s.stat := rfl
@[simp] theorem State.setMem_tokenSuspend (s : State) (m : Memory) : (s.setMem m).tokenSuspend = s.tokenSuspend := rfl
@[simp] theorem State.setMem_attached (s : State) (m : Memory) : (s.setMem m).attached = s.attached := rfl
@[simp] theorem State.setMem_reconnects (s : State) (m : Memory) : (s.setMem m).reconnects = s.reconnects := rfl
@[simp] theorem State.setMem_reloaded (s : State) (m : Memory) : (s.setMem m).reloaded = s.reloaded := rfl
@[simp] theorem State.setMem_obs (s : State) (m : Memory) : (s.setMem m).obs = s.obs := rfl
@[simp] theorem State.setMem_fault (s : State) (m : Memory) : (s.setMem m).fault = s.fault := rfl
@[simp] theorem State.setMem_result (s : State) (m : Memory) : (s.setMem m).result = s.result := rfl
@[simp] theorem State.setMem_calls (s : State) (m : Memory) : (s.setMem m).calls = s.calls := rfl
@[simp] theorem State.setMem_cmds (s : State) (m : Memory) : (s.setMem m).cmds = s.cmds := rfl
@[simp] theorem State.setMem_draws (s : State) (m : Memory) : (s.setMem m).draws = s.draws := rfl
@[simp] theorem State.setMem_drawn (s : State) (m : Memory) : (s.setMem m).drawn = s.drawn := rfl

/-! ### emit -/

@[simp] theorem State.emit_cfg (s : State) (o : HostObs) : (s.emit o).cfg = s.cfg := rfl
@[simp] theorem State.emit_pkt (s : State) (o : HostObs) : (s.emit o).pkt = s.pkt := rfl
@[simp] theorem State.emit_free (s : State) (o : HostObs) : (s.emit o).free = s.free := rfl
@[simp] theorem State.emit_owner (s : State) (o : HostObs) : (s.emit o).owner = s.owner := rfl
@[simp] theorem State.emit_mem (s : State) (o : HostObs) : (s.emit o).mem = s.mem := rfl
@[simp] theorem State.emit_bdt (s : State) (o : HostObs) : (s.emit o).bdt = s.bdt := rfl
@[simp] theorem State.emit_txState (s : State) (o : HostObs) : (s.emit o).txState = s.txState := rfl
@[simp] theorem State.emit_txq (s : State) (o : HostObs) : (s.emit o).txq = s.txq := rfl
@[simp] theorem State.emit_rxq (s : State) (o : HostObs) : (s.emit o).rxq = s.rxq := rfl
@[simp] theorem State.emit_rxBytes (s : State) (o : HostObs) : (s.emit o).rxBytes = s.rxBytes := rfl
@[simp] theorem State.emit_rxNeeded (s : State) (o : HostObs) : (s.emit o).rxNeeded = s.rxNeeded := rfl
@[simp] theorem State.emit_setup (s : State) (o : HostObs) : (s.emit o).setup = s.setup := rfl
@[simp] theorem State.emit_ctl (s : State) (o : HostObs) : (s.emit o).ctl = s.ctl := rfl
@[simp] theorem State.emit_ep0 (s : State) (o : HostObs) : (s.emit o).ep0 = s.ep0 := rfl
@[simp] theorem State.emit_ep0out (s : State) (o : HostObs) : (s.emit o).ep0out = s.ep0out := rfl
@[simp] theorem State.emit_setAddrPending (s : State) (o : HostObs) : (s.emit o).setAddrPending = s.setAddrPending := rfl
@[simp] theorem State.emit_config (s : State) (o : HostObs) : (s.emit o).config = s.config := rfl
@[simp] theorem State.emit_endpt (s : State) (o : HostObs) : (s.emit o).endpt = s.endpt := rfl
@[simp] theorem State.emit_addr (s : State) (o : HostObs) : (s.emit o).addr = s.addr := rfl
@[simp] theorem State.emit_pwr (s : State) (o : HostObs) : (s.emit o).pwr = s.pwr := rfl
@[simp] theorem State.emit_pp (s : State) (o : HostObs) : (s.emit o).pp = s.pp := rfl
@[simp] theorem State.emit_stat (s : State) (o : HostObs) : (s.emit o).stat = s.stat := rfl
@[simp] theorem State.emit_tokenSuspend (s : State) (o : HostObs) : (s.emit o).tokenSuspend = s.tokenSuspend := rfl
@[simp] theorem State.emit_attached (s : State) (o : HostObs) : (s.emit o).attached = s.attached := rfl
@[simp] theorem State.emit_reconnects (s : State) (o : HostObs) : (s.emit o).reconnects = s.reconnects := rfl
@[simp] theorem State.emit_reloaded (s : State) (o : HostObs) : (s.emit o).reloaded = s.reloaded := rfl
@[simp] theorem State.emit_obs (s : State) (o : HostObs) : (s.emit o).obs = s.obs ++ [o] := rfl
@[simp] theorem State.emit_fault (s : State) (o : HostObs) : (s.emit o).fault = s.fault := rfl
@[simp] theorem State.emit_result (s : State) (o : HostObs) : (s.emit o).result = s.result := rfl
@[simp] theorem State.emit_calls (s : State) (o : HostObs) : (s.emit o).calls = s.calls := rfl
@[simp] theorem State.emit_cmds (s : State) (o : HostObs) : (s.emit o).cmds = s.cmds := rfl
@[simp] theorem State.emit_draws (s : State) (o : HostObs) : (s.emit o).draws = s.draws := rfl
@[simp] theorem State.emit_drawn (s : State) (o : HostObs) : (s.emit o).drawn = s.drawn := rfl

/-! ### call -/

@[simp] theorem State.call_cfg (s : State) (c : CollabCall) : (s.call c).cfg = s.cfg := rfl
@[simp] theorem State.call_pkt (s : State) (c : CollabCall) : (s.call c).pkt = s.pkt := rfl
@[simp] theorem State.call_free (s : State) (c : CollabCall) : (s.call c).free = s.free := rfl
@[simp] theorem State.call_owner (s : State) (c : CollabCall) : (s.call c).owner = s.owner := rfl
@[simp] theorem State.call_mem (s : State) (c : CollabCall) : (s.call c).mem = s.mem := rfl
@[simp] theorem State.call_bdt (s : State) (c : CollabCall) : (s.call c).bdt = s.bdt := rfl
@[simp] theorem State.call_txState (s : State) (c : CollabCall) : (s.call c).txState = s.txState := rfl
@[simp] theorem State.call_txq (s : State) (c : CollabCall) : (s.call c).txq = s.txq := rfl
@[simp] theorem State.call_rxq (s : State) (c : CollabCall) : (s.call c).rxq = s.rxq := rfl
@[simp] theorem State.call_rxBytes (s : State) (c : CollabCall) : (s.call c).rxBytes = s.rxBytes := rfl
@[simp] theorem State.call_rxNeeded (s : State) (c : CollabCall) : (s.call c).rxNeeded = s.rxNeeded := rfl
@[simp] theorem State.call_setup (s : State) (c : CollabCall) : (s.call c).setup = s.setup := rfl
@[simp] theorem State.call_ctl (s : State) (c : CollabCall) : (s.call c).ctl = s.ctl := rfl
@[simp] theorem State.call_ep0 (s : State) (c : CollabCall) : (s.call c).ep0 = s.ep0 := rfl
@[simp] theorem State.call_ep0out (s : State) (c : CollabCall) : (s.call c).ep0out = s.ep0out := rfl
@[simp] theorem State.call_setAddrPending (s : State) (c : CollabCall) : (s.call c).setAddrPending = s.setAddrPending := rfl
@[simp] theorem State.call_config (s : State) (c : CollabCall) : (s.call c).config = s.config := rfl
@[simp] theorem State.call_endpt (s : State) (c : CollabCall) : (s.call c).endpt = s.endpt := rfl
@[simp] theorem State.call_addr (s : State) (c : CollabCall) : (s.call c).addr = s.addr := rfl
@[simp] theorem State.call_pwr (s : State) (c : CollabCall) : (s.call c).pwr = s.pwr := rfl
@[simp] theorem State.call_pp (s : State) (c : CollabCall) : (s.call c).pp = s.pp := rfl
@[simp] theorem State.call_stat (s : State) (c : CollabCall) : (s.call c).stat = s.stat := rfl
@[simp] theorem State.call_tokenSuspend (s : State) (c : CollabCall) : (s.call c).tokenSuspend = s.tokenSuspend := rfl
@[simp] theorem State.call_attached (s : State) (c : CollabCall) : (s.call c).attached = s.attached := rfl
@[simp] theorem State.call_reconnects (s : State) (c : CollabCall) : (s.call c).reconnects = s.reconnects := rfl
@[simp] theorem State.call_reloaded (s : State) (c : CollabCall) : (s.call c).reloaded = s.reloaded := rfl
@[simp] theorem State.call_obs (s : State) (c : CollabCall) : (s.call c).obs = s.obs := rfl
@[simp] theorem State.call_fault (s : State) (c : CollabCall) : (s.call c).fault = s.fault := rfl
@[simp] theorem State.call_result (s : State) (c : CollabCall) : (s.call c).result = s.result := rfl
@[simp] theorem State.call_calls (s : State) (c : CollabCall) : (s.call c).calls = s.calls ++ [c] := rfl
@[simp] theorem State.call_cmds (s : State) (c : CollabCall) : (s.call c).cmds = s.cmds := rfl
@[simp] theorem State.call_draws (s : State) (c : CollabCall) : (s.call c).draws = s.draws := rfl
@[simp] theorem State.call_drawn (s : State) (c : CollabCall) : (s.call c).drawn = s.drawn := rfl

/-! ### returning -/

@[simp] theorem State.returning_cfg (s : State) (r : Result) : (s.returning r).cfg = s.cfg := rfl
@[simp] theorem State.returning_pkt (s : State) (r : Result) : (s.returning r).pkt = s.pkt := rfl
@[simp] theorem State.returning_free (s : State) (r : Result) : (s.returning r).free = s.free := rfl
@[simp] theorem State.returning_owner (s : State) (r : Result) : (s.returning r).owner = s.owner := rfl
@[simp] theorem State.returning_mem (s : State) (r : Result) : (s.returning r).mem = s.mem := rfl
@[simp] theorem State.returning_bdt (s : State) (r : Result) : (s.returning r).bdt = s.bdt := rfl
@[simp] theorem State.returning_txState (s : State) (r : Result) : (s.returning r).txState = s.txState := rfl
@[simp] theorem State.returning_txq (s : State) (r : Result) : (s.returning r).txq = s.txq := rfl
@[simp] theorem State.returning_rxq (s : State) (r : Result) : (s.returning r).rxq = s.rxq := rfl
@[simp] theorem State.returning_rxBytes (s : State) (r : Result) : (s.returning r).rxBytes = s.rxBytes := rfl
@[simp] theorem State.returning_rxNeeded (s : State) (r : Result) : (s.returning r).rxNeeded = s.rxNeeded := rfl
@[simp] theorem State.returning_setup (s : State) (r : Result) : (s.returning r).setup = s.setup := rfl
@[simp] theorem State.returning_ctl (s : State) (r : Result) : (s.returning r).ctl = s.ctl := rfl
@[simp] theorem State.returning_ep0 (s : State) (r : Result) : (s.returning r).ep0 = s.ep0 := rfl
@[simp] theorem State.returning_ep0out (s : State) (r : Result) : (s.returning r).ep0out = s.ep0out := rfl
@[simp] theorem State.returning_setAddrPending (s : State) (r : Result) : (s.returning r).setAddrPending = s.setAddrPending := rfl
@[simp] theorem State.returning_config (s : State) (r : Result) : (s.returning r).config = s.config := rfl
@[simp] theorem State.returning_endpt (s : State) (r : Result) : (s.returning r).endpt = s.endpt := rfl
@[simp] theorem State.returning_addr (s : State) (r : Result) : (s.returning r).addr = s.addr := rfl
@[simp] theorem State.returning_pwr (s : State) (r : Result) : (s.returning r).pwr = s.pwr := rfl
@[simp] theorem State.returning_pp (s : State) (r : Result) : (s.returning r).pp = s.pp := rfl
@[simp] theorem State.returning_stat (s : State) (r : Result) : (s.returning r).stat = s.stat := rfl
@[simp] theorem State.returning_tokenSuspend (s : State) (r : Result) : (s.returning r).tokenSuspend = s.tokenSuspend := rfl
@[simp] theorem State.returning_attached (s : State) (r : Result) : (s.returning r).attached = s.attached := rfl
@[simp] theorem State.returning_reconnects (s : State) (r : Result) : (s.returning r).reconnects = s.reconnects := rfl
@[simp] theorem State.returning_reloaded (s : State) (r : Result) : (s.returning r).reloaded = s.reloaded := rfl
@[simp] theorem State.returning_obs (s : State) (r : Result) : (s.returning r).obs = s.obs := rfl
@[simp] theorem State.returning_fault (s : State) (r : Result) : (s.returning r).fault = s.fault := rfl
@[simp] theorem State.returning_result (s : State) (r : Result) : (s.returning r).result = some r := rfl
@[simp] theorem State.returning_calls (s : State) (r : Result) : (s.returning r).calls = s.calls := rfl
@[simp] theorem State.returning_cmds (s : State) (r : Result) : (s.returning r).cmds = s.cmds := rfl
@[simp] theorem State.returning_draws (s : State) (r : Result) : (s.returning r).draws = s.draws := rfl
@[simp] theorem State.returning_drawn (s : State) (r : Result) : (s.returning r).drawn = s.drawn := rfl

/-! ### raise -/

@[simp] theorem State.raise_cfg (s : State) (r : FaultReason) : (s.raise r).cfg = s.cfg := rfl
@[simp] theorem State.raise_pkt (s : State) (r : FaultReason) : (s.raise r).pkt = s.pkt := rfl
@[simp] theorem State.raise_free (s : State) (r : FaultReason) : (s.raise r).free = s.free := rfl
@[simp] theorem State.raise_owner (s : State) (r : FaultReason) : (s.raise r).owner = s.owner := rfl
@[simp] theorem State.raise_mem (s : State) (r : FaultReason) : (s.raise r).mem = s.mem := rfl
@[simp] theorem State.raise_bdt (s : State) (r : FaultReason) : (s.raise r).bdt = s.bdt := rfl
@[simp] theorem State.raise_txState (s : State) (r : FaultReason) : (s.raise r).txState = s.txState := rfl
@[simp] theorem State.raise_txq (s : State) (r : FaultReason) : (s.raise r).txq = s.txq := rfl
@[simp] theorem State.raise_rxq (s : State) (r : FaultReason) : (s.raise r).rxq = s.rxq := rfl
@[simp] theorem State.raise_rxBytes (s : State) (r : FaultReason) : (s.raise r).rxBytes = s.rxBytes := rfl
@[simp] theorem State.raise_rxNeeded (s : State) (r : FaultReason) : (s.raise r).rxNeeded = s.rxNeeded := rfl
@[simp] theorem State.raise_setup (s : State) (r : FaultReason) : (s.raise r).setup = s.setup := rfl
@[simp] theorem State.raise_ctl (s : State) (r : FaultReason) : (s.raise r).ctl = s.ctl := rfl
@[simp] theorem State.raise_ep0 (s : State) (r : FaultReason) : (s.raise r).ep0 = s.ep0 := rfl
@[simp] theorem State.raise_ep0out (s : State) (r : FaultReason) : (s.raise r).ep0out = s.ep0out := rfl
@[simp] theorem State.raise_setAddrPending (s : State) (r : FaultReason) : (s.raise r).setAddrPending = s.setAddrPending := rfl
@[simp] theorem State.raise_config (s : State) (r : FaultReason) : (s.raise r).config = s.config := rfl
@[simp] theorem State.raise_endpt (s : State) (r : FaultReason) : (s.raise r).endpt = s.endpt := rfl
@[simp] theorem State.raise_addr (s : State) (r : FaultReason) : (s.raise r).addr = s.addr := rfl
@[simp] theorem State.raise_pwr (s : State) (r : FaultReason) : (s.raise r).pwr = s.pwr := rfl
@[simp] theorem State.raise_pp (s : State) (r : FaultReason) : (s.raise r).pp = s.pp := rfl
@[simp] theorem State.raise_stat (s : State) (r : FaultReason) : (s.raise r).stat = s.stat := rfl
@[simp] theorem State.raise_tokenSuspend (s : State) (r : FaultReason) : (s.raise r).tokenSuspend = s.tokenSuspend := rfl
@[simp] theorem State.raise_attached (s : State) (r : FaultReason) : (s.raise r).attached = s.attached := rfl
@[simp] theorem State.raise_reconnects (s : State) (r : FaultReason) : (s.raise r).reconnects = s.reconnects := rfl
@[simp] theorem State.raise_reloaded (s : State) (r : FaultReason) : (s.raise r).reloaded = s.reloaded := rfl
@[simp] theorem State.raise_obs (s : State) (r : FaultReason) : (s.raise r).obs = s.obs := rfl
@[simp] theorem State.raise_fault (s : State) (r : FaultReason) : (s.raise r).fault = some r := rfl
@[simp] theorem State.raise_result (s : State) (r : FaultReason) : (s.raise r).result = s.result := rfl
@[simp] theorem State.raise_calls (s : State) (r : FaultReason) : (s.raise r).calls = s.calls := rfl
@[simp] theorem State.raise_cmds (s : State) (r : FaultReason) : (s.raise r).cmds = s.cmds := rfl
@[simp] theorem State.raise_draws (s : State) (r : FaultReason) : (s.raise r).draws = s.draws := rfl
@[simp] theorem State.raise_drawn (s : State) (r : FaultReason) : (s.raise r).drawn = s.drawn := rfl

end Sys2Proof.Machine
end

