-- ==== Sys2Proof/Laws/Access.lean ====
section
/-! SUPPORT. Read after write for the arrays of State: by endpoint, direction, bank and packet id. -/

namespace Sys2Proof

@[simp] theorem epGet_epPut_same {α : Type} (v : PerEp α) (e : Ep) (x : α) : epGet (epPut v e x) e = x := by
  simp [epGet, epPut, Vector.get_eq_getElem]

theorem epGet_epPut_other {α : Type} (v : PerEp α) (e e' : Ep) (x : α) (h : e' ≠ e) :
    epGet (epPut v e x) e' = epGet v e' := by
  have : e.val ≠ e'.val := fun hv => h (Fin.ext hv.symm)
  simp [epGet, epPut, Vector.get_eq_getElem, Vector.getElem_set_ne, this]

theorem epGet_epPut {α : Type} (v : PerEp α) (e e' : Ep) (x : α) :
    epGet (epPut v e x) e' = if e' = e then x else epGet v e' := by
  split
  · next h => subst h; exact epGet_epPut_same v e' x
  · next h => exact epGet_epPut_other v e e' x h

/-- Two arrays are equal when every endpoint's entry is. -/
theorem epGet_ext {α : Type} (v w : PerEp α) (h : ∀ e : Ep, epGet v e = epGet w e) : v = w := by
  apply Vector.ext
  intro i hi
  exact h ⟨i, hi⟩

@[simp] theorem epGet_replicate {α : Type} (x : α) (e : Ep) : epGet (Vector.replicate 16 x) e = x := by
  simp [epGet, Vector.get_eq_getElem]

@[simp] theorem epPut_epPut_same {α : Type} (v : PerEp α) (e : Ep) (x y : α) :
    epPut (epPut v e x) e y = epPut v e y := by
  apply epGet_ext
  intro e'
  simp only [epGet_epPut]
  split <;> rfl

@[simp] theorem epPut_epGet {α : Type} (v : PerEp α) (e : Ep) : epPut v e (epGet v e) = v := by
  apply epGet_ext
  intro e'
  rw [epGet_epPut]
  split
  · next h => rw [h]
  · rfl

@[simp] theorem Banks.get_put_same {α : Type} (v : Banks α) (b : Bank) (x : α) : (v.put b x).get b = x := by
  cases b <;> rfl

@[simp] theorem Banks.get_put_other {α : Type} (v : Banks α) (b : Bank) (x : α) :
    (v.put b x).get b.other = v.get b.other := by
  cases b <;> rfl

theorem Banks.get_put {α : Type} (v : Banks α) (b b' : Bank) (x : α) :
    (v.put b x).get b' = if b' = b then x else v.get b' := by
  cases b <;> cases b' <;> rfl

@[simp] theorem Dirs.get_put_same {α : Type} (v : Dirs α) (d : Dir) (x : α) : (v.put d x).get d = x := by
  cases d <;> rfl

theorem Dirs.get_put {α : Type} (v : Dirs α) (d d' : Dir) (x : α) :
    (v.put d x).get d' = if d' = d then x else v.get d' := by
  cases d <;> cases d' <;> rfl

@[simp] theorem Bank.other_other (b : Bank) : b.other.other = b := by cases b <;> rfl

theorem Bank.other_ne (b : Bank) : b.other ≠ b := by cases b <;> simp [Bank.other]

theorem Bank.eq_or_other (b c : Bank) : c = b ∨ c = b.other := by cases b <;> cases c <;> simp [Bank.other]

@[simp] theorem Toggle.other_other (t : Toggle) : t.other.other = t := by cases t <;> rfl

end Sys2Proof

namespace Sys2Proof.Machine

/-! ### Slots -/

@[simp] theorem State.slot_setSlot_same (s : State) (ep : Ep) (d : Dir) (b : Bank) (x : Slot) :
    (s.setSlot ep d b x).slot ep d b = x := by
  simp [State.slot]

theorem State.slot_setSlot (s : State) (ep ep' : Ep) (d d' : Dir) (b b' : Bank) (x : Slot) :
    (s.setSlot ep d b x).slot ep' d' b' = if ep' = ep ∧ d' = d ∧ b' = b then x else s.slot ep' d' b' := by
  simp only [State.slot, State.setSlot_bdt, epGet_epPut]
  by_cases he : ep' = ep <;> by_cases hd : d' = d <;> by_cases hb : b' = b <;>
    simp [he, hd, hb, Dirs.get_put, Banks.get_put]

theorem State.slot_setSlot_other (s : State) (ep ep' : Ep) (d d' : Dir) (b b' : Bank) (x : Slot)
    (h : ¬(ep' = ep ∧ d' = d ∧ b' = b)) : (s.setSlot ep d b x).slot ep' d' b' = s.slot ep' d' b' := by
  rw [State.slot_setSlot, if_neg h]

/-- The slots of a state depend on its BDT alone. -/
theorem State.slot_congr (s t : State) (h : s.bdt = t.bdt) : s.slot = t.slot := by
  funext ep d b
  simp [State.slot, h]

/-- Two BDTs are equal when every slot is. -/
theorem State.bdt_ext (s t : State) (h : ∀ ep d b, s.slot ep d b = t.slot ep d b) : s.bdt = t.bdt := by
  apply epGet_ext
  intro ep
  have hr := h ep .rx
  have ht := h ep .tx
  have e1 := hr .even
  have e2 := hr .odd
  have e3 := ht .even
  have e4 := ht .odd
  simp only [State.slot, Dirs.get, Banks.get] at e1 e2 e3 e4
  generalize epGet s.bdt ep = v at *
  generalize epGet t.bdt ep = w at *
  rcases v with ⟨⟨a, b⟩, ⟨c, d⟩⟩
  rcases w with ⟨⟨a', b'⟩, ⟨c', d'⟩⟩
  simp only at e1 e2 e3 e4
  simp [e1, e2, e3, e4]

/-! ### Packets -/

theorem State.header_setHeader (s : State) (h h' : Nat) (x : Header) (hh : h < s.pkt.length) :
    (s.setHeader h x).header h' = if h' = h then x else s.header h' := by
  simp only [State.header, State.setHeader_pkt, List.getD_eq_getElem?_getD, List.getElem?_set]
  by_cases e : h = h'
  · subst e; simp [hh]
  · simp [e, Ne.symm e]

theorem State.isFree_setFree (s : State) (h h' : Nat) (x : Bool) (hh : h < s.free.length) :
    (s.setFree h x).isFree h' = if h' = h then x else s.isFree h' := by
  simp only [State.isFree, State.setFree_free, List.getD_eq_getElem?_getD, List.getElem?_set]
  by_cases e : h = h'
  · subst e; simp [hh]
  · simp [e, Ne.symm e]

theorem State.isFree_lt (s : State) (h : Nat) (hf : s.isFree h = true) : h < s.free.length := by
  by_contra hn
  simp [State.isFree, List.getD_eq_getElem?_getD, List.getElem?_eq_none (Nat.le_of_not_lt hn)] at hf

theorem State.mem_freeIds (s : State) (i : Nat) : i ∈ s.freeIds ↔ s.isFree i = true := by
  simp only [State.freeIds, List.mem_filter, List.mem_range]
  exact ⟨fun h => h.2, fun h => ⟨s.isFree_lt i h, h⟩⟩

@[simp] theorem State.ppBank_setPp_same (s : State) (ep : Ep) (d : Dir) (x : Bank) :
    (s.setPp ep d x).ppBank ep d = x := by
  simp [State.ppBank]

theorem State.ppBank_setPp (s : State) (ep ep' : Ep) (d d' : Dir) (x : Bank) :
    (s.setPp ep d x).ppBank ep' d' = if ep' = ep ∧ d' = d then x else s.ppBank ep' d' := by
  simp only [State.ppBank, State.setPp_pp, epGet_epPut]
  by_cases he : ep' = ep <;> by_cases hd : d' = d <;> simp [he, hd, Dirs.get_put]

end Sys2Proof.Machine
end

