-- ==== Sys2Proof/Laws/Memory.lean ====
section
/-! SUPPORT. The memory: read after write, and that every memory operation keeps the canonical form. -/

namespace Sys2Proof.Machine

/-! ### The list operations -/

theorem memFind_memErase_same (m : Memory) (a : Nat) (h : m.Pairwise (fun x y => x.1 < y.1)) :
    memFind (memErase m a) a = none := by
  induction m with
  | nil => rfl
  | cons e m ih =>
    obtain ⟨k, v⟩ := e
    rw [List.pairwise_cons] at h
    unfold memErase
    split
    · next hk =>
      subst hk
      have hlt : ∀ y ∈ m, a < y.1 := fun y hy => h.1 y hy
      clear ih h
      induction m with
      | nil => rfl
      | cons f m ih2 =>
        obtain ⟨k', v'⟩ := f
        have h1 := hlt (k', v') (by simp)
        simp only at h1
        rw [memFind, if_neg (by omega)]
        exact ih2 (fun y hy => hlt y (by simp [hy]))
    · next hk => rw [memFind, if_neg hk]; exact ih h.2

theorem memFind_memErase_other (m : Memory) (a b : Nat) (h : b ≠ a) : memFind (memErase m a) b = memFind m b := by
  induction m with
  | nil => rfl
  | cons e m ih =>
    obtain ⟨k, v⟩ := e
    unfold memErase
    split
    · next hk => subst hk; rw [memFind, if_neg h]
    · next hk => rw [memFind, memFind, ih]

theorem memFind_memInsert_same (m : Memory) (a : Nat) (x : Byte) : memFind (memInsert m a x) a = some x := by
  induction m with
  | nil => simp [memInsert, memFind]
  | cons e m ih =>
    obtain ⟨k, v⟩ := e
    unfold memInsert
    split
    · simp [memFind]
    · split
      · simp [memFind]
      · next h1 h2 => rw [memFind, if_neg h2]; exact ih

theorem memFind_memInsert_other (m : Memory) (a b : Nat) (x : Byte) (h : b ≠ a) :
    memFind (memInsert m a x) b = memFind m b := by
  induction m with
  | nil => simp [memInsert, memFind, h]
  | cons e m ih =>
    obtain ⟨k, v⟩ := e
    unfold memInsert
    split
    · rw [memFind, if_neg h]
    · split
      · next h1 h2 => subst h2; simp [memFind, h]
      · rw [memFind, memFind, ih]

theorem mem_memErase (m : Memory) (a : Nat) (e : Host.Cell) (h : e ∈ memErase m a) : e ∈ m := by
  induction m with
  | nil => exact h
  | cons f m ih =>
    obtain ⟨k, v⟩ := f
    unfold memErase at h
    split at h
    · exact List.mem_cons_of_mem _ h
    · rcases List.mem_cons.mp h with h | h
      · simp [h]
      · exact List.mem_cons_of_mem _ (ih h)

theorem mem_memInsert (m : Memory) (a : Nat) (x : Byte) (e : Host.Cell) (h : e ∈ memInsert m a x) :
    e = (a, x) ∨ e ∈ m := by
  induction m with
  | nil => simpa [memInsert] using h
  | cons f m ih =>
    obtain ⟨k, v⟩ := f
    unfold memInsert at h
    split at h
    · exact List.mem_cons.mp h
    · split at h
      · rcases List.mem_cons.mp h with h | h
        · exact .inl h
        · exact .inr (List.mem_cons_of_mem _ h)
      · rcases List.mem_cons.mp h with h | h
        · simp [h]
        · rcases ih h with h | h
          · exact .inl h
          · exact .inr (List.mem_cons_of_mem _ h)

theorem pairwise_memErase (m : Memory) (a : Nat) (h : m.Pairwise (fun x y => x.1 < y.1)) :
    (memErase m a).Pairwise (fun x y => x.1 < y.1) := by
  induction m with
  | nil => exact h
  | cons f m ih =>
    obtain ⟨k, v⟩ := f
    rw [List.pairwise_cons] at h
    unfold memErase
    split
    · exact h.2
    · exact List.pairwise_cons.mpr ⟨fun y hy => h.1 y (mem_memErase m a y hy), ih h.2⟩

theorem pairwise_memInsert (m : Memory) (a : Nat) (x : Byte) (h : m.Pairwise (fun x y => x.1 < y.1)) :
    (memInsert m a x).Pairwise (fun x y => x.1 < y.1) := by
  induction m with
  | nil => simp [memInsert]
  | cons f m ih =>
    obtain ⟨k, v⟩ := f
    have h' := List.pairwise_cons.mp h
    unfold memInsert
    split
    · next hlt =>
      refine List.pairwise_cons.mpr ⟨fun y hy => ?_, h⟩
      rcases List.mem_cons.mp hy with hy | hy
      · subst hy; exact hlt
      · exact Nat.lt_trans hlt (h'.1 y hy)
    · split
      · next h1 h2 => subst h2; exact List.pairwise_cons.mpr ⟨h'.1, h'.2⟩
      · next h1 h2 =>
        refine List.pairwise_cons.mpr ⟨fun y hy => ?_, ih h'.2⟩
        rcases mem_memInsert m a x y hy with hy | hy
        · subst hy; simp only; omega
        · exact h'.1 y hy

/-! ### One byte -/

theorem readByte_writeByte_same (c : Params) (m : Memory) (a : Nat) (v : Byte) (h : Memory.wf c m) :
    readByte c (writeByte c m a v) a = some v := by
  unfold writeByte
  split
  · next hi => simp [readByte, memFind_memErase_same m a h.1, hi]
  · simp [readByte, memFind_memInsert_same]

theorem readByte_writeByte_other (c : Params) (m : Memory) (a b : Nat) (v : Byte) (h : b ≠ a) :
    readByte c (writeByte c m a v) b = readByte c m b := by
  unfold writeByte
  split
  · simp [readByte, memFind_memErase_other m a b h]
  · simp [readByte, memFind_memInsert_other m a b v h]

/-- A byte written keeps the canonical form. -/
theorem wf_writeByte (c : Params) (m : Memory) (a : Nat) (v : Byte) (h : Memory.wf c m) :
    Memory.wf c (writeByte c m a v) := by
  unfold writeByte
  split
  · exact ⟨pairwise_memErase m a h.1, fun x hx => h.2 x (mem_memErase m a x hx)⟩
  · next hi =>
    refine ⟨pairwise_memInsert m a v h.1, fun x hx => ?_⟩
    rcases mem_memInsert m a v x hx with hx | hx
    · subst hx; exact hi
    · exact h.2 x hx

/-! ### Runs of bytes -/

/-- Writing a run of bytes keeps the canonical form. -/
theorem wf_writeBytes (c : Params) (bs : List Byte) (m : Memory) (a : Nat) (h : Memory.wf c m) :
    Memory.wf c (writeBytes c m a bs) := by
  induction bs generalizing m a with
  | nil => exact h
  | cons b bs ih => exact ih _ _ (wf_writeByte c m a b h)

/-- A byte outside the run reads as before. -/
theorem readByte_writeBytes_other (c : Params) (bs : List Byte) (m : Memory) (a b : Nat)
    (h : b < a ∨ a + bs.length ≤ b) : readByte c (writeBytes c m a bs) b = readByte c m b := by
  induction bs generalizing m a with
  | nil => rfl
  | cons v bs ih =>
    simp only [List.length_cons] at h
    rw [writeBytes, ih _ _ (by omega), readByte_writeByte_other c m a b v (by omega)]

/-- A byte inside the run reads as the byte written. -/
theorem readByte_writeBytes_same (c : Params) (bs : List Byte) (m : Memory) (a k : Nat) (hm : Memory.wf c m)
    (h : k < bs.length) : readByte c (writeBytes c m a bs) (a + k) = some bs[k] := by
  induction bs generalizing m a k with
  | nil => simp at h
  | cons v bs ih =>
    rw [writeBytes]
    cases k with
    | zero =>
      simp only [Nat.add_zero, List.getElem_cons_zero]
      rw [readByte_writeBytes_other c bs _ (a + 1) a (by omega), readByte_writeByte_same c m a v hm]
    | succ k =>
      have := ih (writeByte c m a v) (a + 1) k (wf_writeByte c m a v hm) (by simpa using h)
      rw [show a + (k + 1) = a + 1 + k by omega, this]
      rfl

/-- A run read back after it was written. -/
theorem readBytes_writeBytes (c : Params) (bs : List Byte) (m : Memory) (a : Nat) (hm : Memory.wf c m) :
    readBytes c (writeBytes c m a bs) a bs.length = .ok bs := by
  induction bs generalizing m a with
  | nil => rfl
  | cons v bs ih =>
    have h0 := readByte_writeBytes_same c (v :: bs) m a 0 hm (by simp)
    have h1 := ih (writeByte c m a v) (a + 1) (wf_writeByte c m a v hm)
    simp only [Nat.add_zero, List.getElem_cons_zero] at h0
    rw [List.length_cons, readBytes, h0]
    simp only [writeBytes]
    rw [h1]

/-- A run read has the length asked for, and each of its bytes is the byte at its address. -/
theorem readBytes_ok (c : Params) (m : Memory) (n a : Nat) (bs : List Byte) (h : readBytes c m a n = .ok bs) :
    bs.length = n ∧ ∀ k (hk : k < bs.length), readByte c m (a + k) = some bs[k] := by
  induction n generalizing a bs with
  | zero =>
    simp only [readBytes, Except.ok.injEq] at h
    subst h
    exact ⟨rfl, fun k hk => by simp at hk⟩
  | succ n ih =>
    rw [readBytes] at h
    split at h
    · next v vs hv hvs =>
      simp only [Except.ok.injEq] at h
      subst h
      obtain ⟨hl, hb⟩ := ih (a + 1) vs hvs
      refine ⟨by simp [hl], fun k hk => ?_⟩
      cases k with
      | zero => simpa using hv
      | succ k =>
        have := hb k (by simpa using hk)
        rw [show a + (k + 1) = a + 1 + k by omega, this]
        rfl
    · cases h
    · cases h

/-- A run of bytes all of which have a value is read. -/
theorem readBytes_of_some (c : Params) (m : Memory) (n a : Nat)
    (h : ∀ k < n, (readByte c m (a + k)).isSome = true) : ∃ bs, readBytes c m a n = .ok bs := by
  induction n generalizing a with
  | zero => exact ⟨[], rfl⟩
  | succ n ih =>
    obtain ⟨v, hv⟩ := Option.isSome_iff_exists.mp (by simpa using h 0 (by omega))
    obtain ⟨vs, hvs⟩ := ih (a + 1) (fun k hk => by
      have := h (k + 1) (by omega)
      rwa [show a + (k + 1) = a + 1 + k by omega] at this)
    exact ⟨v :: vs, by rw [readBytes, hv, hvs]⟩

/-- A read of bytes fails only with UNWRITTEN_READ. -/
theorem readBytes_error (c : Params) (m : Memory) (n a : Nat) (r : FaultReason) (h : readBytes c m a n = .error r) :
    r = .unwrittenRead := by
  induction n generalizing a with
  | zero => cases h
  | succ n ih =>
    rw [readBytes] at h
    split at h
    · cases h
    · simpa using h.symm
    · next hr => cases h; exact ih _ hr

/-! ### Keys: no two bytes share one -/

theorem bufferIndex_inj (b b' : Buffer) (h : bufferIndex b = bufferIndex b') : b = b' := by
  rcases b with i | r <;> rcases b' with i' | r'
  · simp only [bufferIndex] at h; congr 1; omega
  · rcases r' with b' | _ | k | n
    · cases b' <;> simp only [bufferIndex] at h <;> omega
    · simp only [bufferIndex] at h; omega
    · simp only [bufferIndex] at h; omega
    · cases n <;> simp only [bufferIndex] at h <;> omega
  · rcases r with b | _ | k | n
    · cases b <;> simp only [bufferIndex] at h <;> omega
    · simp only [bufferIndex] at h; omega
    · simp only [bufferIndex] at h; omega
    · cases n <;> simp only [bufferIndex] at h <;> omega
  · congr 1
    rcases r with b | _ | k | n <;> rcases r' with b' | _ | k' | n' <;>
      first
        | (cases b <;> cases b' <;> simp_all [bufferIndex])
        | (cases b <;> cases n' <;> simp_all [bufferIndex])
        | (cases n <;> cases b' <;> simp_all [bufferIndex])
        | (cases n <;> cases n' <;> simp_all [bufferIndex])
        | (cases b <;> simp only [bufferIndex] at h <;> omega)
        | (cases b' <;> simp only [bufferIndex] at h <;> omega)
        | (cases n <;> simp only [bufferIndex] at h <;> omega)
        | (cases n' <;> simp only [bufferIndex] at h <;> omega)
        | (simp only [bufferIndex] at h; congr 1; omega)
        | (simp only [bufferIndex] at h; omega)
        | rfl

/-- No buffer is longer than the keys it has. -/
theorem bufferLen_le (c : Params) (b : Buffer) : bufferLen c b ≤ blockSize c := by
  unfold blockSize
  rcases b with i | r
  · simp only [bufferLen, Config.packetSize]; split <;> omega
  · rcases r with b | _ | k | n
    · simp only [bufferLen, Config.packetSize]; cases c.ep0Size <;> simp only [Ep0Size.toNat] <;> omega
    · simp only [bufferLen, Config.packetSize]; omega
    · simp only [bufferLen, List.getD_eq_getElem?_getD]
      cases h : (c.descTable.map (fun e => e.data.length))[k]? with
      | none => simp
      | some n =>
        have := List.single_le_sum (fun x _ => Nat.zero_le x) n (List.mem_of_getElem? h)
        simp only [Option.getD_some]
        omega
    · cases n <;> simp only [bufferLen, Config.packetSize] <;> omega

/-- Bytes of different buffers, and different bytes of one buffer, have different keys. -/
theorem bufferKey_inj (c : Params) (b b' : Buffer) (o o' : Nat) (ho : o < blockSize c) (ho' : o' < blockSize c)
    (h : bufferKey c b o = bufferKey c b' o') : b = b' ∧ o = o' := by
  unfold bufferKey at h
  have hpos : 0 < blockSize c := by omega
  have hq := congrArg (· / blockSize c) h
  have hr := congrArg (· % blockSize c) h
  simp only [Nat.add_comm (_ * blockSize c), Nat.add_mul_div_right _ _ hpos, Nat.add_mul_mod_self_right,
    Nat.div_eq_of_lt ho, Nat.div_eq_of_lt ho', Nat.mod_eq_of_lt ho, Nat.mod_eq_of_lt ho', Nat.zero_add] at hq hr
  exact ⟨bufferIndex_inj b b' hq, hr⟩

/-- A descriptor holds DESC_TABLE's bytes until a rule writes it, and no other buffer holds a byte (R49, R342). -/
theorem initialByte_bufferKey (c : Params) (b : Buffer) (k : Nat) (hk : k < blockSize c) :
    initialByte c (bufferKey c b k) =
      match b with
      | .region (.desc d) => ((c.descTable.map DescEntry.data).getD d [])[k]?
      | .region (.ep0rx _) | .region .reply | .region (.collab _) | .pool _ => none := by
  have hpos : 0 < blockSize c := by omega
  have hq : bufferKey c b k / blockSize c = bufferIndex b := by
    rw [bufferKey, Nat.add_comm, Nat.add_mul_div_right _ _ hpos, Nat.div_eq_of_lt hk, Nat.zero_add]
  have hr : bufferKey c b k % blockSize c = k := by
    rw [bufferKey, Nat.add_comm, Nat.add_mul_mod_self_right, Nat.mod_eq_of_lt hk]
  unfold initialByte
  rw [hq, hr]
  rcases b with i | r
  · exact if_neg (by simp only [bufferIndex]; omega)
  · rcases r with b | _ | d | n
    · cases b <;> exact if_neg (by simp only [bufferIndex]; omega)
    · exact if_neg (by simp only [bufferIndex]; omega)
    · rw [if_pos (by simp only [bufferIndex]; omega), show (bufferIndex (.region (.desc d)) - 5) / 2 = d by
        simp only [bufferIndex]; omega]
    · cases n <;> exact if_neg (by simp only [bufferIndex]; omega)

/-! ### The state's memory -/

/-- The bytes of a buffer after a run has been put into it. -/
theorem State.byteAt_putBytes_same (s : State) (b : Buffer) (off k : Nat) (bs : List Byte)
    (hm : Memory.wf s.cfg s.mem) (h : k < bs.length) :
    (s.putBytes b off bs).byteAt b (off + k) = some bs[k] := by
  simp only [State.byteAt, State.putBytes, State.setMem_cfg, State.setMem_mem]
  rw [show bufferKey s.cfg b (off + k) = bufferKey s.cfg b off + k by unfold bufferKey; omega]
  exact readByte_writeBytes_same s.cfg bs s.mem _ k hm h

/-- Every byte outside the run reads as before. -/
theorem State.byteAt_putBytes_other (s : State) (b b' : Buffer) (off o' : Nat) (bs : List Byte)
    (hl : off + bs.length ≤ blockSize s.cfg) (ho : o' < blockSize s.cfg) (h : b' ≠ b ∨ o' < off ∨ off + bs.length ≤ o') :
    (s.putBytes b off bs).byteAt b' o' = s.byteAt b' o' := by
  simp only [State.byteAt, State.putBytes, State.setMem_cfg, State.setMem_mem]
  apply readByte_writeBytes_other
  by_contra hn
  simp only [not_or, Nat.not_lt, Nat.not_le] at hn
  obtain ⟨h1, h2⟩ := hn
  have he := bufferKey_inj s.cfg b' b o' (bufferKey s.cfg b' o' - bufferKey s.cfg b 0) ho
    (by unfold bufferKey at *; omega) (by unfold bufferKey at *; omega)
  obtain ⟨hb, ho⟩ := he
  subst hb
  rcases h with h | h | h
  · exact h rfl
  · unfold bufferKey at *; omega
  · unfold bufferKey at *; omega

/-- The canonical form is kept by every write of the state's memory. -/
theorem State.wf_putBytes (s : State) (b : Buffer) (off : Nat) (bs : List Byte) (h : Memory.wf s.cfg s.mem) :
    Memory.wf (s.putBytes b off bs).cfg (s.putBytes b off bs).mem :=
  wf_writeBytes s.cfg bs s.mem _ h

/-- Reset memory is canonical, whatever the parameters. -/
theorem State.wf_powerOn (c : Params) : Memory.wf (State.powerOn c).cfg (State.powerOn c).mem :=
  ⟨List.Pairwise.nil, fun x hx => by simp [State.powerOn] at hx⟩

/-- The machine's reset memory is canonical. -/
theorem State.wf_reset : Memory.wf State.reset.cfg State.reset.mem := State.wf_powerOn _

/-- A write within a buffer's length succeeds, and is the run put there. -/
theorem State.writeBuffer_ok (s t : State) (b : Buffer) (off : Nat) (bs : List Byte) :
    s.writeBuffer b off bs = .ok t ↔ off + bs.length ≤ bufferLen s.cfg b ∧ t = s.putBytes b off bs := by
  unfold State.writeBuffer
  split
  · next h => exact ⟨fun he => (nomatch he), fun he => absurd he.1 (by omega)⟩
  · next h => exact ⟨fun he => ⟨by omega, (Except.ok.inj he).symm⟩, fun he => by rw [he.2]⟩

/-- A read of a block buffer answers the bytes there, or faults past the end or at a byte never written. -/
theorem State.readBuffer_ok (s : State) (b : Buffer) (off n : Nat) (bs : List Byte)
    (h : s.readBuffer b off n = .ok bs) :
    off + n ≤ bufferLen s.cfg b ∧ bs.length = n ∧ ∀ k (hk : k < bs.length), s.byteAt b (off + k) = some bs[k] := by
  unfold State.readBuffer at h
  split at h
  · cases h
  · next hl =>
    obtain ⟨h1, h2⟩ := readBytes_ok _ _ _ _ _ h
    refine ⟨by omega, h1, fun k hk => ?_⟩
    rw [State.byteAt, show bufferKey s.cfg b (off + k) = bufferKey s.cfg b off + k by unfold bufferKey; omega]
    exact h2 k hk

theorem State.readBuffer_error (s : State) (b : Buffer) (off n : Nat) (r : FaultReason)
    (h : s.readBuffer b off n = .error r) : r = .outOfBounds ∨ r = .unwrittenRead := by
  unfold State.readBuffer at h
  split at h
  · cases h; exact .inl rfl
  · exact .inr (readBytes_error _ _ _ _ _ h)

end Sys2Proof.Machine
end

