-- ==== Sys2Proof/Laws/Ops.lean ====
section
/-! SUPPORT. One lemma for each shared operation of Machine/Ops.lean: everything it can do. -/

namespace Sys2Proof.Machine

/-! ### Outcomes -/

theorem whenAlive_of_alive (s : State) (k : Out) (h : s.Alive) : whenAlive s k = k := by
  simp [whenAlive, h.1, h.2]

/-- A next state comes from an agent that had a step. -/
theorem whenAlive_next (s t : State) (k : Out) : whenAlive s k = .next t ↔ s.Alive ∧ k = .next t := by
  unfold whenAlive State.Alive
  cases hf : s.fault with
  | some r => simp
  | none => cases hr : s.reloaded <;> simp

theorem alive_iff (s : State) : alive s = true ↔ s.Alive := by
  simp [alive, State.Alive, Option.isNone_iff_eq_none]

/-- A step's body either takes effect whole or leaves the fault mark alone. -/
theorem commit_next (s t : State) (body : Except FaultReason State) :
    commit s body = .next t ↔ body = .ok t ∨ ∃ r, body = .error r ∧ t = s.raise r := by
  cases body with
  | ok u => simp [commit]
  | error r => simp [commit, eq_comm]

@[simp] theorem commit_ok (s t : State) : commit s (.ok t) = .next t := rfl

@[simp] theorem commit_error (s : State) (r : FaultReason) : commit s (.error r) = .next (s.raise r) := rfl

/-! ### Descriptor writes -/

@[simp] theorem State.descForce_eq (s : State) (ep : Ep) (d : Dir) (b : Bank) (addr : BufRef) (desc : Desc) :
    s.descForce ep d b addr desc = s.setSlot ep d b { desc := desc, addr := addr } := rfl

/-- `DescWrite` writes the slot exactly when the SIE does not own it (R131). -/
theorem descWrite_ok (s t : State) (ep : Ep) (d : Dir) (b : Bank) (addr : BufRef) (desc : Desc) :
    descWrite s ep d b addr desc = .ok t ↔
      (s.slot ep d b).desc.own = false ∧ t = s.setSlot ep d b { desc := desc, addr := addr } := by
  unfold descWrite
  cases h : (s.slot ep d b).desc.own <;> simp [eq_comm]

theorem descWrite_error (s : State) (ep : Ep) (d : Dir) (b : Bank) (addr : BufRef) (desc : Desc) (r : FaultReason) :
    descWrite s ep d b addr desc = .error r ↔
      (s.slot ep d b).desc.own = true ∧ r = .ownedDescriptorWrite := by
  unfold descWrite
  cases h : (s.slot ep d b).desc.own <;> simp [eq_comm]

theorem descWrite_of_released (s : State) (ep : Ep) (d : Dir) (b : Bank) (addr : BufRef) (desc : Desc)
    (h : (s.slot ep d b).desc.own = false) :
    descWrite s ep d b addr desc = .ok (s.setSlot ep d b { desc := desc, addr := addr }) :=
  (descWrite_ok s _ ep d b addr desc).mpr ⟨h, rfl⟩

theorem arm_ok (s t : State) (ep : Ep) (d : Dir) (b : Bank) (ref : BufRef) (n : BitVec 10) (tg : Toggle) :
    arm s ep d b ref n tg = .ok t ↔
      (s.slot ep d b).desc.own = false ∧ t = s.setSlot ep d b { desc := armedDesc n tg, addr := ref } :=
  descWrite_ok s t ep d b ref (armedDesc n tg)

theorem arm_error (s : State) (ep : Ep) (d : Dir) (b : Bank) (ref : BufRef) (n : BitVec 10) (tg : Toggle)
    (r : FaultReason) :
    arm s ep d b ref n tg = .error r ↔ (s.slot ep d b).desc.own = true ∧ r = .ownedDescriptorWrite :=
  descWrite_error s ep d b ref (armedDesc n tg) r

theorem arm_of_released (s : State) (ep : Ep) (d : Dir) (b : Bank) (ref : BufRef) (n : BitVec 10) (tg : Toggle)
    (h : (s.slot ep d b).desc.own = false) :
    arm s ep d b ref n tg = .ok (s.setSlot ep d b { desc := armedDesc n tg, addr := ref }) :=
  descWrite_of_released s ep d b ref (armedDesc n tg) h

theorem releaseSlot_ok (s t : State) (ep : Ep) (d : Dir) (b : Bank) :
    releaseSlot s ep d b = .ok t ↔ (s.slot ep d b).desc.own = false ∧ t = s.setSlot ep d b Slot.cleared :=
  descWrite_ok s t ep d b .null releasedDesc

theorem releaseSlot_of_released (s : State) (ep : Ep) (d : Dir) (b : Bank) (h : (s.slot ep d b).desc.own = false) :
    releaseSlot s ep d b = .ok (s.setSlot ep d b Slot.cleared) :=
  (releaseSlot_ok s _ ep d b).mpr ⟨h, rfl⟩

@[simp] theorem armedDesc_own (n : BitVec 10) (t : Toggle) : (armedDesc n t).own = true := rfl

@[simp] theorem releasedDesc_own : releasedDesc.own = false := rfl

@[simp] theorem cleared_desc : Slot.cleared.desc = releasedDesc := rfl

@[simp] theorem cleared_addr : Slot.cleared.addr = .null := rfl

theorem armedDesc_ne_released (n : BitVec 10) (t : Toggle) : armedDesc n t ≠ releasedDesc := by
  intro h
  simpa [armedDesc, releasedDesc] using congrArg Desc.own h

/-! ### Free values -/

/-- Taking a free value changes only where the next one comes from. -/
theorem State.drop_frame (s : State) : s.drop = { s with draws := s.drop.draws, drawn := s.drop.drawn } := by
  unfold State.drop
  cases s.draws <;> rfl

/-- `n` free bytes, and a state that differs only in where the next free value comes from. -/
theorem drawBytes_spec (s : State) (n : Nat) :
    (drawBytes s n).1.length = n ∧
      (drawBytes s n).2 = { s with draws := (drawBytes s n).2.draws, drawn := (drawBytes s n).2.drawn } := by
  induction n generalizing s with
  | zero => exact ⟨rfl, rfl⟩
  | succ n ih =>
    obtain ⟨h1, h2⟩ := ih s.drop
    refine ⟨by simp [drawBytes, h1], ?_⟩
    simp only [drawBytes]
    rw [h2, State.drop_frame s]

/-! ### Memory access -/

/-- What `MemRead` answers: as many bytes as asked, all within the buffer; only a collaborator's region takes free
values (R62). -/
theorem memRead_ok (s t : State) (ref : BufRef) (n : Nat) (bs : List Byte) (h : memRead s ref n = .ok (bs, t)) :
    bs.length = n ∧ t = { s with draws := t.draws, drawn := t.drawn } ∧
      ∃ b off, refTarget ref = some (b, off) ∧ off + n ≤ bufferLen s.cfg b ∧
        (isCollab b = false → t = s ∧ s.readBuffer b off n = .ok bs) := by
  unfold memRead at h
  split at h
  · cases h
  · next b off hb =>
    split at h
    · next hc =>
      split at h
      · cases h
      · next hl =>
        simp only [Except.ok.injEq] at h
        have hs := drawBytes_spec s n
        rw [h] at hs
        exact ⟨hs.1, hs.2, b, off, hb, by omega, fun hf => by rw [hc] at hf; cases hf⟩
    · next hc =>
      split at h
      · next bs' hr =>
        simp only [Except.ok.injEq, Prod.mk.injEq] at h
        obtain ⟨rfl, rfl⟩ := h
        obtain ⟨h1, h2, -⟩ := s.readBuffer_ok b off n _ hr
        exact ⟨h2, rfl, b, off, hb, h1, fun _ => ⟨rfl, hr⟩⟩
      · cases h

/-- A fault of `MemRead` is one of the two memory reasons. -/
theorem memRead_error (s : State) (ref : BufRef) (n : Nat) (r : FaultReason) (h : memRead s ref n = .error r) :
    r = .outOfBounds ∨ r = .unwrittenRead := by
  unfold memRead at h
  split at h
  · cases h; exact .inl rfl
  · split at h
    · split at h
      · cases h; exact .inl rfl
      · cases h
    · split at h
      · cases h
      · next hr => cases h; exact s.readBuffer_error _ _ _ _ hr

/-- `MemWrite` within the buffer writes the memory alone; elsewhere it faults OUT_OF_BOUNDS (R62). -/
theorem memWrite_ok (s t : State) (ref : BufRef) (bs : List Byte) :
    memWrite s ref bs = .ok t ↔
      ∃ b off, refTarget ref = some (b, off) ∧ off + bs.length ≤ bufferLen s.cfg b ∧ t = s.putBytes b off bs := by
  unfold memWrite
  split
  · next h => simp [h]
  · next b off h =>
    rw [State.writeBuffer_ok]
    constructor
    · rintro ⟨h1, h2⟩
      exact ⟨b, off, h, h1, h2⟩
    · rintro ⟨b', off', h1, h2, h3⟩
      rw [h] at h1
      cases h1
      exact ⟨h2, h3⟩

theorem memWrite_error (s : State) (ref : BufRef) (bs : List Byte) (r : FaultReason)
    (h : memWrite s ref bs = .error r) : r = .outOfBounds := by
  unfold memWrite State.writeBuffer at h
  split at h
  · cases h; rfl
  · split at h
    · cases h; rfl
    · cases h

theorem State.putBytes_eq (s : State) (b : Buffer) (off : Nat) (bs : List Byte) :
    s.putBytes b off bs = { s with mem := writeBytes s.cfg s.mem (bufferKey s.cfg b off) bs } := rfl

/-! ### The packet pool -/

/-- The packet ALLOC takes is a free one. -/
theorem State.pick_free (s : State) (h : s.freeIds ≠ []) : s.isFree s.pick = true := by
  rw [← s.mem_freeIds]
  have hl : s.drawValue % s.freeIds.length < s.freeIds.length :=
    Nat.mod_lt _ (List.length_pos_iff.mpr h)
  unfold State.pick
  rw [List.getD_eq_getElem?_getD, List.getElem?_eq_getElem hl]
  exact List.getElem_mem hl

/-- Every free packet is what ALLOC takes for some free value (R111). -/
theorem State.pick_any (s : State) (i : Nat) (hi : s.isFree i = true) :
    ∃ d, ({ s with draws := d :: s.draws } : State).pick = i := by
  obtain ⟨k, hk, he⟩ := List.mem_iff_getElem.mp ((s.mem_freeIds i).mpr hi)
  refine ⟨k, ?_⟩
  have : ({ s with draws := k :: s.draws } : State).freeIds = s.freeIds := rfl
  simp only [State.pick, State.drawValue, this, Nat.mod_eq_of_lt hk, List.getD_eq_getElem?_getD,
    List.getElem?_eq_getElem hk, Option.getD_some, he]

/-- The state after a packet has been claimed, field by field. -/
theorem State.claim_eq (s : State) (i : Nat) :
    s.claim i =
      { s with
        free := s.free.set i false
        owner := s.owner.set i .caller
        pkt := s.pkt.set i { len := 0, index := 0, next := none }
        mem := if s.cfg.allocZeroesBuf then
            writeBytes s.cfg s.mem (bufferKey s.cfg (.pool i) 0) (List.replicate Config.packetSize 0)
          else s.mem } := by
  unfold State.claim
  cases h : s.cfg.allocZeroesBuf <;>
    simp [State.setFree, State.setOwner, State.setHeader, State.putBytes, State.setMem]

/-- ALLOC's two answers: a free packet with its claim, or none when no packet is free (R110). -/
theorem allocPacket_some (s t : State) (i : Nat) :
    allocPacket s = some (i, t) ↔ s.freeIds ≠ [] ∧ i = s.pick ∧ t = s.drop.claim i := by
  unfold allocPacket
  cases h : s.freeIds with
  | nil => simp
  | cons a l =>
    simp only [Option.some.injEq, Prod.mk.injEq, ne_eq, reduceCtorEq, not_false_eq_true, true_and]
    constructor
    · rintro ⟨rfl, rfl⟩; exact ⟨rfl, rfl⟩
    · rintro ⟨rfl, rfl⟩; exact ⟨rfl, rfl⟩

theorem allocPacket_none (s : State) : allocPacket s = none ↔ ∀ i, s.isFree i = false := by
  unfold allocPacket
  cases h : s.freeIds with
  | nil =>
    simp only [true_iff]
    intro i
    have := s.mem_freeIds i
    rw [h] at this
    simpa using this.symm
  | cons a l =>
    simp only [reduceCtorEq, false_iff, not_forall, Bool.not_eq_false]
    exact ⟨a, (s.mem_freeIds a).mp (by rw [h]; simp)⟩

/-- Allocation takes a free packet and writes the mask, the owners, the headers, the memory and the free values
alone. -/
theorem allocPacket_frame (s t : State) (i : Nat) (h : allocPacket s = some (i, t)) :
    s.isFree i = true ∧
      t = { s with
        free := s.free.set i false
        owner := s.owner.set i .caller
        pkt := s.pkt.set i { len := 0, index := 0, next := none }
        mem := t.mem
        draws := t.draws
        drawn := t.drawn } := by
  obtain ⟨hf, rfl, rfl⟩ := (allocPacket_some s t i).mp h
  refine ⟨s.pick_free hf, ?_⟩
  rw [State.claim_eq, State.drop_frame s]

@[simp] theorem State.toPool_eq (s : State) (h : Nat) : s.toPool h = (s.setFree h true).setOwner h .pool := rfl

@[simp] theorem State.setNext_eq (s : State) (h : Nat) (x : Option Nat) :
    s.setNext h x = s.setHeader h { s.header h with next := x } := rfl

/-- The slot a redirect finds is an RX slot of an RX-enabled endpoint with a zero descriptor (R115). -/
theorem State.redirectTarget_some (s : State) (ep : Ep) (b : Bank) (h : s.redirectTarget = some (ep, b)) :
    (ep, b) ∈ rxSlots s.cfg ∧ (s.slot ep .rx b).desc = releasedDesc := by
  unfold State.redirectTarget at h
  exact ⟨List.mem_of_find?_eq_some h, by simpa [descIsZero] using List.find?_some h⟩

theorem State.redirectTarget_none (s : State) (h : s.redirectTarget = none) (x : Ep × Bank) (hx : x ∈ rxSlots s.cfg) :
    (s.slot x.1 .rx x.2).desc ≠ releasedDesc := by
  unfold State.redirectTarget at h
  simpa [descIsZero] using List.find?_eq_none.mp h x hx

theorem State.redirect_some (s : State) (h : Nat) (ep : Ep) (b : Bank) (ht : s.redirectTarget = some (ep, b)) :
    s.redirect h =
      { (s.setSlot ep .rx b { desc := armedDesc 64 (bankToggle b), addr := .pool h }).setOwner h (.slot ep .rx b) with
        rxNeeded := s.rxNeeded - 1 } := by
  simp [State.redirect, ht]

theorem State.redirect_none (s : State) (h : Nat) (ht : s.redirectTarget = none) :
    s.redirect h = { (s.setFree h true).setOwner h .pool with rxNeeded := 0 } := by
  simp only [State.redirect, ht]
  rfl

theorem State.release_starved (s : State) (h : Nat) (hs : starving s = true) (hc : isConfigured s = true) :
    s.release h = s.redirect h := by
  simp [State.release, hs, hc]

theorem State.release_plain (s : State) (h : Nat) (hs : (starving s && isConfigured s) = false) :
    s.release h = s.toPool h := by
  simp only [State.release, hs, Bool.false_eq_true, if_false]

/-- A released packet goes to the pool or to a starved RX slot; nothing but the mask, the owners, the BDT and the
starvation counter is written. -/
theorem State.release_frame (s : State) (h : Nat) :
    s.release h = { s with
      free := (s.release h).free
      owner := (s.release h).owner
      bdt := (s.release h).bdt
      rxNeeded := (s.release h).rxNeeded } := by
  unfold State.release
  split
  · cases ht : s.redirectTarget with
    | none => rw [State.redirect_none s h ht]; rfl
    | some x => obtain ⟨ep, b⟩ := x; rw [State.redirect_some s h ep b ht]; rfl
  · rfl

theorem State.callerOwns_iff (s : State) (h : Nat) :
    s.callerOwns h = true ↔ h < s.cfg.nPackets ∧ s.ownerOf h = .caller := by
  simp [State.callerOwns, State.ownerOf]

/-! ### FIFOs -/

/-- Linking a packet into a FIFO writes headers alone. -/
theorem State.linkLast_frame (s : State) (q : List Nat) (h : Nat) :
    s.linkLast q h = { s with pkt := (s.linkLast q h).pkt } := by
  unfold State.linkLast
  cases q.getLast? <;> rfl

theorem State.header_len_setNext (s : State) (h h' : Nat) (x : Option Nat) :
    ((s.setNext h x).header h').len = (s.header h').len := by
  by_cases hh : h < s.pkt.length
  · rw [State.setNext_eq, State.header_setHeader s h h' _ hh]
    split
    · next e => subst e; rfl
    · rfl
  · simp only [State.setNext_eq, State.header, State.setHeader_pkt]
    rw [List.set_eq_of_length_le (Nat.le_of_not_lt hh)]

/-- Linking leaves every packet's length as it was. -/
theorem State.header_len_linkLast (s : State) (q : List Nat) (h h' : Nat) :
    ((s.linkLast q h).header h').len = (s.header h').len := by
  unfold State.linkLast
  cases q.getLast? with
  | none => exact s.header_len_setNext h h' none
  | some l => rw [State.header_len_setNext, State.header_len_setNext]

theorem State.enqueueTx_eq (s : State) (ep : Ep) (h : Nat) :
    s.enqueueTx ep h =
      { s with pkt := (s.linkLast (epGet s.txq ep) h).pkt, txq := epPut s.txq ep (epGet s.txq ep ++ [h]) } := by
  unfold State.enqueueTx
  rw [State.linkLast_frame]
  rfl

theorem State.enqueueRx_eq (s : State) (ep : Ep) (h : Nat) :
    s.enqueueRx ep h =
      { s with pkt := (s.linkLast (epGet s.rxq ep) h).pkt, rxq := epPut s.rxq ep (epGet s.rxq ep ++ [h]) } := by
  unfold State.enqueueRx
  rw [State.linkLast_frame]
  rfl

@[simp] theorem State.sumLens_nil (s : State) : s.sumLens [] = 0 := rfl

theorem State.sumLens_cons (s : State) (p : Nat) (q : List Nat) :
    s.sumLens (p :: q) = (s.header p).len.setWidth 32 + s.sumLens q := rfl

theorem State.sumLens_append (s : State) (q r : List Nat) : s.sumLens (q ++ r) = s.sumLens q + s.sumLens r := by
  induction q with
  | nil => simp
  | cons p q ih => rw [List.cons_append, State.sumLens_cons, State.sumLens_cons, ih, BitVec.add_assoc]

/-- The sum depends on the lengths of the packets in the FIFO alone. -/
theorem State.sumLens_congr (s t : State) (q : List Nat) (h : ∀ p ∈ q, (s.header p).len = (t.header p).len) :
    s.sumLens q = t.sumLens q := by
  induction q with
  | nil => rfl
  | cons p q ih =>
    rw [State.sumLens_cons, State.sumLens_cons, h p (by simp), ih (fun x hx => h x (by simp [hx]))]

end Sys2Proof.Machine
end

