-- ==== Sys2Proof/Laws/Reclaim.lean ====
section
/-! SUPPORT. The operations that go over the endpoints: reclaiming slots, draining FIFOs, and bus reset. -/

namespace Sys2Proof.Machine

/-! ### The lists of endpoints -/

@[simp] theorem mem_everyEp (ep : Ep) : ep ∈ everyEp := by
  revert ep; decide

@[simp] theorem mem_dataEps (c : Params) (ep : Ep) : ep ∈ dataEps c ↔ isDataEp c ep = true := by
  simp [dataEps]

@[simp] theorem mem_endpoints (c : Params) (ep : Ep) : ep ∈ endpoints c ↔ isEndpoint c ep = true := by
  simp [endpoints]

theorem nodup_everyEp : everyEp.Nodup := by decide

theorem nodup_dataEps (c : Params) : (dataEps c).Nodup := nodup_everyEp.filter _

@[simp] theorem isDataEp_zero (c : Params) : isDataEp c 0 = false := rfl

@[simp] theorem isEndpoint_zero (c : Params) : isEndpoint c 0 = true := by simp [isEndpoint]

theorem isEndpoint_of_isDataEp (c : Params) (ep : Ep) (h : isDataEp c ep = true) : isEndpoint c ep = true := by
  simp only [isDataEp, Bool.and_eq_true, decide_eq_true_eq] at h
  simp [isEndpoint, h.2]

theorem isDataEp_ne_zero (c : Params) (ep : Ep) (h : isDataEp c ep = true) : ep ≠ 0 := by
  rintro rfl
  simp at h

/-- The RX slots a starved packet can go to are both banks of every RX-enabled endpoint (R115). -/
theorem mem_rxSlots (c : Params) (ep : Ep) (b : Bank) : (ep, b) ∈ rxSlots c ↔ rxEnabled c ep = true := by
  simp only [rxSlots, List.mem_flatMap, List.mem_filter, mem_dataEps, List.mem_cons, Prod.mk.injEq, List.not_mem_nil,
    or_false]
  constructor
  · rintro ⟨e, ⟨-, h2⟩, ⟨rfl, -⟩ | ⟨rfl, -⟩⟩ <;> exact h2
  · intro h
    refine ⟨ep, ⟨?_, h⟩, ?_⟩
    · simp only [rxEnabled, Bool.and_eq_true] at h
      exact h.1
    · cases b <;> simp

/-- No RX slot is listed twice. -/
theorem nodup_rxSlots (c : Params) : (rxSlots c).Nodup := by
  unfold rxSlots
  rw [List.nodup_flatMap]
  refine ⟨fun ep _ => by simp, ?_⟩
  refine (((nodup_dataEps c).filter _)).imp (fun {a b} hab => ?_)
  simp [Function.onFun, Ne.symm hab]

/-! ### Reclaiming slots (R261) -/

/-- Reclaiming one slot: it is cleared, and the packet it held is free and the pool's. -/
theorem State.reclaimSlot_eq (s : State) (ep : Ep) (d : Dir) (b : Bank) :
    s.reclaimSlot ep d b =
      match (s.slot ep d b).addr with
      | .pool h => ((s.setFree h true).setOwner h .pool).setSlot ep d b Slot.cleared
      | .null => s.setSlot ep d b Slot.cleared
      | .reg _ _ => s.setSlot ep d b Slot.cleared := by
  unfold State.reclaimSlot
  cases (s.slot ep d b).addr <;> rfl

theorem State.reclaimSlot_frame (s : State) (ep : Ep) (d : Dir) (b : Bank) :
    s.reclaimSlot ep d b = { s with
      free := (s.reclaimSlot ep d b).free
      owner := (s.reclaimSlot ep d b).owner
      bdt := (s.reclaimSlot ep d b).bdt } := by
  rw [State.reclaimSlot_eq]
  cases (s.slot ep d b).addr <;> rfl

theorem State.slot_reclaimSlot (s : State) (ep ep' : Ep) (d d' : Dir) (b b' : Bank) :
    (s.reclaimSlot ep d b).slot ep' d' b' =
      if ep' = ep ∧ d' = d ∧ b' = b then Slot.cleared else s.slot ep' d' b' := by
  rw [State.reclaimSlot_eq]
  cases (s.slot ep d b).addr with
  | pool h => rw [State.slot_setSlot]; rfl
  | null => rw [State.slot_setSlot]
  | reg r off => rw [State.slot_setSlot]

theorem State.reclaimEp_frame (s : State) (ep : Ep) :
    s.reclaimEp ep = { s with
      free := (s.reclaimEp ep).free
      owner := (s.reclaimEp ep).owner
      bdt := (s.reclaimEp ep).bdt } := by
  unfold State.reclaimEp
  generalize hA : s.reclaimSlot ep .rx .even = A
  have eA := State.reclaimSlot_frame s ep .rx .even
  rw [hA] at eA
  generalize hB : A.reclaimSlot ep .rx .odd = B
  have eB := State.reclaimSlot_frame A ep .rx .odd
  rw [hB] at eB
  generalize hC : B.reclaimSlot ep .tx .even = C
  have eC := State.reclaimSlot_frame B ep .tx .even
  rw [hC] at eC
  rw [State.reclaimSlot_frame C, eC, eB, eA]

theorem State.slot_reclaimEp (s : State) (ep ep' : Ep) (d : Dir) (b : Bank) :
    (s.reclaimEp ep).slot ep' d b = if ep' = ep then Slot.cleared else s.slot ep' d b := by
  unfold State.reclaimEp
  simp only [State.slot_reclaimSlot]
  by_cases he : ep' = ep
  · cases d <;> cases b <;> simp [he]
  · simp [he]

theorem State.foldl_reclaimEp_frame (l : List Ep) (s : State) :
    l.foldl State.reclaimEp s = { s with
      free := (l.foldl State.reclaimEp s).free
      owner := (l.foldl State.reclaimEp s).owner
      bdt := (l.foldl State.reclaimEp s).bdt } := by
  induction l generalizing s with
  | nil => rfl
  | cons ep l ih =>
    rw [List.foldl_cons]
    have h1 := ih (s.reclaimEp ep)
    have h2 := s.reclaimEp_frame ep
    rw [h1, h2]

/-- ReclaimSlots writes the mask, the owners and the BDT alone (R261). -/
theorem State.reclaimSlots_frame (s : State) :
    s.reclaimSlots = { s with
      free := s.reclaimSlots.free
      owner := s.reclaimSlots.owner
      bdt := s.reclaimSlots.bdt } :=
  State.foldl_reclaimEp_frame (dataEps s.cfg) s

theorem State.slot_foldl_reclaimEp (l : List Ep) (s : State) (ep : Ep) (d : Dir) (b : Bank) :
    (l.foldl State.reclaimEp s).slot ep d b = if ep ∈ l then Slot.cleared else s.slot ep d b := by
  induction l generalizing s with
  | nil => simp
  | cons e l ih =>
    rw [List.foldl_cons, ih, State.slot_reclaimEp]
    by_cases h1 : ep ∈ l <;> by_cases h2 : ep = e <;> simp [h1, h2]

/-- After ReclaimSlots every slot of endpoints 1..NUM_ENDPOINTS is cleared and every other slot is as it was. -/
theorem State.slot_reclaimSlots (s : State) (ep : Ep) (d : Dir) (b : Bank) :
    s.reclaimSlots.slot ep d b = if isDataEp s.cfg ep = true then Slot.cleared else s.slot ep d b := by
  unfold State.reclaimSlots
  simp only [State.slot_foldl_reclaimEp, mem_dataEps]

/-- Reclaiming a slot keeps the number of packets. -/
theorem State.reclaimSlot_lengths (s : State) (ep : Ep) (d : Dir) (b : Bank) :
    (s.reclaimSlot ep d b).free.length = s.free.length ∧ (s.reclaimSlot ep d b).owner.length = s.owner.length := by
  rw [State.reclaimSlot_eq]
  cases (s.slot ep d b).addr <;> simp

/-- The packet of a reclaimed slot becomes free; every other packet's bit is as it was. -/
theorem State.isFree_reclaimSlot (s : State) (ep : Ep) (d : Dir) (b : Bank) (h : Nat) (hh : h < s.free.length) :
    (s.reclaimSlot ep d b).isFree h = (s.isFree h || decide ((s.slot ep d b).addr = .pool h)) := by
  rw [State.reclaimSlot_eq]
  cases ha : (s.slot ep d b).addr with
  | null => simp [State.isFree]
  | reg r off => simp [State.isFree]
  | pool g =>
    by_cases e : h = g
    · subst e
      simp [State.isFree, hh]
    · simp [State.isFree, Ne.symm e]

/-- The packet of a reclaimed slot is the pool's; every other packet keeps its owner. -/
theorem State.ownerOf_reclaimSlot (s : State) (ep : Ep) (d : Dir) (b : Bank) (h : Nat) :
    (s.reclaimSlot ep d b).ownerOf h = if (s.slot ep d b).addr = .pool h then .pool else s.ownerOf h := by
  rw [State.reclaimSlot_eq]
  cases ha : (s.slot ep d b).addr with
  | null => simp [State.ownerOf]
  | reg r off => simp [State.ownerOf]
  | pool g =>
    simp only [State.ownerOf, State.setSlot_owner, State.setOwner_owner, State.setFree_owner,
      List.getD_eq_getElem?_getD, List.getElem?_set, BufRef.pool.injEq]
    by_cases e : g = h
    · subst e
      by_cases hg : g < s.owner.length <;> simp [hg]
    · simp [e]

/-! ### Draining FIFOs (R262) -/

theorem State.foldl_toPool_frame (q : List Nat) (s : State) :
    q.foldl State.toPool s = { s with
      free := (q.foldl State.toPool s).free
      owner := (q.foldl State.toPool s).owner } := by
  induction q generalizing s with
  | nil => rfl
  | cons h q ih => rw [List.foldl_cons, ih]; rfl

theorem State.foldl_toPool_lengths (q : List Nat) (s : State) :
    (q.foldl State.toPool s).free.length = s.free.length ∧
      (q.foldl State.toPool s).owner.length = s.owner.length := by
  induction q generalizing s with
  | nil => exact ⟨rfl, rfl⟩
  | cons g q ih =>
    rw [List.foldl_cons, (ih _).1, (ih _).2]
    simp

theorem State.isFree_toPool (s : State) (g h : Nat) (hh : h < s.free.length) :
    (s.toPool g).isFree h = (s.isFree h || decide (h = g)) := by
  by_cases hg : g < s.free.length
  · have := s.isFree_setFree g h true hg
    by_cases e : h = g
    · rw [if_pos e] at this
      simpa [e, State.isFree] using this
    · rw [if_neg e] at this
      simpa [e, State.isFree] using this
  · have e : h ≠ g := by omega
    simp [State.isFree, List.set_eq_of_length_le (Nat.le_of_not_lt hg), e]

theorem State.isFree_foldl_toPool (q : List Nat) (s : State) (h : Nat) (hh : h < s.free.length) :
    (q.foldl State.toPool s).isFree h = (s.isFree h || decide (h ∈ q)) := by
  induction q generalizing s with
  | nil => simp
  | cons g q ih =>
    rw [List.foldl_cons, ih _ (by simpa using hh), State.isFree_toPool s g h hh]
    by_cases e : h = g <;> simp [e]

theorem State.ownerOf_foldl_toPool (q : List Nat) (s : State) (h : Nat) :
    (q.foldl State.toPool s).ownerOf h = if h ∈ q then .pool else s.ownerOf h := by
  induction q generalizing s with
  | nil => simp
  | cons g q ih =>
    rw [List.foldl_cons, ih]
    by_cases hq : h ∈ q
    · simp [hq]
    · simp only [hq, if_false, State.toPool_eq, State.ownerOf, State.setOwner_owner, State.setFree_owner,
        List.getD_eq_getElem?_getD, List.getElem?_set, List.mem_cons, or_false]
      by_cases e : g = h
      · subst e
        by_cases hg : g < s.owner.length <;> simp [hg]
      · simp [e, Ne.symm e]

theorem State.drainEp_frame (s : State) (ep : Ep) :
    s.drainEp ep = { s with
      free := (s.drainEp ep).free
      owner := (s.drainEp ep).owner
      rxq := epPut s.rxq ep []
      txq := epPut s.txq ep []
      rxBytes := epPut s.rxBytes ep 0 } := by
  unfold State.drainEp
  rw [State.foldl_toPool_frame]
  rfl

theorem State.foldl_drainEp_frame (l : List Ep) (s : State) :
    l.foldl State.drainEp s = { s with
      free := (l.foldl State.drainEp s).free
      owner := (l.foldl State.drainEp s).owner
      rxq := (l.foldl State.drainEp s).rxq
      txq := (l.foldl State.drainEp s).txq
      rxBytes := (l.foldl State.drainEp s).rxBytes } := by
  induction l generalizing s with
  | nil => rfl
  | cons ep l ih =>
    rw [List.foldl_cons]
    have h1 := ih (s.drainEp ep)
    have h2 := s.drainEp_frame ep
    rw [h1, h2]

/-- DrainQueues writes the mask, the owners, the FIFOs and the RX byte counts alone (R262). -/
theorem State.drainQueues_frame (s : State) :
    s.drainQueues = { s with
      free := s.drainQueues.free
      owner := s.drainQueues.owner
      rxq := s.drainQueues.rxq
      txq := s.drainQueues.txq
      rxBytes := s.drainQueues.rxBytes } :=
  State.foldl_drainEp_frame (dataEps s.cfg) s

theorem State.foldl_drainEp_queues (l : List Ep) (s : State) (ep : Ep) :
    epGet (l.foldl State.drainEp s).rxq ep = (if ep ∈ l then [] else epGet s.rxq ep) ∧
      epGet (l.foldl State.drainEp s).txq ep = (if ep ∈ l then [] else epGet s.txq ep) ∧
      epGet (l.foldl State.drainEp s).rxBytes ep = if ep ∈ l then 0 else epGet s.rxBytes ep := by
  induction l generalizing s with
  | nil => simp
  | cons e l ih =>
    rw [List.foldl_cons]
    obtain ⟨h1, h2, h3⟩ := ih (s.drainEp e)
    rw [h1, h2, h3, s.drainEp_frame e]
    simp only [epGet_epPut]
    by_cases h1 : ep ∈ l <;> by_cases h2 : ep = e <;> simp [h1, h2]

/-- After DrainQueues the FIFOs of endpoints 1..NUM_ENDPOINTS are empty and their byte counts 0. -/
theorem State.drainQueues_queues (s : State) (ep : Ep) :
    epGet s.drainQueues.rxq ep = (if isDataEp s.cfg ep = true then [] else epGet s.rxq ep) ∧
      epGet s.drainQueues.txq ep = (if isDataEp s.cfg ep = true then [] else epGet s.txq ep) ∧
      epGet s.drainQueues.rxBytes ep = if isDataEp s.cfg ep = true then 0 else epGet s.rxBytes ep := by
  have := State.foldl_drainEp_queues (dataEps s.cfg) s ep
  simpa [State.drainQueues] using this

/-! ### The endpoint folds of bus reset and of SET_CONFIGURATION -/

theorem State.foldl_resetPp (l : List Ep) (s : State) :
    (l.foldl State.resetPp s = { s with pp := (l.foldl State.resetPp s).pp }) ∧
      ∀ ep d, (l.foldl State.resetPp s).ppBank ep d = if ep ∈ l then .even else s.ppBank ep d := by
  induction l generalizing s with
  | nil => exact ⟨rfl, fun ep d => by simp⟩
  | cons e l ih =>
    obtain ⟨h1, h2⟩ := ih (s.resetPp e)
    rw [List.foldl_cons]
    refine ⟨by rw [h1]; rfl, fun ep d => ?_⟩
    rw [h2]
    by_cases he : ep ∈ l
    · simp [he]
    · simp only [he, if_false, List.mem_cons, or_false]
      unfold State.resetPp
      rw [State.ppBank_setPp, State.ppBank_setPp]
      by_cases h : ep = e
      · cases d <;> simp [h]
      · simp [h]

theorem State.foldl_disableEp (l : List Ep) (s : State) :
    (l.foldl State.disableEp s =
        { s with txState := (l.foldl State.disableEp s).txState, endpt := (l.foldl State.disableEp s).endpt }) ∧
      ∀ ep, epGet (l.foldl State.disableEp s).txState ep = (if ep ∈ l then .bothFreeEvenFirst else epGet s.txState ep) ∧
        epGet (l.foldl State.disableEp s).endpt ep = if ep ∈ l then 0x00 else epGet s.endpt ep := by
  induction l generalizing s with
  | nil => exact ⟨rfl, fun ep => by simp⟩
  | cons e l ih =>
    obtain ⟨h1, h2⟩ := ih (s.disableEp e)
    rw [List.foldl_cons]
    refine ⟨by rw [h1]; rfl, fun ep => ?_⟩
    rw [(h2 ep).1, (h2 ep).2]
    by_cases he : ep ∈ l
    · simp [he]
    · simp only [he, if_false, List.mem_cons, or_false]
      unfold State.disableEp
      simp only [State.setEndpt_txState, State.setTxState_txState, State.setEndpt_endpt, State.setTxState_endpt,
        epGet_epPut]
      simp

/-! ### Bus reset (R343) -/

/-- Steps 1 to 4 of bus reset write these fields alone. -/
theorem State.resetEndpoints_frame (s : State) :
    s.resetEndpoints = { s with
      free := s.resetEndpoints.free
      owner := s.resetEndpoints.owner
      bdt := s.resetEndpoints.bdt
      txState := s.resetEndpoints.txState
      txq := s.resetEndpoints.txq
      rxq := s.resetEndpoints.rxq
      rxBytes := s.resetEndpoints.rxBytes
      endpt := s.resetEndpoints.endpt
      pp := s.resetEndpoints.pp
      stat := [] } := by
  unfold State.resetEndpoints
  rw [(State.foldl_disableEp _ _).1, State.drainQueues_frame, State.reclaimSlots_frame,
    (State.foldl_resetPp _ _).1]

/-- What bus reset leaves, field by field, but for the arrays: the fields it writes, and that it writes no other. -/
theorem State.busReset_frame (s : State) :
    s.busReset = { s with
      free := s.busReset.free
      owner := s.busReset.owner
      bdt := s.busReset.bdt
      txState := s.busReset.txState
      txq := s.busReset.txq
      rxq := s.busReset.rxq
      rxBytes := s.busReset.rxBytes
      endpt := s.busReset.endpt
      pp := s.busReset.pp
      rxNeeded := 0
      ctl := .idle
      ep0 := { pending := none, pendingLen := 0, bank := .even, toggle := .data1 }
      ep0out := { received := 0, sink := none }
      setAddrPending := none
      config := 0
      addr := 0
      stat := []
      tokenSuspend := false } := by
  unfold State.busReset
  have h := s.resetEndpoints_frame
  generalize s.resetEndpoints = t at h ⊢
  rw [h]
  rfl

/-- The arrays after steps 1 to 4 of bus reset. -/
theorem State.resetEndpoints_arrays (s : State) (ep : Ep) :
    (∀ d b, s.resetEndpoints.slot ep d b = if isDataEp s.cfg ep = true then Slot.cleared else s.slot ep d b) ∧
      (∀ d, s.resetEndpoints.ppBank ep d = if isEndpoint s.cfg ep = true then .even else s.ppBank ep d) ∧
      epGet s.resetEndpoints.rxq ep = (if isDataEp s.cfg ep = true then [] else epGet s.rxq ep) ∧
      epGet s.resetEndpoints.txq ep = (if isDataEp s.cfg ep = true then [] else epGet s.txq ep) ∧
      epGet s.resetEndpoints.rxBytes ep = (if isDataEp s.cfg ep = true then 0 else epGet s.rxBytes ep) ∧
      epGet s.resetEndpoints.txState ep =
        (if isDataEp s.cfg ep = true then .bothFreeEvenFirst else epGet s.txState ep) ∧
      epGet s.resetEndpoints.endpt ep = if isDataEp s.cfg ep = true then 0x00 else epGet s.endpt ep := by
  unfold State.resetEndpoints
  have hA := State.foldl_resetPp (endpoints s.cfg) { s with stat := [] }
  generalize (endpoints s.cfg).foldl State.resetPp { s with stat := [] } = A at hA ⊢
  obtain ⟨fA, pA⟩ := hA
  have fB := A.reclaimSlots_frame
  have sB := A.slot_reclaimSlots
  generalize A.reclaimSlots = B at fB sB ⊢
  have fC := B.drainQueues_frame
  have qC := B.drainQueues_queues
  generalize B.drainQueues = C at fC qC ⊢
  have hD := State.foldl_disableEp (dataEps s.cfg) C
  generalize (dataEps s.cfg).foldl State.disableEp C = D at hD ⊢
  obtain ⟨fD, tD⟩ := hD
  have cA : A.cfg = s.cfg := by rw [fA]
  have cB : B.cfg = s.cfg := by rw [fB, cA]
  refine ⟨fun d b => ?_, fun d => ?_, ?_, ?_, ?_, ?_, ?_⟩
  · have e1 : D.slot = C.slot := State.slot_congr _ _ (by rw [fD])
    have e2 : C.slot = B.slot := State.slot_congr _ _ (by rw [fC])
    have e3 : A.slot = s.slot := State.slot_congr _ _ (by rw [fA])
    rw [e1, e2, sB, cA, e3]
  · have e : D.pp = A.pp := by rw [fD, fC, fB]
    have := pA ep d
    simp only [State.ppBank, mem_endpoints] at this ⊢
    rw [e, this]
  · have e : D.rxq = C.rxq := by rw [fD]
    have e' : B.rxq = s.rxq := by rw [fB, fA]
    rw [e, (qC ep).1, cB, e']
  · have e : D.txq = C.txq := by rw [fD]
    have e' : B.txq = s.txq := by rw [fB, fA]
    rw [e, (qC ep).2.1, cB, e']
  · have e : D.rxBytes = C.rxBytes := by rw [fD]
    have e' : B.rxBytes = s.rxBytes := by rw [fB, fA]
    rw [e, (qC ep).2.2, cB, e']
  · have e' : C.txState = s.txState := by rw [fC, fB, fA]
    rw [(tD ep).1, e']
    simp
  · have e' : C.endpt = s.endpt := by rw [fC, fB, fA]
    rw [(tD ep).2, e']
    simp

/-- The arrays after bus reset (R343, R345, R346). -/
theorem State.busReset_arrays (s : State) (ep : Ep) :
    (isDataEp s.cfg ep = true → ∀ d b, s.busReset.slot ep d b = Slot.cleared) ∧
      (∀ b, s.busReset.slot 0 .tx b = Slot.cleared) ∧
      (∀ b, s.busReset.slot 0 .rx b = { desc := armedDesc (ep0Count s.cfg) .data1, addr := ep0rxRef b }) ∧
      (isDataEp s.cfg ep = false → ep ≠ 0 → ∀ d b, s.busReset.slot ep d b = s.slot ep d b) ∧
      (∀ d, s.busReset.ppBank ep d = if isEndpoint s.cfg ep = true then .even else s.ppBank ep d) ∧
      epGet s.busReset.rxq ep = (if isDataEp s.cfg ep = true then [] else epGet s.rxq ep) ∧
      epGet s.busReset.txq ep = (if isDataEp s.cfg ep = true then [] else epGet s.txq ep) ∧
      epGet s.busReset.rxBytes ep = (if isDataEp s.cfg ep = true then 0 else epGet s.rxBytes ep) ∧
      epGet s.busReset.txState ep =
        (if isDataEp s.cfg ep = true then .bothFreeEvenFirst else epGet s.txState ep) ∧
      epGet s.busReset.endpt ep =
        if ep = 0 then ep0Control else if isDataEp s.cfg ep = true then 0x00 else epGet s.endpt ep := by
  obtain ⟨h1, h2, h3, h4, h5, h6, h7⟩ := s.resetEndpoints_arrays ep
  have hc : s.resetEndpoints.cfg = s.cfg := by rw [State.resetEndpoints_frame]
  unfold State.busReset
  generalize s.resetEndpoints = t at h1 h2 h3 h4 h5 h6 h7 hc ⊢
  have hslot : ∀ ep' d b, t.resetControl.slot ep' d b = t.cancelEp0Tx.armEp0Rx.slot ep' d b := fun _ _ _ => rfl
  have e2 : t.resetControl.pp = t.pp := by simp [State.resetControl, State.cancelEp0Tx, State.armEp0Rx]
  have e3 : t.resetControl.rxq = t.rxq := by simp [State.resetControl, State.cancelEp0Tx, State.armEp0Rx]
  have e4 : t.resetControl.txq = t.txq := by simp [State.resetControl, State.cancelEp0Tx, State.armEp0Rx]
  have e5 : t.resetControl.rxBytes = t.rxBytes := by simp [State.resetControl, State.cancelEp0Tx, State.armEp0Rx]
  have e6 : t.resetControl.txState = t.txState := by simp [State.resetControl, State.cancelEp0Tx, State.armEp0Rx]
  have e7 : t.resetControl.endpt = epPut t.endpt 0 ep0Control := by
    simp [State.resetControl, State.cancelEp0Tx, State.armEp0Rx]
  refine ⟨fun hd d b => ?_, fun b => ?_, fun b => ?_, fun hd h0 d b => ?_, fun d => ?_, by rw [e3, h3],
    by rw [e4, h4], by rw [e5, h5], by rw [e6, h6], ?_⟩
  · have h0 := isDataEp_ne_zero s.cfg ep hd
    rw [hslot]
    simp only [State.armEp0Rx, State.cancelEp0Tx, State.descForce_eq, State.slot_setSlot, h0, false_and, if_false]
    rw [h1, if_pos hd]
  · rw [hslot]
    cases b <;> simp [State.armEp0Rx, State.cancelEp0Tx, State.slot_setSlot, Slot.cleared, releasedDesc]
  · rw [hslot]
    cases b <;> simp [State.armEp0Rx, State.cancelEp0Tx, State.slot_setSlot, hc]
  · rw [hslot]
    simp only [State.armEp0Rx, State.cancelEp0Tx, State.descForce_eq, State.slot_setSlot, h0, false_and, if_false]
    rw [h1, if_neg (by simp [hd])]
  · have := h2 d
    simp only [State.ppBank, e2] at this ⊢
    exact this
  · simp only [e7, epGet_epPut, h7]

/-! ### The pool after the reclaims -/

/-- The packets a list of endpoints' slots hold. -/
def State.heldBy (s : State) (l : List Ep) (h : Nat) : Prop := ∃ ep ∈ l, ∃ d b, (s.slot ep d b).addr = .pool h

theorem State.pool_reclaimEp (s : State) (ep : Ep) (h : Nat) :
    (s.reclaimEp ep).free.length = s.free.length ∧ (s.reclaimEp ep).owner.length = s.owner.length ∧
      (h < s.free.length → ((s.reclaimEp ep).isFree h = true ↔ s.isFree h = true ∨ s.heldBy [ep] h)) ∧
      ((s.heldBy [ep] h → (s.reclaimEp ep).ownerOf h = .pool) ∧
        (¬s.heldBy [ep] h → (s.reclaimEp ep).ownerOf h = s.ownerOf h)) := by
  have hheld : s.heldBy [ep] h ↔ (s.slot ep .rx .even).addr = .pool h ∨ (s.slot ep .rx .odd).addr = .pool h ∨
      (s.slot ep .tx .even).addr = .pool h ∨ (s.slot ep .tx .odd).addr = .pool h := by
    unfold State.heldBy
    simp only [List.mem_singleton, exists_eq_left]
    constructor
    · rintro ⟨d, b, hb⟩
      cases d <;> cases b <;> simp [hb]
    · rintro (hb | hb | hb | hb)
      · exact ⟨.rx, .even, hb⟩
      · exact ⟨.rx, .odd, hb⟩
      · exact ⟨.tx, .even, hb⟩
      · exact ⟨.tx, .odd, hb⟩
  rw [hheld]
  unfold State.reclaimEp
  generalize hA : s.reclaimSlot ep .rx .even = A
  generalize hB : A.reclaimSlot ep .rx .odd = B
  generalize hC : B.reclaimSlot ep .tx .even = C
  have l1 := s.reclaimSlot_lengths ep .rx .even
  have l2 := A.reclaimSlot_lengths ep .rx .odd
  have l3 := B.reclaimSlot_lengths ep .tx .even
  have l4 := C.reclaimSlot_lengths ep .tx .odd
  have o1 := s.ownerOf_reclaimSlot ep .rx .even h
  have o2 := A.ownerOf_reclaimSlot ep .rx .odd h
  have o3 := B.ownerOf_reclaimSlot ep .tx .even h
  have o4 := C.ownerOf_reclaimSlot ep .tx .odd h
  have f1 := s.isFree_reclaimSlot ep .rx .even h
  have f2 := A.isFree_reclaimSlot ep .rx .odd h
  have f3 := B.isFree_reclaimSlot ep .tx .even h
  have f4 := C.isFree_reclaimSlot ep .tx .odd h
  rw [hA] at l1 o1 f1
  rw [hB] at l2 o2 f2
  rw [hC] at l3 o3 f3
  have sA : A.slot ep .rx .odd = s.slot ep .rx .odd := by rw [← hA, State.slot_reclaimSlot]; simp
  have sB : B.slot ep .tx .even = s.slot ep .tx .even := by
    rw [← hB, State.slot_reclaimSlot, ← hA, State.slot_reclaimSlot]; simp
  have sC : C.slot ep .tx .odd = s.slot ep .tx .odd := by
    rw [← hC, State.slot_reclaimSlot, ← hB, State.slot_reclaimSlot, ← hA, State.slot_reclaimSlot]; simp
  rw [sA] at o2 f2
  rw [sB] at o3 f3
  rw [sC] at o4 f4
  refine ⟨by rw [l4.1, l3.1, l2.1, l1.1], by rw [l4.2, l3.2, l2.2, l1.2], fun hh => ?_, fun hx => ?_, fun hx => ?_⟩
  · rw [f4 (by rw [l3.1, l2.1, l1.1]; exact hh), f3 (by rw [l2.1, l1.1]; exact hh), f2 (by rw [l1.1]; exact hh),
      f1 hh]
    simp only [Bool.or_eq_true, decide_eq_true_eq, or_assoc]
  · rw [o4, o3, o2, o1]
    rcases hx with hx | hx | hx | hx <;> simp [hx]
  · simp only [not_or] at hx
    rw [o4, o3, o2, o1]
    simp [hx.1, hx.2.1, hx.2.2.1, hx.2.2.2]

/-- ReclaimSlots: the packets in the slots of the endpoints become free and the pool's, every other packet keeps its
bit and its owner (R261). -/
theorem State.pool_foldl_reclaimEp (l : List Ep) (s : State) (h : Nat) (hl : l.Nodup) :
    (l.foldl State.reclaimEp s).free.length = s.free.length ∧
      (l.foldl State.reclaimEp s).owner.length = s.owner.length ∧
      (h < s.free.length → ((l.foldl State.reclaimEp s).isFree h = true ↔ s.isFree h = true ∨ s.heldBy l h)) ∧
      ((s.heldBy l h → (l.foldl State.reclaimEp s).ownerOf h = .pool) ∧
        (¬s.heldBy l h → (l.foldl State.reclaimEp s).ownerOf h = s.ownerOf h)) := by
  induction l generalizing s with
  | nil => simp [State.heldBy]
  | cons ep l ih =>
    rw [List.nodup_cons] at hl
    obtain ⟨a1, a2, a3, a4, a5⟩ := s.pool_reclaimEp ep h
    obtain ⟨b1, b2, b3, b4, b5⟩ := ih (s.reclaimEp ep) hl.2
    have hh : (s.reclaimEp ep).heldBy l h ↔ s.heldBy l h := by
      unfold State.heldBy
      constructor
      · rintro ⟨e, he, d, b, hb⟩
        have hne : e ≠ ep := fun hx => hl.1 (hx ▸ he)
        rw [State.slot_reclaimEp, if_neg hne] at hb
        exact ⟨e, he, d, b, hb⟩
      · rintro ⟨e, he, d, b, hb⟩
        have hne : e ≠ ep := fun hx => hl.1 (hx ▸ he)
        refine ⟨e, he, d, b, ?_⟩
        rw [State.slot_reclaimEp, if_neg hne]
        exact hb
    have hcons : s.heldBy (ep :: l) h ↔ s.heldBy [ep] h ∨ s.heldBy l h := by
      simp [State.heldBy]
    rw [List.foldl_cons, hcons]
    rw [hh] at b3 b4 b5
    refine ⟨by rw [b1, a1], by rw [b2, a2], fun hf => ?_, fun hx => ?_, fun hx => ?_⟩
    · rw [b3 (by rw [a1]; exact hf), a3 hf, or_assoc]
    · by_cases hy : s.heldBy l h
      · exact b4 hy
      · rw [b5 hy]
        exact a4 (hx.resolve_right hy)
    · rw [not_or] at hx
      rw [b5 hx.2, a5 hx.1]

/-- DrainQueues: the packets queued on the endpoints become free and the pool's, every other packet keeps its bit and
its owner (R262). -/
theorem State.pool_foldl_drainEp (l : List Ep) (s : State) (h : Nat) (hl : l.Nodup) :
    (l.foldl State.drainEp s).free.length = s.free.length ∧
      (l.foldl State.drainEp s).owner.length = s.owner.length ∧
      (h < s.free.length → ((l.foldl State.drainEp s).isFree h = true ↔
        s.isFree h = true ∨ ∃ ep ∈ l, h ∈ epGet s.rxq ep ∨ h ∈ epGet s.txq ep)) ∧
      (((∃ ep ∈ l, h ∈ epGet s.rxq ep ∨ h ∈ epGet s.txq ep) → (l.foldl State.drainEp s).ownerOf h = .pool) ∧
        ((¬∃ ep ∈ l, h ∈ epGet s.rxq ep ∨ h ∈ epGet s.txq ep) →
          (l.foldl State.drainEp s).ownerOf h = s.ownerOf h)) := by
  induction l generalizing s with
  | nil => simp
  | cons ep l ih =>
    rw [List.nodup_cons] at hl
    obtain ⟨b1, b2, b3, b4, b5⟩ := ih (s.drainEp ep) hl.2
    have hfr := s.drainEp_frame ep
    have hq : (∃ e ∈ l, h ∈ epGet (s.drainEp ep).rxq e ∨ h ∈ epGet (s.drainEp ep).txq e) ↔
        ∃ e ∈ l, h ∈ epGet s.rxq e ∨ h ∈ epGet s.txq e := by
      rw [hfr]
      constructor <;>
      · rintro ⟨e, he, hx⟩
        refine ⟨e, he, ?_⟩
        have hne : e ≠ ep := fun hx => hl.1 (hx ▸ he)
        simpa only [epGet_epPut_other _ _ _ _ hne] using hx
    rw [hq] at b3 b4 b5
    have hin : ∀ x : State, x = (epGet s.rxq ep ++ epGet s.txq ep).foldl State.toPool s →
        (s.drainEp ep).free = x.free ∧ (s.drainEp ep).owner = x.owner := by
      rintro x rfl
      exact ⟨rfl, rfl⟩
    obtain ⟨hf, ho⟩ := hin _ rfl
    have c0 := State.foldl_toPool_lengths (epGet s.rxq ep ++ epGet s.txq ep) s
    have c1 := State.isFree_foldl_toPool (epGet s.rxq ep ++ epGet s.txq ep) s h
    have c2 := State.ownerOf_foldl_toPool (epGet s.rxq ep ++ epGet s.txq ep) s h
    have d1 : (s.drainEp ep).isFree h = ((epGet s.rxq ep ++ epGet s.txq ep).foldl State.toPool s).isFree h := by
      simp only [State.isFree, hf]
    have d2 : (s.drainEp ep).ownerOf h = ((epGet s.rxq ep ++ epGet s.txq ep).foldl State.toPool s).ownerOf h := by
      simp only [State.ownerOf, ho]
    have hcons : (∃ e ∈ ep :: l, h ∈ epGet s.rxq e ∨ h ∈ epGet s.txq e) ↔
        h ∈ epGet s.rxq ep ++ epGet s.txq ep ∨ ∃ e ∈ l, h ∈ epGet s.rxq e ∨ h ∈ epGet s.txq e := by
      simp
    rw [List.foldl_cons, hcons]
    refine ⟨by rw [b1, hf, c0.1], by rw [b2, ho, c0.2], fun hx => ?_, fun hx => ?_, fun hx => ?_⟩
    · rw [b3 (by rw [hf, c0.1]; exact hx), d1, c1 hx]
      simp only [Bool.or_eq_true, decide_eq_true_eq, or_assoc]
    · by_cases hy : ∃ e ∈ l, h ∈ epGet s.rxq e ∨ h ∈ epGet s.txq e
      · exact b4 hy
      · rw [b5 hy, d2, c2, if_pos (hx.resolve_right hy)]
    · rw [not_or] at hx
      rw [b5 hx.2, d2, c2, if_neg hx.1]

end Sys2Proof.Machine
end

