-- ==== Sys2Proof/Laws/Configure.lean ====
section
/-! SUPPORT. Seeding RX slots and SET_CONFIGURATION's Reconfigure (45_configuration_power.md): it never faults, and
what it writes. -/

namespace Sys2Proof.Machine

/-- Seeding one released slot never faults: a free packet is armed in it, or it is counted as starved (R264). -/
theorem seedSlot_cases (s : State) (ep : Ep) (b : Bank) (h : (s.slot ep .rx b).desc.own = false) :
    (∃ p t, allocPacket s = some (p, t) ∧
        seedSlot s ep b = .ok ((t.setSlot ep .rx b { desc := armedDesc 64 (bankToggle b), addr := .pool p }).setOwner p
          (.slot ep .rx b))) ∨
      (allocPacket s = none ∧ seedSlot s ep b = .ok { s with rxNeeded := s.rxNeeded + 1 }) := by
  unfold seedSlot
  cases ha : allocPacket s with
  | none => exact .inr ⟨rfl, rfl⟩
  | some x =>
    obtain ⟨p, t⟩ := x
    have ht := (allocPacket_frame s t p ha).2
    have hs : (t.slot ep .rx b).desc.own = false := by
      rw [State.slot_congr t s (by rw [ht])]
      exact h
    refine .inl ⟨p, t, rfl, ?_⟩
    simp only [arm_of_released t ep .rx b _ _ _ hs]

/-- What seeding one slot writes: the pool, the memory, the BDT, the starvation counter and the free values. -/
theorem seedSlot_frame (s t : State) (ep : Ep) (b : Bank) (h : seedSlot s ep b = .ok t) :
    t = { s with
      free := t.free
      owner := t.owner
      pkt := t.pkt
      mem := t.mem
      bdt := t.bdt
      rxNeeded := t.rxNeeded
      draws := t.draws
      drawn := t.drawn } := by
  unfold seedSlot at h
  split at h
  · next p u ha =>
    have hu := (allocPacket_frame s u p ha).2
    split at h
    · next v hv =>
      obtain ⟨-, rfl⟩ := (arm_ok _ _ _ _ _ _ _ _).mp hv
      cases h
      rw [hu]
      rfl
    · cases h
  · cases h; rfl

/-- Seeding leaves every other slot as it was. -/
theorem seedSlot_slot (s t : State) (ep : Ep) (b : Bank) (h : seedSlot s ep b = .ok t) (ep' : Ep) (d' : Dir) (b' : Bank)
    (hne : ¬(ep' = ep ∧ d' = .rx ∧ b' = b)) : t.slot ep' d' b' = s.slot ep' d' b' := by
  unfold seedSlot at h
  split at h
  · next p u ha =>
    have hu := (allocPacket_frame s u p ha).2
    split at h
    · next v hv =>
      obtain ⟨-, rfl⟩ := (arm_ok _ _ _ _ _ _ _ _).mp hv
      cases h
      have e : ((u.setSlot ep .rx b { desc := armedDesc 64 (bankToggle b), addr := .pool p }).setOwner p
          (.slot ep .rx b)).slot ep' d' b' =
          (u.setSlot ep .rx b { desc := armedDesc 64 (bankToggle b), addr := .pool p }).slot ep' d' b' := rfl
      rw [e, State.slot_setSlot_other _ _ _ _ _ _ _ _ hne, State.slot_congr u s (by rw [hu])]
    · cases h
  · cases h; rfl

theorem seedSlots_frame (l : List (Ep × Bank)) (s t : State) (h : seedSlots l s = .ok t) :
    t = { s with
      free := t.free
      owner := t.owner
      pkt := t.pkt
      mem := t.mem
      bdt := t.bdt
      rxNeeded := t.rxNeeded
      draws := t.draws
      drawn := t.drawn } := by
  induction l generalizing s with
  | nil =>
    simp only [seedSlots, Except.ok.injEq] at h
    rw [h]
  | cons x l ih =>
    obtain ⟨ep, b⟩ := x
    simp only [seedSlots] at h
    split at h
    · next u hu =>
      have h1 := seedSlot_frame s u ep b hu
      have h2 := ih u h
      rw [h2, h1]
    · cases h

/-- Seeding a list of distinct released slots never faults. -/
theorem seedSlots_total (l : List (Ep × Bank)) (s : State) (hl : l.Nodup)
    (h : ∀ x ∈ l, (s.slot x.1 .rx x.2).desc.own = false) : ∃ t, seedSlots l s = .ok t := by
  induction l generalizing s with
  | nil => exact ⟨s, rfl⟩
  | cons x l ih =>
    obtain ⟨ep, b⟩ := x
    rw [List.nodup_cons] at hl
    have hx := h (ep, b) (by simp)
    have key : ∃ u, seedSlot s ep b = .ok u := by
      rcases seedSlot_cases s ep b hx with ⟨p, t, -, e⟩ | ⟨-, e⟩ <;> exact ⟨_, e⟩
    obtain ⟨u, hu⟩ := key
    have hrest : ∀ y ∈ l, (u.slot y.1 .rx y.2).desc.own = false := by
      intro y hy
      rw [seedSlot_slot s u ep b hu y.1 .rx y.2 ?_]
      · exact h y (by simp [hy])
      · rintro ⟨h1, -, h3⟩
        apply hl.1
        rw [← h1, ← h3]
        exact hy
    obtain ⟨t, ht⟩ := ih u hl.2 hrest
    exact ⟨t, by simp only [seedSlots, hu]; exact ht⟩

/-- Seeding leaves every slot outside its list as it was. -/
theorem seedSlots_slot (l : List (Ep × Bank)) (s t : State) (h : seedSlots l s = .ok t) (ep : Ep) (d : Dir) (b : Bank)
    (hne : d = .rx → (ep, b) ∉ l) : t.slot ep d b = s.slot ep d b := by
  induction l generalizing s with
  | nil =>
    simp only [seedSlots, Except.ok.injEq] at h
    rw [h]
  | cons x l ih =>
    obtain ⟨e, c⟩ := x
    simp only [seedSlots] at h
    split at h
    · next u hu =>
      rw [ih u h (fun hd hm => hne hd (by simp [hm]))]
      refine seedSlot_slot s u e c hu ep d b ?_
      rintro ⟨rfl, hd, rfl⟩
      exact hne hd (by simp)
    · cases h

/-! ### Steps 1 to 6 of Reconfigure -/

/-- The state before RX slots are seeded: steps 1 to 6 of R260. -/
def State.unseeded (s : State) (v : Byte) : State :=
  (dataEps s.cfg).foldl State.configureEp ({ s with config := v, rxNeeded := 0 } : State).reclaimSlots.drainQueues

theorem State.foldl_configureEp (l : List Ep) (s : State) (hl : l.Nodup) :
    (l.foldl State.configureEp s =
        { s with txState := (l.foldl State.configureEp s).txState, endpt := (l.foldl State.configureEp s).endpt }) ∧
      ∀ ep, epGet (l.foldl State.configureEp s).txState ep =
          (if ep ∈ l then bothFree (epGet s.txState ep) else epGet s.txState ep) ∧
        epGet (l.foldl State.configureEp s).endpt ep =
          if ep ∈ l then epConfigOf s.cfg ep else epGet s.endpt ep := by
  induction l generalizing s with
  | nil => exact ⟨rfl, fun ep => by simp⟩
  | cons e l ih =>
    rw [List.nodup_cons] at hl
    obtain ⟨h1, h2⟩ := ih (s.configureEp e) hl.2
    rw [List.foldl_cons]
    refine ⟨by rw [h1]; rfl, fun ep => ?_⟩
    rw [(h2 ep).1, (h2 ep).2]
    have hc : (s.configureEp e).cfg = s.cfg := rfl
    have ht : (s.configureEp e).txState = epPut s.txState e (bothFree (epGet s.txState e)) := by
      simp [State.configureEp]
    have he : (s.configureEp e).endpt = epPut s.endpt e (epConfigOf s.cfg e) := by
      simp [State.configureEp]
    rw [hc, ht, he]
    simp only [epGet_epPut]
    by_cases hm : ep ∈ l
    · have hne : ep ≠ e := fun hx => hl.1 (hx ▸ hm)
      simp [hm, hne]
    · by_cases hx : ep = e
      · subst hx; simp [hm]
      · simp [hm, hx]

theorem reconfigure_eq (s : State) (v : Byte) : reconfigure s v = seedSlots (rxSlots s.cfg) (s.unseeded v) := rfl

/-- The state before RX slots are seeded, field by field but for the pool. -/
theorem State.unseeded_spec (s : State) (v : Byte) :
    (s.unseeded v = { s with
        config := v
        rxNeeded := 0
        free := (s.unseeded v).free
        owner := (s.unseeded v).owner
        bdt := (s.unseeded v).bdt
        rxq := (s.unseeded v).rxq
        txq := (s.unseeded v).txq
        rxBytes := (s.unseeded v).rxBytes
        txState := (s.unseeded v).txState
        endpt := (s.unseeded v).endpt }) ∧
      ∀ ep, (∀ d b, (s.unseeded v).slot ep d b = if isDataEp s.cfg ep = true then Slot.cleared else s.slot ep d b) ∧
        epGet (s.unseeded v).rxq ep = (if isDataEp s.cfg ep = true then [] else epGet s.rxq ep) ∧
        epGet (s.unseeded v).txq ep = (if isDataEp s.cfg ep = true then [] else epGet s.txq ep) ∧
        epGet (s.unseeded v).rxBytes ep = (if isDataEp s.cfg ep = true then 0 else epGet s.rxBytes ep) ∧
        epGet (s.unseeded v).txState ep =
          (if isDataEp s.cfg ep = true then bothFree (epGet s.txState ep) else epGet s.txState ep) ∧
        epGet (s.unseeded v).endpt ep =
          if isDataEp s.cfg ep = true then epConfigOf s.cfg ep else epGet s.endpt ep := by
  unfold State.unseeded
  generalize hA : ({ s with config := v, rxNeeded := 0 } : State) = A
  have fB := A.reclaimSlots_frame
  have sB := A.slot_reclaimSlots
  generalize A.reclaimSlots = B at fB sB ⊢
  have fC := B.drainQueues_frame
  have qC := B.drainQueues_queues
  generalize B.drainQueues = C at fC qC ⊢
  have hD := State.foldl_configureEp (dataEps s.cfg) C (nodup_dataEps s.cfg)
  generalize (dataEps s.cfg).foldl State.configureEp C = D at hD ⊢
  obtain ⟨fD, tD⟩ := hD
  have cA : A.cfg = s.cfg := by rw [← hA]
  have cB : B.cfg = s.cfg := by rw [fB, cA]
  have cC : C.cfg = s.cfg := by rw [fC, cB]
  refine ⟨by rw [fD, fC, fB, ← hA], fun ep => ⟨fun d b => ?_, ?_, ?_, ?_, ?_, ?_⟩⟩
  · have e1 : D.slot = C.slot := State.slot_congr _ _ (by rw [fD])
    have e2 : C.slot = B.slot := State.slot_congr _ _ (by rw [fC])
    have e3 : A.slot = s.slot := State.slot_congr _ _ (by rw [← hA])
    rw [e1, e2, sB, cA, e3]
  · have e : D.rxq = C.rxq := by rw [fD]
    have e' : B.rxq = s.rxq := by rw [fB, ← hA]
    rw [e, (qC ep).1, cB, e']
  · have e : D.txq = C.txq := by rw [fD]
    have e' : B.txq = s.txq := by rw [fB, ← hA]
    rw [e, (qC ep).2.1, cB, e']
  · have e : D.rxBytes = C.rxBytes := by rw [fD]
    have e' : B.rxBytes = s.rxBytes := by rw [fB, ← hA]
    rw [e, (qC ep).2.2, cB, e']
  · have e' : C.txState = s.txState := by rw [fC, fB, ← hA]
    rw [(tD ep).1, e']
    simp
  · have e' : C.endpt = s.endpt := by rw [fC, fB, ← hA]
    rw [(tD ep).2, e', cC]
    simp

/-- Reconfigure never faults (R260, R317). -/
theorem reconfigure_total (s : State) (v : Byte) : ∃ t, reconfigure s v = .ok t := by
  rw [reconfigure_eq]
  refine seedSlots_total _ _ (nodup_rxSlots s.cfg) (fun x hx => ?_)
  obtain ⟨ep, b⟩ := x
  have hr := (mem_rxSlots s.cfg ep b).mp hx
  have hd : isDataEp s.cfg ep = true := by
    simp only [rxEnabled, Bool.and_eq_true] at hr
    exact hr.1
  rw [((s.unseeded_spec v).2 ep).1, if_pos hd]
  rfl

/-- What Reconfigure writes, field by field (R260). -/
theorem reconfigure_frame (s t : State) (v : Byte) (h : reconfigure s v = .ok t) :
    t = { s with
      config := v
      rxNeeded := t.rxNeeded
      free := t.free
      owner := t.owner
      pkt := t.pkt
      mem := t.mem
      bdt := t.bdt
      rxq := t.rxq
      txq := t.txq
      rxBytes := t.rxBytes
      txState := t.txState
      endpt := t.endpt
      draws := t.draws
      drawn := t.drawn } := by
  rw [reconfigure_eq] at h
  have h1 := seedSlots_frame _ _ _ h
  have h2 := (s.unseeded_spec v).1
  rw [h1, h2]

/-- Reconfigure leaves the slots of endpoint 0 as they were (R260). -/
theorem reconfigure_ep0 (s t : State) (v : Byte) (h : reconfigure s v = .ok t) (d : Dir) (b : Bank) :
    t.slot 0 d b = s.slot 0 d b := by
  rw [reconfigure_eq] at h
  rw [seedSlots_slot _ _ _ h 0 d b (fun _ hm => ?_), ((s.unseeded_spec v).2 0).1]
  · simp
  · have hr := (mem_rxSlots s.cfg 0 b).mp hm
    simp [rxEnabled] at hr

end Sys2Proof.Machine
end

