-- ==== Sys2Proof/Laws/Control.lean ====
section
/-! SUPPORT. The control transfer engine (43_control_transfer.md): what each stage writes, and that the SETUP stage
never fails once its handler has answered. -/

namespace Sys2Proof.Machine

/-- What steps 1 and 3 to 5 of R183 write, field by field. -/
theorem State.beginSetup_eq (s : State) (p : SetupPacket) :
    s.beginSetup p = { s with
      setup := p
      bdt := (s.beginSetup p).bdt
      ep0 := s.ep0.fresh
      ep0out := { received := 0, sink := none }
      setAddrPending := none
      pwr := { s.pwr with armed := false } } := rfl

/-- After step 3 both endpoint-0 TX slots are released and every other slot is as it was. -/
theorem State.slot_beginSetup (s : State) (p : SetupPacket) (ep : Ep) (d : Dir) (b : Bank) :
    (s.beginSetup p).slot ep d b = if ep = 0 ∧ d = .tx then Slot.cleared else s.slot ep d b := by
  have e : (s.beginSetup p).slot = s.cancelEp0Tx.slot := State.slot_congr _ _ rfl
  rw [e]
  unfold State.cancelEp0Tx
  simp only [State.descForce_eq, State.slot_setSlot]
  by_cases h0 : ep = 0 <;> cases d <;> cases b <;> simp [h0, Slot.cleared, releasedDesc]

/-- Arming a chunk in a released bank: the slot and the context (R186). -/
theorem armNextIn_of_released (s : State) (r : Region) (off : Nat)
    (h : (s.slot 0 .tx s.ep0.bank).desc.own = false) :
    armNextIn s r off = .ok { s.setSlot 0 .tx s.ep0.bank (chunkSlot s.cfg r off s.ep0.pendingLen s.ep0.toggle) with
      ep0 := afterChunk s.cfg s.ep0 r off s.ep0.pendingLen } := by
  unfold armNextIn
  simp only [arm_of_released s 0 .tx s.ep0.bank _ _ _ h]
  rfl

theorem armNextIn_error (s : State) (r : Region) (off : Nat) (e : FaultReason) (h : armNextIn s r off = .error e) :
    (s.slot 0 .tx s.ep0.bank).desc.own = true ∧ e = .ownedDescriptorWrite := by
  unfold armNextIn at h
  simp only at h
  split at h
  · next e' he => cases h; exact (arm_error _ _ _ _ _ _ _ _).mp he
  · cases h

/-- Starting a data IN stage (R185). -/
theorem startIn_of_released (s : State) (r : Region) (off len : Half)
    (h : (s.slot 0 .tx s.ep0.bank).desc.own = false) :
    startIn s r off len = .ok
      { s.setSlot 0 .tx s.ep0.bank (chunkSlot s.cfg r off.toNat (responseLen len s.setup.wLength) s.ep0.toggle) with
        ctl := .dataIn
        ep0 := afterChunk s.cfg s.ep0 r off.toNat (responseLen len s.setup.wLength) } := by
  unfold startIn
  rw [armNextIn_of_released _ _ _ (by exact h)]
  rfl

/-- Starting the status IN stage (R189). -/
theorem startStatusIn_of_released (s : State) (h : (s.slot 0 .tx s.ep0.bank).desc.own = false) :
    startStatusIn s = .ok
      { s.setSlot 0 .tx s.ep0.bank { desc := armedDesc 0 s.ep0.toggle, addr := .reg .reply 0 } with
        ctl := .statusIn } := by
  unfold startStatusIn
  rw [arm_of_released _ _ _ _ _ _ _ (by exact h)]
  rfl

theorem startStatusIn_error (s : State) (e : FaultReason) (h : startStatusIn s = .error e) :
    (s.slot 0 .tx s.ep0.bank).desc.own = true ∧ e = .ownedDescriptorWrite := by
  unfold startStatusIn at h
  exact (arm_error { s with ctl := .statusIn } 0 .tx s.ep0.bank _ _ _ e).mp h

/-- Starting the data OUT stage, or the status stage when no data follows (R190). -/
theorem startOut_of_released (s : State) (sink : SinkId) (h : (s.slot 0 .tx s.ep0.bank).desc.own = false) :
    startOut s sink = .ok (if s.setup.wLength = 0 then
      { (s.call (.sinkComplete sink 0)).setSlot 0 .tx s.ep0.bank
          { desc := armedDesc 0 s.ep0.toggle, addr := .reg .reply 0 } with ctl := .statusIn }
      else { s with ctl := .dataOut, ep0out := { received := 0, sink := some sink } }) := by
  unfold startOut
  split
  · exact startStatusIn_of_released (s.call (.sinkComplete sink 0)) h
  · rfl

/-- Whatever a handler answers, its stage starts without a fault when the bank of endpoint 0 is released. -/
theorem applyResult_total (s : State) (r : HandlerResult) (h : (s.slot 0 .tx s.ep0.bank).desc.own = false) :
    ∃ t, applyResult s r = .ok t := by
  cases r with
  | stall => exact ⟨_, rfl⟩
  | dataIn r off len => exact ⟨_, startIn_of_released s r off len h⟩
  | dataOut sink => exact ⟨_, startOut_of_released s sink h⟩
  | noData => exact ⟨_, startStatusIn_of_released s h⟩

/-- The SETUP stage succeeds when its handler does and leaves endpoint 0's TX slots released. -/
theorem setupStage_of_handler (p : SetupPacket) (h : Handler) (s t u : State) (r : HandlerResult)
    (hh : h (s.beginSetup p) = .ok (t, r)) (hu : applyResult t r = .ok u) :
    setupStage p h s = .ok { u with tokenSuspend := false } := by
  simp [setupStage, hh, hu]

/-- A SETUP stage's next state is one of its body or of the fault it raised. -/
theorem runRequest_next (p : SetupPacket) (h : Handler) (s t : State) :
    runRequest p h s = .next t ↔
      s.Alive ∧ (setupStage p h s = .ok t ∨ ∃ r, setupStage p h s = .error r ∧ t = s.raise r) := by
  unfold runRequest
  rw [whenAlive_next, commit_next]

theorem runRequest_of_ok (p : SetupPacket) (h : Handler) (s t : State) (ha : s.Alive) (hs : setupStage p h s = .ok t) :
    runRequest p h s = .next t :=
  (runRequest_next p h s t).mpr ⟨ha, .inl hs⟩

/-- The stall primitive, field by field (R196). -/
theorem ep0Stall_eq (s : State) :
    ep0Stall s = { s with
      endpt := epPut s.endpt 0 0x0F
      ep0 := { s.ep0 with pending := none, pendingLen := 0 }
      ctl := .idle } := rfl

end Sys2Proof.Machine
end

