-- ==== Sys2Proof/Laws/Encoding.lean ====
section
/-! SUPPORT. The fields of an encoded command word, and which rows of the opcode table a word can match. -/

namespace Sys2Proof

@[simp] theorem opField_commandWord (op ep : Byte) (arg : Half) : opField (commandWord op ep arg) = op := by
  ext i hi
  simp only [opField, commandWord, BitVec.getElem_extractLsb', BitVec.getLsbD_append]
  rw [if_neg (by omega), if_neg (by omega), show 24 + i - 16 - 8 = i by omega, BitVec.getLsbD_eq_getElem hi]

@[simp] theorem epField_commandWord (op ep : Byte) (arg : Half) : epField (commandWord op ep arg) = ep := by
  ext i hi
  simp only [epField, commandWord, BitVec.getElem_extractLsb', BitVec.getLsbD_append]
  rw [if_neg (by omega), if_pos (by omega), show 16 + i - 16 = i by omega, BitVec.getLsbD_eq_getElem hi]

@[simp] theorem argField_commandWord (op ep : Byte) (arg : Half) : argField (commandWord op ep arg) = arg := by
  ext i hi
  simp only [argField, commandWord, BitVec.getElem_extractLsb', BitVec.getLsbD_append]
  rw [if_pos (by omega), show 0 + i = i by omega, BitVec.getLsbD_eq_getElem hi]

/-- A command word is its three fields. -/
theorem commandWord_fields (w : Word) : commandWord (opField w) (epField w) (argField w) = w := by
  apply BitVec.eq_of_getLsbD_eq
  intro i hi
  simp only [commandWord, opField, epField, argField, BitVec.getLsbD_append, BitVec.getLsbD_extractLsb']
  by_cases h1 : i < 16
  · simp [h1]
  · by_cases h2 : i - 16 < 8
    · simp [h1, h2, show 16 + (i - 16) = i by omega]
    · simp [h1, h2, show 24 + (i - 16 - 8) = i by omega, show i - 16 - 8 < 8 by omega]

@[simp] theorem epNumber_epByte (ep : Ep) : epNumber (epByte ep) = some ep := by
  revert ep; decide

theorem epByte_of_epNumber (b : Byte) (ep : Ep) (h : epNumber b = some ep) : epByte ep = b := by
  unfold epNumber at h
  split at h
  · cases h
    simp [epByte]
  · cases h

@[simp] theorem targetAddress_addressArg (a : BitVec 7) : targetAddress (addressArg a) = some a := by
  revert a; decide

/-- The bits of a word under a row's mask, field by field. -/
theorem opField_and (v w : Word) : opField (v &&& w) = opField v &&& opField w := by
  ext i hi
  simp [opField]

/-- A word matches a row whose mask holds the whole op field only if it has the row's op. -/
theorem TableRow.op_of_matches (r : TableRow) (w : Word) (hm : opField r.mask = 0xFF) (h : r.matches w = true) :
    opField w = opField r.pattern := by
  have he : w &&& r.mask = r.pattern := by simpa [TableRow.matches] using h
  rw [← he, opField_and, hm]
  exact (BitVec.and_allOnes (x := opField w)).symm

/-- A row with another op does not match. -/
theorem TableRow.not_matches_of_op (r : TableRow) (w : Word) (hm : opField r.mask = 0xFF)
    (h : opField w ≠ opField r.pattern) : r.matches w = false := by
  cases hb : r.matches w with
  | false => rfl
  | true => exact absurd (r.op_of_matches w hm hb) h

/-- A command word matches the row of its op when its fields agree with the row under the mask. -/
theorem TableRow.matches_commandWord (r : TableRow) (op ep : Byte) (arg : Half) (mo me : Byte) (ma : Half)
    (po pe : Byte) (pa : Half) (hm : r.mask = commandWord mo me ma) (hp : r.pattern = commandWord po pe pa)
    (h1 : op &&& mo = po) (h2 : ep &&& me = pe) (h3 : arg &&& ma = pa) :
    r.matches (commandWord op ep arg) = true := by
  simp only [TableRow.matches, decide_eq_true_eq]
  rw [hm, hp, ← h1, ← h2, ← h3]
  unfold commandWord
  rw [BitVec.and_append, BitVec.and_append]

theorem addressArg_and (a : BitVec 7) : addressArg a &&& 0xFF80 = 0 := by
  revert a; decide

/-- The three fields of a `bmRequestType` lose no bit of it (R92). -/
theorem requestTypeByte_fields (b : Byte) :
    requestTypeByte (requestDirection b) (requestKind b) (requestRecipient b) = b := by
  revert b; decide

/-- Every code of R94 names the standard or the class type, and the device, an interface or an endpoint (R92). -/
theorem decodeRequest_type (p : SetupPacket) (i : Instr) (h : decodeRequest p = some i) :
    (requestKind p.bmRequestType = .standard ∨ requestKind p.bmRequestType = .classSpecific) ∧
      (requestRecipient p.bmRequestType = .device ∨ requestRecipient p.bmRequestType = .interface ∨
        requestRecipient p.bmRequestType = .endpoint) := by
  have hc : p.bmRequestType = (requestCode p).extractLsb' 0 8 := by
    rw [requestCode, BitVec.extractLsb'_append_eq_right]
  unfold decodeRequest at h
  split at h <;> cases h
  all_goals
    next hn =>
      have hw := BitVec.eq_of_toNat_eq (x := requestCode p) (y := BitVec.ofNat 16 (requestCode p).toNat) (by simp)
      rw [hn] at hw
      rw [hc, hw]
      decide

end Sys2Proof
end

