-- ==== Sys2Proof/Laws/Invariants.lean ====
section
/-! SUPPORT. Every invariant on one state comes down to a finite check, which a test decides: packet ids run up to
N_PACKETS only. -/

namespace Sys2Proof.Machine

/-- Both directions, as a list. -/
def bothDirs : List Dir := [.rx, .tx]

/-- Both banks, as a list. -/
def bothBanks : List Bank := [.even, .odd]

theorem mem_bothDirs (d : Dir) : d ∈ bothDirs := by cases d <;> decide

theorem mem_bothBanks (b : Bank) : b ∈ bothBanks := by cases b <;> decide

/-- A packet id that a reference to a pool packet names is in range. -/
def BufRef.below (n : Nat) : BufRef → Bool
  | .pool h => decide (h < n)
  | .null => true
  | .reg _ _ => true

/-- R44 on one state, each packet id below N_PACKETS and each slot looked at. -/
theorem State.ownership_of_finite (s : State)
    (lengths : s.pkt.length = s.cfg.nPackets ∧ s.free.length = s.cfg.nPackets ∧ s.owner.length = s.cfg.nPackets)
    (free : ∀ h < s.cfg.nPackets, s.isFree h = true ↔ s.ownerOf h = .pool)
    (queues : ∀ ep : Ep,
      (∀ h < s.cfg.nPackets, (h ∈ epGet s.txq ep ↔ s.ownerOf h = .queue ep .tx) ∧
        (h ∈ epGet s.rxq ep ↔ s.ownerOf h = .queue ep .rx)) ∧
      (∀ h ∈ epGet s.txq ep ++ epGet s.rxq ep, h < s.cfg.nPackets) ∧
      (epGet s.txq ep).Nodup ∧ (epGet s.rxq ep).Nodup)
    (slots : ∀ ep : Ep, ∀ d ∈ bothDirs, ∀ b ∈ bothBanks,
      (∀ h < s.cfg.nPackets, (s.slot ep d b).addr = .pool h ↔ s.ownerOf h = .slot ep d b) ∧
      (s.slot ep d b).addr.below s.cfg.nPackets = true ∧
      ((s.slot ep d b).desc = releasedDesc → (s.slot ep d b).addr = .null))
    (elsewhere : ∀ ep : Ep, isDataEp s.cfg ep = false → epGet s.txq ep = [] ∧ epGet s.rxq ep = [] ∧
      ∀ d ∈ bothDirs, ∀ b ∈ bothBanks, (s.slot ep d b).addr.isPool = false)
    (txBanks : ∀ ep : Ep, isDataEp s.cfg ep = true → ∀ b ∈ bothBanks,
      (s.slot ep .tx b).addr.isPool = txArmed (epGet s.txState ep) b) : s.Ownership where
  headers := lengths.1
  masks := lengths.2.1
  owners := lengths.2.2
  poolIffFree := free
  txQueued ep h :=
    ⟨fun hm => have hl := (queues ep).2.1 h (List.mem_append_left _ hm); ⟨hl, (((queues ep).1 h hl).1).1 hm⟩,
      fun ho => (((queues ep).1 h ho.1).1).2 ho.2⟩
  rxQueued ep h :=
    ⟨fun hm => have hl := (queues ep).2.1 h (List.mem_append_right _ hm); ⟨hl, (((queues ep).1 h hl).2).1 hm⟩,
      fun ho => (((queues ep).1 h ho.1).2).2 ho.2⟩
  txOnce ep := (queues ep).2.2.1
  rxOnce ep := (queues ep).2.2.2
  inSlot ep d b h := by
    have hs := slots ep d (mem_bothDirs d) b (mem_bothBanks b)
    constructor
    · intro ha
      have hl : h < s.cfg.nPackets := by simpa [ha, BufRef.below] using hs.2.1
      exact ⟨hl, (hs.1 h hl).1 ha⟩
    · exact fun ho => (hs.1 h ho.1).2 ho.2
  released ep d b := (slots ep d (mem_bothDirs d) b (mem_bothBanks b)).2.2
  elsewhere ep he := ⟨(elsewhere ep he).1, (elsewhere ep he).2.1,
    fun d b => (elsewhere ep he).2.2 d (mem_bothDirs d) b (mem_bothBanks b)⟩
  txBanks ep he b := txBanks ep he b (mem_bothBanks b)

/-- R45(d) on one state. -/
theorem State.starvationExact_of_finite (s : State)
    (seeded : ∀ ep : Ep, ∀ b ∈ bothBanks, (s.slot ep .rx b).addr.isPool = true → (ep, b) ∈ rxSlots s.cfg)
    (counter : s.config ≠ 0 → s.rxNeeded = BitVec.ofNat 32 s.starvedSlots.length) : s.StarvationExact where
  seededOnly ep b := seeded ep b (mem_bothBanks b)
  counter := counter

/-- R134 on one state. -/
theorem State.toggles_of_finite (s : State)
    (h : ∀ ep : Ep, isDataEp s.cfg ep = true → ∀ d ∈ bothDirs, ∀ b ∈ bothBanks,
      (s.slot ep d b).desc.own = true → (s.slot ep d b).desc.data1 = bankToggle b) : s.TogglesFollowBanks :=
  fun ep he d b => h ep he d (mem_bothDirs d) b (mem_bothBanks b)

/-- R32, R45(c) and R198 on a state with no token-done entry and no SETUP to handle. -/
theorem State.inStep_of_idle (s : State) (stat : s.stat = []) (running : s.tokenSuspend = false)
    (rx : ∀ ep : Ep, isDataEp s.cfg ep = true → ∀ b ∈ bothBanks,
      (s.slot ep .rx b).desc.own = true → (s.slot ep .rx b).addr.isPool = true)
    (tx : ∀ ep : Ep, isDataEp s.cfg ep = true → ∀ b ∈ bothBanks,
      (s.slot ep .tx b).desc.own = txArmed (epGet s.txState ep) b)
    (first : ∀ ep : Ep, isDataEp s.cfg ep = true → firstBank (epGet s.txState ep) = s.ppBank ep .tx)
    (ep0 : s.ep0.bank = s.ppBank 0 .tx ∧ (s.slot 0 .tx s.ep0.bank.other).desc.own = false ∧
      (s.ctl = .dataOut → (s.slot 0 .tx s.ep0.bank).desc.own = false))
    (ep0Rx : s.attached = true ∨ s.reconnects ≠ 0 → ∀ b ∈ bothBanks,
      (s.slot 0 .rx b).desc.own = true ∧ (s.slot 0 .rx b).addr = ep0rxRef b) : s.InStep where
  entries e he := by simp [stat] at he
  alternate ep d := by simp [State.pending, stat]
  suspended h := by simp [running] at h
  running _ x hx := by simp [stat] at hx
  rxOwned ep he b := rx ep he b (mem_bothBanks b)
  txOwned ep he b := by simpa [State.pending, stat] using tx ep he b (mem_bothBanks b)
  txFirst ep he := by simpa [State.pending, stat] using first ep he
  ep0First := by simpa [State.pending, stat] using ep0.1
  ep0Single := by simp [State.pending, stat]
  ep0Other := ep0.2.1
  ep0Rx h b := by simpa [State.pending, stat] using ep0Rx h b (mem_bothBanks b)
  dataOutIdle h := ⟨by simp [State.pending, stat], ep0.2.2 h⟩

/-- R27 on one FIFO, from its elements. -/
theorem State.linked_of_finite (s : State) (q : List Nat)
    (h : ∀ k ∈ List.range q.length, (s.header (q.getD k 0)).next = q[k + 1]?) : s.Linked q := by
  intro k hk
  simpa [List.getD_eq_getElem?_getD, List.getElem?_eq_getElem hk] using h k (List.mem_range.2 hk)

end Sys2Proof.Machine
end

