-- ==== Sys2Proof/Laws/PerInstr.lean ====
section
/-! SUPPORT. For every instruction: its encoded word matches exactly one row of the opcode table, its own. -/

namespace Sys2Proof.Laws

open Sys2Proof

/-- The masks of all command rows hold the whole op field. -/
theorem commandRows_mask : ∀ r ∈ commandRows, opField r.mask = 0xFF := by decide

/-- Only the rows of a word's op can match it. -/
theorem commandRows_filter (w : Word) :
    commandRows.filter (fun r => r.matches w) =
      (commandRows.filter (fun r => decide (opField r.pattern = opField w))).filter (fun r => r.matches w) := by
  rw [List.filter_filter]
  apply List.filter_congr
  intro r hr
  by_cases h : opField r.pattern = opField w
  · simp [h]
  · simp [h, r.not_matches_of_op w (commandRows_mask r hr) (fun e => h e.symm)]

/-- The rows that match an encoded command word, when its op has one row and that row agrees with its fields. -/
theorem commandRows_only (op ep : Byte) (arg : Half) (r : TableRow) (mo me : Byte) (ma : Half) (pe : Byte) (pa : Half)
    (hf : commandRows.filter (fun r => decide (opField r.pattern = op)) = [r])
    (hm : r.mask = commandWord mo me ma) (hp : r.pattern = commandWord op pe pa)
    (h1 : op &&& mo = op) (h2 : ep &&& me = pe) (h3 : arg &&& ma = pa) :
    (commandRows.filter (fun r => r.matches (commandWord op ep arg))).map TableRow.mnemonic = [r.mnemonic] := by
  rw [commandRows_filter, opField_commandWord, hf]
  simp [r.matches_commandWord op ep arg mo me ma op pe pa hm hp h1 h2 h3]

/-- The rows that match a request code. -/
theorem requestRows_only (t r : Byte) (v w l : Half) (m : String)
    (hf : (requestRows.filter (fun x => x.matches ((r ++ t).setWidth 32))).map TableRow.mnemonic = [m]) :
    (requestRows.filter (fun x => x.matches ((requestCode (requestPacket t r v w l)).setWidth 32))).map
      TableRow.mnemonic = [m] := hf

namespace TableMatch

/-- The word of `i` matches one row of the opcode table, and that row is its own. -/
def Statement (i : Instr) : Prop :=
  ((tableRows (encode i)).filter (fun r => r.matches (tableWord (encode i)))).map TableRow.mnemonic = [i.mnemonic]

theorem init : Statement (.init) :=
  commandRows_only 0x01 0 0 ⟨"INIT", 0xFFFFFFFF, 0x01000000⟩ 0xFF 0xFF 0xFFFF 0 0
    rfl rfl rfl rfl rfl rfl

theorem alloc : Statement (.alloc) :=
  commandRows_only 0x02 0 0 ⟨"ALLOC", 0xFFFFFFFF, 0x02000000⟩ 0xFF 0xFF 0xFFFF 0 0
    rfl rfl rfl rfl rfl rfl

theorem free (h : Half) : Statement (.free h) :=
  commandRows_only 0x03 0 h ⟨"FREE", 0xFFFF0000, 0x03000000⟩ 0xFF 0xFF 0x0000 0 0
    rfl rfl rfl rfl rfl BitVec.and_zero

theorem tx (ep : Ep) (h : Half) : Statement (.tx ep h) :=
  commandRows_only 0x04 (epByte ep) h ⟨"TX", 0xFF000000, 0x04000000⟩ 0xFF 0x00 0x0000 0 0
    rfl rfl rfl rfl BitVec.and_zero BitVec.and_zero

theorem rx (ep : Ep) : Statement (.rx ep) :=
  commandRows_only 0x05 (epByte ep) 0 ⟨"RX", 0xFF00FFFF, 0x05000000⟩ 0xFF 0x00 0xFFFF 0 0
    rfl rfl rfl rfl BitVec.and_zero rfl

theorem txByteCount (ep : Ep) : Statement (.txByteCount ep) :=
  commandRows_only 0x06 (epByte ep) 0 ⟨"TX_BYTE_COUNT", 0xFF00FFFF, 0x06000000⟩ 0xFF 0x00 0xFFFF 0 0
    rfl rfl rfl rfl BitVec.and_zero rfl

theorem txPacketCount (ep : Ep) : Statement (.txPacketCount ep) :=
  commandRows_only 0x07 (epByte ep) 0 ⟨"TX_PACKET_COUNT", 0xFF00FFFF, 0x07000000⟩ 0xFF 0x00 0xFFFF 0 0
    rfl rfl rfl rfl BitVec.and_zero rfl

theorem rxByteCount (ep : Ep) : Statement (.rxByteCount ep) :=
  commandRows_only 0x08 (epByte ep) 0 ⟨"RX_BYTE_COUNT", 0xFF00FFFF, 0x08000000⟩ 0xFF 0x00 0xFFFF 0 0
    rfl rfl rfl rfl BitVec.and_zero rfl

theorem configured : Statement (.configured) :=
  commandRows_only 0x09 0 0 ⟨"CONFIGURED", 0xFFFFFFFF, 0x09000000⟩ 0xFF 0xFF 0xFFFF 0 0
    rfl rfl rfl rfl rfl rfl

theorem reinit : Statement (.reinit) :=
  commandRows_only 0x0A 0 0 ⟨"REINIT", 0xFFFFFFFF, 0x0A000000⟩ 0xFF 0xFF 0xFFFF 0 0
    rfl rfl rfl rfl rfl rfl

theorem deviceReload : Statement (.deviceReload) :=
  commandRows_only 0x0B 0 0 ⟨"DEVICE_RELOAD", 0xFFFFFFFF, 0x0B000000⟩ 0xFF 0xFF 0xFFFF 0 0
    rfl rfl rfl rfl rfl rfl

theorem pktFill (h : Half) (data : List Byte) : Statement (.pktFill h data) :=
  commandRows_only 0x0C 0 h ⟨"PKT_FILL", 0xFFFF0000, 0x0C000000⟩ 0xFF 0xFF 0x0000 0 0
    rfl rfl rfl rfl rfl BitVec.and_zero

theorem pktRead (h : Half) : Statement (.pktRead h) :=
  commandRows_only 0x0D 0 h ⟨"PKT_READ", 0xFFFF0000, 0x0D000000⟩ 0xFF 0xFF 0x0000 0 0
    rfl rfl rfl rfl rfl BitVec.and_zero

theorem tokenDone : Statement (.tokenDone) :=
  commandRows_only 0x10 0 0 ⟨"TOKEN_DONE", 0xFFFFFFFF, 0x10000000⟩ 0xFF 0xFF 0xFFFF 0 0
    rfl rfl rfl rfl rfl rfl

theorem powerTimeout : Statement (.powerTimeout) :=
  commandRows_only 0x11 0 0 ⟨"POWER_TIMEOUT", 0xFFFFFFFF, 0x11000000⟩ 0xFF 0xFF 0xFFFF 0 0
    rfl rfl rfl rfl rfl rfl

theorem hostSetup (a : BitVec 7) (p : SetupPacket) : Statement (.hostSetup a p) :=
  commandRows_only 0x20 0 (addressArg a) ⟨"HOST_SETUP", 0xFFFFFF80, 0x20000000⟩ 0xFF 0xFF 0xFF80 0 0
    rfl rfl rfl rfl rfl (addressArg_and a)

theorem hostOut (ep : Ep) (a : BitVec 7) (data : List Byte) : Statement (.hostOut ep a data) :=
  commandRows_only 0x21 (epByte ep) (addressArg a) ⟨"HOST_OUT", 0xFF00FF80, 0x21000000⟩ 0xFF 0x00 0xFF80 0 0
    rfl rfl rfl rfl BitVec.and_zero (addressArg_and a)

theorem hostIn (ep : Ep) (a : BitVec 7) : Statement (.hostIn ep a) :=
  commandRows_only 0x22 (epByte ep) (addressArg a) ⟨"HOST_IN", 0xFF00FF80, 0x22000000⟩ 0xFF 0x00 0xFF80 0 0
    rfl rfl rfl rfl BitVec.and_zero (addressArg_and a)

theorem hostBusReset : Statement (.hostBusReset) :=
  commandRows_only 0x23 0 0 ⟨"HOST_BUS_RESET", 0xFFFFFFFF, 0x23000000⟩ 0xFF 0xFF 0xFFFF 0 0
    rfl rfl rfl rfl rfl rfl

theorem getStatusDevice (v w l : Half) : Statement (.getStatusDevice v w l) :=
  requestRows_only 0x80 0x00 v w l "GET_STATUS_DEVICE" (by decide)

theorem getStatusEndpoint (v w l : Half) : Statement (.getStatusEndpoint v w l) :=
  requestRows_only 0x82 0x00 v w l "GET_STATUS_ENDPOINT" (by decide)

theorem clearFeatureEndpoint (v w l : Half) : Statement (.clearFeatureEndpoint v w l) :=
  requestRows_only 0x02 0x01 v w l "CLEAR_FEATURE_ENDPOINT" (by decide)

theorem setFeatureEndpoint (v w l : Half) : Statement (.setFeatureEndpoint v w l) :=
  requestRows_only 0x02 0x03 v w l "SET_FEATURE_ENDPOINT" (by decide)

theorem setAddress (v w l : Half) : Statement (.setAddress v w l) :=
  requestRows_only 0x00 0x05 v w l "SET_ADDRESS" (by decide)

theorem getDescriptorDevice (v w l : Half) : Statement (.getDescriptorDevice v w l) :=
  requestRows_only 0x80 0x06 v w l "GET_DESCRIPTOR_DEVICE" (by decide)

theorem getDescriptorInterface (v w l : Half) : Statement (.getDescriptorInterface v w l) :=
  requestRows_only 0x81 0x06 v w l "GET_DESCRIPTOR_INTERFACE" (by decide)

theorem getConfiguration (v w l : Half) : Statement (.getConfiguration v w l) :=
  requestRows_only 0x80 0x08 v w l "GET_CONFIGURATION" (by decide)

theorem setConfiguration (v w l : Half) : Statement (.setConfiguration v w l) :=
  requestRows_only 0x00 0x09 v w l "SET_CONFIGURATION" (by decide)

theorem hidGetReport (v w l : Half) : Statement (.hidGetReport v w l) :=
  requestRows_only 0xA1 0x01 v w l "HID_GET_REPORT" (by decide)

theorem hidGetIdle (v w l : Half) : Statement (.hidGetIdle v w l) :=
  requestRows_only 0xA1 0x02 v w l "HID_GET_IDLE" (by decide)

theorem hidGetProtocol (v w l : Half) : Statement (.hidGetProtocol v w l) :=
  requestRows_only 0xA1 0x03 v w l "HID_GET_PROTOCOL" (by decide)

theorem hidSetReport (v w l : Half) : Statement (.hidSetReport v w l) :=
  requestRows_only 0x21 0x09 v w l "HID_SET_REPORT" (by decide)

theorem hidSetIdle (v w l : Half) : Statement (.hidSetIdle v w l) :=
  requestRows_only 0x21 0x0A v w l "HID_SET_IDLE" (by decide)

theorem hidSetProtocol (v w l : Half) : Statement (.hidSetProtocol v w l) :=
  requestRows_only 0x21 0x0B v w l "HID_SET_PROTOCOL" (by decide)

theorem cdcSetLineCoding (v w l : Half) : Statement (.cdcSetLineCoding v w l) :=
  requestRows_only 0x21 0x20 v w l "CDC_SET_LINE_CODING" (by decide)

theorem cdcGetLineCoding (v w l : Half) : Statement (.cdcGetLineCoding v w l) :=
  requestRows_only 0xA1 0x21 v w l "CDC_GET_LINE_CODING" (by decide)

theorem cdcSetControlLineState (v w l : Half) : Statement (.cdcSetControlLineState v w l) :=
  requestRows_only 0x21 0x22 v w l "CDC_SET_CONTROL_LINE_STATE" (by decide)

end TableMatch

end Sys2Proof.Laws
end

