-- ==== Sys2Proof/Tests/Slice0.lean ====
section
/-! SUPPORT. The model's own tests: the WellFormed smoke, the encodings of the spec's vectors K1 to K6, at most two
single steps for each instruction, and for every statement with hypotheses a state and operands that meet them. The
expected values are those of spec/95_test_vectors.md or of the rule a test names. -/

/-! The tests are checked one after another: each has a thread of its own otherwise. -/

set_option Elab.async false

namespace Sys2Proof.Tests

open Sys2Proof Sys2Proof.Machine

/-! ### Small states -/

/-- Parameter set P-B: P-A with three packets. -/
def pB : Params := { Params.pA with nPackets := 3 }

/-- A configured device at address 7 with nothing in any slot but endpoint 0's RX slots, every packet the caller's. -/
def bare : State :=
  { (State.powerOn pB).armEp0Rx with
    attached := true
    addr := 7
    config := 1
    endpt := epPut (epPut (epPut (Vector.replicate 16 0) 0 0x0D) 1 0x15) 2 0x19
    free := [false, false, false]
    owner := [.caller, .caller, .caller]
    draws := [0, 0, 0, 0] }

/-- The same with packets 0 and 1 armed in endpoint 2's RX slots (PR1's end with three packets, packet 2 taken). -/
def live : State :=
  { ((bare.setSlot 2 .rx .even { desc := armedDesc 64 .data0, addr := .pool 0 }).setSlot 2 .rx .odd
      { desc := armedDesc 64 .data1, addr := .pool 1 }) with
    owner := [.slot 2 .rx .even, .slot 2 .rx .odd, .caller] }

/-- A header of `n` bytes. -/
def lenOf (n : Half) : Header := { len := n, index := 0, next := none }

/-- A completed slot: what the SIE leaves of `n` bytes received or sent under a PID. -/
def doneSlot (n : BitVec 10) (t : Toggle) (p : Pid) (r : BufRef) : Slot :=
  { desc := { own := false, data1 := t, bc := n, low := pidCode p }, addr := r }

/-- The step has a next state, without a fault mark, for which the check says yes. -/
def took (o : Out) (p : State → Bool) : Bool :=
  match o with
  | .next t => t.fault.isNone && p t
  | .fault _ => false
  | .refused _ => false

/-- The step raised a fault. -/
def raised (o : Out) (r : FaultReason) : Bool :=
  match o with
  | .next t => decide (t.fault = some r)
  | .fault _ => false
  | .refused _ => false

/-- The state a step leads to, to name it in a witness. -/
def after (o : Out) : State :=
  match o with
  | .next t => t
  | .fault _ => State.powerOn pB
  | .refused _ => State.powerOn pB

/-! ### Well-formedness -/

/-- The one check there is refuses a PKT_FILL payload of 65 bytes and takes one of 64 (R99). -/
theorem test_wellFormed_payload : ¬(Instr.pktFill 0 (List.replicate 65 0)).WellFormed ∧
    (Instr.pktFill 0 (List.replicate 64 0)).WellFormed := by decide

/-! ### Decoding: words written out from the spec -/

/-- The nineteen command words of K1. -/
theorem test_decode_commands :
    decodeCommand ⟨0x01000000, []⟩ = .ok .init ∧ decodeCommand ⟨0x02000000, []⟩ = .ok .alloc ∧
    decodeCommand ⟨0x03000003, []⟩ = .ok (.free 3) ∧ decodeCommand ⟨0x04010003, []⟩ = .ok (.tx 1 3) ∧
    decodeCommand ⟨0x05020000, []⟩ = .ok (.rx 2) ∧ decodeCommand ⟨0x06010000, []⟩ = .ok (.txByteCount 1) ∧
    decodeCommand ⟨0x07010000, []⟩ = .ok (.txPacketCount 1) ∧
    decodeCommand ⟨0x08020000, []⟩ = .ok (.rxByteCount 2) ∧ decodeCommand ⟨0x09000000, []⟩ = .ok .configured ∧
    decodeCommand ⟨0x0A000000, []⟩ = .ok .reinit ∧ decodeCommand ⟨0x0B000000, []⟩ = .ok .deviceReload ∧
    decodeCommand ⟨0x0C000002, [0x01, 0x02]⟩ = .ok (.pktFill 2 [0x01, 0x02]) ∧
    decodeCommand ⟨0x0D000000, []⟩ = .ok (.pktRead 0) ∧ decodeCommand ⟨0x10000000, []⟩ = .ok .tokenDone ∧
    decodeCommand ⟨0x11000000, []⟩ = .ok .powerTimeout ∧
    decodeCommand ⟨0x20000007, [0x80, 0x06, 0x00, 0x02, 0x00, 0x00, 0xFF, 0x00]⟩ =
      .ok (.hostSetup 7 ⟨0x80, 0x06, 0x0200, 0x0000, 0x00FF⟩) ∧
    decodeCommand ⟨0x21020007, [0x55]⟩ = .ok (.hostOut 2 7 [0x55]) ∧
    decodeCommand ⟨0x22010007, []⟩ = .ok (.hostIn 1 7) ∧ decodeCommand ⟨0x23000000, []⟩ = .ok .hostBusReset := by
  decide +kernel

/-- What the decoder reads of eight SETUP bytes. -/
def requestOf (b : List Byte) : Option Instr := (setupOfBytes b).bind decodeRequest

/-- The eighteen requests: the bytes of K2 and of vectors E and F, or the code of R94's row. -/
theorem test_decode_requests :
    requestOf [0x80, 0x00, 0x00, 0x00, 0x00, 0x00, 0x02, 0x00] = some (.getStatusDevice 0 0 2) ∧
    requestOf [0x82, 0x00, 0x00, 0x00, 0x81, 0x00, 0x02, 0x00] = some (.getStatusEndpoint 0 0x0081 2) ∧
    requestOf [0x02, 0x01, 0x00, 0x00, 0x01, 0x00, 0x00, 0x00] = some (.clearFeatureEndpoint 0 1 0) ∧
    requestOf [0x02, 0x03, 0x00, 0x00, 0x01, 0x00, 0x00, 0x00] = some (.setFeatureEndpoint 0 1 0) ∧
    requestOf [0x00, 0x05, 0x07, 0x00, 0x00, 0x00, 0x00, 0x00] = some (.setAddress 7 0 0) ∧
    requestOf [0x80, 0x06, 0x00, 0x02, 0x00, 0x00, 0xFF, 0x00] = some (.getDescriptorDevice 0x0200 0 0x00FF) ∧
    requestOf [0x81, 0x06, 0x00, 0x22, 0x00, 0x00, 0x40, 0x00] = some (.getDescriptorInterface 0x2200 0 0x0040) ∧
    requestOf [0x80, 0x08, 0x00, 0x00, 0x00, 0x00, 0x01, 0x00] = some (.getConfiguration 0 0 1) ∧
    requestOf [0x00, 0x09, 0x01, 0x00, 0x00, 0x00, 0x00, 0x00] = some (.setConfiguration 1 0 0) ∧
    requestOf [0xA1, 0x01, 0x00, 0x01, 0x00, 0x00, 0x08, 0x00] = some (.hidGetReport 0x0100 0 8) ∧
    requestOf [0xA1, 0x02, 0x00, 0x00, 0x00, 0x00, 0x01, 0x00] = some (.hidGetIdle 0 0 1) ∧
    requestOf [0xA1, 0x03, 0x00, 0x00, 0x00, 0x00, 0x01, 0x00] = some (.hidGetProtocol 0 0 1) ∧
    requestOf [0x21, 0x09, 0x00, 0x02, 0x00, 0x00, 0x01, 0x00] = some (.hidSetReport 0x0200 0 1) ∧
    requestOf [0x21, 0x0A, 0x00, 0x7D, 0x00, 0x00, 0x00, 0x00] = some (.hidSetIdle 0x7D00 0 0) ∧
    requestOf [0x21, 0x0B, 0x00, 0x00, 0x00, 0x00, 0x00, 0x00] = some (.hidSetProtocol 0 0 0) ∧
    requestOf [0x21, 0x20, 0x00, 0x00, 0x00, 0x00, 0x07, 0x00] = some (.cdcSetLineCoding 0 0 7) ∧
    requestOf [0xA1, 0x21, 0x00, 0x00, 0x00, 0x00, 0x07, 0x00] = some (.cdcGetLineCoding 0 0 7) ∧
    requestOf [0x21, 0x22, 0x03, 0x00, 0x00, 0x00, 0x00, 0x00] = some (.cdcSetControlLineState 3 0 0) := by
  decide +kernel

/-- The refused words of K6 and the two codes of K2 that are in no row. -/
theorem test_decode_refuses :
    decodeCommand ⟨0x0E000000, []⟩ = .error .unknownOp ∧ decodeCommand ⟨0x01000001, []⟩ = .error .unusedField ∧
    decodeCommand ⟨0x02010000, []⟩ = .error .unusedField ∧
    decodeCommand ⟨0x20000080, List.replicate 8 0⟩ = .error .badAddress ∧
    decodeCommand ⟨0x04100003, []⟩ = .error .badEndpoint ∧
    decodeCommand ⟨0x20000007, List.replicate 7 0⟩ = .error .badPayload ∧
    decodeCommand ⟨0x0C000002, List.replicate 65 0⟩ = .error .badPayload ∧
    decodeCommand ⟨0x04030003, []⟩ = .ok (.tx 3 3) ∧
    requestOf [0x00, 0x01, 0, 0, 0, 0, 0, 0] = none ∧ requestOf [0x40, 0x99, 0, 0, 0, 0, 0, 0] = none := by
  decide +kernel

/-! ### The other encoded formats -/

/-- Armed and completion words of K3. -/
theorem test_descriptor_words :
    descWord (armedDesc 64 .data0) = 0x00400088 ∧ descWord (armedDesc 64 .data1) = 0x004000C8 ∧
    descWord (armedDesc 26 .data1) = 0x001A00C8 ∧ descWord (armedDesc 0 .data0) = 0x00000088 ∧
    descWord (completedRx (armedDesc 64 .data1) .setupToken 8) = 0x00080074 ∧
    descWord (completedRx (armedDesc 64 .data0) .outToken 5) = 0x00050004 ∧
    descWord (completedRx (armedDesc 64 .data1) .outToken 0) = 0x00000044 ∧
    descWord (completedTx (armedDesc 18 .data1)) = 0x00120064 ∧
    descWord (completedTx (armedDesc 8 .data0)) = 0x00080024 ∧ descWord releasedDesc = 0 := by decide +kernel

/-- Slot indexes and token-done bytes of K4. -/
theorem test_stat_bytes :
    slotIndex 0 .tx .odd = 3 ∧ slotIndex 2 .rx .odd = 9 ∧ statByte ⟨0, .rx, .odd⟩ = 0x04 ∧
    statByte ⟨0, .tx, .even⟩ = 0x08 ∧ statByte ⟨1, .tx, .odd⟩ = 0x1C ∧ statByte ⟨2, .rx, .even⟩ = 0x20 := by decide

/-- Endpoint control bytes of K5: each bit in turn of 0x0F, 0x15 and 0x19. -/
theorem test_control_bytes :
    hshkBit 0x0F = true ∧ stallBit 0x0F = true ∧ txenBit 0x0F = true ∧ rxenBit 0x0F = true ∧ ctldisBit 0x0F = false ∧
    stallBit 0x15 = false ∧ txenBit 0x15 = true ∧ rxenBit 0x15 = false ∧ ctldisBit 0x15 = true ∧
    txenBit 0x19 = false ∧ rxenBit 0x19 = true ∧ withStall 0x15 = 0x17 ∧ withoutStall 0x17 = 0x15 := by decide

/-- The fields of three of K2's first bytes and of a vendor one, by R92's bit numbers. -/
theorem test_request_type : requestDirection 0x80 = .deviceToHost ∧ requestKind 0x80 = .standard ∧
    requestRecipient 0x80 = .device ∧ requestDirection 0x21 = .hostToDevice ∧ requestKind 0x21 = .classSpecific ∧
    requestRecipient 0x21 = .interface ∧ requestRecipient 0x02 = .endpoint ∧ requestKind 0x40 = .vendor := by decide

/-- A word that breaks two conditions: the endpoint is named before the payload, the address before it too (log entry
27). -/
theorem test_decode_first_reason : decodeCommand ⟨0x04100003, [1]⟩ = .error .badEndpoint ∧
    decodeCommand ⟨0x20000080, [1]⟩ = .error .badAddress ∧ decodeCommand ⟨0x0C010002, List.replicate 65 0⟩ =
      .error .unusedField := by decide +kernel

/-- `Reg(r, off) + k` is `Reg(r, off + k)` past offset 65535 too, and the bound is the region's length (R8, R61, R62). -/
theorem test_reference_goes_on :
    (afterChunk pB live.ep0 (.collab .hidReport) 65472 128).pending = some (.collab .hidReport, 65536) ∧
    (memRead { live with cfg := { pB with reportLen := 65536 } } (.reg (.collab .hidReport) 65536) 1).toOption = none ∧
    ((memRead { live with cfg := { pB with reportLen := 65537 }, draws := [7] } (.reg (.collab .hidReport) 65536)
      1).toOption.map Prod.fst) = some [7] := by decide +kernel

/-- `ZLP_OUT a` is an empty OUT on endpoint 0 and its TOKEN_DONE (R101). -/
theorem test_pseudo_zlpOut : expandPseudo (.zlpOut 7) = [.hostOut 0 7 [], .tokenDone] := by decide

/-! ### The foreground commands -/

/-- INIT after power-on: endpoint 0 enabled, both RX slots armed, `CONFIGURED` false (R347). -/
theorem test_init : took (exec .init (State.powerOn pB)) (fun t =>
    decide (epGet t.endpt 0 = 0x0D) && decide (descWord (t.slot 0 .rx .odd).desc = 0x004000C8) &&
      decide (t.config = 0) && t.attached) = true := by decide +kernel

/-- ALLOC returns the packet the draw names and zeroes it (R110, R111). -/
theorem test_alloc : took (exec .alloc { State.powerOn pB with draws := [2] }) (fun t =>
    decide (t.result = some (.ok (.handle 2))) && decide (t.free = [true, true, false]) &&
      decide (t.byteAt (.pool 2) 63 = some 0) && decide (t.byteAt (.pool 2) 64 = none)) = true := by decide +kernel

/-- With no free packet ALLOC returns None (A7). -/
theorem test_alloc_none : took (exec .alloc bare) (fun t => decide (t.result = some .none)) = true := by decide +kernel

/-- FREE while starved arms the released RX slot (R115's example, on the odd bank of endpoint 2). -/
theorem test_free_redirects :
    took (exec (.free 2) { live.setSlot 2 .rx .odd Slot.cleared with rxNeeded := 1 }) (fun t =>
      decide (t.slot 2 .rx .odd = { desc := armedDesc 64 .data1, addr := .pool 2 }) && decide (t.rxNeeded = 0) &&
        decide (t.isFree 2 = false)) = true := by decide +kernel

/-- FREE of a packet in a slot faults (A6). -/
theorem test_free_slot : raised (exec (.free 0) live) .invalidHandle = true := by decide +kernel

/-- TX in EVEN_FREE arms EVEN with DATA0 and goes to NONE_FREE_ODD_FIRST (B1). -/
theorem test_tx_evenFree : took (exec (.tx 1 2) ((live.setTxState 1 .evenFree).setHeader 2 (lenOf 8))) (fun t =>
    decide (t.slot 1 .tx .even = { desc := armedDesc 8 .data0, addr := .pool 2 }) &&
      decide (epGet t.txState 1 = .noneFreeOddFirst) && decide (t.ownerOf 2 = .slot 1 .tx .even)) = true := by
  decide +kernel

/-- TX on a receive-only endpoint is an error even of a packet the caller does not own (B6). -/
theorem test_tx_badEndpoint : took (exec (.tx 2 0) live) (fun t => decide (t.result = some (.err .badEndpoint))) = true := by
  decide +kernel

/-- RX gives the head, lowers the count by its length and leaves the rest (R162). -/
theorem test_rx : took (exec (.rx 2) (((bare.setRxq 2 [1, 0]).setHeader 1 { len := 5, index := 0, next := some 0 }).setRxBytes
    2 8)) (fun t => decide (t.result = some (.ok (.handle 1))) && decide (epGet t.rxq 2 = [0]) &&
      decide (epGet t.rxBytes 2 = 3) && decide ((t.header 1).next = none)) = true := by decide +kernel

/-- The counts of Q1, Q2 and R3. -/
theorem test_txByteCount : took (exec (.txByteCount 1) (((bare.setTxq 1 [0, 1]).setHeader 0 (lenOf 8)).setHeader 1
    (lenOf 64))) (fun t => decide (t.result = some (.ok (.count 72)))) = true := by decide +kernel

theorem test_txPacketCount : took (exec (.txPacketCount 1) (bare.setTxq 1 [0, 1])) (fun t =>
    decide (t.result = some (.ok (.count 2)))) = true := by decide +kernel

theorem test_rxByteCount : took (exec (.rxByteCount 2) (bare.setRxBytes 2 8)) (fun t =>
    decide (t.result = some (.ok (.count 8)))) = true := by decide +kernel

theorem test_configured : took (exec .configured bare) (fun t => decide (t.result = some (.ok (.bool true)))) = true := by
  decide +kernel

/-- REINIT of a configured device (R274's example). -/
theorem test_reinit : took (exec .reinit live) (fun t => decide (t.config = 0) && decide (t.addr = 0) &&
    decide (t.obs = [.reconnect]) && decide (t.reconnects = 1) && decide (t.free = [true, true, false])) = true := by
  decide +kernel

/-- DEVICE_RELOAD marks the device (R276). -/
theorem test_deviceReload : took (exec .deviceReload live) (fun t => t.reloaded) = true := by decide +kernel

/-- PKT_FILL sets the bytes and the length (R168's example). -/
theorem test_pktFill : took (exec (.pktFill 2 [1, 2, 3]) live) (fun t => decide ((t.header 2).len = 3) &&
    decide (t.byteAt (.pool 2) 2 = some 3) && decide (t.byteAt (.pool 2) 3 = none)) = true := by decide +kernel

/-- PKT_READ gives the bytes back; of a byte never written it faults (R169). -/
theorem test_pktRead : took (exec (.pktRead 2) ((live.setHeader 2 (lenOf 2)).putBytes (.pool 2) 0 [9, 8])) (fun t =>
    decide (t.result = some (.ok (.packet 2 0 [9, 8])))) = true := by decide +kernel

theorem test_pktRead_unwritten : raised (exec (.pktRead 2) (live.setHeader 2 (lenOf 1))) .unwrittenRead = true := by
  decide +kernel

/-! ### The interrupt context -/

/-- TX completion with a packet queued re-arms the completed bank (R137's example). -/
theorem test_tokenDone_refill :
    took (exec .tokenDone { ((live.setSlot 1 .tx .even (doneSlot 8 .data0 .inToken (.pool 2))).setTxState 1
          .noneFreeEvenFirst).setTxq 1 [1] with stat := [⟨1, .tx, .even⟩] }) (fun t =>
      decide (t.isFree 2 = true) && decide ((t.slot 1 .tx .even).addr = .pool 1) && decide (epGet t.txq 1 = []) &&
        decide (epGet t.txState 1 = .noneFreeOddFirst)) = true := by decide +kernel

/-- RX completion of 5 bytes queues the packet and refills the slot (R140's example). -/
theorem test_tokenDone_rx :
    took (exec .tokenDone { (live.setSlot 2 .rx .odd (doneSlot 5 .data1 .outToken (.pool 1))).setFree 2 true with
        stat := [⟨2, .rx, .odd⟩] }) (fun t =>
      decide (epGet t.rxq 2 = [1]) && decide (epGet t.rxBytes 2 = 5) && decide ((t.header 1).len = 5) &&
        decide (t.slot 2 .rx .odd = { desc := armedDesc 64 .data1, addr := .pool 2 })) = true := by decide +kernel

/-- POWER_TIMEOUT lowers bMaxPower and reinitialises (R271's example). -/
theorem test_powerTimeout : took (exec .powerTimeout { live with pwr := { armed := true, lowered := false } }) (fun t =>
    decide (t.byteAt (.region (.desc 1)) 8 = some 0x32) && decide (t.pwr = { armed := false, lowered := true }) &&
      decide (t.obs = [.reconnect]) && decide (t.config = 0)) = true := by decide +kernel

/-! ### The SIE and the host -/

/-- A SETUP lands in the bank the ppbit names and suspends tokens (R292's example). -/
theorem test_hostSetup : took (exec (.hostSetup 7 ⟨0x80, 0x06, 0x0200, 0, 0x00FF⟩) live) (fun t =>
    decide (descWord (t.slot 0 .rx .even).desc = 0x00080074) && decide (t.byteAt (.region (.ep0rx .even)) 3 = some 0x02) &&
      decide (t.stat = [⟨0, .rx, .even⟩]) && t.tokenSuspend && decide (t.ppBank 0 .rx = .odd)) = true := by decide +kernel

/-- Five bytes land in endpoint 2's even slot (R1). -/
theorem test_hostOut : took (exec (.hostOut 2 7 [1, 2, 3, 4, 5]) live) (fun t =>
    decide (descWord (t.slot 2 .rx .even).desc = 0x00050004) && decide (t.byteAt (.pool 0) 4 = some 5) &&
      decide (t.stat.map statByte = [0x20]) && decide (t.obs = [.outAck 2 5])) = true := by decide +kernel

/-- 65 bytes have no step (R8). -/
theorem test_hostOut_tooLong : exec (.hostOut 2 7 (List.replicate 65 0)) live = .next live := by rfl

/-- The host reads the armed packet as DATA0 (R294's example, with two bytes). -/
theorem test_hostIn : took (exec (.hostIn 1 7) ((live.setSlot 1 .tx .even
      { desc := armedDesc 2 .data0, addr := .pool 2 }).putBytes (.pool 2) 0 [0xAA, 0xBB])) (fun t =>
    decide (t.obs = [.inData 1 .data0 [0xAA, 0xBB]]) && decide (descWord (t.slot 1 .tx .even).desc = 0x00020024) &&
      decide (t.ppBank 1 .tx = .odd)) = true := by decide +kernel

/-- A stalled endpoint answers STALL (E14). -/
theorem test_hostIn_stalled : took (exec (.hostIn 1 7) (live.setEndpt 1 0x17)) (fun t =>
    decide (t.obs = [.stall 1 .inToken]) && decide (t.stat = [])) = true := by decide +kernel

/-- R343's example: packets armed and queued go to the pool. -/
theorem test_hostBusReset : took (exec .hostBusReset { (live.setSlot 1 .tx .even
      { desc := armedDesc 8 .data0, addr := .pool 2 }) with owner := [.slot 2 .rx .even, .slot 2 .rx .odd, .slot 1 .tx .even] })
    (fun t => decide (t.free = [true, true, true]) && decide (t.config = 0) &&
      decide (t.slot 1 .tx .even = Slot.cleared) && decide (descWord (t.slot 0 .rx .even).desc = 0x004000C8)) = true := by
  decide +kernel

/-! ### The requests -/

/-- `00 00` from REPLY, two bytes DATA1 (E11). -/
theorem test_getStatusDevice : took (exec (.getStatusDevice 0 0 2) live) (fun t =>
    decide (t.slot 0 .tx .even = { desc := armedDesc 2 .data1, addr := .reg .reply 0 }) &&
      decide (t.byteAt (.region .reply) 1 = some 0) && decide (t.ctl = .dataIn)) = true := by decide +kernel

/-- The direction bit of wIndex is ignored (E11). -/
theorem test_getStatusEndpoint : took (exec (.getStatusEndpoint 0 0x0081 2) (live.setEndpt 1 0x17)) (fun t =>
    decide (t.byteAt (.region .reply) 0 = some 1)) = true := by decide +kernel

theorem test_getStatusEndpoint_above : took (exec (.getStatusEndpoint 0 3 2) live) (fun t =>
    decide (epGet t.endpt 0 = 0x0F) && decide (t.ctl = .idle)) = true := by decide +kernel

theorem test_clearFeature : took (exec (.clearFeatureEndpoint 0 1 0) (live.setEndpt 1 0x17)) (fun t =>
    decide (epGet t.endpt 1 = 0x15) && decide (t.ctl = .statusIn)) = true := by decide +kernel

/-- Endpoint 1, its direction bit ignored, and endpoint 0, which the status IN then finds stalled (E14). -/
theorem test_setFeature : took (exec (.setFeatureEndpoint 0 0x0081 0) live) (fun t =>
      decide (epGet t.endpt 1 = 0x17) && decide (t.slot 0 .tx .even = statusSlot)) = true ∧
    took (exec (.setFeatureEndpoint 0 0 0) live) (fun t =>
      decide (epGet t.endpt 0 = 0x0F) && decide (t.slot 0 .tx .even = statusSlot) && decide (t.ctl = .statusIn) &&
        took (exec (.hostIn 0 7) t) (fun u => decide (u.obs = t.obs ++ [.stall 0 .inToken]) &&
          decide (u.ctl = .statusIn))) = true := by decide +kernel

/-- A selector other than 0 stalls (E14). -/
theorem test_setFeature_selector : took (exec (.setFeatureEndpoint 1 1 0) live) (fun t =>
    decide (epGet t.endpt 0 = 0x0F) && decide (epGet t.endpt 1 = 0x15)) = true := by decide +kernel

/-- The address is recorded, not written (E12). -/
theorem test_setAddress : took (exec (.setAddress 9 0 0) live) (fun t => decide (t.addr = 7) &&
    decide (t.setAddrPending = some 9) && decide (t.slot 0 .tx .even = statusSlot)) = true := by decide +kernel

/-- 41 bytes of the configuration descriptor, the timer armed (E4). -/
theorem test_getDescriptorDevice : took (exec (.getDescriptorDevice 0x0200 0 0x00FF) live) (fun t =>
    decide (descWord (t.slot 0 .tx .even).desc = 0x002900C8) && decide (t.ep0.pending = none) && t.pwr.armed) = true := by
  decide +kernel

/-- A string's length is its own first byte (E9). -/
theorem test_getDescriptorDevice_string : took (exec (.getDescriptorDevice 0x0302 0x0409 0x00FF) live) (fun t =>
    decide (descWord (t.slot 0 .tx .even).desc = 0x001A00C8)) = true := by decide +kernel

theorem test_getDescriptorInterface : took (exec (.getDescriptorInterface 0x2200 0 64) live) (fun t =>
    decide (epGet t.endpt 0 = 0x0F)) = true := by decide +kernel

theorem test_getConfiguration : took (exec (.getConfiguration 0 0 1) live) (fun t =>
    decide (t.byteAt (.region .reply) 0 = some 1) && decide (descWord (t.slot 0 .tx .even).desc = 0x000100C8)) = true := by
  decide +kernel

/-- The RX slots are re-seeded, in scan order (R264's example, all three packets reclaimed or free). -/
theorem test_setConfiguration : took (exec (.setConfiguration 1 0 0) { live with free := [false, false, true], config := 0 })
    (fun t => decide (t.slot 2 .rx .even = { desc := armedDesc 64 .data0, addr := .pool 0 }) &&
      decide (t.slot 2 .rx .odd = { desc := armedDesc 64 .data1, addr := .pool 1 }) && decide (t.config = 1) &&
      decide (t.free = [false, false, true])) = true := by decide +kernel

/-- With no free packet every RX slot is starved (C4). -/
theorem test_setConfiguration_starved : took (exec (.setConfiguration 1 0 0) bare) (fun t =>
    decide (t.rxNeeded = 2) && decide (t.slot 2 .rx .odd = Slot.cleared)) = true := by decide +kernel

/-- The collaborator stalls or answers, as its free value says (E22). -/
theorem test_hidGetReport : took (exec (.hidGetReport 0x0100 0 8) live) (fun t => decide (epGet t.endpt 0 = 0x0F)) = true := by
  decide +kernel

theorem test_hidGetReport_data : took (exec (.hidGetReport 0x0100 0 8) { live with draws := [10] }) (fun t =>
    decide (descWord (t.slot 0 .tx .even).desc = 0x000800C8) && decide (t.calls = [.getReport 0x0100 0])) = true := by
  decide +kernel

theorem test_hidGetIdle : took (exec (.hidGetIdle 0 0 1) { live with draws := [0x7D] }) (fun t =>
    decide (t.byteAt (.region .reply) 0 = some 0x7D) && decide (t.calls = [.idle 0 0])) = true := by decide +kernel

theorem test_hidGetProtocol : took (exec (.hidGetProtocol 0 0 1) { live with draws := [1] }) (fun t =>
    decide (t.byteAt (.region .reply) 0 = some 1) && decide (t.calls = [.protocol 0])) = true := by decide +kernel

theorem test_hidSetReport : took (exec (.hidSetReport 0x0200 0 70) live) (fun t => decide (t.ctl = .dataOut) &&
    decide (t.ep0out = { received := 0, sink := some (.hidReport 0x0200 0) })) = true := by decide +kernel

/-- With wLength 0 the sink is completed at once (E19). -/
theorem test_hidSetReport_empty : took (exec (.hidSetReport 0x0200 0 0) live) (fun t => decide (t.ctl = .statusIn) &&
    decide (t.calls = [.sinkComplete (.hidReport 0x0200 0) 0])) = true := by decide +kernel

theorem test_hidSetIdle : took (exec (.hidSetIdle 0x7D00 0 0) live) (fun t =>
    decide (t.calls = [.setIdle 0 0x00 0x7D])) = true := by decide +kernel

theorem test_hidSetProtocol : took (exec (.hidSetProtocol 1 0 0) live) (fun t =>
    decide (t.calls = [.setProtocol 0 1])) = true := by decide +kernel

theorem test_cdcSetLineCoding : took (exec (.cdcSetLineCoding 0 0 7) live) (fun t =>
    decide (t.ep0out.sink = some .lineCoding) && decide (t.ctl = .dataOut)) = true := by decide +kernel

theorem test_cdcGetLineCoding : took (exec (.cdcGetLineCoding 0 0 7) live) (fun t =>
    decide (descWord (t.slot 0 .tx .even).desc = 0x000700C8)) = true := by decide +kernel

theorem test_cdcSetControlLineState : took (exec (.cdcSetControlLineState 3 0 0) live) (fun t =>
    decide (t.calls = [.setControlLineState 3]) && decide (t.ctl = .statusIn)) = true := by decide +kernel

/-! ### Witnesses: states and operands that meet the hypotheses of the statements -/

/-- A next state, by name. -/
theorem next_after (o : Out) (p : State → Bool) (h : took o p = true) : o = .next (after o) := by
  cases o <;> simp_all [took, after]

/-- Any next state without a fault mark. -/
def anyNext (_ : State) : Bool := true

/-- Packets 0 and 1 are armed in endpoint 1's two TX banks and packet 2 waits. -/
def busy : State :=
  { ((((bare.setSlot 1 .tx .even { desc := armedDesc 1 .data0, addr := .pool 0 }).setSlot 1 .tx .odd
        { desc := armedDesc 1 .data1, addr := .pool 1 }).setTxState 1 .noneFreeEvenFirst).setTxq 1 [2]).putBytes
      (.pool 0) 0 [0x55] with
    owner := [.slot 1 .tx .even, .slot 1 .tx .odd, .queue 1 .tx] }

theorem test_witness_ownership_live : live.Ownership :=
  State.ownership_of_finite live (by decide +kernel) (by decide +kernel) (by decide +kernel) (by decide +kernel)
    (by decide +kernel) (by decide +kernel)

theorem test_witness_ownership_busy : busy.Ownership :=
  State.ownership_of_finite busy (by decide +kernel) (by decide +kernel) (by decide +kernel) (by decide +kernel)
    (by decide +kernel) (by decide +kernel)

theorem test_witness_inStep_live : live.InStep :=
  State.inStep_of_idle live (by decide +kernel) (by decide +kernel) (by decide +kernel) (by decide +kernel)
    (by decide +kernel) (by decide +kernel) (by decide +kernel)

theorem test_witness_inStep_busy : busy.InStep :=
  State.inStep_of_idle busy (by decide +kernel) (by decide +kernel) (by decide +kernel) (by decide +kernel)
    (by decide +kernel) (by decide +kernel) (by decide +kernel)

/-- The decidable invariants of both states. -/
theorem test_witness_decidable : live.MemoryCanonical ∧ busy.MemoryCanonical ∧ live.QueueGate ∧ busy.QueueGate ∧
    live.RxBytesExact ∧ busy.RxBytesExact := by decide +kernel

theorem test_witness_starvation : live.StarvationExact :=
  State.starvationExact_of_finite live (by decide +kernel) (by decide +kernel)

theorem test_witness_toggles : busy.TogglesFollowBanks := State.toggles_of_finite busy (by decide +kernel)

theorem test_witness_links : busy.LinksAgree := fun ep => by
  have h : ∀ ep : Ep, (∀ k ∈ List.range (epGet busy.txq ep).length,
        (busy.header ((epGet busy.txq ep).getD k 0)).next = (epGet busy.txq ep)[k + 1]?) ∧
      ∀ k ∈ List.range (epGet busy.rxq ep).length,
        (busy.header ((epGet busy.rxq ep).getD k 0)).next = (epGet busy.rxq ep)[k + 1]? := by decide +kernel
  exact ⟨State.linked_of_finite busy _ (h ep).1, State.linked_of_finite busy _ (h ep).2⟩

/-! Encodings and steps -/

theorem test_witness_DecodeEncode : (Instr.pktFill 0xFFFF (List.replicate 64 0)).WellFormed := by decide

theorem test_witness_EncodeDecode : decode (.command ⟨0x220F007F, []⟩) = .ok (.hostIn 15 127) ∧
    decode (.setup ⟨0x21, 0x22, 0xFFFF, 0, 0⟩) = .ok (.cdcSetControlLineState 0xFFFF 0 0) := by decide +kernel

theorem test_witness_LegalCommandWords : (⟨"FREE", 0xFFFF0000, 0x03000000⟩ : TableRow) ∈ commandRows ∧
    (⟨"FREE", 0xFFFF0000, 0x03000000⟩ : TableRow).matches 0x0300FFFF = true := by decide +kernel

theorem test_witness_StepRunsDecoded :
    ({ live with cmds := [⟨0x09000000, []⟩] } : State).cmds = ⟨0x09000000, []⟩ :: [] ∧
    decodeCommand ⟨0x09000000, []⟩ = .ok .configured ∧ decodeCommand ⟨0x0E000000, []⟩ = .error .unknownOp ∧
    live.cmds = [] := by decide +kernel

/-- A SETUP just received on endpoint 0: a GET_STATUS, and a GET_DESCRIPTOR of a string without a byte. -/
def statusSetup : State := live.placeSetup ⟨0x80, 0x00, 0, 0, 2⟩

def stringSetup : State :=
  ({ live with cfg := { pB with descTable := [⟨0x0301, 0, 0, []⟩] } } : State).placeSetup ⟨0x80, 0x06, 0x0301, 0, 2⟩

/-- The state a SETUP's request runs on. -/
def given (s : State) : State := ({ s with stat := [] } : State).setSlot 0 .rx .even
  { desc := armedDesc (ep0Count s.cfg) .data1, addr := .reg (.ep0rx .even) 0 }

theorem test_witness_TokenDoneRunsRequest : statusSetup.Alive ∧
    statusSetup.stat = ⟨0, .rx, .even⟩ :: [] ∧ (statusSetup.slot 0 .rx .even).desc.own = false ∧
    (statusSetup.slot 0 .rx .even).desc.low = 0xD ∧
    statusSetup.readBuffer (.region (.ep0rx .even)) 0 8 = .ok [0x80, 0, 0, 0, 0, 0, 2, 0] ∧
    setupOfBytes [0x80, 0, 0, 0, 0, 0, 2, 0] = some ⟨0x80, 0x00, 0, 0, 2⟩ ∧
    decodeRequest ⟨0x80, 0x00, 0, 0, 2⟩ = some (.getStatusDevice 0 0 2) ∧
    took (exec (.getStatusDevice 0 0 2) (given statusSetup)) anyNext = true := by decide +kernel

theorem test_witness_TokenDoneRunsRequest_fault : stringSetup.Alive ∧
    stringSetup.stat = ⟨0, .rx, .even⟩ :: [] ∧ (stringSetup.slot 0 .rx .even).desc.own = false ∧
    (stringSetup.slot 0 .rx .even).desc.low = 0xD ∧
    stringSetup.readBuffer (.region (.ep0rx .even)) 0 8 = .ok [0x80, 6, 1, 3, 0, 0, 2, 0] ∧
    setupOfBytes [0x80, 6, 1, 3, 0, 0, 2, 0] = some ⟨0x80, 0x06, 0x0301, 0, 2⟩ ∧
    decodeRequest ⟨0x80, 0x06, 0x0301, 0, 2⟩ = some (.getDescriptorDevice 0x0301 0 2) ∧
    raised (exec (.getDescriptorDevice 0x0301 0 2) (given stringSetup)) .outOfBounds = true := by decide +kernel

theorem test_witness_FaultsWriteTheMarkOnly : ({ live with fault := some .outOfBounds } : State).fault = some .outOfBounds ∧
    live.fault = none ∧ ({ live with reloaded := true } : State).reloaded = true ∧ live.Alive := by decide +kernel

theorem test_witness_PowerOnState : 17 < bufferLen Params.pA (.region (.desc 0)) ∧ 63 < bufferLen Params.pA (.pool 29) ∧
    7 < bufferLen Params.pA (.region .reply) := by decide

theorem test_witness_BeforeInit : rxEnabled pB 2 = true ∧ isDataEp pB 1 = true ∧ isDataEp pB 2 = true ∧
    txEnabled pB 1 = true ∧ 0 < pB.nPackets := by decide

/-! Packet pool -/

theorem test_witness_AllocTakesFreePacket : bare.Alive ∧ (∀ i, bare.isFree i = false) ∧ (State.powerOn pB).Alive ∧
    (State.powerOn pB).isFree 2 = true := by
  refine ⟨by decide +kernel, fun i => ?_, by decide +kernel, by decide +kernel⟩
  have h : bare.freeIds = [] := by decide +kernel
  cases hf : bare.isFree i with
  | false => rfl
  | true =>
    have hm := (State.mem_freeIds bare i).2 hf
    rw [h] at hm
    exact absurd hm (List.not_mem_nil)

theorem test_witness_PoolLaws : (State.powerOn pB).Alive ∧ (State.powerOn pB).free.length = pB.nPackets ∧
    (State.powerOn pB).owner.length = pB.nPackets ∧ (State.powerOn pB).rxNeeded = 0 ∧
    (∀ h < pB.nPackets, (State.powerOn pB).isFree h = true) ∧ 2 < pB.nPackets := by decide +kernel

/-- Not owned just above the last id and in a slot; owned at the last id, unstarved and unconfigured. -/
theorem test_witness_FreeReturnsPacket : live.Alive ∧ ¬((3 : Half).toNat < live.cfg.nPackets) ∧
    live.ownerOf (0 : Half).toNat ≠ .caller ∧ (2 : Half).toNat < live.cfg.nPackets ∧
    live.ownerOf (2 : Half).toNat = .caller ∧ live.rxNeeded = 0 ∧
    ({ live with rxNeeded := 1, config := 0 } : State).config = 0 := by decide +kernel

/-- Starved with the first slot released, with the last one released, and with none. -/
theorem test_witness_FreeRedirects :
    let s0 : State := { bare with rxNeeded := 2 }
    let s1 : State := { live.setSlot 2 .rx .odd Slot.cleared with rxNeeded := 1 }
    let s2 : State := { live with rxNeeded := 1 }
    rxSlots pB = [] ++ (2, .even) :: [(2, .odd)] ∧ rxSlots pB = [(2, .even)] ++ (2, .odd) :: [] ∧
    s0.Alive ∧ s0.ownerOf 2 = .caller ∧ s0.rxNeeded ≠ 0 ∧ s0.config ≠ 0 ∧ (s0.slot 2 .rx .even).desc = releasedDesc ∧
    s1.Alive ∧ s1.ownerOf 2 = .caller ∧ s1.rxNeeded ≠ 0 ∧ s1.config ≠ 0 ∧ (s1.slot 2 .rx .even).desc ≠ releasedDesc ∧
    (s1.slot 2 .rx .odd).desc = releasedDesc ∧ s2.Alive ∧ s2.ownerOf 2 = .caller ∧ s2.rxNeeded ≠ 0 ∧ s2.config ≠ 0 ∧
    ∀ x ∈ rxSlots pB, (s2.slot x.1 .rx x.2).desc ≠ releasedDesc := by decide +kernel

/-! Endpoint queues -/

/-- Endpoint 0, one above NUM_ENDPOINTS, one without TXEN; a handle in a slot; lengths 65 and 64; no configuration. -/
theorem test_witness_TxChecksInOrder : live.Alive ∧ ¬(1 ≤ (0 : Ep).val) ∧ ¬((3 : Ep).val ≤ live.cfg.numEndpoints.val) ∧
    txenBit (epConfigOf live.cfg 2) = false ∧ txEnabled live.cfg 1 = true ∧
    live.ownerOf (0 : Half).toNat ≠ .caller ∧ live.callerOwns (2 : Half).toNat = true ∧
    64 < ((live.setHeader 2 (lenOf 65)).header 2).len.toNat ∧ ((live.setHeader 2 (lenOf 64)).header 2).len.toNat ≤ 64 ∧
    ({ live with config := 0 } : State).config = 0 := by decide +kernel

/-- Every bank state can be given to endpoint 1, with the bank it would arm owned or not. -/
theorem test_witness_TxSubmits : live.Alive ∧ txEnabled live.cfg 1 = true ∧ live.callerOwns (2 : Half).toNat = true ∧
    ((live.setHeader 2 (lenOf 64)).header 2).len.toNat ≤ 64 ∧ live.config ≠ 0 ∧
    (∀ x ∈ [TxState.bothFreeEvenFirst, .bothFreeOddFirst, .evenFree, .oddFree, .noneFreeEvenFirst, .noneFreeOddFirst],
      epGet (live.setTxState 1 x).txState 1 = x) ∧
    (live.slot 1 .tx .even).desc.own = false ∧ (live.slot 1 .tx .odd).desc.own = false ∧
    ((live.setSlot 1 .tx .odd { desc := armedDesc 0 .data1, addr := .null }).slot 1 .tx .odd).desc.own = true := by
  decide +kernel

theorem test_witness_ThreeSubmissions : bare.Alive ∧ txEnabled bare.cfg 1 = true ∧ bare.config ≠ 0 ∧
    bare.callerOwns (0 : Half).toNat = true ∧ bare.callerOwns (1 : Half).toNat = true ∧
    bare.callerOwns (2 : Half).toNat = true ∧ (bare.header (0 : Half).toNat).len.toNat ≤ 64 ∧
    (bare.header (1 : Half).toNat).len.toNat ≤ 64 ∧ (bare.header (2 : Half).toNat).len.toNat ≤ 64 ∧
    epGet bare.txState 1 = .bothFreeEvenFirst ∧ epGet bare.txq 1 = [] ∧
    (bare.slot 1 .tx .even).desc.own = false ∧ (bare.slot 1 .tx .odd).desc.own = false := by decide +kernel

theorem test_witness_RxTakesHead : live.Alive ∧ ¬(1 ≤ (0 : Ep).val) ∧ ¬((3 : Ep).val ≤ live.cfg.numEndpoints.val) ∧
    rxenBit (epConfigOf live.cfg 1) = false ∧ rxEnabled live.cfg 2 = true ∧
    ({ live with config := 0 } : State).config = 0 ∧ epGet live.rxq 2 = [] ∧ live.config ≠ 0 ∧
    epGet (live.setRxq 2 [2, 1]).rxq 2 = 2 :: [1] := by decide +kernel

theorem test_witness_CountsAndConfigured : live.Alive ∧ 1 ≤ (1 : Ep).val ∧ (2 : Ep).val ≤ live.cfg.numEndpoints.val ∧
    ¬(1 ≤ (0 : Ep).val) ∧ ¬((3 : Ep).val ≤ live.cfg.numEndpoints.val) := by decide +kernel

theorem test_witness_PktFillWritesPayload : live.Alive ∧ live.MemoryCanonical ∧
    (List.replicate 64 (0 : Byte)).length ≤ 64 ∧ ¬((3 : Half).toNat < live.cfg.nPackets) ∧
    (2 : Half).toNat < live.cfg.nPackets ∧ live.ownerOf (2 : Half).toNat = .caller ∧
    3 < bufferLen live.cfg (.pool 2) := by decide +kernel

/-- Two bytes written, one of two not written, and a header past the buffer. -/
theorem test_witness_PktReadReturnsPacket :
    let s : State := (live.setHeader 2 (lenOf 2)).putBytes (.pool 2) 0 [9]
    let t : State := (live.setHeader 2 (lenOf 2)).putBytes (.pool 2) 0 [9, 8]
    s.Alive ∧ ¬((3 : Half).toNat < s.cfg.nPackets) ∧ (2 : Half).toNat < s.cfg.nPackets ∧ s.ownerOf 2 = .caller ∧
    (s.header 2).len.toNat = 2 ∧ s.byteAt (.pool 2) 1 = none ∧ t.byteAt (.pool 2) 0 = some 9 ∧
    t.byteAt (.pool 2) 1 = some 8 ∧ 64 < ((live.setHeader 2 (lenOf 65)).header 2).len.toNat := by decide +kernel

/-! Bus reset, power and reload -/

theorem test_witness_BusResets : live.Alive ∧ live.attached = true := by decide +kernel

/-- Packets in slots, in a FIFO and with the caller; each of the four commands has a next state without a fault. -/
theorem test_witness_OwnersAfterBusReset : busy.Ownership ∧ busy.attached = true ∧
    took (exec .init busy) anyNext = true ∧ took (exec .reinit busy) anyNext = true ∧
    took (exec .hostBusReset busy) anyNext = true ∧
    ({ live with pwr := { armed := true, lowered := false } } : State).Ownership ∧
    took (exec .powerTimeout { live with pwr := { armed := true, lowered := false } }) anyNext = true :=
  ⟨test_witness_ownership_busy, by decide +kernel, by decide +kernel, by decide +kernel, by decide +kernel,
    State.ownership_of_finite _ (by decide +kernel) (by decide +kernel) (by decide +kernel) (by decide +kernel)
      (by decide +kernel) (by decide +kernel), by decide +kernel⟩

theorem test_witness_DeviceReloadStops : live.Alive ∧ took (exec .deviceReload live) anyNext = true := by decide +kernel

/-- The byte is the last of its descriptor, or one past it. -/
theorem test_witness_PowerTimeoutLowers :
    let s : State := { live with pwr := { armed := true, lowered := false }, cfg := { pB with bMaxPowerOffset := 40 } }
    let t : State := { live with pwr := { armed := true, lowered := false }, cfg := { pB with bMaxPowerOffset := 41 } }
    s.Alive ∧ s.MemoryCanonical ∧ s.pwr.armed = true ∧
    (∀ (k : Nat) (e : DescEntry), s.cfg.descTable[k]? = some e → e.wValue.extractLsb' 8 8 = 2 →
      s.cfg.bMaxPowerOffset < bufferLen s.cfg (.region (.desc k))) ∧
    t.Alive ∧ t.MemoryCanonical ∧ t.pwr.armed = true ∧
    ∃ (k : Nat) (e : DescEntry), t.cfg.descTable[k]? = some e ∧ e.wValue.extractLsb' 8 8 = 2 ∧
      bufferLen t.cfg (.region (.desc k)) ≤ t.cfg.bMaxPowerOffset := by
  intro s t
  refine ⟨by decide +kernel, by decide +kernel, by decide +kernel, fun k e hk => ?_, by decide +kernel,
    by decide +kernel, by decide +kernel, 1, t.cfg.descTable[1]'(by decide), by decide +kernel, by decide +kernel, by decide +kernel⟩
  have hall : ∀ k < s.cfg.descTable.length, ∀ e ∈ s.cfg.descTable[k]?, e.wValue.extractLsb' 8 8 = 2 →
      s.cfg.bMaxPowerOffset < bufferLen s.cfg (.region (.desc k)) := by decide +kernel
  obtain ⟨hl, -⟩ := List.getElem?_eq_some_iff.1 hk
  exact hall k hl e hk

/-- Each reason not to be enabled, at its boundary. -/
theorem test_witness_NotEnabledNoStep : live.Alive ∧ live.stat = [] ∧ live.pwr.armed = false ∧
    ({ live with attached := false } : State).attached = false ∧ (6 : BitVec 7) ≠ live.addr ∧
    live.cfg.statDepth ≤ ({ live with stat := List.replicate 4 ⟨1, .tx, .even⟩ } : State).stat.length ∧
    rxenBit (epGet (live.setEndpt 0 0x05).endpt 0) = false ∧
    ((live.setSlot 0 .rx .even Slot.cleared).slot 0 .rx (live.ppBank 0 .rx)).desc.own = false ∧
    ((live.setSlot 0 .rx .even { desc := armedDesc 7 .data1, addr := .null }).slot 0 .rx (live.ppBank 0 .rx)).desc.bc.toNat
      < 8 ∧
    ({ live with tokenSuspend := true } : State).tokenSuspend = true ∧ live.cfg.numEndpoints.val < (3 : Ep).val ∧
    rxenBit (epGet live.endpt 1) = false ∧ 64 < (List.replicate 65 (0 : Byte)).length ∧ txenBit (epGet live.endpt 2) = false ∧
    stallBit (epGet live.endpt 1) = false ∧ (live.slot 1 .rx (live.ppBank 1 .rx)).desc.own = false ∧
    ((live.setSlot 2 .rx .even { desc := armedDesc 4 .data0, addr := .pool 0 }).slot 2 .rx (live.ppBank 2 .rx)).desc.bc.toNat
      < ([1, 2, 3, 4, 5] : List Byte).length ∧
    (live.slot 1 .tx (live.ppBank 1 .tx)).desc.own = false := by decide +kernel

/-! TOKEN_DONE -/

/-- A slot still owned; a PID the SIE never writes; a SETUP on endpoint 1; an OUT above NUM_ENDPOINTS. -/
theorem test_witness_TokenDoneRejects :
    let s : State := { live with stat := [⟨2, .rx, .even⟩] }
    let t : State := { live.setSlot 3 .rx .even (doneSlot 1 .data0 .outToken .null) with stat := [⟨3, .rx, .even⟩] }
    s.Alive ∧ (s.slot 2 .rx .even).desc.own = true ∧ t.Alive ∧ (t.slot 3 .rx .even).desc.own = false ∧
    (t.slot 3 .rx .even).desc.low = 0x1 ∧ ¬((3 : Ep).val ≤ t.cfg.numEndpoints.val) ∧
    ((live.setSlot 1 .rx .even (doneSlot 8 .data0 .setupToken .null)).slot 1 .rx .even).desc.low = 0xD ∧
    (Slot.cleared.desc.low ≠ 0x1 ∧ Slot.cleared.desc.low ≠ 0x9 ∧ Slot.cleared.desc.low ≠ 0xD) := by decide +kernel

/-- An IN on endpoint 1's bank completed, in every bank state and with and without a packet queued or in the slot. -/
def sent (c : Bank) (st : TxState) (q : List Nat) (r : BufRef) : State :=
  { ((live.setSlot 1 .tx c (doneSlot 1 .data0 .inToken r)).setTxState 1 st).setTxq 1 q with stat := [⟨1, .tx, c⟩] }

theorem test_witness_TxCompletion :
    ∀ x ∈ [(Bank.even, TxState.bothFreeEvenFirst, ([] : List Nat), BufRef.pool 2), (.odd, .bothFreeOddFirst, [], .pool 2),
        (.even, .evenFree, [], .pool 2), (.odd, .oddFree, [], .pool 2), (.odd, .evenFree, [1], .pool 2),
        (.even, .oddFree, [1], .pool 2), (.odd, .evenFree, [], .null), (.even, .oddFree, [], .null),
        (.even, .noneFreeEvenFirst, [], .null), (.odd, .evenFree, [], .pool 2), (.even, .oddFree, [], .pool 2),
        (.even, .noneFreeEvenFirst, [], .pool 2), (.odd, .noneFreeEvenFirst, [], .pool 2),
        (.even, .noneFreeOddFirst, [], .pool 2), (.odd, .noneFreeOddFirst, [], .pool 2),
        (.even, .noneFreeEvenFirst, [1, 0], .pool 2), (.odd, .noneFreeOddFirst, [1], .pool 2)],
      let s := sent x.1 x.2.1 x.2.2.1 x.2.2.2
      s.Alive ∧ s.stat = ⟨1, .tx, x.1⟩ :: [] ∧ isDataEp s.cfg 1 = true ∧ (s.slot 1 .tx x.1).desc.own = false ∧
        (s.slot 1 .tx x.1).desc.low = 0x9 ∧ epGet s.txState 1 = x.2.1 ∧ epGet s.txq 1 = x.2.2.1 ∧
        (s.slot 1 .tx x.1).addr = x.2.2.2 := by decide +kernel

/-- An OUT of `n` bytes on endpoint 2's odd bank completed. -/
def received (n : BitVec 10) (r : BufRef) : State :=
  { live.setSlot 2 .rx .odd (doneSlot n .data1 .outToken r) with stat := [⟨2, .rx, .odd⟩] }

theorem test_witness_RxCompletion :
    (∀ x ∈ [((0 : BitVec 10), BufRef.pool 1), (1, .pool 1), (64, .pool 1), (1, .null)],
      let s := received x.1 x.2
      s.Alive ∧ s.stat = ⟨2, .rx, .odd⟩ :: [] ∧ isDataEp s.cfg 2 = true ∧ (s.slot 2 .rx .odd).desc.own = false ∧
        (s.slot 2 .rx .odd).desc.low = 0x1 ∧ (s.slot 2 .rx .odd).desc.bc = x.1 ∧ (s.slot 2 .rx .odd).addr = x.2) ∧
    (received 1 (.pool 1)).freeIds = [] ∧ ((received 1 (.pool 1)).setFree 2 true).isFree 2 = true := by decide +kernel

/-- An IN on endpoint 0's bank completed, in a stage. -/
def sent0 (c : Bank) (st : Ctl) (left : Option (Region × Nat)) (a : Option (BitVec 7)) : State :=
  { live.setSlot 0 .tx c (doneSlot 1 .data1 .inToken (.reg .reply 0)) with
    stat := [⟨0, .tx, c⟩]
    ctl := st
    ep0 := { live.ep0 with pending := left, pendingLen := 3 }
    setAddrPending := a }

theorem test_witness_ControlInCompletion :
    (∀ x ∈ [(Bank.odd, Ctl.idle, (none : Option (Region × Nat)), (none : Option (BitVec 7))), (.even, .dataIn, none, none),
        (.even, .dataIn, some (.desc 1, 64), none), (.even, .statusIn, none, some 9), (.even, .statusIn, none, none),
        (.even, .idle, none, none), (.even, .dataOut, none, none), (.even, .statusOut, none, none)],
      let s := sent0 x.1 x.2.1 x.2.2.1 x.2.2.2
      s.Alive ∧ s.stat = ⟨0, .tx, x.1⟩ :: [] ∧ (s.slot 0 .tx x.1).desc.own = false ∧ (s.slot 0 .tx x.1).desc.low = 0x9 ∧
        s.ctl = x.2.1 ∧ s.ep0.pending = x.2.2.1 ∧ s.setAddrPending = x.2.2.2 ∧
        (s.slot 0 .tx x.1.other).desc.own = false) ∧
    live.ep0.bank = .even ∧
    (((sent0 .even .dataIn (some (.desc 1, 64)) none).setSlot 0 .tx .odd
      { desc := armedDesc 0 .data0, addr := .null }).slot 0 .tx .odd).desc.own = true := by decide +kernel

/-- An OUT of four bytes on endpoint 0's even bank completed, in a stage that expects `want` bytes. -/
def received0 (st : Ctl) (want : Half) : State :=
  { (live.setSlot 0 .rx .even (doneSlot 4 .data1 .outToken (.reg (.ep0rx .even) 0))).putBytes (.region (.ep0rx .even)) 0
      [1, 2, 3, 4] with
    stat := [⟨0, .rx, .even⟩]
    ctl := st
    setup := ⟨0x21, 0x20, 0, 0, want⟩
    ep0out := { received := 0, sink := some .lineCoding } }

theorem test_witness_ControlOutCompletion :
    (∀ x ∈ [(Ctl.statusOut, (0 : Half)), (.dataIn, 0), (.idle, 0), (.statusIn, 0), (.dataOut, 4), (.dataOut, 3)],
      let s := received0 x.1 x.2
      s.Alive ∧ s.stat = ⟨0, .rx, .even⟩ :: [] ∧ (s.slot 0 .rx .even).desc.own = false ∧
        (s.slot 0 .rx .even).desc.low = 0x1 ∧ s.readBuffer (.region (.ep0rx .even)) 0 4 = .ok [1, 2, 3, 4] ∧
        s.ctl = x.1 ∧ s.ep0out.sink = some .lineCoding ∧ s.setup.wLength = x.2 ∧
        (s.slot 0 .tx s.ep0.bank).desc.own = false) ∧
    live.readBuffer (.region (.ep0rx .even)) 0 4 = .error .unwrittenRead ∧
    ((live.setSlot 0 .tx .even { desc := armedDesc 0 .data1, addr := .null }).slot 0 .tx live.ep0.bank).desc.own = true := by
  decide +kernel

/-- A full packet of EP0_SIZE 64 bytes with one more byte to come: the data stage goes on. -/
theorem test_witness_ControlOutCompletion_goesOn :
    let data : List Byte := List.replicate 64 7
    let s : State := { (live.setSlot 0 .rx .even (doneSlot 64 .data1 .outToken (.reg (.ep0rx .even) 0))).putBytes
        (.region (.ep0rx .even)) 0 data with
      stat := [⟨0, .rx, .even⟩], ctl := .dataOut, setup := ⟨0x21, 0x09, 0, 0, 65⟩
      ep0out := { received := 0, sink := some (.hidReport 0 0) } }
    s.Alive ∧ s.readBuffer (.region (.ep0rx .even)) 0 64 = .ok data ∧
      ¬(s.setup.wLength ≤ s.ep0out.received + 64 ∨ data.length < s.cfg.ep0Size.toNat) := by decide +kernel

theorem test_witness_UnknownRequestStalls :
    let s := live.placeSetup ⟨0x40, 0x99, 0, 0, 0⟩
    s.Alive ∧ s.stat = ⟨0, .rx, .even⟩ :: [] ∧ (s.slot 0 .rx .even).desc.own = false ∧
    (s.slot 0 .rx .even).desc.low = 0xD ∧
    s.readBuffer (.region (.ep0rx .even)) 0 8 = .ok [0x40, 0x99, 0, 0, 0, 0, 0, 0] ∧
    setupOfBytes [0x40, 0x99, 0, 0, 0, 0, 0, 0] = some ⟨0x40, 0x99, 0, 0, 0⟩ ∧
    decodeRequest ⟨0x40, 0x99, 0, 0, 0⟩ = none := by decide +kernel

/-! The SIE and the host -/

/-- The slot's buffer takes the packet; its buffer is one byte too short; it has none. -/
theorem test_witness_HostSetupLands : live.Alive ∧ live.attached = true ∧ (7 : BitVec 7) = live.addr ∧
    live.stat.length < live.cfg.statDepth ∧ rxenBit (epGet live.endpt 0) = true ∧
    (live.slot 0 .rx (live.ppBank 0 .rx)).desc.own = true ∧ 8 ≤ (live.slot 0 .rx (live.ppBank 0 .rx)).desc.bc.toNat ∧
    refTarget (live.slot 0 .rx (live.ppBank 0 .rx)).addr = some (.region (.ep0rx .even), 0) ∧
    0 + 8 ≤ bufferLen live.cfg (.region (.ep0rx .even)) ∧
    refTarget (.reg (.ep0rx .even) 57) = some (.region (.ep0rx .even), 57) ∧
    bufferLen live.cfg (.region (.ep0rx .even)) < 57 + 8 ∧ refTarget .null = none := by decide

theorem test_witness_HostOutLands : live.Alive ∧ live.attached = true ∧ (7 : BitVec 7) = live.addr ∧
    live.stat.length < live.cfg.statDepth ∧ live.tokenSuspend = false ∧ (2 : Ep).val ≤ live.cfg.numEndpoints.val ∧
    rxenBit (epGet live.endpt 2) = true ∧ stallBit (epGet live.endpt 2) = false ∧
    (List.replicate 64 (0 : Byte)).length ≤ 64 ∧ (live.slot 2 .rx (live.ppBank 2 .rx)).desc.own = true ∧
    64 ≤ (live.slot 2 .rx (live.ppBank 2 .rx)).desc.bc.toNat ∧
    refTarget (live.slot 2 .rx (live.ppBank 2 .rx)).addr = some (.pool 0, 0) ∧ 0 + 64 ≤ bufferLen live.cfg (.pool 0) ∧
    refTarget (.pool 3) = some (.pool 3, 0) ∧ bufferLen live.cfg (.pool 3) < 0 + 1 := by decide

/-- A packet whose byte is written, one whose byte is not, a collaborator's region, and a count past the buffer. -/
theorem test_witness_HostInSends : busy.Alive ∧ busy.attached = true ∧ (7 : BitVec 7) = busy.addr ∧
    busy.stat.length < busy.cfg.statDepth ∧ busy.tokenSuspend = false ∧ (1 : Ep).val ≤ busy.cfg.numEndpoints.val ∧
    txenBit (epGet busy.endpt 1) = true ∧ stallBit (epGet busy.endpt 1) = false ∧
    (busy.slot 1 .tx (busy.ppBank 1 .tx)).desc.own = true ∧ (busy.slot 1 .tx (busy.ppBank 1 .tx)).desc.bc.toNat = 1 ∧
    refTarget (busy.slot 1 .tx (busy.ppBank 1 .tx)).addr = some (.pool 0, 0) ∧ isCollab (.pool 0) = false ∧
    (∀ k < 1, (busy.byteAt (.pool 0) (0 + k)).isSome = true) ∧ busy.byteAt (.pool 1) 0 = none ∧
    isCollab (.region (.collab .lineCoding)) = true ∧ 0 + 7 ≤ bufferLen busy.cfg (.region (.collab .lineCoding)) ∧
    bufferLen busy.cfg (.region .reply) < 8 + 1 := by decide +kernel

theorem test_witness_StallHandshake : live.Alive ∧ live.attached = true ∧ (7 : BitVec 7) = live.addr ∧
    live.stat.length < live.cfg.statDepth ∧ live.tokenSuspend = false ∧ (2 : Ep).val ≤ live.cfg.numEndpoints.val ∧
    stallBit (epGet (live.setEndpt 2 0x1B).endpt 2) = true ∧ rxenBit (epGet (live.setEndpt 2 0x1B).endpt 2) = true ∧
    stallBit (epGet (live.setEndpt 1 0x17).endpt 1) = true ∧ txenBit (epGet (live.setEndpt 1 0x17).endpt 1) = true ∧
    (List.replicate 64 (0 : Byte)).length ≤ 64 := by decide +kernel

theorem test_witness_SieNeverArms : took (exec (.hostSetup 7 ⟨0x80, 0, 0, 0, 2⟩) live) anyNext = true ∧
    took (exec (.hostOut 2 7 [1]) live) anyNext = true ∧
    took (exec (.hostIn 1 7) busy) (fun t => decide (t.obs = busy.obs ++ [.inData 1 .data0 [0x55]])) = true := by
  decide +kernel

/-! Requests -/

/-- For RequestsWithoutData, RequestsFromReply, RequestsFromCollaborators and RequestsWithHostData: an endpoint in range,
just above it and at the top, and a selector that is not 0. -/
theorem test_witness_requests : live.Alive ∧ (2 : Ep).val = ((0x0082 : Half).extractLsb' 0 7).toNat ∧
    (2 : Ep).val ≤ live.cfg.numEndpoints.val ∧ live.cfg.numEndpoints.val < ((0x0083 : Half).extractLsb' 0 7).toNat ∧
    live.cfg.numEndpoints.val < ((0x007F : Half).extractLsb' 0 7).toNat ∧ (1 : Half) ≠ 0 := by decide +kernel

/-- No entry; a configuration descriptor; a string, its length its own first byte. -/
theorem test_witness_GetDescriptor : live.Alive ∧
    (∀ e ∈ live.cfg.descTable, ¬(e.wValue = 0x0302 ∧ e.wIndex = 0)) ∧
    (∃ e, live.cfg.descTable[1]? = some e ∧ e.wValue = 0x0200 ∧ e.wIndex = 0 ∧ e.length = 41) ∧
    (∀ e' ∈ live.cfg.descTable.take 1, ¬(e'.wValue = 0x0200 ∧ e'.wIndex = 0)) ∧ (0x0200 : Half).extractLsb' 8 8 ≠ 3 ∧
    (∃ e, live.cfg.descTable[3]? = some e ∧ e.wValue = 0x0302 ∧ e.wIndex = 0x0409) ∧
    (∀ e' ∈ live.cfg.descTable.take 3, ¬(e'.wValue = 0x0302 ∧ e'.wIndex = 0x0409)) ∧
    (0x0302 : Half).extractLsb' 8 8 = 3 ∧ 0 < bufferLen live.cfg (.region (.desc 3)) ∧
    live.byteAt (.region (.desc 3)) 0 = some 0x1A :=
  ⟨by decide +kernel, by decide +kernel, ⟨_, rfl, by decide, by decide, by decide⟩, by decide +kernel, by decide,
    ⟨_, rfl, by decide, by decide⟩, by decide +kernel, by decide, by decide, by decide +kernel⟩

/-- For SetConfigurationReseeds and SetConfigurationIdempotent: two in a row, and a slot past and before the packets end. -/
theorem test_witness_SetConfiguration : live.Alive ∧ (0x0301 : Half).extractLsb' 0 8 = (1 : Half).extractLsb' 0 8 ∧
    took (exec (.setConfiguration 1 0 0) live) (fun t =>
      took (exec (.setConfiguration 0x0301 4 7) t) (fun u => !t.isFree 2 && !t.inTransit 2 && decide (u.ownerOf 2 = .caller))) = true ∧
    (rxSlots live.cfg)[1]? = some (2, .odd) ∧ 1 < live.reclaimable ∧ bare.reclaimable ≤ 0 ∧
    isDataEp live.cfg 2 = true ∧ rxEnabled live.cfg 1 = false ∧ isDataEp live.cfg 3 = false := by decide +kernel

/-! Memory and invariants -/

theorem test_witness_MemoryKept : Instr.hostBusReset ∈ [Instr.init, .hostBusReset] ∧
    took (exec .hostBusReset live) anyNext = true ∧ took (exec (.hidSetIdle 0 0 0) live) anyNext = true := by
  decide +kernel

/-- The clauses, each with a byte next to the ones stored. -/
theorem test_witness_StoresStayInBounds : 0 < bufferLen live.cfg (.pool 1) ∧
    took (exec .alloc (State.powerOn pB)) anyNext = true ∧ 8 < bufferLen live.cfg (.region (.ep0rx .even)) ∧
    refTarget (live.slot 0 .rx (live.ppBank 0 .rx)).addr = some (.region (.ep0rx .even), 0) ∧
    took (exec (.hostSetup 7 ⟨0x80, 0, 0, 0, 2⟩) live) anyNext = true ∧
    refTarget (live.slot 2 .rx (live.ppBank 2 .rx)).addr = some (.pool 0, 0) ∧
    took (exec (.hostOut 2 7 [1]) live) anyNext = true ∧ 1 < bufferLen live.cfg (.region .reply) ∧
    2 < bufferLen live.cfg (.region .reply) ∧ took (exec (.getStatusDevice 0 0 2) live) anyNext = true ∧
    took (exec (.getConfiguration 0 0 1) live) anyNext = true ∧
    took (exec (.setConfiguration 1 0 0) live) anyNext = true ∧ live.isFree 2 = false ∧ live.inTransit 2 = false ∧
    took (exec .tokenDone statusSetup) anyNext = true ∧ statusSetup.isFree 2 = false ∧
    statusSetup.inTransit 2 = false := by decide +kernel

theorem test_witness_MemoryCanonicalKept : live.MemoryCanonical ∧
    took (step { live with cmds := [⟨0x21020007, [1, 2]⟩] }) anyNext = true := by decide +kernel

/-- For OwnershipKept, QueueCountsKept, GateAndTogglesKept and StarvationKept. -/
theorem test_witness_InvariantsKept : busy.Ownership ∧ busy.QueueGate ∧ busy.RxBytesExact ∧ busy.LinksAgree ∧
    busy.TogglesFollowBanks ∧ took (exec (.hostIn 1 7) busy) anyNext = true ∧ live.Ownership ∧ live.StarvationExact ∧
    took (exec (.free 2) live) anyNext = true :=
  ⟨test_witness_ownership_busy, by decide +kernel, by decide +kernel, test_witness_links, test_witness_toggles,
    by decide +kernel, test_witness_ownership_live, test_witness_starvation, by decide +kernel⟩

/-- A SETUP sent while none is pending: the exception the premise makes is met, and the step is taken. -/
theorem test_witness_InStepKept : busy.Ownership ∧ busy.InStep ∧ live.Ownership ∧ live.InStep ∧ live.tokenSuspend = false ∧
    took (exec (.hostSetup 7 ⟨0x80, 0, 0, 0, 2⟩) live) anyNext = true ∧ took (exec (.hostIn 1 7) busy) anyNext = true :=
  ⟨test_witness_ownership_busy, test_witness_inStep_busy, test_witness_ownership_live, test_witness_inStep_live,
    by decide +kernel, by decide +kernel, by decide +kernel⟩

theorem test_witness_InternalFaultsUnreachable : busy.Ownership ∧ busy.QueueGate ∧ busy.InStep ∧
    (Instr.free 0).isCommand = true ∧ raised (exec (.free 0) busy) .invalidHandle = true :=
  ⟨test_witness_ownership_busy, by decide +kernel, test_witness_inStep_busy, by decide, by decide +kernel⟩

/-! Rules about the whole machine: each way the state in question can change -/

theorem test_witness_AddressWrittenOnly :
    took (exec .tokenDone (sent0 .even .statusIn none (some 9))) (fun t => decide (t.addr = 9)) = true ∧
    (sent0 .even .statusIn none (some 9)).addr = 7 ∧ took (exec .hostBusReset live) (fun t => decide (t.addr = 0)) = true := by
  decide +kernel

theorem test_witness_ControlStateMoves :
    took (exec .tokenDone statusSetup) (fun t => decide (t.ctl = .dataIn)) = true ∧
    took (exec .tokenDone (sent0 .even .dataIn none none)) (fun t => decide (t.ctl = .statusOut)) = true ∧
    took (exec .tokenDone (received0 .dataOut 3)) (fun t => decide (t.ctl = .statusIn)) = true ∧
    took (exec .hostBusReset { live with ctl := .dataIn }) (fun t => decide (t.ctl = .idle)) = true := by decide +kernel

theorem test_witness_ObservationsAppended : took (exec (.hostOut 2 7 [1]) live) (fun t => decide (t.obs ≠ live.obs)) = true := by
  decide +kernel

theorem test_witness_PpbitsAreTheSies : took (exec (.hostIn 1 7) busy) (fun t => decide (t.pp ≠ busy.pp)) = true ∧
    took (exec .hostBusReset (live.setPp 1 .tx .odd)) (fun t => decide (t.ppBank 1 .tx = .even)) = true := by
  decide +kernel

/-- Each way a FIFO changes: a packet added, the head taken, emptied by a reset and by a configuration. -/
theorem test_witness_QueuesAreFifos :
    took (exec .tokenDone (received 1 (.pool 1))) (fun t => decide (epGet t.rxq 2 = [1])) = true ∧
    took (exec (.rx 2) (bare.setRxq 2 [1, 0])) (fun t => decide (epGet t.rxq 2 = [0])) = true ∧
    took (exec (.tx 1 2) (live.setTxState 1 .noneFreeEvenFirst)) (fun t => decide (epGet t.txq 1 = [2])) = true ∧
    took (exec .tokenDone (sent .even .noneFreeEvenFirst [1, 0] (.pool 2))) (fun t => decide (epGet t.txq 1 = [0])) = true ∧
    took (exec .hostBusReset busy) (fun t => decide (epGet t.txq 1 = [])) = true ∧
    took (exec .tokenDone (busy.placeSetup ⟨0x00, 0x09, 1, 0, 0⟩)) (fun t =>
      decide (epGet t.txq 1 = []) && decide (requestCode t.setup = 0x0900)) = true := by decide +kernel

theorem test_witness_CallerPacketsIsolated : live.Ownership ∧ 2 < live.cfg.nPackets ∧ live.ownerOf 2 = .caller ∧
    took (exec (.hostOut 2 7 [1]) live) anyNext = true :=
  ⟨test_witness_ownership_live, by decide +kernel, by decide +kernel, by decide +kernel⟩

end Sys2Proof.Tests
end

section
/-! What leaves the memory alone: one rule for each operation, handler and command that stores nothing. -/

namespace Sys2Proof.Machine

/-! ### The same memory -/

/-- `t` has the parameters and the memory of `s`. -/
structure State.SameMemory (s t : State) : Prop where
  cfg : t.cfg = s.cfg
  mem : t.mem = s.mem

theorem State.SameMemory.refl (s : State) : s.SameMemory s := ⟨rfl, rfl⟩

theorem State.SameMemory.trans {s t u : State} (h₁ : s.SameMemory t) (h₂ : t.SameMemory u) : s.SameMemory u :=
  ⟨h₂.cfg.trans h₁.cfg, h₂.mem.trans h₁.mem⟩

theorem State.raise_sameMemory (s : State) (r : FaultReason) : s.SameMemory (s.raise r) := ⟨rfl, rfl⟩

theorem State.returning_sameMemory (s : State) (r : Result) : s.SameMemory (s.returning r) := ⟨rfl, rfl⟩

theorem State.emit_sameMemory (s : State) (o : HostObs) : s.SameMemory (s.emit o) := ⟨rfl, rfl⟩

/-- A body that takes effect whole or leaves the fault mark alone. -/
theorem commit_sameMemory {s t : State} {body : Except FaultReason State}
    (hbody : ∀ u, body = .ok u → s.SameMemory u) (ht : commit s body = .next t) : s.SameMemory t := by
  rcases (commit_next _ _ _).mp ht with hok | ⟨r, -, rfl⟩
  · exact hbody t hok
  · exact s.raise_sameMemory r

theorem arm_sameMemory {s t : State} {ep : Ep} {d : Dir} {b : Bank} {ref : BufRef} {n : BitVec 10} {tg : Toggle}
    (h : arm s ep d b ref n tg = .ok t) : s.SameMemory t := by
  obtain ⟨-, rfl⟩ := (arm_ok _ _ _ _ _ _ _ _).mp h
  exact ⟨rfl, rfl⟩

theorem releaseSlot_sameMemory {s t : State} {ep : Ep} {d : Dir} {b : Bank} (h : releaseSlot s ep d b = .ok t) :
    s.SameMemory t := by
  obtain ⟨-, rfl⟩ := (releaseSlot_ok _ _ _ _ _).mp h
  exact ⟨rfl, rfl⟩

theorem State.drop_sameMemory (s : State) : s.SameMemory s.drop := by
  rw [State.drop_frame]
  exact ⟨rfl, rfl⟩

theorem State.release_sameMemory (s : State) (h : Nat) : s.SameMemory (s.release h) := by
  rw [State.release_frame]
  exact ⟨rfl, rfl⟩

theorem State.busReset_sameMemory (s : State) : s.SameMemory s.busReset := by
  rw [State.busReset_frame]
  exact ⟨rfl, rfl⟩

theorem State.reinit_sameMemory (s : State) : s.SameMemory s.reinit := by
  obtain ⟨hcfg, hmem⟩ := s.busReset_sameMemory
  exact ⟨hcfg, hmem⟩

theorem State.enqueueTx_sameMemory (s : State) (ep : Ep) (h : Nat) : s.SameMemory (s.enqueueTx ep h) := by
  rw [State.enqueueTx_eq]
  exact ⟨rfl, rfl⟩

theorem State.enqueueRx_sameMemory (s : State) (ep : Ep) (h : Nat) : s.SameMemory (s.enqueueRx ep h) := by
  rw [State.enqueueRx_eq]
  exact ⟨rfl, rfl⟩

theorem callSink_sameMemory (s : State) (f : SinkId → CollabCall) : s.SameMemory (callSink s f) := by
  unfold callSink
  split <;> exact ⟨rfl, rfl⟩

theorem acceptRx_sameMemory (s : State) (ep : Ep) (h : Nat) (n : BitVec 10) : s.SameMemory (acceptRx s ep h n) := by
  obtain ⟨hcfg, hmem⟩ := State.enqueueRx_sameMemory
    (s.setHeader h { len := n.setWidth 16, index := 0, next := none }) ep h
  exact ⟨hcfg, hmem⟩

/-! ### Submitting and completing (R160, R137, R294) -/

theorem submitPacket_sameMemory {s t : State} {ep : Ep} {h : Nat} (ht : submitPacket s ep h = .ok t) :
    s.SameMemory t := by
  unfold submitPacket at ht
  split at ht
  · split at ht
    · next u hu =>
      cases ht
      obtain ⟨hcfg, hmem⟩ := arm_sameMemory hu
      exact ⟨hcfg, hmem⟩
    · cases ht
  · cases ht
    obtain ⟨hcfg, hmem⟩ := s.enqueueTx_sameMemory ep h
    exact ⟨hcfg, hmem⟩

theorem refillTx_sameMemory {s t : State} {ep : Ep} {c : Bank} (ht : refillTx s ep c = .ok t) : s.SameMemory t := by
  unfold refillTx at ht
  split at ht
  · cases ht
    exact .refl s
  · simp only at ht
    split at ht
    · next u hu =>
      cases ht
      obtain ⟨hcfg, hmem⟩ := arm_sameMemory hu
      exact ⟨hcfg, hmem⟩
    · cases ht

theorem txDone_sameMemory {s t : State} {ep : Ep} {c : Bank} (ht : txDone s ep c = .ok t) : s.SameMemory t := by
  unfold txDone at ht
  split at ht
  · cases ht
  · next refill st _ =>
    split at ht
    · cases ht
    · cases ht
    · next h _ =>
      split at ht
      · cases ht
      · next u hu =>
        have hrel : s.SameMemory (u.release h) := (releaseSlot_sameMemory hu).trans (u.release_sameMemory h)
        split at ht
        · cases ht
        · next v hv =>
          cases ht
          have hv' : (u.release h).SameMemory v := by
            split at hv
            · exact refillTx_sameMemory hv
            · cases hv
              exact .refl _
          obtain ⟨hcfg, hmem⟩ := hrel.trans hv'
          exact ⟨hcfg, hmem⟩

theorem sendIn_sameMemory {s t : State} {ep : Ep} (ht : sendIn s ep = .ok t) : s.SameMemory t := by
  unfold sendIn at ht
  split at ht
  · cases ht
  · next bytes u hu =>
    cases ht
    obtain ⟨-, hframe, -⟩ := memRead_ok _ _ _ _ _ hu
    rw [hframe]
    exact ⟨rfl, rfl⟩

/-! ### Endpoint 0 (R185 to R191) -/

theorem armNextIn_sameMemory {s t : State} {r : Region} {off : Nat} (ht : armNextIn s r off = .ok t) :
    s.SameMemory t := by
  unfold armNextIn at ht
  simp only at ht
  split at ht
  · cases ht
  · next u hu =>
    cases ht
    obtain ⟨hcfg, hmem⟩ := arm_sameMemory hu
    exact ⟨hcfg, hmem⟩

theorem startStatusIn_sameMemory {s t : State} (ht : startStatusIn s = .ok t) : s.SameMemory t := by
  obtain ⟨hcfg, hmem⟩ := arm_sameMemory ht
  exact ⟨hcfg, hmem⟩

theorem startOut_sameMemory {s t : State} {sink : SinkId} (ht : startOut s sink = .ok t) : s.SameMemory t := by
  unfold startOut at ht
  split at ht
  · obtain ⟨hcfg, hmem⟩ := startStatusIn_sameMemory ht
    exact ⟨hcfg, hmem⟩
  · cases ht
    exact ⟨rfl, rfl⟩

/-- The stage a handler's result starts stores nothing. -/
theorem applyResult_sameMemory {s t : State} {r : HandlerResult} (ht : applyResult s r = .ok t) : s.SameMemory t := by
  cases r with
  | stall =>
    cases ht
    exact ⟨rfl, rfl⟩
  | dataIn r off len =>
    obtain ⟨hcfg, hmem⟩ := armNextIn_sameMemory ht
    exact ⟨hcfg, hmem⟩
  | dataOut sink => exact startOut_sameMemory ht
  | noData => exact startStatusIn_sameMemory ht

theorem ep0InDone_sameMemory {s t : State} {c : Bank} (ht : ep0InDone s c = .ok t) : s.SameMemory t := by
  unfold ep0InDone at ht
  split at ht
  · cases ht
  · split at ht
    · cases ht
    · next u hu =>
      obtain ⟨hcfg, hmem⟩ := releaseSlot_sameMemory hu
      simp only at ht
      split at ht
      · split at ht
        · obtain ⟨hcfg', hmem'⟩ := armNextIn_sameMemory ht
          exact ⟨hcfg'.trans hcfg, hmem'.trans hmem⟩
        · cases ht
          exact ⟨hcfg, hmem⟩
      · split at ht <;>
        · cases ht
          exact ⟨hcfg, hmem⟩
      all_goals
        cases ht
        exact ⟨hcfg, hmem⟩

theorem dataOutPacket_sameMemory {s t : State} {data : List Byte} (ht : dataOutPacket s data = .ok t) :
    s.SameMemory t := by
  unfold dataOutPacket at ht
  simp only at ht
  obtain ⟨hcfg, hmem⟩ := callSink_sameMemory s (fun sink => .sinkWrite sink s.ep0out.received
    (data.take (min data.length (s.setup.wLength.toNat - s.ep0out.received.toNat))))
  split at ht
  · obtain ⟨hcfg', hmem'⟩ := (callSink_sameMemory _ _).trans (startStatusIn_sameMemory ht)
    exact ⟨hcfg'.trans hcfg, hmem'.trans hmem⟩
  · cases ht
    exact ⟨hcfg, hmem⟩

theorem ep0OutDone_sameMemory {s t : State} {b : Bank} {n : BitVec 10} (ht : ep0OutDone s b n = .ok t) :
    s.SameMemory t := by
  unfold ep0OutDone at ht
  split at ht
  · cases ht
  · split at ht
    · cases ht
    · next u hu =>
      obtain ⟨hcfg, hmem⟩ := arm_sameMemory hu
      split at ht
      · exact (arm_sameMemory hu).trans (dataOutPacket_sameMemory ht)
      all_goals
        cases ht
        exact ⟨hcfg, hmem⟩

/-! ### Request handlers that store nothing (R226 to R228) -/

/-- The handlers that answer with a descriptor store nothing (R228). -/
theorem getDescriptor_sameMemory {v w : Half} {s t : State} {r : HandlerResult}
    (ht : getDescriptor v w s = .ok (t, r)) : s.SameMemory t := by
  unfold getDescriptor at ht
  split at ht
  · cases ht
    exact .refl s
  · split at ht
    · cases ht
    · cases ht
      exact ⟨rfl, rfl⟩

theorem handleClearFeatureEndpoint_sameMemory {v w : Half} {s t : State} {r : HandlerResult}
    (ht : handleClearFeatureEndpoint v w s = .ok (t, r)) : s.SameMemory t := by
  unfold handleClearFeatureEndpoint at ht
  split at ht
  · cases ht
    exact .refl s
  · split at ht <;> cases ht <;> exact ⟨rfl, rfl⟩

theorem handleSetFeatureEndpoint_sameMemory {v w : Half} {s t : State} {r : HandlerResult}
    (ht : handleSetFeatureEndpoint v w s = .ok (t, r)) : s.SameMemory t := by
  unfold handleSetFeatureEndpoint at ht
  split at ht
  · cases ht
    exact .refl s
  · split at ht <;> cases ht <;> exact ⟨rfl, rfl⟩

/-! ### The commands that store nothing -/

theorem execFree_sameMemory {h : Half} {s t : State} (ht : execFree h s = .next t) : s.SameMemory t := by
  obtain ⟨-, ht⟩ := (whenAlive_next _ _ _).mp ht
  split at ht <;> cases ht
  · exact (s.release_sameMemory _).trans (State.returning_sameMemory _ _)
  · exact s.raise_sameMemory _

theorem execTx_sameMemory {ep : Ep} {h : Half} {s t : State} (ht : execTx ep h s = .next t) : s.SameMemory t := by
  obtain ⟨-, ht⟩ := (whenAlive_next _ _ _).mp ht
  split at ht
  · cases ht
    exact s.returning_sameMemory _
  split at ht
  · cases ht
    exact s.raise_sameMemory _
  split at ht
  · cases ht
    exact s.raise_sameMemory _
  split at ht
  · cases ht
    exact s.returning_sameMemory _
  · refine commit_sameMemory (fun u hu => ?_) ht
    split at hu <;> cases hu
    next v hv => exact (submitPacket_sameMemory hv).trans (v.returning_sameMemory _)

theorem execRx_sameMemory {ep : Ep} {s t : State} (ht : execRx ep s = .next t) : s.SameMemory t := by
  obtain ⟨-, ht⟩ := (whenAlive_next _ _ _).mp ht
  split at ht
  · cases ht
    exact s.returning_sameMemory _
  split at ht
  · cases ht
    exact s.returning_sameMemory _
  split at ht <;> cases ht
  · exact s.returning_sameMemory _
  · exact ⟨rfl, rfl⟩

theorem returnCount_sameMemory {ep : Ep} {n : Word} {s t : State} (ht : returnCount s ep n = .next t) :
    s.SameMemory t := by
  obtain ⟨-, ht⟩ := (whenAlive_next _ _ _).mp ht
  split at ht <;> cases ht <;> exact s.returning_sameMemory _

theorem execPktRead_sameMemory {h : Half} {s t : State} (ht : execPktRead h s = .next t) : s.SameMemory t := by
  obtain ⟨-, ht⟩ := (whenAlive_next _ _ _).mp ht
  split at ht
  · cases ht
    exact s.raise_sameMemory _
  · refine commit_sameMemory (fun u hu => ?_) ht
    split at hu <;> cases hu
    exact s.returning_sameMemory _

theorem execHostIn_sameMemory {ep : Ep} {a : BitVec 7} {s t : State} (ht : execHostIn ep a s = .next t) :
    s.SameMemory t := by
  obtain ⟨-, ht⟩ := (whenAlive_next _ _ _).mp ht
  split at ht
  · split at ht
    · cases ht
      exact s.emit_sameMemory _
    · split at ht
      · exact commit_sameMemory (fun u hu => sendIn_sameMemory hu) ht
      · cases ht
        exact .refl s
  · cases ht
    exact .refl s

theorem execInit_sameMemory {s t : State} (ht : execInit s = .next t) : s.SameMemory t := by
  obtain ⟨-, ht⟩ := (whenAlive_next _ _ _).mp ht
  cases ht
  exact s.busReset_sameMemory.trans ⟨rfl, rfl⟩

theorem execReinit_sameMemory {s t : State} (ht : execReinit s = .next t) : s.SameMemory t := by
  obtain ⟨-, ht⟩ := (whenAlive_next _ _ _).mp ht
  cases ht
  exact s.reinit_sameMemory.trans (s.reinit.returning_sameMemory _)

theorem execHostBusReset_sameMemory {s t : State} (ht : execHostBusReset s = .next t) : s.SameMemory t := by
  obtain ⟨-, ht⟩ := (whenAlive_next _ _ _).mp ht
  split at ht <;> cases ht
  · exact s.busReset_sameMemory
  · exact .refl s

theorem execConfigured_sameMemory {s t : State} (ht : execConfigured s = .next t) : s.SameMemory t := by
  obtain ⟨-, ht⟩ := (whenAlive_next _ _ _).mp ht
  cases ht
  exact s.returning_sameMemory _

theorem execDeviceReload_sameMemory {s t : State} (ht : execDeviceReload s = .next t) : s.SameMemory t := by
  obtain ⟨-, ht⟩ := (whenAlive_next _ _ _).mp ht
  cases ht
  exact ⟨rfl, rfl⟩

end Sys2Proof.Machine
end

section
/-! Stores that stay within a set of bytes. `s.StoresWithin t F` says that the memory of `t` is that of `s` but for
bytes of `F`, and that the canonical form is kept; every shared operation that stores gets its rule once. -/

namespace Sys2Proof.Machine

/-! ### Sets of bytes -/

/-- A set of bytes, each named by its buffer and its offset there. -/
abbrev ByteSet := Set (Buffer × Nat)

/-- The bytes `off .. off+n-1` of a buffer. -/
def byteRun (b : Buffer) (off n : Nat) : ByteSet := {x | x.1 = b ∧ off ≤ x.2 ∧ x.2 < off + n}

/-- The bytes of the free packets. -/
def State.freeBytes (s : State) : ByteSet := {x | ∃ h, x.1 = .pool h ∧ s.isFree h = true}

/-- The bytes of the packets that are free, or in a slot or a FIFO of a data endpoint: those SET_CONFIGURATION can take
(R261, R262, R264). -/
def State.recyclableBytes (s : State) : ByteSet :=
  {x | ∃ h, x.1 = .pool h ∧ (s.isFree h = true ∨ s.inTransit h = true)}

/-- The bytes a transaction of `n` bytes received by a slot stores. -/
def slotBytes (x : Slot) (n : Nat) : ByteSet :=
  {y | ∃ b off, refTarget x.addr = some (b, off) ∧ y ∈ byteRun b off n}

theorem State.freeBytes_subset_recyclable (s : State) : s.freeBytes ⊆ s.recyclableBytes :=
  fun _ ⟨h, hx, hf⟩ => ⟨h, hx, .inl hf⟩

/-- A packet is in transit when a slot of a data endpoint holds it or a FIFO of one queues it. -/
theorem State.inTransit_iff (s : State) (h : Nat) :
    s.inTransit h = true ↔
      s.heldBy (dataEps s.cfg) h ∨ ∃ ep ∈ dataEps s.cfg, h ∈ epGet s.rxq ep ∨ h ∈ epGet s.txq ep := by
  have hslots (ep : Ep) : ([Dir.rx, Dir.tx].any fun d => [Bank.even, Bank.odd].any fun b =>
      decide ((s.slot ep d b).addr = .pool h)) = true ↔ ∃ d b, (s.slot ep d b).addr = .pool h := by
    simp only [List.any_eq_true, decide_eq_true_eq]
    exact ⟨fun ⟨d, _, b, _, hb⟩ => ⟨d, b, hb⟩,
      fun ⟨d, b, hb⟩ => ⟨d, mem_bothDirs d, b, mem_bothBanks b, hb⟩⟩
  simp only [State.inTransit, List.any_eq_true (l := dataEps s.cfg), Bool.or_eq_true, List.contains_iff_mem, hslots,
    State.heldBy]
  constructor
  · rintro ⟨ep, he, hq | hs⟩
    · exact .inr ⟨ep, he, hq⟩
    · exact .inl ⟨ep, he, hs⟩
  · rintro (⟨ep, he, hs⟩ | ⟨ep, he, hq⟩)
    · exact ⟨ep, he, .inr hs⟩
    · exact ⟨ep, he, .inl hq⟩

/-- The recyclable packets depend on the free mask, the FIFOs and the slots of the data endpoints alone. -/
theorem State.recyclableBytes_congr (s t : State) (hcfg : t.cfg = s.cfg) (hfree : t.free = s.free)
    (hrxq : t.rxq = s.rxq) (htxq : t.txq = s.txq)
    (hslot : ∀ ep : Ep, ep ≠ 0 → ∀ d b, t.slot ep d b = s.slot ep d b) : t.recyclableBytes = s.recyclableBytes := by
  have hheld (h : Nat) : t.heldBy (dataEps s.cfg) h ↔ s.heldBy (dataEps s.cfg) h := by
    refine exists_congr fun ep => and_congr_right fun he => ?_
    simp only [hslot ep (isDataEp_ne_zero s.cfg ep ((mem_dataEps _ _).mp he))]
  ext x
  simp only [State.recyclableBytes, State.inTransit_iff, State.isFree, hcfg, hfree, hrxq, htxq, hheld]

/-! ### Stores within a set of bytes -/

/-- The memory of `t` is that of `s` but for bytes of `F`, and canonical if that of `s` is. Bytes past the end of a
buffer's block belong to another buffer, so an offset in `F` counts only below `blockSize`. -/
structure State.StoresWithin (s t : State) (F : ByteSet) : Prop where
  cfg : t.cfg = s.cfg
  canonical : s.MemoryCanonical → t.MemoryCanonical
  outside : ∀ a, (∀ x ∈ F, x.2 < blockSize s.cfg → a ≠ bufferKey s.cfg x.1 x.2) →
    readByte t.cfg t.mem a = readByte s.cfg s.mem a

theorem State.SameMemory.storesWithin {s t : State} (h : s.SameMemory t) (F : ByteSet) : s.StoresWithin t F where
  cfg := h.cfg
  canonical hs := by
    rw [State.MemoryCanonical, h.cfg, h.mem]
    exact hs
  outside a _ := by rw [h.cfg, h.mem]

theorem State.StoresWithin.refl (s : State) (F : ByteSet) : s.StoresWithin s F :=
  (State.SameMemory.refl s).storesWithin F

theorem State.StoresWithin.trans {s t u : State} {F : ByteSet} (h₁ : s.StoresWithin t F) (h₂ : t.StoresWithin u F) :
    s.StoresWithin u F where
  cfg := h₂.cfg.trans h₁.cfg
  canonical hs := h₂.canonical (h₁.canonical hs)
  outside a ha := (h₂.outside a (h₁.cfg ▸ ha)).trans (h₁.outside a ha)

theorem State.StoresWithin.mono {s t : State} {F G : ByteSet} (h : s.StoresWithin t F) (hFG : F ⊆ G) :
    s.StoresWithin t G where
  cfg := h.cfg
  canonical := h.canonical
  outside a ha := h.outside a fun x hx => ha x (hFG hx)

/-- A store followed by operations that store nothing. -/
theorem State.StoresWithin.then_same {s t u : State} {F : ByteSet} (h₁ : s.StoresWithin t F) (h₂ : t.SameMemory u) :
    s.StoresWithin u F :=
  h₁.trans (h₂.storesWithin F)

/-- Operations that store nothing followed by a store. -/
theorem State.SameMemory.then_stores {s t u : State} {F : ByteSet} (h₁ : s.SameMemory t) (h₂ : t.StoresWithin u F) :
    s.StoresWithin u F :=
  (h₁.storesWithin F).trans h₂

/-- A run put into a buffer stores that run. -/
theorem State.putBytes_storesWithin (s : State) (b : Buffer) (off : Nat) (bs : List Byte)
    (hfit : off + bs.length ≤ blockSize s.cfg) : s.StoresWithin (s.putBytes b off bs) (byteRun b off bs.length) where
  cfg := rfl
  canonical := s.wf_putBytes b off bs
  outside a ha := by
    refine readByte_writeBytes_other s.cfg bs s.mem (bufferKey s.cfg b off) a ?_
    by_contra hin
    have hoff : off + (a - bufferKey s.cfg b off) < off + bs.length := by omega
    refine ha (b, off + (a - bufferKey s.cfg b off)) ⟨rfl, Nat.le_add_right _ _, hoff⟩ (by simp only; omega) ?_
    simp only [bufferKey] at hin ⊢
    omega

theorem State.writeBuffer_storesWithin {s t : State} {b : Buffer} {off : Nat} {bs : List Byte}
    (h : s.writeBuffer b off bs = .ok t) : s.StoresWithin t (byteRun b off bs.length) := by
  obtain ⟨hfit, rfl⟩ := (State.writeBuffer_ok _ _ _ _ _).mp h
  exact s.putBytes_storesWithin b off bs (hfit.trans (bufferLen_le _ _))

/-- A byte of a buffer outside the stored set reads as before. -/
theorem State.StoresWithin.byteAt {s t : State} {F : ByteSet} (h : s.StoresWithin t F) {b : Buffer} {k : Nat}
    (hk : k < bufferLen s.cfg b) (hF : (b, k) ∉ F) : t.byteAt b k = s.byteAt b k := by
  have hkb : k < blockSize s.cfg := hk.trans_le (bufferLen_le _ _)
  rw [State.byteAt, State.byteAt, h.cfg, ← h.outside, h.cfg]
  intro x hx hxb hkey
  obtain ⟨rfl, rfl⟩ := bufferKey_inj _ _ _ _ _ hkb hxb hkey
  exact hF hx

/-- Where nothing is stored every byte reads as before, past the ends of the buffers too. -/
theorem State.StoresWithin.byteAt_of_empty {s t : State} (h : s.StoresWithin t ∅) (b : Buffer) (k : Nat) :
    t.byteAt b k = s.byteAt b k := by
  rw [State.byteAt, State.byteAt, h.cfg, ← h.outside _ fun x hx => hx.elim, h.cfg]

/-- A body that takes effect whole or leaves the fault mark alone stores what the body stores. -/
theorem commit_storesWithin {s t : State} {body : Except FaultReason State} {F : ByteSet}
    (hbody : ∀ u, body = .ok u → s.StoresWithin u F) (ht : commit s body = .next t) : s.StoresWithin t F := by
  rcases (commit_next _ _ _).mp ht with hok | ⟨r, -, rfl⟩
  · exact hbody t hok
  · exact (s.raise_sameMemory r).storesWithin F

/-! ### Taking packets (R110, R140, R264) -/

theorem packetSize_le_blockSize (c : Params) : Config.packetSize ≤ blockSize c := by
  unfold blockSize
  omega

theorem State.claim_storesWithin (s : State) (i : Nat) :
    s.StoresWithin (s.claim i) (byteRun (.pool i) 0 Config.packetSize) := by
  have hheader : s.SameMemory
      (((s.setFree i false).setOwner i .caller).setHeader i { len := 0, index := 0, next := none }) := ⟨rfl, rfl⟩
  unfold State.claim
  split
  · have hput := State.putBytes_storesWithin
      (((s.setFree i false).setOwner i .caller).setHeader i { len := 0, index := 0, next := none })
      (.pool i) 0 (List.replicate Config.packetSize 0) (by simpa using packetSize_le_blockSize s.cfg)
    rw [List.length_replicate] at hput
    exact hheader.then_stores hput
  · exact hheader.storesWithin _

/-- ALLOC stores bytes of the packet it takes alone (R110). -/
theorem allocPacket_storesWithin {s t : State} {p : Nat} (h : allocPacket s = some (p, t)) :
    s.StoresWithin t (byteRun (.pool p) 0 Config.packetSize) := by
  obtain ⟨-, rfl, rfl⟩ := (allocPacket_some _ _ _).mp h
  exact s.drop_sameMemory.then_stores (s.drop.claim_storesWithin s.pick)

theorem allocPacket_storesFree {s t : State} {p : Nat} (h : allocPacket s = some (p, t)) :
    s.StoresWithin t s.freeBytes :=
  (allocPacket_storesWithin h).mono fun _ hx => ⟨p, hx.1, (allocPacket_frame _ _ _ h).1⟩

/-- Taking a packet frees none. -/
theorem allocPacket_isFree {s t : State} {p h : Nat} (ht : allocPacket s = some (p, t)) (hf : t.isFree h = true) :
    s.isFree h = true := by
  obtain ⟨hp, hframe⟩ := allocPacket_frame _ _ _ ht
  have hset : t.isFree h = (s.setFree p false).isFree h := by rw [hframe]; rfl
  rw [hset, State.isFree_setFree _ _ _ _ (s.isFree_lt p hp)] at hf
  split at hf
  · cases hf
  · exact hf

theorem refillRx_storesWithin {s t : State} {ep : Ep} {b : Bank} (ht : refillRx s ep b = .ok t) :
    s.StoresWithin t s.freeBytes := by
  unfold refillRx at ht
  split at ht
  · next p u hu =>
    split at ht
    · next v hv =>
      cases ht
      exact (allocPacket_storesFree hu).then_same ((arm_sameMemory hv).trans ⟨rfl, rfl⟩)
    · cases ht
  · split at ht
    · next u hu =>
      cases ht
      obtain ⟨hcfg, hmem⟩ := releaseSlot_sameMemory hu
      exact State.SameMemory.storesWithin (t := { u with rxNeeded := u.rxNeeded + 1 }) ⟨hcfg, hmem⟩ _
    · cases ht

/-- Queueing a received packet frees none and takes none. -/
theorem acceptRx_freeBytes (s : State) (ep : Ep) (h : Nat) (n : BitVec 10) :
    (acceptRx s ep h n).freeBytes = s.freeBytes := by
  have hfree : (acceptRx s ep h n).free = s.free := by
    simp only [acceptRx, State.enqueueRx_eq, State.setRxBytes_free, State.setOwner_free, State.setHeader_free]
  simp only [State.freeBytes, State.isFree, hfree]

/-- An RX completion stores bytes of the packet it refills the slot with alone (R140). -/
theorem rxDone_storesWithin {s t : State} {ep : Ep} {b : Bank} {n : BitVec 10} (ht : rxDone s ep b n = .ok t) :
    s.StoresWithin t s.freeBytes := by
  unfold rxDone at ht
  split at ht
  · cases ht
  · cases ht
  · next h _ =>
    split at ht
    · exact (acceptRx_sameMemory s ep h n).then_stores (acceptRx_freeBytes s ep h n ▸ refillRx_storesWithin ht)
    · exact (arm_sameMemory ht).storesWithin _

/-- Seeding a slot stores bytes of free packets alone, and frees no packet (R264). -/
theorem seedSlot_storesWithin {s t : State} {ep : Ep} {b : Bank} (ht : seedSlot s ep b = .ok t) :
    s.StoresWithin t s.freeBytes ∧ t.freeBytes ⊆ s.freeBytes := by
  unfold seedSlot at ht
  split at ht
  · next p u hu =>
    split at ht
    · next v hv =>
      cases ht
      obtain ⟨-, rfl⟩ := (arm_ok _ _ _ _ _ _ _ _).mp hv
      exact ⟨(allocPacket_storesFree hu).then_same ⟨rfl, rfl⟩,
        fun _ ⟨h, hx, hf⟩ => ⟨h, hx, allocPacket_isFree hu hf⟩⟩
    · cases ht
  · cases ht
    exact ⟨State.SameMemory.storesWithin (s := s) (t := { s with rxNeeded := s.rxNeeded + 1 }) ⟨rfl, rfl⟩ _, subset_rfl⟩

theorem seedSlots_storesWithin {l : List (Ep × Bank)} {s t : State} (ht : seedSlots l s = .ok t) :
    s.StoresWithin t s.freeBytes := by
  induction l generalizing s with
  | nil =>
    cases ht
    exact .refl _ _
  | cons x l ih =>
    rw [seedSlots] at ht
    split at ht
    · next u hu =>
      obtain ⟨hstores, hsub⟩ := seedSlot_storesWithin hu
      exact hstores.trans ((ih ht).mono hsub)
    · cases ht

/-- The free mask after steps 1 to 6 of R260 is the one the two reclaims leave. -/
theorem State.unseeded_free (s : State) (v : Byte) :
    (s.unseeded v).free = ((dataEps s.cfg).foldl State.drainEp ((dataEps s.cfg).foldl State.reclaimEp
      { s with config := v, rxNeeded := 0 })).free := by
  have hcfg : ({ s with config := v, rxNeeded := 0 } : State).reclaimSlots.cfg = s.cfg := by
    rw [State.reclaimSlots_frame]
  rw [State.unseeded, (State.foldl_configureEp _ _ (nodup_dataEps _)).1, State.drainQueues, hcfg]
  rfl

/-- A packet that is free after the slots and the FIFOs of a list of endpoints have been emptied was free, in one of the
slots or in one of the FIFOs (R261, R262). -/
theorem State.isFree_of_reclaimed (s : State) (l : List Ep) (hl : l.Nodup) (h : Nat)
    (hf : (l.foldl State.drainEp (l.foldl State.reclaimEp s)).isFree h = true) :
    s.isFree h = true ∨ s.heldBy l h ∨ ∃ ep ∈ l, h ∈ epGet s.rxq ep ∨ h ∈ epGet s.txq ep := by
  obtain ⟨reclaimLen, -, reclaimFree, -⟩ := s.pool_foldl_reclaimEp l h hl
  obtain ⟨drainLen, -, drainFree, -⟩ := (l.foldl State.reclaimEp s).pool_foldl_drainEp l h hl
  have hlt : h < (l.foldl State.reclaimEp s).free.length := drainLen ▸ State.isFree_lt _ _ hf
  have hrxq : (l.foldl State.reclaimEp s).rxq = s.rxq := by rw [State.foldl_reclaimEp_frame]
  have htxq : (l.foldl State.reclaimEp s).txq = s.txq := by rw [State.foldl_reclaimEp_frame]
  rw [drainFree hlt, reclaimFree (reclaimLen ▸ hlt), hrxq, htxq, or_assoc] at hf
  exact hf

/-- What is free once SET_CONFIGURATION has taken its packets back was free or in transit (R260). -/
theorem State.freeBytes_unseeded (s : State) (v : Byte) : (s.unseeded v).freeBytes ⊆ s.recyclableBytes := by
  rintro x ⟨h, hx, hf⟩
  rw [State.isFree, State.unseeded_free] at hf
  refine ⟨h, hx, ?_⟩
  rw [State.inTransit_iff]
  exact State.isFree_of_reclaimed { s with config := v, rxNeeded := 0 } (dataEps s.cfg) (nodup_dataEps _) h hf

theorem State.unseeded_sameMemory (s : State) (v : Byte) : s.SameMemory (s.unseeded v) := by
  rw [(s.unseeded_spec v).1]
  exact ⟨rfl, rfl⟩

/-- SET_CONFIGURATION's Reconfigure stores bytes of packets that were free or in transit alone (R260). -/
theorem reconfigure_storesWithin {s t : State} {v : Byte} (ht : reconfigure s v = .ok t) :
    s.StoresWithin t s.recyclableBytes := by
  rw [reconfigure_eq] at ht
  exact (s.unseeded_sameMemory v).then_stores ((seedSlots_storesWithin ht).mono (s.freeBytes_unseeded v))

/-! ### Power negotiation (R272) -/

/-- The bytes of all descriptors. -/
def descriptorBytes : ByteSet := {x | ∃ d, x.1 = .region (.desc d)}

theorem lowerEntry_storesWithin {s t : State} {k : Nat} (ht : lowerEntry s k = .ok t) :
    s.StoresWithin t descriptorBytes := by
  unfold lowerEntry at ht
  split at ht
  · cases ht
    exact .refl _ _
  · split at ht
    · exact (State.writeBuffer_storesWithin ht).mono fun _ hx => ⟨k, hx.1⟩
    · cases ht
      exact .refl _ _

theorem lowerEntries_storesWithin {l : List Nat} {s t : State} (ht : lowerEntries l s = .ok t) :
    s.StoresWithin t descriptorBytes := by
  induction l generalizing s with
  | nil =>
    cases ht
    exact .refl _ _
  | cons k l ih =>
    rw [lowerEntries] at ht
    split at ht
    · next u hu => exact (lowerEntry_storesWithin hu).trans (ih ht)
    · cases ht

theorem lowerPower_storesWithin {s t : State} (ht : lowerPower s = .ok t) : s.StoresWithin t descriptorBytes := by
  unfold lowerPower at ht
  split at ht
  · next u hu =>
    cases ht
    exact (lowerEntries_storesWithin hu).then_same ⟨rfl, rfl⟩
  · cases ht

/-! ### The SIE's stores (R292, R293) -/

theorem memWrite_storesWithin {s t : State} {x : Slot} {bs : List Byte} (ht : memWrite s x.addr bs = .ok t) :
    s.StoresWithin t (slotBytes x bs.length) := by
  obtain ⟨b, off, htarget, hfit, rfl⟩ := (memWrite_ok _ _ _ _).mp ht
  exact (s.putBytes_storesWithin b off bs (hfit.trans (bufferLen_le _ _))).mono fun _ hy => ⟨b, off, htarget, hy⟩

theorem receiveOut_storesWithin {s t : State} {ep : Ep} {data : List Byte} (ht : receiveOut s ep data = .ok t) :
    s.StoresWithin t (slotBytes (s.nextSlot ep .rx) data.length) := by
  unfold receiveOut at ht
  split at ht
  · cases ht
  · next u hu =>
    cases ht
    exact (memWrite_storesWithin hu).then_same ⟨rfl, rfl⟩

end Sys2Proof.Machine
end

section
/-! What each instruction can store (`storedBytes`, `exec_storesWithin`), and the three memory statements. -/

namespace Sys2Proof.Machine

/-! ### What each instruction stores -/

/-- The bytes an instruction can store when it is executed in a state. -/
def storedBytes (s : State) : Instr → ByteSet
  | .alloc => byteRun (.pool s.pick) 0 Config.packetSize
  | .pktFill h data => byteRun (.pool (handleId h)) 0 data.length
  | .powerTimeout => descriptorBytes
  | .hostSetup _ _ => slotBytes (s.nextSlot 0 .rx) 8
  | .hostOut ep _ data => slotBytes (s.nextSlot ep .rx) data.length
  | .getStatusDevice _ _ _ | .getStatusEndpoint _ _ _ => byteRun (.region .reply) 0 2
  | .getConfiguration _ _ _ | .hidGetIdle _ _ _ | .hidGetProtocol _ _ _ => byteRun (.region .reply) 0 1
  | .setConfiguration _ _ _ => s.recyclableBytes
  | .tokenDone => {x | x.1 = .region .reply} ∪ s.recyclableBytes
  | .init | .free _ | .tx _ _ | .rx _ | .txByteCount _ | .txPacketCount _ | .rxByteCount _ | .configured | .reinit
  | .deviceReload | .pktRead _ | .hostIn _ _ | .hostBusReset | .clearFeatureEndpoint _ _ _
  | .setFeatureEndpoint _ _ _ | .setAddress _ _ _ | .getDescriptorDevice _ _ _ | .getDescriptorInterface _ _ _
  | .hidGetReport _ _ _ | .hidSetReport _ _ _ | .hidSetIdle _ _ _ | .hidSetProtocol _ _ _
  | .cdcSetLineCoding _ _ _ | .cdcGetLineCoding _ _ _ | .cdcSetControlLineState _ _ _ => ∅

/-! ### Request handlers (R184) -/

theorem State.reply_storesWithin (s : State) (bs : List Byte) (h : bs.length ≤ 8) :
    s.StoresWithin (s.reply bs) (byteRun (.region .reply) 0 bs.length) :=
  s.putBytes_storesWithin _ _ _ (by
    have := bufferLen_le s.cfg (.region .reply)
    simp only [bufferLen] at this
    omega)

theorem handleGetStatusEndpoint_storesWithin {w : Half} {s t : State} {r : HandlerResult}
    (ht : handleGetStatusEndpoint w s = .ok (t, r)) : s.StoresWithin t (byteRun (.region .reply) 0 2) := by
  unfold handleGetStatusEndpoint at ht
  split at ht <;> cases ht
  · exact .refl _ _
  · exact State.reply_storesWithin _ _ (by simp)

theorem handleSetConfiguration_storesWithin {v : Half} {s t : State} {r : HandlerResult}
    (ht : handleSetConfiguration v s = .ok (t, r)) : s.StoresWithin t s.recyclableBytes := by
  unfold handleSetConfiguration at ht
  split at ht
  · next u hu =>
    cases ht
    exact reconfigure_storesWithin hu
  · cases ht

/-- A handler that takes a collaborator's answer and puts it at the start of REPLY (R235, R236). -/
theorem State.replyAnswer_storesWithin (s : State) (c : CollabCall) (x : Byte) :
    s.StoresWithin ((s.drop.call c).reply [x]) (byteRun (.region .reply) 0 1) := by
  have hcall : s.SameMemory (s.drop.call c) := s.drop_sameMemory.trans ⟨rfl, rfl⟩
  exact hcall.then_stores (State.reply_storesWithin _ [x] (by simp))

/-- The handler of a request stores the bytes listed for the request. -/
theorem requestHandler_storesWithin {i : Instr} {s t : State} {r : HandlerResult}
    (ht : requestHandler i s = .ok (t, r)) : s.StoresWithin t (storedBytes s i) := by
  cases i with
  | getStatusDevice =>
    cases ht
    exact s.reply_storesWithin _ (by simp)
  | getConfiguration =>
    cases ht
    exact s.reply_storesWithin _ (by simp)
  | getStatusEndpoint => exact handleGetStatusEndpoint_storesWithin ht
  | setConfiguration => exact handleSetConfiguration_storesWithin ht
  | hidGetIdle =>
    cases ht
    exact s.replyAnswer_storesWithin _ _
  | hidGetProtocol =>
    cases ht
    exact s.replyAnswer_storesWithin _ _
  | clearFeatureEndpoint => exact (handleClearFeatureEndpoint_sameMemory ht).storesWithin _
  | setFeatureEndpoint => exact (handleSetFeatureEndpoint_sameMemory ht).storesWithin _
  | getDescriptorDevice | getDescriptorInterface => exact (getDescriptor_sameMemory ht).storesWithin _
  | hidGetReport =>
    cases ht
    exact (s.drop_sameMemory.storesWithin _).then_same ⟨rfl, rfl⟩
  | _ =>
    cases ht
    refine State.SameMemory.storesWithin ?_ _
    exact ⟨rfl, rfl⟩

/-- Every request stores bytes of REPLY or of recyclable packets alone. -/
theorem storedBytes_request_subset (s : State) (i : Instr) (hi : i.isCommand = false) :
    storedBytes s i ⊆ storedBytes s .tokenDone := by
  cases i with
  | getStatusDevice | getStatusEndpoint | getConfiguration | hidGetIdle | hidGetProtocol =>
    exact fun x hx => .inl hx.1
  | setConfiguration => exact Set.subset_union_right
  | alloc | pktFill | powerTimeout | hostSetup | hostOut | tokenDone => cases hi
  | _ => exact Set.empty_subset _

/-! ### The SETUP stage (R183) -/

/-- Starting a SETUP leaves the recyclable packets, and so what a request can store, as they were. -/
theorem storedBytes_beginSetup (s : State) (p : SetupPacket) (i : Instr) (hi : i.isCommand = false) :
    storedBytes (s.beginSetup p) i = storedBytes s i := by
  have hrec : (s.beginSetup p).recyclableBytes = s.recyclableBytes := by
    refine s.recyclableBytes_congr _ rfl rfl rfl rfl fun ep hep d b => ?_
    rw [State.slot_beginSetup, if_neg fun h => hep h.1]
  cases i with
  | setConfiguration => exact hrec
  | hostSetup | hostOut | tokenDone => cases hi
  | _ => rfl

/-- A SETUP stage stores what its handler stores. -/
theorem setupStage_storesWithin {p : SetupPacket} {h : Handler} {s t : State} {F : ByteSet}
    (hh : ∀ u r, h (s.beginSetup p) = .ok (u, r) → (s.beginSetup p).StoresWithin u F)
    (ht : setupStage p h s = .ok t) : s.StoresWithin t F := by
  unfold setupStage at ht
  split at ht
  · cases ht
  · next u r hu =>
    split at ht
    · cases ht
    · next v hv =>
      cases ht
      have hbegin : s.SameMemory (s.beginSetup p) := ⟨rfl, rfl⟩
      exact (hbegin.then_stores (hh u r hu)).then_same ((applyResult_sameMemory hv).trans ⟨rfl, rfl⟩)

/-- The SETUP stage of a request stores the bytes listed for the request. -/
theorem requestStage_storesWithin {p : SetupPacket} {i : Instr} {s t : State} (hi : i.isCommand = false)
    (ht : setupStage p (requestHandler i) s = .ok t) : s.StoresWithin t (storedBytes s i) :=
  setupStage_storesWithin
    (fun _ _ hu => storedBytes_beginSetup s p i hi ▸ requestHandler_storesWithin hu) ht

/-- What R94's table decodes to is a request. -/
theorem decodeRequest_isCommand {p : SetupPacket} {i : Instr} (h : decodeRequest p = some i) : i.isCommand = false := by
  unfold decodeRequest at h
  split at h <;> cases h <;> rfl

/-- Whatever its packet asks for, a SETUP stage stores bytes of REPLY and of recyclable packets alone. -/
theorem dispatchedStage_storesWithin {p : SetupPacket} {s t : State}
    (ht : setupStage p (dispatchRequest p) s = .ok t) : s.StoresWithin t (storedBytes s .tokenDone) := by
  unfold dispatchRequest at ht
  split at ht
  · next i hi =>
    have hreq := decodeRequest_isCommand hi
    exact (requestStage_storesWithin hreq ht).mono (storedBytes_request_subset s i hreq)
  · refine setupStage_storesWithin (fun u r hu => ?_) ht
    cases hu
    exact .refl _ _

/-! ### TOKEN_DONE (R136, R182) -/

theorem ep0Setup_storesWithin {s t : State} {b : Bank} (ht : ep0Setup s b = .ok t) :
    s.StoresWithin t (storedBytes s .tokenDone) := by
  unfold ep0Setup at ht
  split at ht
  · cases ht
  · split at ht
    · cases ht
    · split at ht
      · cases ht
      · next u hu =>
        have hrec : u.recyclableBytes = s.recyclableBytes := by
          obtain ⟨-, rfl⟩ := (arm_ok _ _ _ _ _ _ _ _).mp hu
          refine s.recyclableBytes_congr _ rfl rfl rfl rfl fun ep hep d b => ?_
          exact State.slot_setSlot_other _ _ _ _ _ _ _ _ fun h => hep h.1
        have hstored : storedBytes u .tokenDone = storedBytes s .tokenDone := by
          rw [storedBytes, hrec, storedBytes]
        exact (arm_sameMemory hu).then_stores (hstored ▸ dispatchedStage_storesWithin ht)

theorem ep0Token_storesWithin {s t : State} {d : Dir} {b : Bank} {p : Pid} {n : BitVec 10}
    (ht : ep0Token s d b p n = .ok t) : s.StoresWithin t (storedBytes s .tokenDone) := by
  unfold ep0Token at ht
  split at ht
  · exact ep0Setup_storesWithin ht
  · exact (ep0OutDone_sameMemory ht).storesWithin _
  · exact (ep0InDone_sameMemory ht).storesWithin _
  all_goals cases ht

theorem handleEntry_storesWithin {s t : State} {e : StatEntry} (ht : handleEntry s e = .ok t) :
    s.StoresWithin t (storedBytes s .tokenDone) := by
  unfold handleEntry at ht
  simp only at ht
  split at ht
  · cases ht
  · split at ht
    · cases ht
    · split at ht
      · cases ht
      · split at ht
        · exact ep0Token_storesWithin ht
        · split at ht
          · exact (txDone_sameMemory ht).storesWithin _
          · exact (rxDone_storesWithin ht).mono (s.freeBytes_subset_recyclable.trans Set.subset_union_right)

/-! ### Every instruction -/

/-- A request instruction is the SETUP stage of its packet around its handler (log entry 6). -/
theorem exec_request (i : Instr) (hi : i.isCommand = false) : ∃ p, exec i = runRequest p (requestHandler i) := by
  cases i with
  | getStatusDevice | getStatusEndpoint | getConfiguration | hidGetIdle | hidGetProtocol | setConfiguration
  | clearFeatureEndpoint | setFeatureEndpoint | setAddress | getDescriptorDevice | getDescriptorInterface
  | hidGetReport | hidSetReport | hidSetIdle | hidSetProtocol | cdcSetLineCoding | cdcGetLineCoding
  | cdcSetControlLineState => exact ⟨_, rfl⟩
  | _ => cases hi

theorem exec_request_storesWithin {i : Instr} {s t : State} (hi : i.isCommand = false) (ht : exec i s = .next t) :
    s.StoresWithin t (storedBytes s i) := by
  obtain ⟨p, hp⟩ := exec_request i hi
  rw [hp, runRequest, whenAlive_next] at ht
  exact commit_storesWithin (fun u hu => requestStage_storesWithin hi hu) ht.2

theorem execAlloc_storesWithin {s t : State} (ht : execAlloc s = .next t) :
    s.StoresWithin t (storedBytes s .alloc) := by
  obtain ⟨-, ht⟩ := (whenAlive_next _ _ _).mp ht
  split at ht
  · next p u hu =>
    cases ht
    obtain ⟨-, rfl, -⟩ := (allocPacket_some _ _ _).mp hu
    exact (allocPacket_storesWithin hu).then_same (u.returning_sameMemory _)
  · cases ht
    exact (s.returning_sameMemory _).storesWithin _

theorem execPktFill_storesWithin {h : Half} {data : List Byte} {s t : State} (ht : execPktFill h data s = .next t) :
    s.StoresWithin t (storedBytes s (.pktFill h data)) := by
  obtain ⟨-, ht⟩ := (whenAlive_next _ _ _).mp ht
  split at ht
  · cases ht
    exact (s.raise_sameMemory _).storesWithin _
  · refine commit_storesWithin (fun u hu => ?_) ht
    split at hu
    · next v hv =>
      cases hu
      exact (State.writeBuffer_storesWithin hv).then_same ⟨rfl, rfl⟩
    · cases hu

theorem execPowerTimeout_storesWithin {s t : State} (ht : execPowerTimeout s = .next t) :
    s.StoresWithin t (storedBytes s .powerTimeout) := by
  obtain ⟨-, ht⟩ := (whenAlive_next _ _ _).mp ht
  split at ht
  · refine commit_storesWithin (fun u hu => ?_) ht
    split at hu
    · next v hv =>
      cases hu
      have hdisarmed : s.SameMemory { s with pwr := { s.pwr with armed := false } } := ⟨rfl, rfl⟩
      exact (hdisarmed.then_stores (lowerPower_storesWithin hv)).then_same v.reinit_sameMemory
    · cases hu
  · cases ht
    exact .refl _ _

theorem execTokenDone_storesWithin {s t : State} (ht : execTokenDone s = .next t) :
    s.StoresWithin t (storedBytes s .tokenDone) := by
  obtain ⟨-, ht⟩ := (whenAlive_next _ _ _).mp ht
  split at ht
  · cases ht
    exact .refl _ _
  · next e rest _ =>
    refine commit_storesWithin (fun u hu => ?_) ht
    have hrest : s.SameMemory { s with stat := rest } := ⟨rfl, rfl⟩
    exact hrest.then_stores (handleEntry_storesWithin hu)

theorem execHostSetup_storesWithin {a : BitVec 7} {p : SetupPacket} {s t : State}
    (ht : execHostSetup a p s = .next t) : s.StoresWithin t (storedBytes s (.hostSetup a p)) := by
  obtain ⟨-, ht⟩ := (whenAlive_next _ _ _).mp ht
  split at ht
  · refine commit_storesWithin (fun u hu => ?_) ht
    split at hu
    · cases hu
    · next v hv =>
      cases hu
      exact (memWrite_storesWithin hv).then_same ⟨rfl, rfl⟩
  · cases ht
    exact .refl _ _

theorem execHostOut_storesWithin {ep : Ep} {a : BitVec 7} {data : List Byte} {s t : State}
    (ht : execHostOut ep a data s = .next t) : s.StoresWithin t (storedBytes s (.hostOut ep a data)) := by
  obtain ⟨-, ht⟩ := (whenAlive_next _ _ _).mp ht
  split at ht
  · split at ht
    · cases ht
      exact (s.emit_sameMemory _).storesWithin _
    · split at ht
      · exact commit_storesWithin (fun u hu => receiveOut_storesWithin hu) ht
      · cases ht
        exact .refl _ _
  · cases ht
    exact .refl _ _

/-- Every instruction keeps the canonical form and stores bytes of its own set alone. -/
theorem exec_storesWithin {i : Instr} {s t : State} (ht : exec i s = .next t) :
    s.StoresWithin t (storedBytes s i) := by
  cases i with
  | alloc => exact execAlloc_storesWithin ht
  | pktFill => exact execPktFill_storesWithin ht
  | powerTimeout => exact execPowerTimeout_storesWithin ht
  | tokenDone => exact execTokenDone_storesWithin ht
  | hostSetup => exact execHostSetup_storesWithin ht
  | hostOut => exact execHostOut_storesWithin ht
  | init => exact (execInit_sameMemory ht).storesWithin _
  | free => exact (execFree_sameMemory ht).storesWithin _
  | tx => exact (execTx_sameMemory ht).storesWithin _
  | rx => exact (execRx_sameMemory ht).storesWithin _
  | txByteCount | txPacketCount | rxByteCount => exact (returnCount_sameMemory ht).storesWithin _
  | configured => exact (execConfigured_sameMemory ht).storesWithin _
  | reinit => exact (execReinit_sameMemory ht).storesWithin _
  | deviceReload => exact (execDeviceReload_sameMemory ht).storesWithin _
  | pktRead => exact (execPktRead_sameMemory ht).storesWithin _
  | hostIn => exact (execHostIn_sameMemory ht).storesWithin _
  | hostBusReset => exact (execHostBusReset_sameMemory ht).storesWithin _
  | _ => exact exec_request_storesWithin rfl ht

/-! ### The obligations -/

/-- A step that goes on either had no command to take or executed the one it fetched (R99; log entry 5). -/
theorem step_next {s t : State} (ht : step s = .next t) :
    t = s ∨ ∃ i u, fetchCommand s = some (.ok i, u) ∧ exec i u = .next t := by
  unfold step at ht
  split at ht
  · cases ht
    exact .inl rfl
  · cases ht
  · next i u hu => exact .inr ⟨i, u, hu, ht⟩

theorem fetchCommand_sameMemory {s u : State} {x : Except DecodeError Instr} (h : fetchCommand s = some (x, u)) :
    s.SameMemory u := by
  unfold fetchCommand at h
  split at h <;> cases h
  exact ⟨rfl, rfl⟩

/-- Settles O48: a step executes one decoded command, and every store is a run of bytes written, which keeps the
canonical form. -/
theorem memoryCanonicalKept : Obligations.MemoryCanonicalKept := by
  intro s t hs ht
  rcases step_next ht with rfl | ⟨i, u, hfetch, hexec⟩
  · exact hs
  · exact ((fetchCommand_sameMemory hfetch).then_stores (exec_storesWithin hexec)).canonical hs

/-- Settles O45: the set of bytes each of these instructions can store is empty. -/
theorem memoryKept : Obligations.MemoryKept := by
  intro s t h v w l ep a i hi ht
  have hnone : storedBytes s i = ∅ := by
    clear ht
    revert i
    simp [storedBytes]
  have hstores := exec_storesWithin ht
  rw [hnone] at hstores
  exact hstores.byteAt_of_empty

/-- The bytes of a buffer that is no packet, or a packet neither free nor in transit, are not recyclable. -/
theorem State.notMem_recyclableBytes {s : State} {b : Buffer} (k : Nat)
    (h : ∀ p, b = .pool p → s.isFree p = false ∧ s.inTransit p = false) : (b, k) ∉ s.recyclableBytes := by
  rintro ⟨p, hb, hp⟩
  obtain ⟨hfree, htransit⟩ := h p hb
  simp [hfree, htransit] at hp

/-- A byte outside the run a slot's reference and a length give is none of the bytes a transaction stores. -/
theorem notMem_slotBytes {x : Slot} {buf b : Buffer} {off k n : Nat} (htarget : refTarget x.addr = some (buf, off))
    (hout : ¬(b = buf ∧ off ≤ k ∧ k < off + n)) : (b, k) ∉ slotBytes x n := by
  rintro ⟨buf', off', htarget', hrun⟩
  cases htarget.symm.trans htarget'
  exact hout hrun

/-- Settles O46: a byte outside the set an instruction can store reads as before, and each clause's premise puts the
byte outside that set. -/
theorem storesStayInBounds : Obligations.StoresStayInBounds := by
  intro s t ep a p d v w l b k hk
  have kept {i : Instr} {F : ByteSet} (hF : storedBytes s i = F) (ht : exec i s = .next t) (hout : (b, k) ∉ F) :
      t.byteAt b k = s.byteAt b k := (exec_storesWithin ht).byteAt hk (hF ▸ hout)
  refine ⟨fun ht hb => ?alloc, fun buf off hbuf ht hout => ?hostSetup, fun buf off hbuf ht hout => ?hostOut,
    fun i hi ht hout => ?getStatus, fun i hi ht hout => ?oneByteReply, fun ht hrec => ?setConfiguration,
    fun ht hreply hrec => ?tokenDone⟩
  case alloc => exact kept rfl ht fun hx => hb hx.1
  case hostSetup => exact kept rfl ht (notMem_slotBytes hbuf hout)
  case hostOut => exact kept rfl ht (notMem_slotBytes hbuf hout)
  case getStatus =>
    have hrun : storedBytes s i = byteRun (.region .reply) 0 2 := by
      clear ht
      revert i
      simp [storedBytes]
    exact kept hrun ht fun hx => hout ⟨hx.1, by simpa using hx.2.2⟩
  case oneByteReply =>
    have hrun : storedBytes s i = byteRun (.region .reply) 0 1 := by
      clear ht
      revert i
      simp [storedBytes]
    exact kept hrun ht fun hx => hout ⟨hx.1, by simpa using hx.2.2⟩
  case setConfiguration => exact kept rfl ht (State.notMem_recyclableBytes k hrec)
  case tokenDone =>
    refine kept rfl ht ?_
    rintro (hx | hx)
    · exact hreply hx
    · exact State.notMem_recyclableBytes k hrec hx

end Sys2Proof.Machine
end

section
/-! Decoding and encoding are inverse. Each operand form has two rules: what it decodes of its own encoding, and that
a command it accepts is the encoding of what it decodes to. The tables of R97 and R94 are then read row by row. -/

namespace Sys2Proof

/-! ### Fields of a 16-bit word -/

/-- The high and the low bits of a word put together again. -/
theorem high_append_low {m n : Nat} (x : BitVec (m + n)) : x.extractLsb' n m ++ x.extractLsb' 0 n = x :=
  (BitVec.extractLsb'_append_extractLsb'_eq_extractLsb' (Nat.zero_add n).symm).trans BitVec.extractLsb'_eq_self

@[simp] theorem setupOfBytes_setupBytes (p : SetupPacket) : setupOfBytes (setupBytes p) = some p := by
  simp only [setupBytes, setupOfBytes, high_append_low (m := 8) (n := 8)]

theorem setupBytes_of_setupOfBytes {bs : List Byte} {p : SetupPacket} (h : setupOfBytes bs = some p) :
    setupBytes p = bs := by
  unfold setupOfBytes at h
  split at h
  · cases h
    simp only [setupBytes, BitVec.extractLsb'_append_eq_right, BitVec.extractLsb'_append_eq_left]
  · cases h

theorem addressArg_of_targetAddress {x : Half} {a : BitVec 7} (h : targetAddress x = some a) : addressArg a = x := by
  unfold targetAddress at h
  split at h
  · next hhigh =>
    cases h
    calc (x.extractLsb' 0 7).setWidth 16
      _ = x.extractLsb' 7 9 ++ x.extractLsb' 0 7 := by rw [hhigh]; exact BitVec.setWidth_eq_append (by decide)
      _ = x := high_append_low (m := 9) (n := 7) x
  · cases h

/-! ### Decoding an encoded command, by operand form (R96 to R99) -/

@[simp] theorem decodePlain_commandWord (op : Byte) (i : Instr) :
    decodePlain ⟨commandWord op 0#8 0#16, []⟩ i = .ok i := by
  simp [decodePlain]

@[simp] theorem decodeHandle_commandWord (op : Byte) (h : Half) (f : Half → Instr) :
    decodeHandle ⟨commandWord op 0#8 h, []⟩ f = .ok (f h) := by
  simp [decodeHandle]

@[simp] theorem decodeEndpoint_commandWord (op : Byte) (ep : Ep) (f : Ep → Instr) :
    decodeEndpoint ⟨commandWord op (epByte ep) 0#16, []⟩ f = .ok (f ep) := by
  simp [decodeEndpoint]

@[simp] theorem decodeEndpointHandle_commandWord (op : Byte) (ep : Ep) (h : Half) (f : Ep → Half → Instr) :
    decodeEndpointHandle ⟨commandWord op (epByte ep) h, []⟩ f = .ok (f ep h) := by
  simp [decodeEndpointHandle]

@[simp] theorem decodeFill_commandWord (op : Byte) (h : Half) (data : List Byte) (hlen : data.length ≤ 64) :
    decodeFill ⟨commandWord op 0#8 h, data⟩ = .ok (.pktFill h data) := by
  simp [decodeFill, hlen]

@[simp] theorem decodeHostSetup_commandWord (op : Byte) (a : BitVec 7) (p : SetupPacket) :
    decodeHostSetup ⟨commandWord op 0#8 (addressArg a), setupBytes p⟩ = .ok (.hostSetup a p) := by
  simp [decodeHostSetup]

@[simp] theorem decodeHostOut_commandWord (op : Byte) (ep : Ep) (a : BitVec 7) (data : List Byte) :
    decodeHostOut ⟨commandWord op (epByte ep) (addressArg a), data⟩ = .ok (.hostOut ep a data) := by
  simp [decodeHostOut]

@[simp] theorem decodeHostIn_commandWord (op : Byte) (ep : Ep) (a : BitVec 7) :
    decodeHostIn ⟨commandWord op (epByte ep) (addressArg a), []⟩ = .ok (.hostIn ep a) := by
  simp [decodeHostIn]

theorem pktFill_wellFormed_iff (h : Half) (data : List Byte) :
    (Instr.pktFill h data).WellFormed ↔ data.length ≤ 64 := decide_eq_true_iff

/-! ### Decoding an encoded request (R91, R94) -/

theorem requestCode_requestPacket_toNat (t r : Byte) (v w l : Half) :
    (requestCode (requestPacket t r v w l)).toNat = r.toNat * 256 + t.toNat := by
  simp only [requestCode, requestPacket, BitVec.toNat_append]
  rw [← Nat.shiftLeft_add_eq_or_of_lt t.isLt, Nat.shiftLeft_eq]

/-- A request packet decodes to `i` when every packet with its code and its fields does. The packet is left open so
that its code is a number to rewrite with, and not one that the kernel has to compute in each row of R94's table. -/
theorem decode_setup_of_code {t r : Byte} {v w l : Half} {i : Instr}
    (h : ∀ p : SetupPacket, (requestCode p).toNat = r.toNat * 256 + t.toNat →
      p.wValue = v → p.wIndex = w → p.wLength = l → decodeRequest p = some i) :
    decode (.setup (requestPacket t r v w l)) = .ok i := by
  simp only [decode, h _ (requestCode_requestPacket_toNat t r v w l) rfl rfl rfl]

/-- Settles O2: a command by its op and then its operand form, a request by its code. -/
theorem decodeEncode : Obligations.DecodeEncode := by
  intro i hi
  cases i with
  | pktFill h data => simp [encode, decode, decodeCommand, (pktFill_wellFormed_iff h data).mp hi]
  | init | alloc | free | tx | rx | txByteCount | txPacketCount | rxByteCount | configured | reinit | deviceReload
  | pktRead | tokenDone | powerTimeout | hostSetup | hostOut | hostIn | hostBusReset =>
    simp [encode, bare, decode, decodeCommand]
  | _ => exact decode_setup_of_code (by simp +contextual [decodeRequest])

/-! ### A command that decodes is an encoding, by operand form -/

/-- The command spells the instruction: it is its encoding, and the instruction is well formed. -/
abbrev Instr.Spells (i : Instr) (c : Command) : Prop := encode i = .command c ∧ i.WellFormed

/-- A command with an op byte of value `n` is made of that byte, its other fields and its payload. -/
theorem spells_of_fields {c : Command} {i : Instr} {n : Nat} {ep : Byte} {arg : Half} {data : List Byte}
    (hi : i.Spells ⟨commandWord (BitVec.ofNat 8 n) ep arg, data⟩) (hop : (opField c.word).toNat = n)
    (hep : epField c.word = ep) (harg : argField c.word = arg) (hdata : c.payload = data) : i.Spells c := by
  subst hop hep harg hdata
  simpa [commandWord_fields] using hi

section
variable {c : Command} {n : Nat} {i : Instr} (hop : (opField c.word).toNat = n)
include hop

theorem spells_of_decodePlain {j : Instr} (hj : j.Spells ⟨commandWord (BitVec.ofNat 8 n) 0 0, []⟩)
    (h : decodePlain c j = .ok i) : i.Spells c := by
  unfold decodePlain at h
  split_ifs at h with hfields hdata
  cases h
  push Not at hfields hdata
  exact spells_of_fields hj hop hfields.1 hfields.2 hdata

theorem spells_of_decodeHandle {f : Half → Instr}
    (hf : ∀ x, (f x).Spells ⟨commandWord (BitVec.ofNat 8 n) 0 x, []⟩) (h : decodeHandle c f = .ok i) : i.Spells c := by
  unfold decodeHandle at h
  split_ifs at h with hep hdata
  cases h
  exact spells_of_fields (hf _) hop (not_not.mp hep) rfl (not_not.mp hdata)

theorem spells_of_decodeEndpoint {f : Ep → Instr}
    (hf : ∀ ep, (f ep).Spells ⟨commandWord (BitVec.ofNat 8 n) (epByte ep) 0, []⟩) (h : decodeEndpoint c f = .ok i) :
    i.Spells c := by
  unfold decodeEndpoint at h
  split at h
  · cases h
  · next ep hep =>
    split_ifs at h with harg hdata
    cases h
    exact spells_of_fields (hf ep) hop (epByte_of_epNumber _ _ hep).symm (not_not.mp harg) (not_not.mp hdata)

theorem spells_of_decodeEndpointHandle {f : Ep → Half → Instr}
    (hf : ∀ ep x, (f ep x).Spells ⟨commandWord (BitVec.ofNat 8 n) (epByte ep) x, []⟩)
    (h : decodeEndpointHandle c f = .ok i) : i.Spells c := by
  unfold decodeEndpointHandle at h
  split at h
  · cases h
  · next ep hep =>
    split_ifs at h with hdata
    cases h
    exact spells_of_fields (hf ep _) hop (epByte_of_epNumber _ _ hep).symm rfl (not_not.mp hdata)

end

section
variable {c : Command} {i : Instr}

theorem spells_of_decodeFill (hop : (opField c.word).toNat = 0x0C) (h : decodeFill c = .ok i) : i.Spells c := by
  unfold decodeFill at h
  split_ifs at h with hep hlen
  cases h
  have hwf := (pktFill_wellFormed_iff (argField c.word) c.payload).mpr (not_lt.mp hlen)
  exact spells_of_fields ⟨rfl, hwf⟩ hop (not_not.mp hep) rfl rfl

theorem spells_of_decodeHostSetup (hop : (opField c.word).toNat = 0x20) (h : decodeHostSetup c = .ok i) :
    i.Spells c := by
  unfold decodeHostSetup at h
  split_ifs at h with hep
  split at h
  · cases h
  · next a ha =>
    split at h <;> cases h
    next p hp =>
      exact spells_of_fields ⟨rfl, rfl⟩ hop (not_not.mp hep) (addressArg_of_targetAddress ha).symm
        (setupBytes_of_setupOfBytes hp).symm

theorem spells_of_decodeHostOut (hop : (opField c.word).toNat = 0x21) (h : decodeHostOut c = .ok i) : i.Spells c := by
  unfold decodeHostOut at h
  split at h <;> cases h
  next ep a hep ha =>
    exact spells_of_fields ⟨rfl, rfl⟩ hop (epByte_of_epNumber _ _ hep).symm (addressArg_of_targetAddress ha).symm rfl

theorem spells_of_decodeHostIn (hop : (opField c.word).toNat = 0x22) (h : decodeHostIn c = .ok i) : i.Spells c := by
  unfold decodeHostIn at h
  split at h
  · cases h
  · cases h
  · next ep a hep ha =>
    split_ifs at h with hdata
    cases h
    exact spells_of_fields ⟨rfl, rfl⟩ hop (epByte_of_epNumber _ _ hep).symm (addressArg_of_targetAddress ha).symm
      (not_not.mp hdata)

end

/-! ### The two tables, row by row -/

/-- A command that decodes spells what it decodes to (R97). -/
theorem spells_of_decodeCommand {c : Command} {i : Instr} (h : decodeCommand c = .ok i) : i.Spells c := by
  unfold decodeCommand at h
  split at h
  · next hop => exact spells_of_decodePlain hop ⟨rfl, rfl⟩ h
  · next hop => exact spells_of_decodePlain hop ⟨rfl, rfl⟩ h
  · next hop => exact spells_of_decodeHandle hop (fun _ => ⟨rfl, rfl⟩) h
  · next hop => exact spells_of_decodeEndpointHandle hop (fun _ _ => ⟨rfl, rfl⟩) h
  · next hop => exact spells_of_decodeEndpoint hop (fun _ => ⟨rfl, rfl⟩) h
  · next hop => exact spells_of_decodeEndpoint hop (fun _ => ⟨rfl, rfl⟩) h
  · next hop => exact spells_of_decodeEndpoint hop (fun _ => ⟨rfl, rfl⟩) h
  · next hop => exact spells_of_decodeEndpoint hop (fun _ => ⟨rfl, rfl⟩) h
  · next hop => exact spells_of_decodePlain hop ⟨rfl, rfl⟩ h
  · next hop => exact spells_of_decodePlain hop ⟨rfl, rfl⟩ h
  · next hop => exact spells_of_decodePlain hop ⟨rfl, rfl⟩ h
  · next hop => exact spells_of_decodeFill hop h
  · next hop => exact spells_of_decodeHandle hop (fun _ => ⟨rfl, rfl⟩) h
  · next hop => exact spells_of_decodePlain hop ⟨rfl, rfl⟩ h
  · next hop => exact spells_of_decodePlain hop ⟨rfl, rfl⟩ h
  · next hop => exact spells_of_decodeHostSetup hop h
  · next hop => exact spells_of_decodeHostOut hop h
  · next hop => exact spells_of_decodeHostIn hop h
  · next hop => exact spells_of_decodePlain hop ⟨rfl, rfl⟩ h
  · cases h

/-- A SETUP packet is its code's two bytes and the three fields (R91). -/
theorem requestPacket_of_code {p : SetupPacket} {n : Nat} (h : (requestCode p).toNat = n) :
    requestPacket (BitVec.ofNat 8 n) (BitVec.ofNat 8 (n >>> 8)) p.wValue p.wIndex p.wLength = p := by
  subst h
  have htype : BitVec.ofNat 8 (requestCode p).toNat = p.bmRequestType := BitVec.extractLsb'_append_eq_right
  have hrequest : BitVec.ofNat 8 ((requestCode p).toNat >>> 8) = p.bRequest := BitVec.extractLsb'_append_eq_left
  rw [htype, hrequest, requestPacket]

/-- A SETUP packet that decodes is the encoding of what it decodes to (R94). -/
theorem encode_of_decodeRequest {p : SetupPacket} {i : Instr} (h : decodeRequest p = some i) :
    encode i = .setup p ∧ i.WellFormed := by
  unfold decodeRequest at h
  split at h <;> cases h
  all_goals
    next hcode => exact ⟨congrArg Encoded.setup (requestPacket_of_code hcode), rfl⟩

/-- Settles O3: by the row of the table that the command or the SETUP packet is decoded by. -/
theorem encodeDecode : Obligations.EncodeDecode := by
  intro e i h
  cases e with
  | command c => exact spells_of_decodeCommand h
  | setup p =>
    cases hp : decodeRequest p with
    | none => simp [decode, hp] at h
    | some j =>
      obtain rfl : j = i := by simpa [decode, hp] using h
      exact encode_of_decodeRequest hp

/-- Settles O1: the decoder evaluated on each of the words. -/
theorem decodedWords : Obligations.DecodedWords := by
  unfold Obligations.DecodedWords
  decide

end Sys2Proof
end

section
/-! Which commands are legal. Each operand form accepts exactly the commands whose masked bits are 0, whose endpoint is
in 0..15 and whose payload it allows; each row of the command table masks exactly the bits its op's form wants 0. -/

namespace Sys2Proof
open Laws

/-! ### What an operand form accepts (R97 to R99) -/

theorem byte_and_ones (b : Byte) : b &&& 0xFF = b := BitVec.and_allOnes

theorem half_and_ones (x : Half) : x &&& 0xFFFF = x := BitVec.and_allOnes

/-- Bits 15:7 of an `arg` field under their mask (R98). -/
theorem half_and_high (x : Half) : x &&& 0xFF80 = x.extractLsb' 7 9 ++ 0#7 := by
  calc x &&& 0xFF80
    _ = (x.extractLsb' 7 9 ++ x.extractLsb' 0 7) &&& (BitVec.allOnes 9 ++ 0#7) := by
      rw [high_append_low (m := 9) (n := 7) x]; rfl
    _ = x.extractLsb' 7 9 ++ 0#7 := by rw [BitVec.and_append, BitVec.and_allOnes, BitVec.and_zero]

theorem epNumber_isSome_iff (b : Byte) : (∃ ep, epNumber b = some ep) ↔ b.toNat < 16 := by
  unfold epNumber
  split_ifs with h <;> simp [h]

theorem targetAddress_isSome_iff (x : Half) : (∃ a, targetAddress x = some a) ↔ x &&& 0xFF80 = 0 := by
  have hzero : x.extractLsb' 7 9 ++ 0#7 = 0 ↔ x.extractLsb' 7 9 = 0 := BitVec.append_left_inj (0#7) (s₂ := 0#9)
  rw [half_and_high, hzero, targetAddress]
  split_ifs with h <;> simpa using h

theorem setupOfBytes_isSome_iff (bs : List Byte) : (∃ p, setupOfBytes bs = some p) ↔ bs.length = 8 := by
  constructor
  · rintro ⟨p, hp⟩
    rw [← setupBytes_of_setupOfBytes hp]
    rfl
  · intro h
    match bs, h with
    | [_, _, _, _, _, _, _, _], _ => exact ⟨_, rfl⟩

section
variable (c : Command)

theorem decodePlain_isOk_iff (j : Instr) : (∃ i, decodePlain c j = .ok i) ↔
    (epField c.word &&& 0xFF = 0 ∧ argField c.word &&& 0xFFFF = 0) ∧ (epField c.word).toNat < 16 ∧ c.payload = [] := by
  rw [byte_and_ones, half_and_ones]
  unfold decodePlain
  split_ifs with hfields hdata
  · simp only [exists_false, false_iff]
    tauto
  · simp_all
  · simp_all

theorem decodeHandle_isOk_iff (f : Half → Instr) : (∃ i, decodeHandle c f = .ok i) ↔
    (epField c.word &&& 0xFF = 0 ∧ argField c.word &&& 0 = 0) ∧ (epField c.word).toNat < 16 ∧ c.payload = [] := by
  rw [byte_and_ones]
  unfold decodeHandle
  split_ifs with hep hdata <;> simp_all

theorem decodeEndpoint_isOk_iff (f : Ep → Instr) : (∃ i, decodeEndpoint c f = .ok i) ↔
    (epField c.word &&& 0 = 0 ∧ argField c.word &&& 0xFFFF = 0) ∧ (epField c.word).toNat < 16 ∧ c.payload = [] := by
  rw [half_and_ones, ← epNumber_isSome_iff]
  unfold decodeEndpoint
  cases epNumber (epField c.word) with
  | none => simp
  | some ep =>
    dsimp only
    split_ifs with harg hdata <;> simp_all

theorem decodeEndpointHandle_isOk_iff (f : Ep → Half → Instr) : (∃ i, decodeEndpointHandle c f = .ok i) ↔
    (epField c.word &&& 0 = 0 ∧ argField c.word &&& 0 = 0) ∧ (epField c.word).toNat < 16 ∧ c.payload = [] := by
  rw [← epNumber_isSome_iff]
  unfold decodeEndpointHandle
  cases epNumber (epField c.word) with
  | none => simp
  | some ep =>
    dsimp only
    split_ifs with hdata <;> simp_all

theorem decodeFill_isOk_iff : (∃ i, decodeFill c = .ok i) ↔
    (epField c.word &&& 0xFF = 0 ∧ argField c.word &&& 0 = 0) ∧ (epField c.word).toNat < 16 ∧
      c.payload.length ≤ 64 := by
  rw [byte_and_ones]
  unfold decodeFill
  split_ifs with hep hlen <;> simp_all

theorem decodeHostSetup_isOk_iff : (∃ i, decodeHostSetup c = .ok i) ↔
    (epField c.word &&& 0xFF = 0 ∧ argField c.word &&& 0xFF80 = 0) ∧ (epField c.word).toNat < 16 ∧
      c.payload.length = 8 := by
  rw [byte_and_ones, ← targetAddress_isSome_iff, ← setupOfBytes_isSome_iff]
  unfold decodeHostSetup
  split_ifs with hep
  · simp_all
  · cases targetAddress (argField c.word) <;> cases setupOfBytes c.payload <;> simp_all

theorem decodeHostOut_isOk_iff : (∃ i, decodeHostOut c = .ok i) ↔
    (epField c.word &&& 0 = 0 ∧ argField c.word &&& 0xFF80 = 0) ∧ (epField c.word).toNat < 16 ∧ True := by
  rw [← targetAddress_isSome_iff, ← epNumber_isSome_iff]
  unfold decodeHostOut
  cases epNumber (epField c.word) <;> cases targetAddress (argField c.word) <;> simp

theorem decodeHostIn_isOk_iff : (∃ i, decodeHostIn c = .ok i) ↔
    (epField c.word &&& 0 = 0 ∧ argField c.word &&& 0xFF80 = 0) ∧ (epField c.word).toNat < 16 ∧ c.payload = [] := by
  rw [← targetAddress_isSome_iff, ← epNumber_isSome_iff]
  unfold decodeHostIn
  cases epNumber (epField c.word) with
  | none => simp
  | some ep =>
    cases targetAddress (argField c.word) with
    | none => simp
    | some a => by_cases hdata : c.payload = [] <;> simp [hdata]

end

/-! ### The row of an op -/

/-- A row of the command table by its op, and by the `ep` and `arg` bits that are 0 in every word of it. -/
def commandRow (mnemonic : String) (n : Nat) (epMask : Byte) (argMask : Half) : TableRow :=
  ⟨mnemonic, commandWord 0xFF epMask argMask, commandWord (BitVec.ofNat 8 n) 0 0⟩

theorem commandWord_inj {op op' ep ep' : Byte} {arg arg' : Half} :
    commandWord op ep arg = commandWord op' ep' arg' ↔ op = op' ∧ ep = ep' ∧ arg = arg' := by
  refine ⟨fun h => ⟨?_, ?_, ?_⟩, fun ⟨hop, hep, harg⟩ => by rw [hop, hep, harg]⟩
  · simpa using congrArg opField h
  · simpa using congrArg epField h
  · simpa using congrArg argField h

theorem commandRow_matches_iff {m : String} {n : Nat} {me : Byte} {ma : Half} {w : Word} :
    (commandRow m n me ma).matches w = true ↔
      opField w = BitVec.ofNat 8 n ∧ epField w &&& me = 0 ∧ argField w &&& ma = 0 := by
  have hand : w &&& commandWord 0xFF me ma = commandWord (opField w) (epField w &&& me) (argField w &&& ma) := by
    conv_lhs => rw [← commandWord_fields w]
    rw [commandWord, commandWord, BitVec.and_append, BitVec.and_append, byte_and_ones, commandWord]
  rw [commandRow, TableRow.matches, decide_eq_true_eq, hand, commandWord_inj]

/-- When its op has one row, a word matches a row exactly when the bits which that row masks are 0. -/
theorem matches_some_iff {w : Word} {m : String} {n : Nat} {me : Byte} {ma : Half} (hop : opField w = BitVec.ofNat 8 n)
    (hrows : commandRows.filter (fun r => decide (opField r.pattern = BitVec.ofNat 8 n)) = [commandRow m n me ma]) :
    (∃ r ∈ commandRows, r.matches w = true) ↔ epField w &&& me = 0 ∧ argField w &&& ma = 0 := by
  have hfilter : commandRows.filter (fun r => r.matches w) =
      [commandRow m n me ma].filter (fun r => r.matches w) := by
    rw [commandRows_filter, hop, hrows]
  calc (∃ r ∈ commandRows, r.matches w = true)
    _ ↔ ∃ r, r ∈ commandRows.filter (fun r => r.matches w) := by simp only [List.mem_filter]
    _ ↔ (commandRow m n me ma).matches w = true := by simp [hfilter]
    _ ↔ epField w &&& me = 0 ∧ argField w &&& ma = 0 := by simp [commandRow_matches_iff, hop]

/-! ### The command table, row by row -/

/-- The payloads an op allows (R99; log entry 16). -/
def PayloadLegal (op : Byte) (data : List Byte) : Prop :=
  if op = 0x0C then data.length ≤ 64
  else if op = 0x20 then data.length = 8
  else if op = 0x21 then True
  else data = []

/-- A command is legal by the row of its op when the op's operand form accepts what that row and the op's payload rule
allow. -/
theorem legal_iff_of_form {c : Command} {m : String} {n : Nat} {me : Byte} {ma : Half} {P : Prop}
    {d : Except DecodeError Instr} (hop : (opField c.word).toNat = n)
    (hform : (∃ i, d = .ok i) ↔
      (epField c.word &&& me = 0 ∧ argField c.word &&& ma = 0) ∧ (epField c.word).toNat < 16 ∧ P)
    (hrows : commandRows.filter (fun r => decide (opField r.pattern = BitVec.ofNat 8 n)) = [commandRow m n me ma])
    (hpayload : P ↔ PayloadLegal (BitVec.ofNat 8 n) c.payload) :
    (∃ i, d = .ok i) ↔ (∃ r ∈ commandRows, r.matches c.word = true) ∧ (epField c.word).toNat < 16 ∧
      PayloadLegal (opField c.word) c.payload := by
  have hop' : opField c.word = BitVec.ofNat 8 n := by rw [← hop, BitVec.ofNat_toNat, BitVec.setWidth_eq]
  rw [hform, hpayload, matches_some_iff hop' hrows, hop']

/-- The ops of the table are those the decoder knows. -/
theorem commandRows_ops : ∀ r ∈ commandRows, (opField r.pattern).toNat ∈
    [0x01, 0x02, 0x03, 0x04, 0x05, 0x06, 0x07, 0x08, 0x09, 0x0A, 0x0B, 0x0C, 0x0D, 0x10, 0x11, 0x20, 0x21, 0x22,
      0x23] := by
  decide

theorem decodeCommand_isOk_iff (c : Command) : (∃ i, decodeCommand c = .ok i) ↔
    (∃ r ∈ commandRows, r.matches c.word = true) ∧ (epField c.word).toNat < 16 ∧
      PayloadLegal (opField c.word) c.payload := by
  unfold decodeCommand
  split
  · next hop => exact legal_iff_of_form hop (decodePlain_isOk_iff c _) rfl .rfl
  · next hop => exact legal_iff_of_form hop (decodePlain_isOk_iff c _) rfl .rfl
  · next hop => exact legal_iff_of_form hop (decodeHandle_isOk_iff c _) rfl .rfl
  · next hop => exact legal_iff_of_form hop (decodeEndpointHandle_isOk_iff c _) rfl .rfl
  · next hop => exact legal_iff_of_form hop (decodeEndpoint_isOk_iff c _) rfl .rfl
  · next hop => exact legal_iff_of_form hop (decodeEndpoint_isOk_iff c _) rfl .rfl
  · next hop => exact legal_iff_of_form hop (decodeEndpoint_isOk_iff c _) rfl .rfl
  · next hop => exact legal_iff_of_form hop (decodeEndpoint_isOk_iff c _) rfl .rfl
  · next hop => exact legal_iff_of_form hop (decodePlain_isOk_iff c _) rfl .rfl
  · next hop => exact legal_iff_of_form hop (decodePlain_isOk_iff c _) rfl .rfl
  · next hop => exact legal_iff_of_form hop (decodePlain_isOk_iff c _) rfl .rfl
  · next hop => exact legal_iff_of_form hop (decodeFill_isOk_iff c) rfl .rfl
  · next hop => exact legal_iff_of_form hop (decodeHandle_isOk_iff c _) rfl .rfl
  · next hop => exact legal_iff_of_form hop (decodePlain_isOk_iff c _) rfl .rfl
  · next hop => exact legal_iff_of_form hop (decodePlain_isOk_iff c _) rfl .rfl
  · next hop => exact legal_iff_of_form hop (decodeHostSetup_isOk_iff c) rfl .rfl
  · next hop => exact legal_iff_of_form hop (decodeHostOut_isOk_iff c) rfl .rfl
  · next hop => exact legal_iff_of_form hop (decodeHostIn_isOk_iff c) rfl .rfl
  · next hop => exact legal_iff_of_form hop (decodePlain_isOk_iff c _) rfl .rfl
  · refine iff_of_false (fun ⟨i, hi⟩ => nomatch hi) fun ⟨⟨r, hr, hm⟩, _⟩ => ?_
    have hknown := commandRows_ops r hr
    rw [← r.op_of_matches _ (commandRows_mask r hr) hm] at hknown
    simp_all

/-! ### No word matches two rows -/

theorem commandRows_op_inj :
    ∀ r ∈ commandRows, ∀ r' ∈ commandRows, opField r.pattern = opField r'.pattern → r = r' := by
  decide

theorem requestRows_mask : ∀ r ∈ requestRows, r.mask = 0xFFFF := by decide

theorem requestRows_pattern_inj : ∀ r ∈ requestRows, ∀ r' ∈ requestRows, r.pattern = r'.pattern → r = r' := by decide

theorem commandRows_unique {w : Word} {r r' : TableRow} (hr : r ∈ commandRows) (hr' : r' ∈ commandRows)
    (hm : r.matches w = true) (hm' : r'.matches w = true) : r = r' :=
  commandRows_op_inj r hr r' hr' <|
    (r.op_of_matches w (commandRows_mask r hr) hm).symm.trans (r'.op_of_matches w (commandRows_mask r' hr') hm')

theorem requestRows_unique {w : Word} {r r' : TableRow} (hr : r ∈ requestRows) (hr' : r' ∈ requestRows)
    (hm : r.matches w = true) (hm' : r'.matches w = true) : r = r' := by
  have hpattern {x : TableRow} (hx : x ∈ requestRows) (hxm : x.matches w = true) : w &&& 0xFFFF = x.pattern :=
    requestRows_mask x hx ▸ of_decide_eq_true hxm
  exact requestRows_pattern_inj r hr r' hr' ((hpattern hr hm).symm.trans (hpattern hr' hm'))

/-- Settles O4: the legal commands op by op, and a row is known by its op or its code. -/
theorem legalCommandWords : Obligations.LegalCommandWords := by
  refine ⟨decodeCommand_isOk_iff, fun rows hrows r hr r' hr' w hm hm' => ?_⟩
  rcases List.mem_pair.mp hrows with rfl | rfl
  · exact commandRows_unique hr hr' hm hm'
  · exact requestRows_unique hr hr' hm hm'

end Sys2Proof
end

section
/-! The packing of a descriptor word, the entries TOKEN_DONE rejects, and what a step takes and runs. -/

namespace Sys2Proof.Machine

/-! ### Descriptor words (R81, R82) -/

/-- A packed word is its fields, each shifted to its place (R81). -/
theorem descWord_eq_or (d : Desc) : descWord d =
    (d.bc.setWidth 32 <<< 16) ||| ((BitVec.ofBool d.own).setWidth 32 <<< 7) |||
      ((toggleBit d.data1).setWidth 32 <<< 6) ||| (d.low.setWidth 32 <<< 2) := by
  rw [← BitVec.setWidth_eq (descWord d)]
  simp only [descWord, BitVec.setWidth_append_eq_shiftLeft_setWidth_or, BitVec.shiftLeft_or_distrib,
    ← BitVec.shiftLeft_add, BitVec.ofNat_eq_ofNat, BitVec.setWidth_zero, BitVec.zero_shiftLeft, BitVec.zero_or,
    BitVec.or_zero]

/-- Each field is read back from its place, so that none is lost (R81). -/
theorem descOfWord_descWord (d : Desc) : descOfWord (descWord d) = d := by
  have hown : (descWord d).getLsbD 7 = d.own := by
    simp only [descWord, BitVec.getLsbD_append]
    simp
  have hdata1 : (if (descWord d).getLsbD 6 then Toggle.data1 else .data0) = d.data1 := by
    simp only [descWord, BitVec.getLsbD_append]
    cases d.data1 <;> rfl
  have hbc : (descWord d).extractLsb' 16 10 = d.bc := by
    rw [descWord]
    iterate 5 rw [BitVec.extractLsb'_append_eq_of_le (by decide)]
    exact BitVec.extractLsb'_append_eq_right
  have hlow : (descWord d).extractLsb' 2 4 = d.low := by
    rw [descWord, BitVec.extractLsb'_append_eq_of_le (by decide)]
    exact BitVec.extractLsb'_append_eq_right
  rw [descOfWord, hown, hdata1, hbc, hlow]

/-- The arming word: the count, and the constant bits of its toggle (R82). -/
theorem descWord_armedDesc (n : BitVec 10) (t : Toggle) : descWord (armedDesc n t) =
    0x88 ||| (if t = .data1 then 0x40 else 0) ||| (n.setWidth 32 <<< 16) := by
  rw [descWord_eq_or, BitVec.or_assoc, BitVec.or_assoc, BitVec.or_comm]
  congr 1
  simp only [armedDesc]
  cases t <;> decide

/-- Settles O5: the words by their shifted fields, and the rest by reading the fields back. -/
theorem descriptorWords : Obligations.DescriptorWords := by
  refine ⟨descWord_armedDesc, rfl, fun d p n => ?completedRx, fun d => ?completedTx, descOfWord_descWord,
    fun d => ⟨fun h => ?zero, ?fieldsZero⟩⟩
  case completedRx => simp [descWord_eq_or, completedRx]
  case completedTx => simp [descWord_eq_or, completedTx, pidCode]
  case zero =>
    rw [← descOfWord_descWord d, h]
    rfl
  case fieldsZero =>
    rintro rfl
    rfl

/-! ### The entries TOKEN_DONE rejects (R84, R87, R136) -/

theorem pidOf_eq_some_iff (low : BitVec 4) (p : Pid) : pidOf low = some p ↔ low = pidCode p := by
  revert low
  cases p <;> decide

/-- The legal combinations as R87 lists them. -/
theorem legalToken_iff (c : Params) (ep : Ep) (d : Dir) (p : Pid) : legalToken c ep d p = true ↔
    (ep = 0 ∧ d = .rx ∧ p = .setupToken) ∨ (d = .rx ∧ p = .outToken ∧ ep.val ≤ c.numEndpoints.val) ∨
      (d = .tx ∧ p = .inToken ∧ ep.val ≤ c.numEndpoints.val) := by
  have hep : ep = 0 ∨ isDataEp c ep = true ↔ ep.val ≤ c.numEndpoints.val := by
    rw [isDataEp, Bool.and_eq_true, decide_eq_true_eq, decide_eq_true_eq, Fin.ext_iff, Fin.val_zero]
    omega
  cases d <;> cases p <;> simp [legalToken, hep]

/-- An entry whose slot is still owned, or whose PID is none the SIE writes or an illegal one there, is unexpected. -/
theorem handleEntry_unexpected {s : State} {e : StatEntry}
    (h : (s.slot e.ep e.dir e.bank).desc.own = true ∨
      ∀ p, (s.slot e.ep e.dir e.bank).desc.low = pidCode p → legalToken s.cfg e.ep e.dir p = false) :
    handleEntry s e = .error .unexpectedToken := by
  unfold handleEntry
  rcases h with hown | hpid
  · exact if_pos hown
  dsimp only
  split
  · rfl
  split
  · rfl
  · next p hp => exact if_pos (by rw [hpid p ((pidOf_eq_some_iff _ p).mp hp), Bool.not_false])

/-- TOKEN_DONE handles the oldest entry (R136). -/
theorem exec_tokenDone_of_stat {s : State} {e : StatEntry} {rest : List StatEntry} (hs : s.Alive)
    (hstat : s.stat = e :: rest) : exec .tokenDone s = commit s (handleEntry { s with stat := rest } e) := by
  rw [exec, execTokenDone, whenAlive_of_alive s _ hs, hstat]

/-- Settles O27: the entry is unexpected, since a PID the SIE writes and that is legal there is one of R87's. -/
theorem tokenDoneRejects : Obligations.TokenDoneRejects := by
  intro s e rest hs hstat h
  have hreject : handleEntry { s with stat := rest } e = .error .unexpectedToken := by
    refine handleEntry_unexpected (h.imp_right fun hillegal p hp => ?_)
    rw [← Bool.not_eq_true, legalToken_iff]
    contrapose! hillegal
    obtain ⟨hep, hd, rfl⟩ | ⟨hd, rfl, hep⟩ | ⟨hd, rfl, hep⟩ := hillegal
    · exact .inl ⟨hep, hd, hp⟩
    · exact .inr (.inl ⟨hd, hp, hep⟩)
    · exact .inr (.inr ⟨hd, hp, hep⟩)
  rw [exec_tokenDone_of_stat hs hstat, hreject, commit_error]

/-! ### What a step takes and runs (R96, R99) -/

/-- The command issued first is taken, whether or not it decodes. -/
theorem fetchCommand_cons {s : State} {c : Command} {cs : List Command} (hc : s.cmds = c :: cs) :
    fetchCommand s = some (decodeCommand c, { s with cmds := cs }) := by
  rw [fetchCommand, hc]

/-- Settles O6: by what is fetched. -/
theorem stepRunsDecoded : Obligations.StepRunsDecoded := by
  intro s c cs
  refine ⟨fun hc => ⟨fun i hi => ?decoded, fun e he => ?refused⟩, fun hnone => ?idle⟩
  case decoded => rw [step, fetchCommand_cons hc, hi]
  case refused => rw [step, fetchCommand_cons hc, he]
  case idle => rw [step, fetchCommand, hnone]

end Sys2Proof.Machine
end

section
/-! The packet pool: what ALLOC and FREE do, where a starved packet is redirected, and the pool laws of R117. -/

namespace Sys2Proof.Machine

/-! ### ALLOC (R110, R111) -/

theorem exec_alloc_of_some {s t : State} {i : Nat} (hs : s.Alive) (h : allocPacket s = some (i, t)) :
    exec .alloc s = .next (t.returning (.ok (.handle i))) := by
  rw [exec, execAlloc, whenAlive_of_alive s _ hs, h]

theorem exec_alloc_of_none_free {s : State} (hs : s.Alive) (h : ∀ i, s.isFree i = false) :
    exec .alloc s = .next (s.returning .none) := by
  rw [exec, execAlloc, whenAlive_of_alive s _ hs, (allocPacket_none s).mpr h]

theorem allocPacket_of_isFree {s : State} {i : Nat} (hi : s.isFree i = true) :
    allocPacket s = some (s.pick, s.drop.claim s.pick) :=
  (allocPacket_some _ _ _).mpr ⟨List.ne_nil_of_mem ((s.mem_freeIds i).mpr hi), rfl, rfl⟩

/-- Settles O11: the answer is the picked packet with its claim, and any free packet is picked for some free value. -/
theorem allocTakesFreePacket : Obligations.AllocTakesFreePacket := by
  intro s hs
  refine ⟨exec_alloc_of_none_free hs, ?some, fun i hi => ?any⟩
  case some =>
    rintro ⟨j, hj⟩
    have halloc := allocPacket_of_isFree hj
    refine ⟨s.pick, _, (allocPacket_frame _ _ _ halloc).1, exec_alloc_of_some hs halloc, ?_⟩
    rw [State.claim_eq, State.drop_frame s]
    rfl
  case any =>
    obtain ⟨d, hd⟩ := s.pick_any i hi
    have halloc := allocPacket_of_isFree (s := { s with draws := d :: s.draws }) hi
    exact ⟨d, _, exec_alloc_of_some hs halloc, by rw [hd]; rfl⟩

/-! ### FREE (R112, R113, R114) -/

theorem exec_free_of_owned {s : State} {h : Half} (hs : s.Alive) (hlt : h.toNat < s.cfg.nPackets)
    (hown : s.ownerOf h.toNat = .caller) :
    exec (.free h) s = .next ((s.release h.toNat).returning (.ok .unit)) := by
  rw [exec, execFree, whenAlive_of_alive s _ hs, handleId, if_pos ((s.callerOwns_iff _).mpr ⟨hlt, hown⟩)]

theorem exec_free_of_not_owned {s : State} {h : Half} (hs : s.Alive)
    (hnot : ¬(h.toNat < s.cfg.nPackets ∧ s.ownerOf h.toNat = .caller)) :
    exec (.free h) s = .next (s.raise .invalidHandle) := by
  rw [exec, execFree, whenAlive_of_alive s _ hs, handleId, if_neg (mt (s.callerOwns_iff _).mp hnot)]

/-- Without starvation, or unconfigured, the packet goes to the pool (R113, R114). -/
theorem exec_free_to_pool {s : State} {h : Half} (hs : s.Alive) (hlt : h.toNat < s.cfg.nPackets)
    (hown : s.ownerOf h.toNat = .caller) (hplain : ¬(s.rxNeeded ≠ 0 ∧ s.config ≠ 0)) :
    exec (.free h) s = .next (((s.setFree h.toNat true).setOwner h.toNat .pool).returning (.ok .unit)) := by
  have hflags : (starving s && isConfigured s) = false := by
    rw [← Bool.not_eq_true, starving, isConfigured, Bool.and_eq_true, decide_eq_true_eq, decide_eq_true_eq]
    exact hplain
  rw [exec_free_of_owned hs hlt hown, s.release_plain _ hflags, State.toPool_eq]

/-- Settles O13: by whether the caller owns the packet. -/
theorem freeReturnsPacket : Obligations.FreeReturnsPacket := fun _ _ hs =>
  ⟨exec_free_of_not_owned hs, exec_free_to_pool hs⟩

/-! ### Redirecting a starved packet (R115) -/

theorem pairwise_everyEp : everyEp.Pairwise (fun a b => a.val < b.val) := by decide

/-- The RX slots are scanned in the order of their places in the table: endpoints ascending, EVEN before ODD. -/
theorem pairwise_rxSlots (c : Params) :
    (rxSlots c).Pairwise (fun x y => slotIndex x.1 .rx x.2 < slotIndex y.1 .rx y.2) := by
  have heps : ((dataEps c).filter (rxEnabled c)).Pairwise (fun a b => a.val < b.val) :=
    (pairwise_everyEp.filter _).filter _
  rw [rxSlots, List.pairwise_flatMap]
  refine ⟨fun ep _ => ?banks, heps.imp fun {a b} hab => ?endpoints⟩
  case banks => simp [slotIndex, bankBit]
  case endpoints =>
    simp only [slotIndex, bankBit, List.mem_cons, List.not_mem_nil, or_false, forall_eq_or_imp, forall_eq]
    omega

/-- The scan stops at the first RX slot whose descriptor is 0. -/
theorem State.redirectTarget_of_first {s : State} {before after : List (Ep × Bank)} {ep : Ep} {b : Bank}
    (hsplit : rxSlots s.cfg = before ++ (ep, b) :: after)
    (hbefore : ∀ x ∈ before, (s.slot x.1 .rx x.2).desc ≠ releasedDesc) (hneed : (s.slot ep .rx b).desc = releasedDesc) :
    s.redirectTarget = some (ep, b) := by
  rw [State.redirectTarget, List.find?_eq_some_iff_append]
  exact ⟨by simp [descIsZero, hneed], before, after, hsplit, by simpa [descIsZero] using hbefore⟩

theorem State.redirectTarget_eq_none {s : State}
    (hnone : ∀ x ∈ rxSlots s.cfg, (s.slot x.1 .rx x.2).desc ≠ releasedDesc) : s.redirectTarget = none := by
  rw [State.redirectTarget, List.find?_eq_none]
  simpa [descIsZero] using hnone

theorem exec_free_to_redirect {s : State} {h : Half} (hs : s.Alive) (hlt : h.toNat < s.cfg.nPackets)
    (hown : s.ownerOf h.toNat = .caller) (hneeded : s.rxNeeded ≠ 0) (hconfig : s.config ≠ 0) :
    exec (.free h) s = .next ((s.redirect h.toNat).returning (.ok .unit)) := by
  rw [exec_free_of_owned hs hlt hown, s.release_starved _ (decide_eq_true hneeded) (decide_eq_true hconfig)]

/-- Settles O14: by what the scan of the RX slots finds. -/
theorem freeRedirects : Obligations.FreeRedirects := by
  intro s h hs hlt hown hneeded hconfig
  rw [exec_free_to_redirect hs hlt hown hneeded hconfig]
  refine ⟨⟨pairwise_rxSlots _, fun ep b => ?members⟩, fun before ep b after hsplit hbefore hneed => ?found,
    fun hnone => ?notFound⟩
  case members => rw [mem_rxSlots, rxEnabled, Bool.and_eq_true]
  case found =>
    rw [State.redirect_some s _ ep b (State.redirectTarget_of_first hsplit hbefore hneed)]
    rfl
  case notFound =>
    rw [State.redirect_none s _ (State.redirectTarget_eq_none hnone)]
    rfl

/-! ### The pool laws (R117) -/

theorem State.ownerOf_setOwner (s : State) (h h' : Nat) (x : Owner) (hh : h < s.owner.length) :
    (s.setOwner h x).ownerOf h' = if h' = h then x else s.ownerOf h' := by
  simp only [State.ownerOf, State.setOwner_owner, List.getD_eq_getElem?_getD, List.getElem?_set]
  by_cases e : h = h'
  · subst e; simp [hh]
  · simp [e, Ne.symm e]

theorem State.freeIds_eq_nil_iff (s : State) : s.freeIds = [] ↔ ∀ i, s.isFree i = false := by
  simp only [List.eq_nil_iff_forall_not_mem, State.mem_freeIds, Bool.not_eq_true]

theorem State.freeIds_setFree_false (s : State) (i : Nat) (hi : s.isFree i = true) :
    (s.setFree i false).freeIds = s.freeIds.erase i := by
  have hnodup : s.freeIds.Nodup := List.nodup_range.filter _
  rw [hnodup.erase_eq_filter, State.freeIds, State.freeIds, List.filter_filter, State.setFree_free, List.length_set]
  refine List.filter_congr fun j _ => ?_
  rw [State.isFree_setFree _ _ _ _ (s.isFree_lt i hi)]
  by_cases hj : j = i <;> simp [hj]

/-- The pool in the middle of R117's ALLOCs: no RX slot is starved, and each packet is free or the caller's. -/
structure State.FreeOrCaller (s : State) : Prop where
  alive : s.Alive
  freeLength : s.free.length = s.cfg.nPackets
  ownerLength : s.owner.length = s.cfg.nPackets
  unstarved : s.rxNeeded = 0
  shared : ∀ h < s.cfg.nPackets, s.isFree h = true ∨ s.ownerOf h = .caller

/-- While a packet is free, ALLOC gives one out and leaves the others as they were. -/
theorem State.FreeOrCaller.exec_alloc {s : State} {i : Nat} (hs : s.FreeOrCaller) (hi : s.isFree i = true) :
    ∃ t, exec .alloc s = .next t ∧ t.FreeOrCaller ∧ t.cfg = s.cfg ∧ t.freeIds.length + 1 = s.freeIds.length := by
  obtain ⟨halive, hfree, howner, hneeded, hshared⟩ := hs
  have halloc := allocPacket_of_isFree hi
  obtain ⟨hpick, hframe⟩ := allocPacket_frame _ _ _ halloc
  have hlt : s.pick < s.free.length := s.isFree_lt _ hpick
  refine ⟨_, exec_alloc_of_some halive halloc, ?_⟩
  rw [hframe]
  refine ⟨⟨halive, (List.length_set ..).trans hfree, (List.length_set ..).trans howner, hneeded,
    fun h hh => ?shared⟩, rfl, ?count⟩
  case shared =>
    change (s.setFree s.pick false).isFree h = true ∨ (s.setOwner s.pick .caller).ownerOf h = .caller
    rw [State.isFree_setFree _ _ _ _ hlt, State.ownerOf_setOwner _ _ _ _ (by omega)]
    by_cases hp : h = s.pick
    · exact .inr (if_pos hp)
    · rw [if_neg hp, if_neg hp]
      exact hshared h hh
  case count =>
    change (s.setFree s.pick false).freeIds.length + 1 = s.freeIds.length
    rw [s.freeIds_setFree_false _ hpick]
    exact List.length_erase_add_one ((s.mem_freeIds _).mpr hpick)

/-- As many ALLOCs as there are free packets succeed, and give out every one. -/
theorem State.FreeOrCaller.execAll_alloc {s : State} (hs : s.FreeOrCaller) :
    ∃ t, execAll (List.replicate s.freeIds.length .alloc) s = .next t ∧ t.FreeOrCaller ∧ t.cfg = s.cfg ∧
      ∀ i, t.isFree i = false := by
  induction hn : s.freeIds.length generalizing s with
  | zero => exact ⟨s, rfl, hs, rfl, s.freeIds_eq_nil_iff.mp (List.length_eq_zero_iff.mp hn)⟩
  | succ n ih =>
    obtain ⟨i, hi⟩ := List.exists_mem_of_length_pos (by rw [hn]; exact n.succ_pos : 0 < s.freeIds.length)
    obtain ⟨u, hu, huPool, huCfg, huCount⟩ := hs.exec_alloc ((s.mem_freeIds i).mp hi)
    obtain ⟨t, ht, htPool, htCfg, htNone⟩ := ih huPool (by omega)
    refine ⟨t, ?_, htPool, htCfg.trans huCfg, htNone⟩
    rw [List.replicate_succ, execAll, hu]
    exact ht

theorem exec_alloc_of_only_free {s : State} {h : Nat} (hs : s.Alive) (honly : ∀ i, s.isFree i = true ↔ i = h) :
    ∃ t, exec .alloc s = .next t ∧ t.result = some (.ok (.handle h)) := by
  have halloc := allocPacket_of_isFree ((honly h).mpr rfl)
  have hpick : s.pick = h := (honly _).mp (allocPacket_frame _ _ _ halloc).1
  exact ⟨_, exec_alloc_of_some hs halloc, by rw [hpick]; rfl⟩

/-- With every packet the caller's, the one it frees is the one the next ALLOC returns. -/
theorem State.FreeOrCaller.exec_free_alloc {s : State} {h : Half} (hs : s.FreeOrCaller)
    (hnone : ∀ i, s.isFree i = false) (hlt : h.toNat < s.cfg.nPackets) :
    ∃ u v, exec (.free h) s = .next u ∧ exec .alloc u = .next v ∧ v.result = some (.ok (.handle h.toNat)) := by
  have hown : s.ownerOf h.toNat = .caller := (hs.shared _ hlt).resolve_left (by simp [hnone])
  have hfree := exec_free_to_pool hs.alive hlt hown fun hstarved => hstarved.1 hs.unstarved
  have honly : ∀ i, (s.setFree h.toNat true).isFree i = true ↔ i = h.toNat := fun i => by
    rw [State.isFree_setFree _ _ _ _ (hs.freeLength ▸ hlt), hnone]
    simp
  obtain ⟨v, hv, hresult⟩ := exec_alloc_of_only_free
    (s := ((s.setFree h.toNat true).setOwner h.toNat .pool).returning (.ok .unit)) hs.alive honly
  exact ⟨_, v, hfree, hv, hresult⟩

/-- Settles O12, by induction on the number of free packets. -/
theorem poolLaws : Obligations.PoolLaws := by
  intro s hs hfree howner hneeded hall
  have hids : s.freeIds.length = s.cfg.nPackets := by
    rw [State.freeIds, List.filter_eq_self.mpr fun i hi => hall i (hfree ▸ List.mem_range.mp hi), List.length_range,
      hfree]
  obtain ⟨t, ht, htPool, htCfg, htNone⟩ :=
    State.FreeOrCaller.execAll_alloc ⟨hs, hfree, howner, hneeded, fun h hh => .inl (hall h hh)⟩
  refine ⟨t, hids ▸ ht, htNone, fun h hh => ?owned, exec_alloc_of_none_free htPool.alive htNone, fun h hh hh16 => ?again⟩
  case owned => exact (htPool.shared h (htCfg ▸ hh)).resolve_left (by simp [htNone])
  case again =>
    have hid : (BitVec.ofNat 16 h).toNat = h := by rw [BitVec.toNat_ofNat, Nat.mod_eq_of_lt hh16]
    have hagain := htPool.exec_free_alloc (h := BitVec.ofNat 16 h) htNone (by rw [hid, htCfg]; exact hh)
    rwa [hid] at hagain

end Sys2Proof.Machine
end

section
/-! What endpoint 0's operations, the request handlers and the completions write, field by field; and how each step
changes the FIFOs (`FifosMove`, `exec_fifosMove`). -/

namespace Sys2Proof.Machine

/-! ### What the stages of endpoint 0 write (R185 to R191, R196) -/

theorem armNextIn_frame {s t : State} {r : Region} {off : Nat} (h : armNextIn s r off = .ok t) :
    t = { s with bdt := t.bdt, ep0 := t.ep0 } := by
  unfold armNextIn at h
  simp only at h
  split at h <;> cases h
  next u hu =>
    obtain ⟨-, rfl⟩ := (arm_ok _ _ _ _ _ _ _ _).mp hu
    rfl

theorem startStatusIn_frame {s t : State} (h : startStatusIn s = .ok t) :
    t = { s with bdt := t.bdt, ctl := t.ctl } := by
  obtain ⟨-, rfl⟩ := (arm_ok _ _ _ _ _ _ _ _).mp h
  rfl

/-- The stage a handler's result starts writes endpoint 0's slots, its control byte and its contexts, and records the
calls. -/
theorem applyResult_frame {s t : State} {r : HandlerResult} (h : applyResult s r = .ok t) :
    t = { s with
      bdt := t.bdt
      endpt := t.endpt
      ctl := t.ctl
      ep0 := t.ep0
      ep0out := t.ep0out
      calls := t.calls } := by
  cases r with
  | stall =>
    cases h
    rfl
  | dataIn r off len => rw [armNextIn_frame h]
  | dataOut sink =>
    rw [applyResult, startOut] at h
    split at h
    · rw [startStatusIn_frame h]
      rfl
    · cases h
      rfl
  | noData => rw [startStatusIn_frame h]

theorem ep0InDone_frame {s t : State} {c : Bank} (h : ep0InDone s c = .ok t) :
    t = { s with
      bdt := t.bdt
      ctl := t.ctl
      ep0 := t.ep0
      addr := t.addr
      setAddrPending := t.setAddrPending } := by
  unfold ep0InDone at h
  split at h
  · cases h
  split at h
  · cases h
  next u hu =>
    obtain ⟨-, rfl⟩ := (releaseSlot_ok _ _ _ _ _).mp hu
    simp only at h
    split at h
    · split at h
      · rw [armNextIn_frame h]
        rfl
      · cases h
        rfl
    · split at h <;> cases h <;> rfl
    all_goals
      cases h
      rfl

theorem dataOutPacket_frame {s t : State} {data : List Byte} (h : dataOutPacket s data = .ok t) :
    t = { s with bdt := t.bdt, ctl := t.ctl, ep0out := t.ep0out, calls := t.calls } := by
  unfold dataOutPacket at h
  simp only at h
  split at h
  · rw [startStatusIn_frame h]
    simp only [callSink]
    cases s.ep0out.sink <;> rfl
  · cases h
    simp only [callSink]
    cases s.ep0out.sink <;> rfl

theorem ep0OutDone_frame {s t : State} {b : Bank} {n : BitVec 10} (h : ep0OutDone s b n = .ok t) :
    t = { s with bdt := t.bdt, ctl := t.ctl, ep0 := t.ep0, ep0out := t.ep0out, calls := t.calls } := by
  unfold ep0OutDone at h
  split at h
  · cases h
  split at h
  · cases h
  next u hu =>
    obtain ⟨-, rfl⟩ := (arm_ok _ _ _ _ _ _ _ _).mp hu
    split at h
    · rw [dataOutPacket_frame h]
      rfl
    all_goals
      cases h
      rfl

/-! ### What the request handlers write (R184) -/

theorem getDescriptor_frame {v w : Half} {s t : State} {r : HandlerResult} (h : getDescriptor v w s = .ok (t, r)) :
    t = { s with pwr := t.pwr } := by
  unfold getDescriptor at h
  split at h
  · cases h
    rfl
  · split at h <;> cases h
    rfl

theorem handleFeature_frame {v w : Half} {s t : State} {r : HandlerResult}
    (h : handleClearFeatureEndpoint v w s = .ok (t, r) ∨ handleSetFeatureEndpoint v w s = .ok (t, r)) :
    t = { s with endpt := t.endpt } := by
  unfold handleClearFeatureEndpoint handleSetFeatureEndpoint at h
  rcases h with h | h
  all_goals
    split at h
    · cases h
      rfl
    · split at h <;> cases h <;> rfl

/-- SET_CONFIGURATION's handler is Reconfigure; every other one writes REPLY, an endpoint's control byte, the address to
come, the power monitor and the calls, and takes free values. -/
theorem requestHandler_frame {i : Instr} {s t : State} {r : HandlerResult} (h : requestHandler i s = .ok (t, r)) :
    (∃ v w l, i = .setConfiguration v w l ∧ reconfigure s (lowByte v) = .ok t) ∨
      t = { s with
        mem := t.mem
        endpt := t.endpt
        setAddrPending := t.setAddrPending
        pwr := t.pwr
        calls := t.calls
        draws := t.draws
        drawn := t.drawn } := by
  cases i with
  | setConfiguration v w l =>
    refine .inl ⟨v, w, l, rfl, ?_⟩
    simp only [requestHandler, handleSetConfiguration] at h
    split at h <;> cases h
    next hu => exact hu
  | getStatusEndpoint v w l =>
    simp only [requestHandler, handleGetStatusEndpoint] at h
    right
    split at h <;> cases h <;> rfl
  | clearFeatureEndpoint => exact .inr (by rw [handleFeature_frame (.inl h)])
  | setFeatureEndpoint => exact .inr (by rw [handleFeature_frame (.inr h)])
  | getDescriptorDevice | getDescriptorInterface => exact .inr (by rw [getDescriptor_frame h])
  | hidGetReport | hidGetIdle | hidGetProtocol =>
    cases h
    right
    rw [State.drop_frame s]
    rfl
  | _ =>
    cases h
    exact .inr rfl

/-! ### The SETUP stage (R183) -/

theorem setupStage_ok {p : SetupPacket} {h : Handler} {s t : State} (ht : setupStage p h s = .ok t) :
    ∃ u r v, h (s.beginSetup p) = .ok (u, r) ∧ applyResult u r = .ok v ∧ t = { v with tokenSuspend := false } := by
  unfold setupStage at ht
  split at ht
  · cases ht
  next u r hu =>
    split at ht <;> cases ht
    next v hv => exact ⟨u, r, v, hu, hv, rfl⟩

/-- A SETUP stage records its packet and raises no mark. -/
theorem setupStage_setup_fault {p : SetupPacket} {i : Instr} {s t : State}
    (ht : setupStage p (requestHandler i) s = .ok t) : t.setup = p ∧ t.fault = s.fault := by
  obtain ⟨u, r, v, hu, hv, rfl⟩ := setupStage_ok ht
  rw [applyResult_frame hv]
  rcases requestHandler_frame hu with ⟨b, w, l, -, hreconf⟩ | hframe
  · rw [reconfigure_frame _ _ _ hreconf]
    exact ⟨rfl, rfl⟩
  · rw [hframe]
    exact ⟨rfl, rfl⟩

/-- What no table row names stalls endpoint 0, as a command would if it were dispatched (R95). -/
theorem dispatchRequest_eq (p : SetupPacket) : dispatchRequest p = requestHandler ((decodeRequest p).getD .init) := by
  unfold dispatchRequest
  cases decodeRequest p <;> rfl

/-- The code of a packet that decodes to SET_CONFIGURATION (R94). -/
theorem requestCode_of_setConfiguration {p : SetupPacket} {v w l : Half}
    (h : decodeRequest p = some (.setConfiguration v w l)) : requestCode p = 0x0900 := by
  have henc := (encode_of_decodeRequest h).1
  cases henc
  change (0x09 : Byte) ++ (0x00 : Byte) = (0x0900 : Half)
  decide

/-! ### FIFOs kept and FIFOs emptied -/

/-- What holds of the state with the mark, and of every state the body answers, holds of the next state (R313). -/
theorem commit_induction {s t : State} {body : Except FaultReason State} {P : State → Prop}
    (hraise : ∀ r, P (s.raise r)) (hbody : ∀ u, body = .ok u → P u) (ht : commit s body = .next t) : P t := by
  rcases (commit_next _ _ _).mp ht with hok | ⟨r, -, rfl⟩
  · exact hbody t hok
  · exact hraise r

/-- `t` has the FIFOs of `s`. -/
structure State.FifosKept (s t : State) : Prop where
  txq : t.txq = s.txq
  rxq : t.rxq = s.rxq

/-- In `t` the FIFOs of endpoints 1..NUM_ENDPOINTS are empty and every other one is as in `s`. -/
structure State.FifosEmptied (s t : State) : Prop where
  txq : ∀ ep, epGet t.txq ep = if isDataEp s.cfg ep = true then [] else epGet s.txq ep
  rxq : ∀ ep, epGet t.rxq ep = if isDataEp s.cfg ep = true then [] else epGet s.rxq ep

theorem State.FifosEmptied.after_kept {s t u : State} (hcfg : t.cfg = s.cfg) (hkept : s.FifosKept t)
    (hempty : t.FifosEmptied u) : s.FifosEmptied u := by
  obtain ⟨htxq, hrxq⟩ := hempty
  rw [hcfg, hkept.txq] at htxq
  rw [hcfg, hkept.rxq] at hrxq
  exact ⟨htxq, hrxq⟩

theorem State.FifosEmptied.then_kept {s t u : State} (hempty : s.FifosEmptied t) (hkept : t.FifosKept u) :
    s.FifosEmptied u where
  txq ep := by rw [hkept.txq, hempty.txq]
  rxq ep := by rw [hkept.rxq, hempty.rxq]

theorem State.busReset_fifosEmptied (s : State) : s.FifosEmptied s.busReset where
  txq ep := by
    obtain ⟨-, -, -, -, -, -, htxq, -⟩ := s.busReset_arrays ep
    exact htxq
  rxq ep := by
    obtain ⟨-, -, -, -, -, hrxq, -⟩ := s.busReset_arrays ep
    exact hrxq

theorem State.reinit_fifosEmptied (s : State) : s.FifosEmptied s.reinit := by
  refine s.busReset_fifosEmptied.then_kept ?_
  unfold State.reinit
  generalize s.busReset = t
  exact ⟨rfl, rfl⟩

theorem reconfigure_fifosEmptied {s t : State} {v : Byte} (h : reconfigure s v = .ok t) : s.FifosEmptied t := by
  rw [reconfigure_eq] at h
  rw [seedSlots_frame _ _ _ h]
  obtain ⟨-, harrays⟩ := s.unseeded_spec v
  refine ⟨fun ep => ?_, fun ep => ?_⟩
  all_goals obtain ⟨-, hrxq, htxq, -⟩ := harrays ep
  · exact htxq
  · exact hrxq

/-- A SETUP stage keeps the FIFOs, but SET_CONFIGURATION's empties them (R262). -/
theorem setupStage_fifos {p : SetupPacket} {i : Instr} {s t : State}
    (ht : setupStage p (requestHandler i) s = .ok t) :
    s.FifosKept t ∨ (∃ v w l, i = .setConfiguration v w l) ∧ s.FifosEmptied t := by
  obtain ⟨u, r, v, hu, hv, rfl⟩ := setupStage_ok ht
  rw [applyResult_frame hv]
  rcases requestHandler_frame hu with ⟨b, w, l, hi, hreconf⟩ | hframe
  · obtain ⟨htxq, hrxq⟩ := reconfigure_fifosEmptied hreconf
    exact .inr ⟨⟨b, w, l, hi⟩, htxq, hrxq⟩
  · rw [hframe]
    exact .inl ⟨rfl, rfl⟩

/-- A POWER_TIMEOUT's writes of the descriptors (R272). -/
theorem lowerEntries_frame {l : List Nat} {s t : State} (h : lowerEntries l s = .ok t) :
    t = { s with mem := t.mem } := by
  induction l generalizing s with
  | nil =>
    cases h
    rfl
  | cons k l ih =>
    rw [lowerEntries] at h
    split at h
    · next u hu =>
      have hentry : u = { s with mem := u.mem } := by
        unfold lowerEntry at hu
        split at hu
        · cases hu
          rfl
        · split at hu
          · obtain ⟨-, rfl⟩ := (State.writeBuffer_ok _ _ _ _ _).mp hu
            rfl
          · cases hu
            rfl
      rw [ih h, hentry]
    · cases h

theorem lowerPower_frame {s t : State} (h : lowerPower s = .ok t) : t = { s with mem := t.mem, pwr := t.pwr } := by
  unfold lowerPower at h
  split at h <;> cases h
  next u hu => rw [lowerEntries_frame hu]

/-! ### The completions and the FIFOs (R137, R140, R162) -/

theorem refillTx_fifos {s t : State} {ep : Ep} {c : Bank} (h : refillTx s ep c = .ok t) :
    t.rxq = s.rxq ∧ (t.txq = s.txq ∨ ∃ q rest, epGet s.txq ep = q :: rest ∧ t.txq = epPut s.txq ep rest) := by
  unfold refillTx at h
  split at h
  · cases h
    exact ⟨rfl, .inl rfl⟩
  next q rest hq =>
    simp only at h
    split at h <;> cases h
    next u hu =>
      obtain ⟨-, rfl⟩ := (arm_ok _ _ _ _ _ _ _ _).mp hu
      exact ⟨rfl, .inr ⟨q, rest, hq, rfl⟩⟩

theorem txDone_fifos {s t : State} {ep : Ep} {c : Bank} (h : txDone s ep c = .ok t) :
    t.rxq = s.rxq ∧ (t.txq = s.txq ∨ ∃ q rest, epGet s.txq ep = q :: rest ∧ t.txq = epPut s.txq ep rest) := by
  unfold txDone at h
  split at h
  · cases h
  split at h
  · cases h
  · cases h
  next hd _ =>
  split at h
  · cases h
  next u hu =>
  obtain ⟨-, rfl⟩ := (releaseSlot_ok _ _ _ _ _).mp hu
  split at h
  · cases h
  next v hv =>
  cases h
  have hrelease := State.release_frame (s.setSlot ep .tx c Slot.cleared) hd
  split at hv
  · have hrefill := refillTx_fifos hv
    rw [hrelease] at hrefill
    exact hrefill
  · cases hv
    rw [hrelease]
    exact ⟨rfl, .inl rfl⟩

theorem refillRx_fifos {s t : State} {ep : Ep} {b : Bank} (h : refillRx s ep b = .ok t) : s.FifosKept t := by
  unfold refillRx at h
  split at h
  · next p u hu =>
    split at h <;> cases h
    next v hv =>
      obtain ⟨-, rfl⟩ := (arm_ok _ _ _ _ _ _ _ _).mp hv
      rw [(allocPacket_frame _ _ _ hu).2]
      exact ⟨rfl, rfl⟩
  · split at h <;> cases h
    next u hu =>
      obtain ⟨-, rfl⟩ := (releaseSlot_ok _ _ _ _ _).mp hu
      exact ⟨rfl, rfl⟩

theorem acceptRx_eq (s : State) (ep : Ep) (h : Nat) (n : BitVec 10) :
    acceptRx s ep h n = { s with
      pkt := ((s.setHeader h { len := n.setWidth 16, index := 0, next := none }).linkLast (epGet s.rxq ep) h).pkt
      rxq := epPut s.rxq ep (epGet s.rxq ep ++ [h])
      owner := s.owner.set h (.queue ep .rx)
      rxBytes := epPut s.rxBytes ep (epGet s.rxBytes ep + n.setWidth 32) } := by
  rw [acceptRx, State.enqueueRx_eq]
  rfl

theorem rxDone_fifos {s t : State} {ep : Ep} {b : Bank} {n : BitVec 10} (h : rxDone s ep b n = .ok t) :
    t.txq = s.txq ∧ (t.rxq = s.rxq ∨ ∃ q, t.rxq = epPut s.rxq ep (epGet s.rxq ep ++ [q])) := by
  unfold rxDone at h
  split at h
  · cases h
  · cases h
  next q _ =>
  split at h
  · obtain ⟨htx, hrx⟩ := refillRx_fifos h
    rw [acceptRx_eq] at htx hrx
    exact ⟨htx, .inr ⟨q, hrx⟩⟩
  · obtain ⟨-, rfl⟩ := (arm_ok _ _ _ _ _ _ _ _).mp h
    exact ⟨rfl, .inl rfl⟩

theorem submitPacket_fifos {s t : State} {ep : Ep} {h : Nat} (ht : submitPacket s ep h = .ok t) :
    t.rxq = s.rxq ∧ (t.txq = s.txq ∨ t.txq = epPut s.txq ep (epGet s.txq ep ++ [h])) := by
  unfold submitPacket at ht
  split at ht
  · split at ht <;> cases ht
    next u hu =>
      obtain ⟨-, rfl⟩ := (arm_ok _ _ _ _ _ _ _ _).mp hu
      exact ⟨rfl, .inl rfl⟩
  · cases ht
    rw [State.enqueueTx_eq]
    exact ⟨rfl, .inr rfl⟩

/-! ### TOKEN_DONE taken apart (R136, R182, R183) -/

theorem handleEntry_ok {s t : State} {e : StatEntry} (h : handleEntry s e = .ok t) :
    (∃ p, e.ep = 0 ∧ (s.slot e.ep e.dir e.bank).desc.low = pidCode p ∧
        ep0Token s e.dir e.bank p (s.slot e.ep e.dir e.bank).desc.bc = .ok t) ∨
      txDone s e.ep e.bank = .ok t ∨ rxDone s e.ep e.bank (s.slot e.ep e.dir e.bank).desc.bc = .ok t := by
  unfold handleEntry at h
  simp only at h
  split at h
  · cases h
  split at h
  · cases h
  next p hp =>
  split at h
  · cases h
  split at h
  · next hep => exact .inl ⟨p, hep, (pidOf_eq_some_iff _ _).mp hp, h⟩
  · split at h
    · exact .inr (.inl h)
    · exact .inr (.inr h)

theorem ep0Token_ok {s t : State} {d : Dir} {b : Bank} {p : Pid} {n : BitVec 10} (h : ep0Token s d b p n = .ok t) :
    (d = .rx ∧ p = .setupToken ∧ ep0Setup s b = .ok t) ∨ ep0OutDone s b n = .ok t ∨ ep0InDone s b = .ok t := by
  unfold ep0Token at h
  split at h
  · exact .inl ⟨rfl, rfl, h⟩
  · exact .inr (.inl h)
  · exact .inr (.inr h)
  all_goals cases h

theorem ep0Setup_ok {s t : State} {b : Bank} (h : ep0Setup s b = .ok t) :
    ∃ p, setupStage p (dispatchRequest p)
      (s.setSlot 0 .rx b { desc := armedDesc (ep0Count s.cfg) .data1, addr := ep0rxRef b }) = .ok t := by
  unfold ep0Setup at h
  split at h
  · cases h
  split at h
  · cases h
  next p _ =>
  split at h
  · cases h
  next u hu =>
  obtain ⟨-, rfl⟩ := (arm_ok _ _ _ _ _ _ _ _).mp hu
  exact ⟨p, h⟩

/-- A completed SETUP keeps the FIFOs, or empties them when its packet is SET_CONFIGURATION's. -/
theorem ep0Setup_fifos {s t : State} {b : Bank} (h : ep0Setup s b = .ok t) :
    s.FifosKept t ∨ requestCode t.setup = 0x0900 ∧ s.FifosEmptied t := by
  obtain ⟨p, hp⟩ := ep0Setup_ok h
  rw [dispatchRequest_eq] at hp
  rw [(setupStage_setup_fault hp).1]
  rcases setupStage_fifos hp with ⟨htxq, hrxq⟩ | ⟨⟨v, w, l, hi⟩, htxq, hrxq⟩
  · exact .inl ⟨htxq, hrxq⟩
  · refine .inr ⟨?_, htxq, hrxq⟩
    cases hdecode : decodeRequest p with
    | none =>
      rw [hdecode] at hi
      cases hi
    | some j =>
      rw [hdecode] at hi
      cases hi
      exact requestCode_of_setConfiguration hdecode

/-! ### How a step changes the FIFOs (R170) -/

/-- The instruction, or the SETUP a TOKEN_DONE handles, empties the FIFOs of the data endpoints (R262, R343). -/
def EmptiesFifos (i : Instr) (s t : State) : Prop :=
  i ∈ [Instr.init, .reinit, .hostBusReset, .powerTimeout] ∨ (∃ v w l, i = .setConfiguration v w l) ∨
    (i = .tokenDone ∧ requestCode t.setup = 0x0900 ∧ ∃ b rest,
      s.stat = { ep := 0, dir := .rx, bank := b } :: rest ∧ (s.slot 0 .rx b).desc.low = 0xD)

/-- The ways a step can change the FIFOs. -/
inductive FifosMove (i : Instr) (s t : State) : Prop
  | kept (htxq : t.txq = s.txq) (hrxq : t.rxq = s.rxq)
  | txAdded (ep : Ep) (h : Half) (hi : i = .tx ep h) (htxq : t.txq = epPut s.txq ep (epGet s.txq ep ++ [h.toNat]))
      (hrxq : t.rxq = s.rxq)
  | txTaken (ep : Ep) (h : Nat) (rest : List Nat) (hi : i = .tokenDone) (hq : epGet s.txq ep = h :: rest)
      (htxq : t.txq = epPut s.txq ep rest) (hrxq : t.rxq = s.rxq)
  | rxAdded (ep : Ep) (h : Nat) (hi : i = .tokenDone) (htxq : t.txq = s.txq)
      (hrxq : t.rxq = epPut s.rxq ep (epGet s.rxq ep ++ [h]))
  | rxTaken (ep : Ep) (h : Nat) (rest : List Nat) (hi : i = .rx ep) (hq : epGet s.rxq ep = h :: rest)
      (htxq : t.txq = s.txq) (hrxq : t.rxq = epPut s.rxq ep rest)
  | emptied (hi : EmptiesFifos i s t) (hempty : s.FifosEmptied t)

theorem State.FifosKept.fifosMove {i : Instr} {s t : State} (h : s.FifosKept t) : FifosMove i s t := .kept h.txq h.rxq

theorem handleEntry_fifosMove {s t : State} {e : StatEntry} {rest : List StatEntry} (hstat : s.stat = e :: rest)
    (h : handleEntry { s with stat := rest } e = .ok t) : FifosMove .tokenDone s t := by
  obtain ⟨ep, d, b⟩ := e
  rcases handleEntry_ok h with ⟨p, hep, hlow, h⟩ | h | h
  · obtain rfl : ep = 0 := hep
    rcases ep0Token_ok h with ⟨hd, rfl, h⟩ | h | h
    · obtain rfl : d = .rx := hd
      rcases ep0Setup_fifos h with ⟨htxq, hrxq⟩ | ⟨hcode, htxq, hrxq⟩
      · exact .kept htxq hrxq
      · exact .emptied (.inr (.inr ⟨rfl, hcode, b, rest, hstat, hlow⟩)) ⟨htxq, hrxq⟩
    · rw [ep0OutDone_frame h]
      exact .kept rfl rfl
    · rw [ep0InDone_frame h]
      exact .kept rfl rfl
  · obtain ⟨hrxq, htxq | ⟨q, rest, hq, htxq⟩⟩ := txDone_fifos h
    · exact .kept htxq hrxq
    · exact .txTaken _ q rest rfl hq htxq hrxq
  · obtain ⟨htxq, hrxq | ⟨q, hrxq⟩⟩ := rxDone_fifos h
    · exact .kept htxq hrxq
    · exact .rxAdded _ q rfl htxq hrxq

theorem execTokenDone_fifosMove {s t : State} (ht : execTokenDone s = .next t) : FifosMove .tokenDone s t := by
  obtain ⟨-, ht⟩ := (whenAlive_next _ _ _).mp ht
  split at ht
  · cases ht
    exact .kept rfl rfl
  · next e rest hstat =>
    exact commit_induction (fun _ => .kept rfl rfl) (fun u hu => handleEntry_fifosMove hstat hu) ht

theorem execTx_fifosMove {ep : Ep} {h : Half} {s t : State} (ht : execTx ep h s = .next t) :
    FifosMove (.tx ep h) s t := by
  obtain ⟨-, ht⟩ := (whenAlive_next _ _ _).mp ht
  iterate 4
    split at ht
    · cases ht
      exact .kept rfl rfl
  refine commit_induction (fun _ => .kept rfl rfl) (fun u hu => ?_) ht
  split at hu <;> cases hu
  next v hv =>
    obtain ⟨hrxq, htxq | htxq⟩ := submitPacket_fifos hv
    · exact .kept htxq hrxq
    · exact .txAdded ep h rfl htxq hrxq

theorem execRx_fifosMove {ep : Ep} {s t : State} (ht : execRx ep s = .next t) : FifosMove (.rx ep) s t := by
  obtain ⟨-, ht⟩ := (whenAlive_next _ _ _).mp ht
  iterate 2
    split at ht
    · cases ht
      exact .kept rfl rfl
  split at ht <;> cases ht
  · exact .kept rfl rfl
  · next h rest hq => exact .rxTaken ep h rest rfl hq rfl rfl

theorem exec_request_fifosMove {i : Instr} {s t : State} (hi : i.isCommand = false) (ht : exec i s = .next t) :
    FifosMove i s t := by
  obtain ⟨p, hp⟩ := exec_request i hi
  rw [hp, runRequest, whenAlive_next] at ht
  refine commit_induction (fun _ => .kept rfl rfl) (fun u hu => ?_) ht.2
  rcases setupStage_fifos hu with hkept | ⟨hset, hempty⟩
  · exact hkept.fifosMove
  · exact .emptied (.inr (.inl hset)) hempty

/-! ### The resets (R343) -/

theorem execInit_fifosMove {s t : State} (ht : execInit s = .next t) : FifosMove .init s t := by
  obtain ⟨-, ht⟩ := (whenAlive_next _ _ _).mp ht
  cases ht
  refine .emptied (.inl (by simp)) (s.busReset_fifosEmptied.then_kept ?_)
  generalize s.busReset = t
  exact ⟨rfl, rfl⟩

theorem execReinit_fifosMove {s t : State} (ht : execReinit s = .next t) : FifosMove .reinit s t := by
  obtain ⟨-, ht⟩ := (whenAlive_next _ _ _).mp ht
  cases ht
  refine .emptied (.inl (by simp)) (s.reinit_fifosEmptied.then_kept ?_)
  generalize s.reinit = t
  exact ⟨rfl, rfl⟩

theorem execHostBusReset_fifosMove {s t : State} (ht : execHostBusReset s = .next t) :
    FifosMove .hostBusReset s t := by
  obtain ⟨-, ht⟩ := (whenAlive_next _ _ _).mp ht
  split at ht <;> cases ht
  · exact .emptied (.inl (by simp)) s.busReset_fifosEmptied
  · exact .kept rfl rfl

theorem execPowerTimeout_fifosMove {s t : State} (ht : execPowerTimeout s = .next t) :
    FifosMove .powerTimeout s t := by
  obtain ⟨-, ht⟩ := (whenAlive_next _ _ _).mp ht
  split at ht
  · refine commit_induction (fun _ => .kept rfl rfl) (fun u hu => ?_) ht
    split at hu <;> cases hu
    next v hv =>
      have hkept : s.FifosKept v := by
        rw [lowerPower_frame hv]
        exact ⟨rfl, rfl⟩
      exact .emptied (.inl (by simp))
        (.after_kept (lowerPower_storesWithin hv).cfg hkept v.reinit_fifosEmptied)
  · cases ht
    exact .kept rfl rfl

/-! ### The commands that leave the FIFOs alone -/

theorem execAlloc_fifosKept {s t : State} (ht : execAlloc s = .next t) : s.FifosKept t := by
  obtain ⟨-, ht⟩ := (whenAlive_next _ _ _).mp ht
  split at ht <;> cases ht
  · next hu =>
    rw [(allocPacket_frame _ _ _ hu).2]
    exact ⟨rfl, rfl⟩
  · exact ⟨rfl, rfl⟩

theorem execFree_fifosKept {h : Half} {s t : State} (ht : execFree h s = .next t) : s.FifosKept t := by
  obtain ⟨-, ht⟩ := (whenAlive_next _ _ _).mp ht
  split at ht <;> cases ht
  · rw [State.release_frame]
    exact ⟨rfl, rfl⟩
  · exact ⟨rfl, rfl⟩

theorem returnCount_fifosKept {ep : Ep} {n : Word} {s t : State} (ht : returnCount s ep n = .next t) :
    s.FifosKept t := by
  obtain ⟨-, ht⟩ := (whenAlive_next _ _ _).mp ht
  split at ht <;> cases ht <;> exact ⟨rfl, rfl⟩

theorem execPktFill_fifosKept {h : Half} {data : List Byte} {s t : State} (ht : execPktFill h data s = .next t) :
    s.FifosKept t := by
  obtain ⟨-, ht⟩ := (whenAlive_next _ _ _).mp ht
  split at ht
  · cases ht
    exact ⟨rfl, rfl⟩
  · refine commit_induction (fun _ => ⟨rfl, rfl⟩) (fun u hu => ?_) ht
    split at hu <;> cases hu
    next v hv =>
      obtain ⟨-, rfl⟩ := (State.writeBuffer_ok _ _ _ _ _).mp hv
      exact ⟨rfl, rfl⟩

theorem execPktRead_fifosKept {h : Half} {s t : State} (ht : execPktRead h s = .next t) : s.FifosKept t := by
  obtain ⟨-, ht⟩ := (whenAlive_next _ _ _).mp ht
  split at ht
  · cases ht
    exact ⟨rfl, rfl⟩
  · refine commit_induction (fun _ => ⟨rfl, rfl⟩) (fun u hu => ?_) ht
    split at hu <;> cases hu
    exact ⟨rfl, rfl⟩

theorem memWrite_fifosKept {s t : State} {ref : BufRef} {bs : List Byte} (h : memWrite s ref bs = .ok t) :
    s.FifosKept t := by
  obtain ⟨-, -, -, -, rfl⟩ := (memWrite_ok _ _ _ _).mp h
  exact ⟨rfl, rfl⟩

@[simp] theorem State.completeTransaction_txq (s : State) (ep : Ep) (d : Dir) (x : Desc) :
    (s.completeTransaction ep d x).txq = s.txq := rfl

@[simp] theorem State.completeTransaction_rxq (s : State) (ep : Ep) (d : Dir) (x : Desc) :
    (s.completeTransaction ep d x).rxq = s.rxq := rfl

theorem execHostSetup_fifosKept {a : BitVec 7} {p : SetupPacket} {s t : State} (ht : execHostSetup a p s = .next t) :
    s.FifosKept t := by
  obtain ⟨-, ht⟩ := (whenAlive_next _ _ _).mp ht
  split at ht
  · refine commit_induction (fun _ => ⟨rfl, rfl⟩) (fun u hu => ?_) ht
    split at hu <;> cases hu
    next v hv =>
      obtain ⟨htxq, hrxq⟩ := memWrite_fifosKept hv
      exact ⟨by simpa using htxq, by simpa using hrxq⟩
  · cases ht
    exact ⟨rfl, rfl⟩

theorem execHostOut_fifosKept {ep : Ep} {a : BitVec 7} {data : List Byte} {s t : State}
    (ht : execHostOut ep a data s = .next t) : s.FifosKept t := by
  obtain ⟨-, ht⟩ := (whenAlive_next _ _ _).mp ht
  split at ht
  · split at ht
    · cases ht
      exact ⟨rfl, rfl⟩
    split at ht
    · refine commit_induction (fun _ => ⟨rfl, rfl⟩) (fun u hu => ?_) ht
      unfold receiveOut at hu
      split at hu <;> cases hu
      next v hv =>
        obtain ⟨htxq, hrxq⟩ := memWrite_fifosKept hv
        exact ⟨by simpa using htxq, by simpa using hrxq⟩
    · cases ht
      exact ⟨rfl, rfl⟩
  · cases ht
    exact ⟨rfl, rfl⟩

theorem execHostIn_fifosKept {ep : Ep} {a : BitVec 7} {s t : State} (ht : execHostIn ep a s = .next t) :
    s.FifosKept t := by
  obtain ⟨-, ht⟩ := (whenAlive_next _ _ _).mp ht
  split at ht
  · split at ht
    · cases ht
      exact ⟨rfl, rfl⟩
    split at ht
    · refine commit_induction (fun _ => ⟨rfl, rfl⟩) (fun u hu => ?_) ht
      unfold sendIn at hu
      split at hu <;> cases hu
      next v hv =>
        have hread : s.FifosKept v := by
          rw [(memRead_ok _ _ _ _ _ hv).2.1]
          exact ⟨rfl, rfl⟩
        exact ⟨by simpa using hread.txq, by simpa using hread.rxq⟩
    · cases ht
      exact ⟨rfl, rfl⟩
  · cases ht
    exact ⟨rfl, rfl⟩

/-! ### Every instruction -/

theorem exec_fifosMove {i : Instr} {s t : State} (ht : exec i s = .next t) : FifosMove i s t := by
  cases i with
  | init => exact execInit_fifosMove ht
  | alloc => exact (execAlloc_fifosKept ht).fifosMove
  | free => exact (execFree_fifosKept ht).fifosMove
  | tx => exact execTx_fifosMove ht
  | rx => exact execRx_fifosMove ht
  | txByteCount | txPacketCount | rxByteCount => exact (returnCount_fifosKept ht).fifosMove
  | configured | deviceReload =>
    obtain ⟨-, ht⟩ := (whenAlive_next _ _ _).mp ht
    cases ht
    exact .kept rfl rfl
  | reinit => exact execReinit_fifosMove ht
  | pktFill => exact (execPktFill_fifosKept ht).fifosMove
  | pktRead => exact (execPktRead_fifosKept ht).fifosMove
  | tokenDone => exact execTokenDone_fifosMove ht
  | powerTimeout => exact execPowerTimeout_fifosMove ht
  | hostSetup => exact (execHostSetup_fifosKept ht).fifosMove
  | hostOut => exact (execHostOut_fifosKept ht).fifosMove
  | hostIn => exact (execHostIn_fifosKept ht).fifosMove
  | hostBusReset => exact execHostBusReset_fifosMove ht
  | _ => exact exec_request_fifosMove rfl ht

/-- Settles O59, by the ways a step can change the FIFOs; one endpoint's FIFO is looked at in each. -/
theorem queuesAreFifos : Obligations.QueuesAreFifos := by
  intro i s t ep ht
  dsimp only
  cases exec_fifosMove ht with
  | kept htxq hrxq => exact ⟨.inl (by rw [htxq]), .inl (by rw [hrxq])⟩
  | txAdded e h hi htxq hrxq =>
    refine ⟨?_, .inl (by rw [hrxq])⟩
    rw [htxq, epGet_epPut]
    split
    · next he => exact .inr (.inl ⟨h, he ▸ hi, by rw [he]⟩)
    · exact .inl rfl
  | txTaken e h rest hi hq htxq hrxq =>
    refine ⟨?_, .inl (by rw [hrxq])⟩
    rw [htxq, epGet_epPut]
    split
    · next he => exact .inr (.inr (.inl ⟨hi, h, he ▸ hq⟩))
    · exact .inl rfl
  | rxAdded e h hi htxq hrxq =>
    refine ⟨.inl (by rw [htxq]), ?_⟩
    rw [hrxq, epGet_epPut]
    split
    · next he => exact .inr (.inl ⟨hi, h, by rw [he]⟩)
    · exact .inl rfl
  | rxTaken e h rest hi hq htxq hrxq =>
    refine ⟨.inl (by rw [htxq]), ?_⟩
    rw [hrxq, epGet_epPut]
    split
    · next he => exact .inr (.inr (.inl ⟨he ▸ hi, h, he ▸ hq⟩))
    · exact .inl rfl
  | emptied hi hempty =>
    rw [hempty.txq, hempty.rxq]
    split
    · next hep => exact ⟨.inr (.inr (.inr ⟨⟨hep, hi⟩, rfl⟩)), .inr (.inr (.inr ⟨⟨hep, hi⟩, rfl⟩))⟩
    · exact ⟨.inl rfl, .inl rfl⟩

end Sys2Proof.Machine
end

section
/-! TOKEN_DONE run on an entry: the request of a completed SETUP, and the completion tables of the data endpoints. -/

namespace Sys2Proof.Machine

/-! ### The entry's handler (R136, R182) -/

/-- A legal entry of a slot the SIE has completed goes to endpoint 0, or to the completion of its direction. -/
theorem handleEntry_of_legal {s : State} {ep : Ep} {d : Dir} {b : Bank} {p : Pid}
    (hown : (s.slot ep d b).desc.own = false) (hlow : (s.slot ep d b).desc.low = pidCode p)
    (hlegal : legalToken s.cfg ep d p = true) :
    handleEntry s ⟨ep, d, b⟩ =
      if ep = 0 then ep0Token s d b p (s.slot ep d b).desc.bc
      else if d = .tx then txDone s ep b else rxDone s ep b (s.slot ep d b).desc.bc := by
  have hpid := (pidOf_eq_some_iff _ _).mpr hlow
  cases d <;> simp [handleEntry, hown, hpid, hlegal]

theorem legalToken_out_of_dataEp {c : Params} {ep : Ep} (hep : isDataEp c ep = true) :
    legalToken c ep .rx .outToken = true := by
  rw [legalToken, hep, Bool.or_true]

theorem legalToken_in_of_dataEp {c : Params} {ep : Ep} (hep : isDataEp c ep = true) :
    legalToken c ep .tx .inToken = true := by
  rw [legalToken, hep, Bool.or_true]

theorem exec_tokenDone_tx {s : State} {ep : Ep} {c : Bank} {rest : List StatEntry} (hs : s.Alive)
    (hstat : s.stat = ⟨ep, .tx, c⟩ :: rest) (hep : isDataEp s.cfg ep = true)
    (hown : (s.slot ep .tx c).desc.own = false) (hlow : (s.slot ep .tx c).desc.low = 0x9) :
    exec .tokenDone s = commit s (txDone { s with stat := rest } ep c) := by
  have hentry := handleEntry_of_legal (s := { s with stat := rest }) (p := .inToken) hown hlow
    (legalToken_in_of_dataEp hep)
  rw [exec_tokenDone_of_stat hs hstat, hentry, if_neg (isDataEp_ne_zero _ _ hep), if_pos rfl]

theorem exec_tokenDone_rx {s : State} {ep : Ep} {b : Bank} {rest : List StatEntry} (hs : s.Alive)
    (hstat : s.stat = ⟨ep, .rx, b⟩ :: rest) (hep : isDataEp s.cfg ep = true)
    (hown : (s.slot ep .rx b).desc.own = false) (hlow : (s.slot ep .rx b).desc.low = 0x1) :
    exec .tokenDone s = commit s (rxDone { s with stat := rest } ep b (s.slot ep .rx b).desc.bc) := by
  have hentry := handleEntry_of_legal (s := { s with stat := rest }) (p := .outToken) hown hlow
    (legalToken_out_of_dataEp hep)
  rw [exec_tokenDone_of_stat hs hstat, hentry, if_neg (isDataEp_ne_zero _ _ hep), if_neg Dir.noConfusion]
  rfl

/-! ### A completed SETUP (R183) -/

/-- The packet is read, the receive buffer given back, and the packet's stage run. -/
theorem ep0Setup_of_read {s : State} {b : Bank} {bytes : List Byte} {p : SetupPacket}
    (hown : (s.slot 0 .rx b).desc.own = false) (hread : s.readBuffer (.region (.ep0rx b)) 0 8 = .ok bytes)
    (hp : setupOfBytes bytes = some p) :
    ep0Setup s b = setupStage p (dispatchRequest p)
      (s.setSlot 0 .rx b { desc := armedDesc (ep0Count s.cfg) .data1, addr := ep0rxRef b }) := by
  simp only [ep0Setup, hread, hp, arm_of_released s 0 .rx b _ _ _ hown]

theorem exec_tokenDone_setup {s : State} {b : Bank} {rest : List StatEntry} {bytes : List Byte} {p : SetupPacket}
    (hs : s.Alive) (hstat : s.stat = ⟨0, .rx, b⟩ :: rest) (hown : (s.slot 0 .rx b).desc.own = false)
    (hlow : (s.slot 0 .rx b).desc.low = 0xD) (hread : s.readBuffer (.region (.ep0rx b)) 0 8 = .ok bytes)
    (hp : setupOfBytes bytes = some p) :
    exec .tokenDone s = commit s (setupStage p (dispatchRequest p) (({ s with stat := rest } : State).setSlot 0 .rx b
      { desc := armedDesc (ep0Count s.cfg) .data1, addr := ep0rxRef b })) := by
  have hentry := handleEntry_of_legal (s := { s with stat := rest }) (p := .setupToken) hown hlow rfl
  rw [exec_tokenDone_of_stat hs hstat, hentry, if_pos rfl, ep0Token,
    ep0Setup_of_read (s := { s with stat := rest }) hown hread hp]

/-- The request a packet decodes to is executed as the stage of that packet (log entry 6). -/
theorem exec_of_decodeRequest {p : SetupPacket} {i : Instr} (h : decodeRequest p = some i) :
    exec i = runRequest p (requestHandler i) := by
  have henc := (encode_of_decodeRequest h).1
  have hreq := decodeRequest_isCommand h
  cases i with
  | getStatusDevice | getStatusEndpoint | getConfiguration | hidGetIdle | hidGetProtocol | setConfiguration
  | clearFeatureEndpoint | setFeatureEndpoint | setAddress | getDescriptorDevice | getDescriptorInterface
  | hidGetReport | hidSetReport | hidSetIdle | hidSetProtocol | cdcSetLineCoding | cdcGetLineCoding
  | cdcSetControlLineState =>
    cases henc
    rfl
  | _ => cases hreq

/-- Settles O7: both run the stage of the packet on the same state, and a stage that succeeds raises no mark. -/
theorem tokenDoneRunsRequest : Obligations.TokenDoneRunsRequest := by
  intro s b rest bytes p i hs hstat hown hlow hread hp hi
  have hdispatch : dispatchRequest p = requestHandler i := by rw [dispatchRequest_eq, hi, Option.getD_some]
  have htoken := exec_tokenDone_setup hs hstat hown hlow hread hp
  rw [hdispatch] at htoken
  rw [htoken, exec_of_decodeRequest hi]
  refine ⟨fun t ht hfault => ?done, fun t r ht hfault => ?faulted⟩
  all_goals obtain ⟨-, hok | ⟨r', herror, rfl⟩⟩ := (runRequest_next _ _ _ _).mp ht
  case done.inl => rw [ep0rxRef, hok, commit_ok]
  case done.inr => cases hfault
  case faulted.inl =>
    have hclear : t.fault = none := (setupStage_setup_fault hok).2.trans hs.1
    cases hclear.symm.trans hfault
  case faulted.inr =>
    cases hfault
    rw [ep0rxRef, herror, commit_error]

/-! ### TX completion (R137, R138) -/

/-- A released packet never goes to a TX slot (R115). -/
theorem State.slot_release_tx (s : State) (h : Nat) (ep : Ep) (b : Bank) :
    (s.release h).slot ep .tx b = s.slot ep .tx b := by
  unfold State.release
  split
  · cases ht : s.redirectTarget with
    | none => rw [State.redirect_none s h ht]; rfl
    | some x =>
      rw [State.redirect_some s h x.1 x.2 ht]
      exact State.slot_setSlot_other _ _ _ _ _ _ _ _ fun hx => Dir.noConfusion hx.2.1
  · rfl

theorem completionTable_mismatch {st : TxState} {c : Bank} (empty : Bool)
    (h : st = .bothFreeEvenFirst ∨ st = .bothFreeOddFirst ∨ (st = .evenFree ∧ c = .even) ∨ (st = .oddFree ∧ c = .odd)) :
    completionTable st c empty = .error .bankStateMismatch := by
  rcases h with rfl | rfl | ⟨rfl, rfl⟩ | ⟨rfl, rfl⟩
  · rfl
  · rfl
  · cases empty <;> rfl
  · cases empty <;> rfl

theorem completionTable_invariant {st : TxState} {c : Bank}
    (h : (st = .evenFree ∧ c = .odd) ∨ (st = .oddFree ∧ c = .even)) :
    completionTable st c false = .error .queueInvariant := by
  rcases h with ⟨rfl, rfl⟩ | ⟨rfl, rfl⟩ <;> rfl

/-- The rows of R138 with an empty FIFO. -/
theorem completionTable_idle : ∀ x ∈ [(TxState.evenFree, Bank.odd, TxState.bothFreeEvenFirst),
      (TxState.oddFree, Bank.even, TxState.bothFreeOddFirst),
      (TxState.noneFreeEvenFirst, Bank.even, TxState.evenFree),
      (TxState.noneFreeEvenFirst, Bank.odd, TxState.oddFree),
      (TxState.noneFreeOddFirst, Bank.even, TxState.evenFree),
      (TxState.noneFreeOddFirst, Bank.odd, TxState.oddFree)],
    completionTable x.1 x.2.1 true = .ok (false, x.2.2) := by
  simp [completionTable]

/-- The rows of R138 that refill the completed bank. -/
theorem completionTable_refill {st : TxState} (c : Bank) (h : noneFree st = true) :
    completionTable st c false = .ok (true, if c = .even then .noneFreeOddFirst else .noneFreeEvenFirst) := by
  cases st with
  | noneFreeEvenFirst | noneFreeOddFirst => cases c <;> rfl
  | _ => cases h

theorem completionTable_ok {st : TxState} {c : Bank} {q : List Nat}
    (h : noneFree st = true ∨ (((st = .evenFree ∧ c = .odd) ∨ (st = .oddFree ∧ c = .even)) ∧ q = [])) :
    ∃ x, completionTable st c q.isEmpty = .ok x := by
  rcases h with hnone | ⟨⟨rfl, rfl⟩ | ⟨rfl, rfl⟩, rfl⟩
  · cases q with
    | cons => exact ⟨_, completionTable_refill c hnone⟩
    | nil =>
      cases st with
      | noneFreeEvenFirst | noneFreeOddFirst => cases c <;> exact ⟨_, rfl⟩
      | _ => cases hnone
  · exact ⟨_, rfl⟩
  · exact ⟨_, rfl⟩

theorem txDone_of_table_error {s : State} {ep : Ep} {c : Bank} {r : FaultReason}
    (h : completionTable (epGet s.txState ep) c (epGet s.txq ep).isEmpty = .error r) : txDone s ep c = .error r := by
  simp only [txDone, h]

theorem txDone_of_no_packet {s : State} {ep : Ep} {c : Bank} {x : Bool × TxState}
    (h : completionTable (epGet s.txState ep) c (epGet s.txq ep).isEmpty = .ok x)
    (haddr : (s.slot ep .tx c).addr.isPool = false) : txDone s ep c = .error .unexpectedToken := by
  simp only [txDone, h]
  cases ha : (s.slot ep .tx c).addr with
  | pool => rw [ha] at haddr; cases haddr
  | null | reg => rfl

theorem txDone_idle {s : State} {ep : Ep} {c : Bank} {st : TxState} {h : Nat}
    (htable : completionTable (epGet s.txState ep) c (epGet s.txq ep).isEmpty = .ok (false, st))
    (hown : (s.slot ep .tx c).desc.own = false) (haddr : (s.slot ep .tx c).addr = .pool h) :
    txDone s ep c = .ok (((s.setSlot ep .tx c Slot.cleared).release h).setTxState ep st) := by
  simp only [txDone, htable, haddr, releaseSlot_of_released s ep .tx c hown, Bool.false_eq_true, if_false]

/-- The head of the FIFO armed in a released bank (R137, action REFILL). -/
theorem refillTx_of_released {s : State} {ep : Ep} {c : Bank} {q : Nat} {qs : List Nat}
    (hq : epGet s.txq ep = q :: qs) (hown : (s.slot ep .tx c).desc.own = false) :
    refillTx s ep c = .ok
      { s.setSlot ep .tx c { desc := armedDesc ((s.header q).len.setWidth 10) (bankToggle c), addr := .pool q } with
        txq := epPut s.txq ep qs
        pkt := s.pkt.set q { s.header q with next := none }
        owner := s.owner.set q (.slot ep .tx c) } := by
  have harm := arm_of_released ((s.setTxq ep qs).setNext q none) ep .tx c (.pool q) ((s.header q).len.setWidth 10)
    (bankToggle c) hown
  simp only [refillTx, hq, harm]
  rfl

theorem txDone_refill {s : State} {ep : Ep} {c : Bank} {st : TxState} {h q : Nat} {qs : List Nat}
    (htable : completionTable (epGet s.txState ep) c (epGet s.txq ep).isEmpty = .ok (true, st))
    (hown : (s.slot ep .tx c).desc.own = false) (haddr : (s.slot ep .tx c).addr = .pool h)
    (hq : epGet s.txq ep = q :: qs) :
    txDone s ep c = .ok
      { ((s.setSlot ep .tx c Slot.cleared).release h).setSlot ep .tx c
          { desc := armedDesc ((s.header q).len.setWidth 10) (bankToggle c), addr := .pool q } with
        txq := epPut s.txq ep qs
        pkt := s.pkt.set q { s.header q with next := none }
        owner := ((s.setSlot ep .tx c Slot.cleared).release h).owner.set q (.slot ep .tx c)
        txState := epPut s.txState ep st } := by
  have hframe := State.release_frame (s.setSlot ep .tx c Slot.cleared) h
  have hslot := State.slot_release_tx (s.setSlot ep .tx c Slot.cleared) h ep c
  simp only [txDone, htable, haddr, releaseSlot_of_released s ep .tx c hown, if_true]
  generalize (s.setSlot ep .tx c Slot.cleared).release h = u at hframe hslot ⊢
  have htxq : u.txq = s.txq := by rw [hframe]; rfl
  have hpkt : u.pkt = s.pkt := by rw [hframe]; rfl
  have htxState : u.txState = s.txState := by rw [hframe]; rfl
  have hheader : u.header q = s.header q := by rw [State.header, hpkt, State.header]
  rw [State.slot_setSlot_same] at hslot
  rw [refillTx_of_released (s := u) (by rw [htxq, hq]) (by rw [hslot]; rfl), hheader, htxq, hpkt]
  simp only [State.setTxState, State.setSlot_txState, htxState]

/-- Settles O28, by the rows of the completion table. -/
theorem txCompletion : Obligations.TxCompletion := by
  intro s ep c rest hs hstat hep hown hlow
  dsimp only
  rw [exec_tokenDone_tx hs hstat hep hown hlow]
  refine ⟨fun hst => ?mismatch, fun hst hq => ?invariant, fun hst haddr => ?noPacket,
    fun h haddr => ⟨fun x hx hst hc hq => ?idle, fun q qs hst hq => ?refill⟩⟩
  case mismatch =>
    rw [txDone_of_table_error (s := { s with stat := rest }) (completionTable_mismatch _ hst), commit_error]
  case invariant =>
    have htable := completionTable_invariant hst
    rw [← List.isEmpty_eq_false_iff.mpr hq] at htable
    rw [txDone_of_table_error (s := { s with stat := rest }) htable, commit_error]
  case noPacket =>
    obtain ⟨x, hx⟩ := completionTable_ok hst
    rw [txDone_of_no_packet (s := { s with stat := rest }) hx haddr, commit_error]
  case idle =>
    have htable := completionTable_idle x hx
    rw [← hst, ← hc, ← List.isEmpty_iff.mpr hq] at htable
    rw [txDone_idle (s := { s with stat := rest }) htable hown haddr, commit_ok]
    have hframe := State.release_frame (({ s with stat := rest } : State).setSlot ep .tx c Slot.cleared) h
    rw [State.setTxState, hframe]
    rfl
  case refill =>
    have htable := completionTable_refill c hst
    rw [← List.isEmpty_cons (x := q) (xs := qs), ← hq] at htable
    rw [txDone_refill (s := { s with stat := rest }) htable hown haddr hq, commit_ok]
    rfl

/-! ### RX completion (R140, R141) -/

theorem rxDone_of_no_packet {s : State} {ep : Ep} {b : Bank} (n : BitVec 10)
    (haddr : (s.slot ep .rx b).addr.isPool = false) : rxDone s ep b n = .error .unexpectedToken := by
  unfold rxDone
  cases ha : (s.slot ep .rx b).addr with
  | pool => rw [ha] at haddr; cases haddr
  | null | reg => rfl

theorem rxDone_of_empty {s : State} {ep : Ep} {b : Bank} {h : Nat} (hown : (s.slot ep .rx b).desc.own = false)
    (haddr : (s.slot ep .rx b).addr = .pool h) :
    rxDone s ep b 0 = .ok (s.setSlot ep .rx b { desc := armedDesc 64 (bankToggle b), addr := .pool h }) := by
  simp only [rxDone, haddr, ne_eq, not_true_eq_false, if_false, arm_of_released s ep .rx b _ _ _ hown]

theorem rxDone_of_nonempty {s : State} {ep : Ep} {b : Bank} {h : Nat} {n : BitVec 10} (hn : n ≠ 0)
    (haddr : (s.slot ep .rx b).addr = .pool h) : rxDone s ep b n = refillRx (acceptRx s ep h n) ep b := by
  simp only [rxDone, haddr, hn, ne_eq, not_false_eq_true, if_true]

/-- The headers after a packet has been linked depend on the headers before alone. -/
theorem State.linkLast_pkt_congr {s t : State} (hpkt : s.pkt = t.pkt) (q : List Nat) (h : Nat) :
    (s.linkLast q h).pkt = (t.linkLast q h).pkt := by
  unfold State.linkLast
  cases q.getLast? <;> simp [State.header, hpkt]

theorem acceptRx_slot (s : State) (ep : Ep) (h : Nat) (n : BitVec 10) : (acceptRx s ep h n).slot = s.slot :=
  State.slot_congr _ _ (by rw [acceptRx_eq])

theorem acceptRx_isFree (s : State) (ep : Ep) (h : Nat) (n : BitVec 10) : (acceptRx s ep h n).isFree = s.isFree := by
  rw [acceptRx_eq]
  rfl

theorem refillRx_of_none {s : State} {ep : Ep} {b : Bank} (hnone : ∀ i, s.isFree i = false)
    (hown : (s.slot ep .rx b).desc.own = false) :
    refillRx s ep b = .ok { s.setSlot ep .rx b Slot.cleared with rxNeeded := s.rxNeeded + 1 } := by
  simp only [refillRx, (allocPacket_none s).mpr hnone, releaseSlot_of_released s ep .rx b hown]
  rfl

theorem refillRx_of_free {s : State} {ep : Ep} {b : Bank} {i : Nat} (hi : s.isFree i = true)
    (hown : (s.slot ep .rx b).desc.own = false) :
    refillRx s ep b = .ok
      (((s.drop.claim s.pick).setSlot ep .rx b { desc := armedDesc 64 (bankToggle b), addr := .pool s.pick }).setOwner
        s.pick (.slot ep .rx b)) := by
  have halloc := allocPacket_of_isFree hi
  have hclaimed : ((s.drop.claim s.pick).slot ep .rx b).desc.own = false := by
    rw [State.slot_congr _ s (by rw [(allocPacket_frame _ _ _ halloc).2])]
    exact hown
  simp only [refillRx, halloc, arm_of_released _ ep .rx b _ _ _ hclaimed]

/-- Settles O29: by the packet's length, and by whether a packet is free. -/
theorem rxCompletion : Obligations.RxCompletion := by
  intro s ep b rest hs hstat hep hown hlow
  rw [exec_tokenDone_rx hs hstat hep hown hlow]
  refine ⟨fun haddr => ?noPacket, fun h haddr => ?_⟩
  case noPacket => rw [rxDone_of_no_packet (s := { s with stat := rest }) _ haddr, commit_error]
  dsimp only
  generalize (s.slot ep .rx b).desc.bc = n
  refine ⟨fun hn => ?empty, fun hn hnone => ?starved, fun hn hfree => ?refilled⟩
  case empty =>
    rw [hn, rxDone_of_empty (s := { s with stat := rest }) hown haddr, commit_ok]
  all_goals
    rw [rxDone_of_nonempty (s := { s with stat := rest }) hn haddr]
    have hslot := acceptRx_slot { s with stat := rest } ep h n
    have hmask := acceptRx_isFree { s with stat := rest } ep h n
    have haccept := acceptRx_eq { s with stat := rest } ep h n
    have hlink := State.linkLast_pkt_congr (t := s.setHeader h ⟨n.setWidth 16, 0, none⟩)
      (s := ({ s with stat := rest } : State).setHeader h ⟨n.setWidth 16, 0, none⟩) rfl (epGet s.rxq ep) h
    rw [hlink] at haccept
    generalize acceptRx { s with stat := rest } ep h n = u at hslot hmask haccept ⊢
    have hown' : (u.slot ep .rx b).desc.own = false := by rw [hslot]; exact hown
  case starved =>
    rw [refillRx_of_none (by rw [hmask]; exact hnone) hown', commit_ok, haccept]
  case refilled =>
    obtain ⟨j, hj⟩ := hfree
    have hj' : u.isFree j = true := by rw [hmask]; exact hj
    have hpick : u.isFree u.pick = true := (allocPacket_frame _ _ _ (allocPacket_of_isFree hj')).1
    rw [refillRx_of_free hj' hown', commit_ok]
    refine ⟨u.pick, _, by rw [hmask] at hpick; exact hpick, rfl, ?_⟩
    generalize u.pick = i
    rw [State.claim_eq, State.drop_frame, haccept]
    simp only [State.setOwner, State.setSlot, List.set_set]
    rfl

end Sys2Proof.Machine
end

section
/-! What TX arms or queues, and the commands and transactions that are not enabled. -/

namespace Sys2Proof.Machine

/-! ### TX (R135, R160) -/

/-- TX of a packet that passes every check of R160. -/
structure TxReady (s : State) (ep : Ep) (h : Half) : Prop where
  alive : s.Alive
  enabled : txEnabled s.cfg ep = true
  owned : s.callerOwns h.toNat = true
  fits : (s.header h.toNat).len.toNat ≤ 64
  configured : s.config ≠ 0

theorem TxReady.exec_tx {s : State} {ep : Ep} {h : Half} (hr : TxReady s ep h) :
    (∀ t, submitPacket s ep h.toNat = .ok t → exec (.tx ep h) s = .next (t.returning (.ok .unit))) ∧
      ∀ r, submitPacket s ep h.toNat = .error r → exec (.tx ep h) s = .next (s.raise r) := by
  obtain ⟨halive, henabled, howned, hfits, hconfig⟩ := hr
  have hlen : ¬Config.epMaxPacket < (s.header h.toNat).len.toNat := Nat.not_lt.mpr hfits
  have hconf : isConfigured s = true := decide_eq_true hconfig
  rw [exec, execTx, whenAlive_of_alive s _ halive, handleId]
  simp only [henabled, howned, hlen, hconf, Bool.not_true, Bool.false_eq_true, if_false]
  refine ⟨fun t ht => ?_, fun r hr => ?_⟩
  · rw [ht, commit_ok]
  · rw [hr, commit_error]

/-- The packet armed in a bank of its endpoint, the bank machine moved on (R135). -/
def State.submitted (s : State) (ep : Ep) (b : Bank) (h : Nat) (st : TxState) : State :=
  ((s.setSlot ep .tx b
    { desc := armedDesc ((s.header h).len.setWidth 10) (bankToggle b), addr := .pool h }).setOwner h
      (.slot ep .tx b)).setTxState ep st

theorem submitPacket_of_free_bank {s : State} {ep : Ep} {b : Bank} {h : Nat} {st : TxState}
    (htable : submitTable (epGet s.txState ep) = some (b, st)) (hown : (s.slot ep .tx b).desc.own = false) :
    submitPacket s ep h = .ok (s.submitted ep b h st) := by
  simp only [submitPacket, htable, arm_of_released s ep .tx b _ _ _ hown]
  rfl

theorem submitPacket_of_owned_bank {s : State} {ep : Ep} {b : Bank} {h : Nat} {st : TxState}
    (htable : submitTable (epGet s.txState ep) = some (b, st)) (hown : (s.slot ep .tx b).desc.own = true) :
    submitPacket s ep h = .error .ownedDescriptorWrite := by
  have harm := (arm_error s ep .tx b (.pool h) ((s.header h).len.setWidth 10) (bankToggle b) _).mpr ⟨hown, rfl⟩
  simp only [submitPacket, htable, harm]

theorem submitPacket_of_no_bank {s : State} {ep : Ep} {h : Nat} (htable : submitTable (epGet s.txState ep) = none) :
    submitPacket s ep h = .ok ((s.enqueueTx ep h).setOwner h (.queue ep .tx)) := by
  simp only [submitPacket, htable]

/-- The rows of R135 that arm a bank. -/
theorem submitTable_arms : ∀ x ∈ [(TxState.bothFreeEvenFirst, Bank.even, TxState.oddFree),
      (TxState.bothFreeOddFirst, Bank.odd, TxState.evenFree),
      (TxState.evenFree, Bank.even, TxState.noneFreeOddFirst),
      (TxState.oddFree, Bank.odd, TxState.noneFreeEvenFirst)],
    submitTable x.1 = some x.2 := by
  simp [submitTable]

theorem submitTable_queues {st : TxState} (h : st = .noneFreeEvenFirst ∨ st = .noneFreeOddFirst) :
    submitTable st = none := by
  rcases h with rfl | rfl <;> rfl

theorem TxReady.exec_tx_armed {s : State} {ep : Ep} {h : Half} {b : Bank} {st : TxState} (hr : TxReady s ep h)
    (htable : submitTable (epGet s.txState ep) = some (b, st)) (hown : (s.slot ep .tx b).desc.own = false) :
    exec (.tx ep h) s = .next ((s.submitted ep b h.toNat st).returning (.ok .unit)) :=
  hr.exec_tx.1 _ (submitPacket_of_free_bank htable hown)

theorem TxReady.exec_tx_queued {s : State} {ep : Ep} {h : Half} (hr : TxReady s ep h)
    (htable : submitTable (epGet s.txState ep) = none) :
    exec (.tx ep h) s = .next (((s.enqueueTx ep h.toNat).setOwner h.toNat (.queue ep .tx)).returning (.ok .unit)) :=
  hr.exec_tx.1 _ (submitPacket_of_no_bank htable)

/-- Settles O16, by the rows of the submit table. -/
theorem txSubmits : Obligations.TxSubmits := by
  intro s ep h hs henabled howned hfits hconfig
  have hr : TxReady s ep h := ⟨hs, henabled, howned, hfits, hconfig⟩
  refine ⟨fun x hx hst => ⟨fun hown => ?armed, fun hown => ?owned⟩, fun hst => ?queued⟩
  case queued =>
    rw [hr.exec_tx_queued (submitTable_queues hst), State.enqueueTx_eq]
    rfl
  all_goals
    have htable := submitTable_arms x hx
    rw [← hst] at htable
  case armed =>
    rw [hr.exec_tx_armed htable hown]
    rfl
  case owned => exact hr.exec_tx.2 _ (submitPacket_of_owned_bank htable hown)

/-! ### Three submissions in a row (R139) -/

/-- Another packet passes the checks as before once one has been armed. -/
theorem TxReady.after_submitted {s : State} {ep : Ep} {h h' : Half} {b : Bank} {st : TxState} (hr : TxReady s ep h')
    (hne : h ≠ h') : TxReady ((s.submitted ep b h.toNat st).returning (.ok .unit)) ep h' where
  alive := hr.alive
  enabled := hr.enabled
  owned := by
    have hnat : h.toNat ≠ h'.toNat := fun he => hne (BitVec.eq_of_toNat_eq he)
    have howned := hr.owned
    rw [State.callerOwns, List.getD_eq_getElem?_getD] at howned ⊢
    exact (congrArg (fun o => decide (h'.toNat < s.cfg.nPackets) && decide (o.getD .pool = Owner.caller))
      (List.getElem?_set_ne hnat)).trans howned
  fits := hr.fits
  configured := hr.configured

/-- Settles O17: the machine moves from both banks free over one free to none free, and then TX queues. -/
theorem threeSubmissions : Obligations.ThreeSubmissions := by
  intro s ep h1 h2 h3 hs henabled hconfig h12 h13 h23 hpackets hst hq hown
  have hready : ∀ h ∈ [h1, h2, h3], TxReady s ep h := fun h hh =>
    ⟨hs, henabled, (hpackets h hh).1, (hpackets h hh).2, hconfig⟩
  generalize ht1 : (s.submitted ep .even h1.toNat .oddFree).returning (.ok .unit) = t1
  have first : exec (.tx ep h1) s = .next t1 :=
    ht1 ▸ (hready h1 (by simp)).exec_tx_armed (by rw [hst]; rfl) (hown .even)
  have ready1 : ∀ h ∈ [h2, h3], TxReady t1 ep h := fun h hh =>
    ht1 ▸ (hready h (List.mem_cons_of_mem _ hh)).after_submitted fun he => by simp [← he, h12, h13] at hh
  have even1 : t1.slot ep .tx .even =
      { desc := armedDesc ((s.header h1.toNat).len.setWidth 10) .data0, addr := .pool h1.toNat } :=
    ht1 ▸ State.slot_setSlot_same ..
  have odd1 : t1.slot ep .tx .odd = s.slot ep .tx .odd :=
    ht1 ▸ State.slot_setSlot_other _ _ _ _ _ _ _ _ (by simp)
  have state1 : epGet t1.txState ep = .oddFree := ht1 ▸ epGet_epPut_same ..
  have queue1 : epGet t1.txq ep = [] := ht1 ▸ hq
  have header1 : t1.header = s.header := ht1 ▸ rfl
  generalize ht2 : (t1.submitted ep .odd h2.toNat .noneFreeEvenFirst).returning (.ok .unit) = t2
  have second : exec (.tx ep h2) t1 = .next t2 :=
    ht2 ▸ (ready1 h2 (by simp)).exec_tx_armed (by rw [state1]; rfl) (by rw [odd1]; exact hown .odd)
  have ready2 : TxReady t2 ep h3 := ht2 ▸ (ready1 h3 (by simp)).after_submitted h23
  have odd2 : t2.slot ep .tx .odd =
      { desc := armedDesc ((s.header h2.toNat).len.setWidth 10) .data1, addr := .pool h2.toNat } :=
    header1 ▸ ht2 ▸ State.slot_setSlot_same ..
  have state2 : epGet t2.txState ep = .noneFreeEvenFirst := ht2 ▸ epGet_epPut_same ..
  have queue2 : epGet t2.txq ep = [] := ht2 ▸ queue1
  have third := ready2.exec_tx_queued (submitTable_queues (.inl state2))
  rw [State.enqueueTx_eq] at third
  refine ⟨t1, t2, _, first, second, third, even1, odd2, queue2, ?queue3, rfl, state1, state2, state2⟩
  case queue3 =>
    rw [State.returning_txq, State.setOwner_txq, epGet_epPut_same, queue2, List.nil_append]

/-! ### What is not enabled (R271, R290 to R296, R310, R343) -/

theorem tokenReaches_eq_false {s : State} {a : BitVec 7}
    (h : s.attached = false ∨ a ≠ s.addr ∨ s.cfg.statDepth ≤ s.stat.length) : tokenReaches s a = false := by
  rcases h with h | h | h
  · simp [tokenReaches, h]
  · simp [tokenReaches, h]
  · simp [tokenReaches, Nat.not_lt.mpr h]

theorem exec_hostSetup_of_not_enabled {s : State} {a : BitVec 7} (p : SetupPacket) (hs : s.Alive)
    (h : setupEnabled s a = false) : exec (.hostSetup a p) s = .next s := by
  rw [exec, execHostSetup, whenAlive_of_alive s _ hs, h]
  rfl

/-- No OUT transaction on an endpoint the token does not reach, that does not receive or takes no packet so long. -/
theorem exec_hostOut_of_not_reached {s : State} {ep : Ep} {a : BitVec 7} {data : List Byte} (hs : s.Alive)
    (h : transactionReaches s ep a = false ∨ rxenBit (epGet s.endpt ep) = false ∨ maxPacket s.cfg ep < data.length) :
    exec (.hostOut ep a data) s = .next s := by
  rw [exec, execHostOut, whenAlive_of_alive s _ hs]
  refine if_neg ?_
  rcases h with h | h | h
  · simp [h]
  · simp [h]
  · simp [Nat.not_le.mpr h]

/-- No OUT transaction on a slot that is not the SIE's or too short. -/
theorem exec_hostOut_of_no_slot {s : State} {ep : Ep} (a : BitVec 7) {data : List Byte} (hs : s.Alive)
    (hstall : stallBit (epGet s.endpt ep) = false)
    (h : (s.nextSlot ep .rx).desc.own = false ∨ (s.nextSlot ep .rx).desc.bc.toNat < data.length) :
    exec (.hostOut ep a data) s = .next s := by
  have hslot : ((s.nextSlot ep .rx).desc.own && decide (data.length ≤ (s.nextSlot ep .rx).desc.bc.toNat)) = false := by
    rcases h with h | h
    · simp [h]
    · simp [Nat.not_le.mpr h]
  rw [exec, execHostOut, whenAlive_of_alive s _ hs, hstall, hslot]
  split <;> rfl

/-- No IN transaction on an endpoint the token does not reach or that does not send. -/
theorem exec_hostIn_of_not_reached {s : State} {ep : Ep} {a : BitVec 7} (hs : s.Alive)
    (h : transactionReaches s ep a = false ∨ txenBit (epGet s.endpt ep) = false) :
    exec (.hostIn ep a) s = .next s := by
  rw [exec, execHostIn, whenAlive_of_alive s _ hs]
  refine if_neg ?_
  rcases h with h | h <;> simp [h]

theorem exec_hostIn_of_no_slot {s : State} {ep : Ep} (a : BitVec 7) (hs : s.Alive)
    (hstall : stallBit (epGet s.endpt ep) = false) (hown : (s.nextSlot ep .tx).desc.own = false) :
    exec (.hostIn ep a) s = .next s := by
  rw [exec, execHostIn, whenAlive_of_alive s _ hs, hstall, hown]
  split <;> rfl

/-- Settles O26, by the reason that a command or a transaction is not enabled. -/
theorem notEnabledNoStep : Obligations.NotEnabledNoStep := by
  intro s ep a p d hs
  refine ⟨fun hstat => ?noEntry, fun harmed => ?unarmed, fun hattached => ?unattached, fun h => ?noToken,
    fun h => ?setupRefused, fun h => ?suspended, fun h => ?outRefused, fun h => ?inRefused,
    fun hstall h => ?noRxSlot, fun hstall h => ?noTxSlot⟩
  case noEntry => rw [exec, execTokenDone, whenAlive_of_alive s _ hs, hstat, noStep]
  case unarmed => rw [exec, execPowerTimeout, whenAlive_of_alive s _ hs, harmed]; rfl
  case unattached => rw [exec, execHostBusReset, whenAlive_of_alive s _ hs, hattached]; rfl
  case noToken =>
    have htoken := tokenReaches_eq_false h
    have hreach : transactionReaches s ep a = false := by simp [transactionReaches, htoken]
    exact ⟨exec_hostSetup_of_not_enabled p hs (by simp [setupEnabled, htoken]),
      exec_hostOut_of_not_reached hs (.inl hreach), exec_hostIn_of_not_reached hs (.inl hreach)⟩
  case setupRefused =>
    refine exec_hostSetup_of_not_enabled p hs ?_
    rcases h with h | h | h
    · simp [setupEnabled, h]
    · simp [setupEnabled, State.nextSlot, h]
    · simp [setupEnabled, State.nextSlot, Nat.not_le.mpr h]
  case suspended =>
    have hreach : transactionReaches s ep a = false := by
      rcases h with h | h
      · simp [transactionReaches, h]
      · have hep : isEndpoint s.cfg ep = false := decide_eq_false (Nat.not_le.mpr h)
        simp [transactionReaches, hep]
    exact ⟨exec_hostOut_of_not_reached hs (.inl hreach), exec_hostIn_of_not_reached hs (.inl hreach)⟩
  case outRefused => exact exec_hostOut_of_not_reached hs (.inr h)
  case inRefused => exact exec_hostIn_of_not_reached hs (.inr h)
  case noRxSlot => exact exec_hostOut_of_no_slot a hs hstall h
  case noTxSlot => exact exec_hostIn_of_no_slot a hs hstall h

end Sys2Proof.Machine
end

section
/-! The foreground commands of 42_endpoint_queue.md that check and answer: TX's checks, RX, the counts, CONFIGURED,
PKT_FILL and PKT_READ. -/

namespace Sys2Proof.Machine

theorem isDataEp_iff (c : Params) (ep : Ep) : isDataEp c ep = true ↔ 1 ≤ ep.val ∧ ep.val ≤ c.numEndpoints.val := by
  simp [isDataEp]

theorem txEnabled_iff (c : Params) (ep : Ep) :
    txEnabled c ep = true ↔ 1 ≤ ep.val ∧ ep.val ≤ c.numEndpoints.val ∧ txenBit (epConfigOf c ep) = true := by
  rw [txEnabled, Bool.and_eq_true, isDataEp_iff, and_assoc]

theorem rxEnabled_iff (c : Params) (ep : Ep) :
    rxEnabled c ep = true ↔ 1 ≤ ep.val ∧ ep.val ≤ c.numEndpoints.val ∧ rxenBit (epConfigOf c ep) = true := by
  rw [rxEnabled, Bool.and_eq_true, isDataEp_iff, and_assoc]

theorem isConfigured_of_zero {s : State} (h : s.config = 0) : isConfigured s = false :=
  decide_eq_false (not_not.mpr h)

theorem isConfigured_of_ne_zero {s : State} (h : s.config ≠ 0) : isConfigured s = true :=
  decide_eq_true h

theorem callerOwns_eq_false {s : State} {h : Nat} (hnot : ¬(h < s.cfg.nPackets ∧ s.ownerOf h = .caller)) :
    s.callerOwns h = false :=
  Bool.eq_false_iff.mpr (mt (s.callerOwns_iff h).mp hnot)

/-! ### TX's checks (R160, R314) -/

/-- Settles O15: the checks are a chain of tests, and each clause fails one of them after passing those before it. -/
theorem txChecksInOrder : Obligations.TxChecksInOrder := by
  intro s ep h hs
  rw [exec, execTx, whenAlive_of_alive s _ hs, handleId]
  refine ⟨fun hep => ?badEndpoint, fun hep hnot => ?invalidHandle, fun hep hown hlong => ?packetTooLong,
    fun hep hown hfits hconfig => ?notConfigured⟩
  case badEndpoint =>
    rw [← txEnabled_iff, Bool.not_eq_true] at hep
    rw [hep]
    rfl
  case invalidHandle =>
    rw [hep, callerOwns_eq_false hnot]
    rfl
  case packetTooLong =>
    rw [hep, hown, if_pos (show Config.epMaxPacket < _ from hlong)]
    rfl
  case notConfigured =>
    rw [hep, hown, if_neg (show ¬Config.epMaxPacket < _ from Nat.not_lt.mpr hfits), isConfigured_of_zero hconfig]
    rfl

/-! ### RX (R162) -/

/-- Settles O18: by the checks of RX, then by the RX FIFO. -/
theorem rxTakesHead : Obligations.RxTakesHead := by
  intro s ep hs
  rw [exec, execRx, whenAlive_of_alive s _ hs]
  refine ⟨fun hep => ?badEndpoint, fun hep hempty => ?nothing, fun hep hconfig h rest hq => ?head⟩
  case badEndpoint =>
    rw [← rxEnabled_iff, Bool.not_eq_true] at hep
    rw [hep]
    rfl
  case nothing =>
    rw [hep]
    rcases hempty with hconfig | hq
    · rw [isConfigured_of_zero hconfig]
      rfl
    · rw [hq]
      cases isConfigured s <;> rfl
  case head =>
    rw [hep, isConfigured_of_ne_zero hconfig, hq]
    rfl

/-! ### Counts and CONFIGURED (R164 to R167) -/

theorem returnCount_of_dataEp {s : State} {ep : Ep} (n : Word) (hs : s.Alive) (hep : isDataEp s.cfg ep = true) :
    returnCount s ep n = .next (s.returning (.ok (.count n))) := by
  rw [returnCount, whenAlive_of_alive s _ hs, if_pos hep]

theorem returnCount_of_not_dataEp {s : State} {ep : Ep} (n : Word) (hs : s.Alive) (hep : ¬isDataEp s.cfg ep = true) :
    returnCount s ep n = .next (s.returning (.err .badEndpoint)) := by
  rw [returnCount, whenAlive_of_alive s _ hs, if_neg hep]

theorem State.sumLens_eq_foldr_map (s : State) (q : List Nat) :
    s.sumLens q = (q.map (fun p => (s.header p).len.setWidth 32)).foldr (fun x y => x + y) 0 := by
  rw [State.sumLens, List.foldr_map]

/-- Settles O19: each count is returned for the data endpoints, and BAD_ENDPOINT for the others. -/
theorem countsAndConfigured : Obligations.CountsAndConfigured := by
  intro s ep hs
  rw [← isDataEp_iff, ← State.sumLens_eq_foldr_map]
  exact ⟨fun hep => ⟨returnCount_of_dataEp _ hs hep, returnCount_of_dataEp _ hs hep, returnCount_of_dataEp _ hs hep⟩,
    fun hep => ⟨returnCount_of_not_dataEp _ hs hep, returnCount_of_not_dataEp _ hs hep,
      returnCount_of_not_dataEp _ hs hep⟩,
    whenAlive_of_alive s _ hs⟩

/-! ### PKT_FILL (R168) -/

theorem bufferLen_pool {c : Params} {h : Nat} (hlt : h < c.nPackets) : bufferLen c (.pool h) = 64 :=
  if_pos hlt

/-- The state after the payload and its length have been written into a packet (R168). -/
def State.filled (s : State) (h : Nat) (d : List Byte) : State :=
  (s.putBytes (.pool h) 0 d).setHeader h { s.header h with len := BitVec.ofNat 16 d.length }

theorem exec_pktFill_of_not_owned {s : State} {h : Half} (d : List Byte) (hs : s.Alive)
    (hnot : ¬(h.toNat < s.cfg.nPackets ∧ s.ownerOf h.toNat = .caller)) :
    exec (.pktFill h d) s = .next (s.raise .invalidHandle) := by
  rw [exec, execPktFill, whenAlive_of_alive s _ hs, handleId, callerOwns_eq_false hnot]
  rfl

theorem exec_pktFill_of_owned {s : State} {h : Half} {d : List Byte} (hs : s.Alive) (hd : d.length ≤ 64)
    (hlt : h.toNat < s.cfg.nPackets) (hown : s.ownerOf h.toNat = .caller) :
    exec (.pktFill h d) s = .next ((s.filled h.toNat d).returning (.ok .unit)) := by
  have hwrite : s.writeBuffer (.pool h.toNat) 0 d = .ok (s.putBytes (.pool h.toNat) 0 d) :=
    (State.writeBuffer_ok ..).mpr ⟨by rw [bufferLen_pool hlt]; omega, rfl⟩
  rw [exec, execPktFill, whenAlive_of_alive s _ hs, handleId, (s.callerOwns_iff _).mpr ⟨hlt, hown⟩, hwrite]
  rfl

/-- Settles O20: the one store is the run of the payload at the start of the packet's buffer. -/
theorem pktFillWritesPayload : Obligations.PktFillWritesPayload := by
  intro s h d hs hmem hd
  refine ⟨exec_pktFill_of_not_owned d hs, fun hlt hown => ⟨_, exec_pktFill_of_owned hs hd hlt hown, rfl,
    fun k hk => ?payload, fun b k hk hout => ?others⟩⟩
  case payload =>
    have hbyte := s.byteAt_putBytes_same (.pool h.toNat) 0 k d hmem hk
    rwa [Nat.zero_add] at hbyte
  case others =>
    have hstores := exec_storesWithin (exec_pktFill_of_owned hs hd hlt hown)
    refine hstores.byteAt hk fun hrun => hout ⟨hrun.1, ?_⟩
    simpa using hrun.2.2

/-! ### PKT_READ (R169) -/

theorem exec_pktRead_of_not_owned {s : State} {h : Half} (hs : s.Alive)
    (hnot : ¬(h.toNat < s.cfg.nPackets ∧ s.ownerOf h.toNat = .caller)) :
    exec (.pktRead h) s = .next (s.raise .invalidHandle) := by
  rw [exec, execPktRead, whenAlive_of_alive s _ hs, handleId, callerOwns_eq_false hnot]
  rfl

/-- PKT_READ of a packet the caller owns returns, or faults as, the read of the packet's bytes does. -/
theorem exec_pktRead_of_owned {s : State} {h : Half} (hs : s.Alive) (hlt : h.toNat < s.cfg.nPackets)
    (hown : s.ownerOf h.toNat = .caller) :
    (∀ bs, s.readBuffer (.pool h.toNat) 0 (s.header h.toNat).len.toNat = .ok bs → exec (.pktRead h) s = .next
        (s.returning (.ok (.packet (s.header h.toNat).len (s.header h.toNat).index bs)))) ∧
      ∀ r, s.readBuffer (.pool h.toNat) 0 (s.header h.toNat).len.toNat = .error r →
        exec (.pktRead h) s = .next (s.raise r) := by
  rw [exec, execPktRead, whenAlive_of_alive s _ hs, handleId, (s.callerOwns_iff _).mpr ⟨hlt, hown⟩]
  refine ⟨fun bs hread => ?_, fun r hread => ?_⟩
  · rw [hread]
    rfl
  · rw [hread]
    rfl

/-- A read within a buffer answers the bytes there once each of them has a value. -/
theorem State.readBuffer_of_bytes {s : State} {b : Buffer} {bs : List Byte} (hfit : bs.length ≤ bufferLen s.cfg b)
    (hbytes : ∀ (k : Nat) (hk : k < bs.length), s.byteAt b k = some bs[k]) : s.readBuffer b 0 bs.length = .ok bs := by
  cases hread : s.readBuffer b 0 bs.length with
  | ok bs' =>
    obtain ⟨-, hlen, hbytes'⟩ := s.readBuffer_ok b 0 bs.length bs' hread
    refine congrArg Except.ok (List.ext_getElem hlen fun k hk hk' => ?_)
    have hbyte := hbytes' k hk
    rw [Nat.zero_add, hbytes k hk'] at hbyte
    exact (Option.some.inj hbyte).symm
  | error r =>
    rw [State.readBuffer, if_neg (by omega)] at hread
    obtain ⟨bs', hok⟩ := readBytes_of_some s.cfg s.mem bs.length (bufferKey s.cfg b 0) fun k hk => by
      have hbyte := hbytes k hk
      rw [State.byteAt, show bufferKey s.cfg b k = bufferKey s.cfg b 0 + k by unfold bufferKey; omega] at hbyte
      rw [hbyte, Option.isSome_some]
    cases hok.symm.trans hread

/-- A read within a buffer faults at a byte that has no value. -/
theorem State.readBuffer_of_unwritten {s : State} {b : Buffer} {n k : Nat} (hfit : n ≤ bufferLen s.cfg b) (hk : k < n)
    (hnone : s.byteAt b k = none) : s.readBuffer b 0 n = .error .unwrittenRead := by
  cases hread : s.readBuffer b 0 n with
  | ok bs =>
    obtain ⟨-, hlen, hbytes⟩ := s.readBuffer_ok b 0 n bs hread
    have hbyte := hbytes k (hlen ▸ hk)
    rw [Nat.zero_add, hnone] at hbyte
    cases hbyte
  | error r =>
    rw [State.readBuffer, if_neg (by omega)] at hread
    rw [readBytes_error _ _ _ _ _ hread]

/-- Settles O21: by whether the caller owns the packet, and by what the read of its bytes answers. -/
theorem pktReadReturnsPacket : Obligations.PktReadReturnsPacket := by
  intro s h hs
  refine ⟨exec_pktRead_of_not_owned hs, fun hlt hown hfits => ⟨fun bs hlen hbytes => ?packet,
    fun k hk hnone => ?unwritten⟩, fun hlt hown hlong => ?tooLong⟩
  case packet =>
    refine (exec_pktRead_of_owned hs hlt hown).1 bs ?_
    rw [← hlen]
    exact State.readBuffer_of_bytes (by rw [bufferLen_pool hlt]; omega) hbytes
  case unwritten =>
    refine (exec_pktRead_of_owned hs hlt hown).2 _ (State.readBuffer_of_unwritten ?_ hk hnone)
    rwa [bufferLen_pool hlt]
  case tooLong =>
    refine (exec_pktRead_of_owned hs hlt hown).2 _ ?_
    rw [State.readBuffer, if_pos (by rw [bufferLen_pool hlt]; omega)]

end Sys2Proof.Machine
end

section
/-! Packets left alone. A packet the caller owns is not free, and no FIFO and no slot has it (`State.Detached`); every
instruction that is not about it keeps its owner, its header and its bytes (`State.PacketKept`, `exec_packetKept`,
`exec_byteAt_of_detached`). -/

namespace Sys2Proof.Machine

/-! ### Detached packets (R44) -/

/-- Packet `h` is not free, and no FIFO and no slot has it. -/
structure State.Detached (s : State) (h : Nat) : Prop where
  notFree : s.isFree h = false
  notInTxq : ∀ ep, h ∉ epGet s.txq ep
  notInRxq : ∀ ep, h ∉ epGet s.rxq ep
  notInSlot : ∀ ep d b, (s.slot ep d b).addr ≠ .pool h

theorem State.Ownership.detached {s : State} {h : Nat} (hs : s.Ownership) (hlt : h < s.cfg.nPackets)
    (hown : s.ownerOf h = .caller) : s.Detached h where
  notFree := Bool.eq_false_iff.mpr fun hfree => by simpa [hown] using (hs.poolIffFree h hlt).mp hfree
  notInTxq ep hq := by simpa [hown] using ((hs.txQueued ep h).mp hq).2
  notInRxq ep hq := by simpa [hown] using ((hs.rxQueued ep h).mp hq).2
  notInSlot ep d b ha := by simpa [hown] using ((hs.inSlot ep d b h).mp ha).2

/-- A packet stays detached while the mask and the FIFOs are kept and no slot gets it. -/
theorem State.Detached.of_fields {s t : State} {h : Nat} (hd : s.Detached h) (hfree : t.free = s.free)
    (htxq : t.txq = s.txq) (hrxq : t.rxq = s.rxq)
    (hslot : ∀ ep d b, (t.slot ep d b).addr = .pool h → (s.slot ep d b).addr = .pool h) : t.Detached h where
  notFree := by rw [State.isFree, hfree]; exact hd.notFree
  notInTxq := htxq ▸ hd.notInTxq
  notInRxq := hrxq ▸ hd.notInRxq
  notInSlot ep d b ha := hd.notInSlot ep d b (hslot ep d b ha)

theorem State.Detached.not_heldBy {s : State} {h : Nat} (hd : s.Detached h) (l : List Ep) : ¬s.heldBy l h :=
  fun ⟨ep, _, d, b, ha⟩ => hd.notInSlot ep d b ha

theorem State.Detached.not_queued {s : State} {h : Nat} (hd : s.Detached h) (l : List Ep) :
    ¬∃ ep ∈ l, h ∈ epGet s.rxq ep ∨ h ∈ epGet s.txq ep :=
  fun ⟨ep, _, hq⟩ => hq.elim (hd.notInRxq ep) (hd.notInTxq ep)

theorem State.Detached.inTransit_eq_false {s : State} {h : Nat} (hd : s.Detached h) : s.inTransit h = false :=
  Bool.eq_false_iff.mpr fun htransit =>
    ((s.inTransit_iff h).mp htransit).elim (hd.not_heldBy _) (hd.not_queued _)

theorem State.Detached.notMem_recyclableBytes {s : State} {h : Nat} (hd : s.Detached h) (k : Nat) :
    (Buffer.pool h, k) ∉ s.recyclableBytes :=
  State.notMem_recyclableBytes k fun p hp => by
    cases hp
    exact ⟨hd.notFree, hd.inTransit_eq_false⟩

theorem State.isFree_eq_false_iff (s : State) (h : Nat) : s.isFree h = false ↔ (Buffer.pool h, 0) ∉ s.freeBytes := by
  simp [State.freeBytes]

/-! ### The same owner and the same header -/

/-- Packet `h` has in `t` the owner and the header it has in `s`. -/
structure State.PacketKept (s t : State) (h : Nat) : Prop where
  owner : t.ownerOf h = s.ownerOf h
  header : t.header h = s.header h

theorem State.PacketKept.of_fields {s t : State} {h : Nat} (howner : t.owner = s.owner) (hpkt : t.pkt = s.pkt) :
    s.PacketKept t h where
  owner := by rw [State.ownerOf, howner, State.ownerOf]
  header := by rw [State.header, hpkt, State.header]

theorem State.PacketKept.refl (s : State) (h : Nat) : s.PacketKept s h := ⟨rfl, rfl⟩

theorem State.PacketKept.trans {s t u : State} {h : Nat} (h₁ : s.PacketKept t h) (h₂ : t.PacketKept u h) :
    s.PacketKept u h := ⟨h₂.owner.trans h₁.owner, h₂.header.trans h₁.header⟩

theorem State.setOwner_packetKept (s : State) {p h : Nat} (x : Owner) (hne : p ≠ h) :
    s.PacketKept (s.setOwner p x) h where
  owner := by simp only [State.ownerOf, State.setOwner_owner, List.getD_eq_getElem?_getD, List.getElem?_set_ne hne]
  header := rfl

theorem State.setHeader_packetKept (s : State) {p h : Nat} (x : Header) (hne : p ≠ h) :
    s.PacketKept (s.setHeader p x) h where
  owner := rfl
  header := by simp only [State.header, State.setHeader_pkt, List.getD_eq_getElem?_getD, List.getElem?_set_ne hne]

/-- A body that takes effect whole or leaves the fault mark alone (R313). -/
theorem commit_packetKept {s t : State} {body : Except FaultReason State} {h : Nat}
    (hbody : ∀ u, body = .ok u → s.PacketKept u h) (ht : commit s body = .next t) : s.PacketKept t h :=
  commit_induction (P := fun u => s.PacketKept u h) (fun _ => .of_fields rfl rfl) hbody ht

/-- Linking a packet into a FIFO writes its header and the header of the last packet there (R27). -/
theorem State.linkLast_packetKept (s : State) {q : List Nat} {p h : Nat} (hne : p ≠ h) (hq : h ∉ q) :
    s.PacketKept (s.linkLast q p) h := by
  unfold State.linkLast
  have hfirst : s.PacketKept (s.setNext p none) h := s.setHeader_packetKept _ hne
  split
  · exact hfirst
  · next l hl => exact hfirst.trans (State.setHeader_packetKept _ _ fun he => hq (he ▸ List.mem_of_getLast? hl))

/-! ### The packet pool and the FIFOs -/

theorem arm_packetKept {s t : State} {ep : Ep} {d : Dir} {b : Bank} {ref : BufRef} {n : BitVec 10} {tg : Toggle}
    (ht : arm s ep d b ref n tg = .ok t) (h : Nat) : s.PacketKept t h := by
  obtain ⟨-, rfl⟩ := (arm_ok _ _ _ _ _ _ _ _).mp ht
  exact .of_fields rfl rfl

theorem State.redirect_packetKept (s : State) {p h : Nat} (hne : p ≠ h) : s.PacketKept (s.redirect p) h := by
  cases ht : s.redirectTarget with
  | none =>
    rw [State.redirect_none s p ht]
    exact (s.setOwner_packetKept _ hne).trans (.of_fields rfl rfl)
  | some x =>
    rw [State.redirect_some s p x.1 x.2 ht]
    exact (s.setOwner_packetKept _ hne).trans (.of_fields rfl rfl)

/-- Releasing a packet is about that packet alone (R113). -/
theorem State.release_packetKept (s : State) {p h : Nat} (hne : p ≠ h) : s.PacketKept (s.release p) h := by
  unfold State.release
  split
  · exact s.redirect_packetKept hne
  · exact (s.setOwner_packetKept .pool hne).trans (.of_fields rfl rfl)

/-- Taking a packet leaves one that is not free alone (R110). -/
theorem allocPacket_packetKept {s t : State} {p h : Nat} (ht : allocPacket s = some (p, t))
    (hh : s.isFree h = false) : p ≠ h ∧ s.PacketKept t h := by
  obtain ⟨hp, hframe⟩ := allocPacket_frame _ _ _ ht
  have hne : p ≠ h := by
    rintro rfl
    exact Bool.noConfusion (hp.symm.trans hh)
  refine ⟨hne, ?_⟩
  rw [hframe]
  exact ((s.setOwner_packetKept .caller hne).trans (State.setHeader_packetKept _ ⟨0, 0, none⟩ hne)).trans
    (.of_fields rfl rfl)

theorem State.enqueueTx_packetKept (s : State) (ep : Ep) {p h : Nat} (hne : p ≠ h) (hq : h ∉ epGet s.txq ep) :
    s.PacketKept (s.enqueueTx ep p) h :=
  (s.linkLast_packetKept hne hq).trans (.of_fields rfl rfl)

theorem State.enqueueRx_packetKept (s : State) (ep : Ep) {p h : Nat} (hne : p ≠ h) (hq : h ∉ epGet s.rxq ep) :
    s.PacketKept (s.enqueueRx ep p) h :=
  (s.linkLast_packetKept hne hq).trans (.of_fields rfl rfl)

theorem submitPacket_packetKept {s t : State} {ep : Ep} {p h : Nat} (hd : s.Detached h) (hne : p ≠ h)
    (ht : submitPacket s ep p = .ok t) : s.PacketKept t h := by
  unfold submitPacket at ht
  split at ht
  · split at ht <;> cases ht
    next u hu =>
      exact ((arm_packetKept hu h).trans (u.setOwner_packetKept _ hne)).trans (.of_fields rfl rfl)
  · cases ht
    exact (s.enqueueTx_packetKept ep hne (hd.notInTxq ep)).trans (State.setOwner_packetKept _ _ hne)

theorem refillTx_packetKept {s t : State} {ep : Ep} {c : Bank} {h : Nat} (hq : h ∉ epGet s.txq ep)
    (ht : refillTx s ep c = .ok t) : s.PacketKept t h := by
  unfold refillTx at ht
  split at ht
  · cases ht
    exact .refl s h
  next q rest hqs =>
    have hne : q ≠ h := fun he => hq (by rw [hqs, he]; exact List.mem_cons_self)
    simp only at ht
    split at ht <;> cases ht
    next u hu =>
      have hnext : s.PacketKept ((s.setTxq ep rest).setNext q none) h :=
        .trans (t := s.setTxq ep rest) (.of_fields rfl rfl) (State.setHeader_packetKept _ _ hne)
      exact (hnext.trans (arm_packetKept hu h)).trans (u.setOwner_packetKept _ hne)

theorem txDone_packetKept {s t : State} {ep : Ep} {c : Bank} {h : Nat} (hd : s.Detached h)
    (ht : txDone s ep c = .ok t) : s.PacketKept t h := by
  unfold txDone at ht
  split at ht
  · cases ht
  split at ht
  · cases ht
  · cases ht
  next p haddr =>
  have hne : p ≠ h := fun he => hd.notInSlot ep .tx c (he ▸ haddr)
  split at ht
  · cases ht
  next u hu =>
  obtain ⟨-, rfl⟩ := (releaseSlot_ok _ _ _ _ _).mp hu
  split at ht <;> cases ht
  next v hv =>
  have hrelease : s.PacketKept ((s.setSlot ep .tx c Slot.cleared).release p) h :=
    .trans (t := s.setSlot ep .tx c Slot.cleared) (.of_fields rfl rfl) (State.release_packetKept _ hne)
  refine State.PacketKept.trans (t := v) ?_ (.of_fields rfl rfl)
  split at hv
  · refine hrelease.trans (refillTx_packetKept ?_ hv)
    rw [State.release_frame]
    exact hd.notInTxq ep
  · cases hv
    exact hrelease

theorem acceptRx_packetKept (s : State) (ep : Ep) {p h : Nat} (n : BitVec 10) (hne : p ≠ h)
    (hq : h ∉ epGet s.rxq ep) : s.PacketKept (acceptRx s ep p n) h :=
  ((s.setHeader_packetKept _ hne).trans (State.enqueueRx_packetKept _ ep hne hq)).trans
    ((State.setOwner_packetKept _ _ hne).trans (.of_fields rfl rfl))

theorem refillRx_packetKept {s t : State} {ep : Ep} {b : Bank} {h : Nat} (hh : s.isFree h = false)
    (ht : refillRx s ep b = .ok t) : s.PacketKept t h := by
  unfold refillRx at ht
  split at ht
  · next p u hu =>
    obtain ⟨hne, halloc⟩ := allocPacket_packetKept hu hh
    split at ht <;> cases ht
    next v hv => exact (halloc.trans (arm_packetKept hv h)).trans (v.setOwner_packetKept _ hne)
  · split at ht <;> cases ht
    next u hu =>
      obtain ⟨-, rfl⟩ := (releaseSlot_ok _ _ _ _ _).mp hu
      exact .of_fields rfl rfl

theorem rxDone_packetKept {s t : State} {ep : Ep} {b : Bank} {n : BitVec 10} {h : Nat} (hd : s.Detached h)
    (ht : rxDone s ep b n = .ok t) : s.PacketKept t h := by
  unfold rxDone at ht
  split at ht
  · cases ht
  · cases ht
  next p haddr =>
  have hne : p ≠ h := fun he => hd.notInSlot ep .rx b (he ▸ haddr)
  split at ht
  · refine (acceptRx_packetKept s ep n hne (hd.notInRxq ep)).trans (refillRx_packetKept ?_ ht)
    rw [acceptRx_isFree]
    exact hd.notFree
  · exact arm_packetKept ht h

/-! ### Taking packets back (R260 to R264, R343) -/

/-- Emptying the slots and the FIFOs of a list of endpoints leaves a detached packet alone (R261, R262). -/
theorem State.reclaimed_packetKept {s : State} {l : List Ep} {h : Nat} (hl : l.Nodup) (hd : s.Detached h) :
    s.PacketKept (l.foldl State.drainEp (l.foldl State.reclaimEp s)) h where
  owner := by
    obtain ⟨-, -, -, -, hreclaim⟩ := s.pool_foldl_reclaimEp l h hl
    obtain ⟨-, -, -, -, hdrain⟩ := (l.foldl State.reclaimEp s).pool_foldl_drainEp l h hl
    have hrxq : (l.foldl State.reclaimEp s).rxq = s.rxq := by rw [State.foldl_reclaimEp_frame]
    have htxq : (l.foldl State.reclaimEp s).txq = s.txq := by rw [State.foldl_reclaimEp_frame]
    rw [hrxq, htxq] at hdrain
    rw [hdrain (hd.not_queued l), hreclaim (hd.not_heldBy l)]
  header := by
    rw [State.foldl_drainEp_frame, State.foldl_reclaimEp_frame]
    rfl

theorem State.reclaimSlots_drainQueues (s : State) : s.reclaimSlots.drainQueues =
    (dataEps s.cfg).foldl State.drainEp ((dataEps s.cfg).foldl State.reclaimEp s) := by
  have hcfg : s.reclaimSlots.cfg = s.cfg := by rw [State.reclaimSlots_frame]
  rw [State.drainQueues, hcfg, State.reclaimSlots]

theorem State.resetEndpoints_packetKept {s : State} {h : Nat} (hd : s.Detached h) :
    s.PacketKept s.resetEndpoints h := by
  unfold State.resetEndpoints
  obtain ⟨hframe, -⟩ := State.foldl_resetPp (endpoints s.cfg) { s with stat := [] }
  generalize (endpoints s.cfg).foldl State.resetPp { s with stat := [] } = u at hframe ⊢
  have hu : s.PacketKept u h := by
    rw [hframe]
    exact .of_fields rfl rfl
  have hdu : u.Detached h := by
    rw [hframe]
    exact hd.of_fields rfl rfl rfl fun _ _ _ ha => ha
  rw [(State.foldl_disableEp _ _).1, State.reclaimSlots_drainQueues]
  exact (hu.trans (State.reclaimed_packetKept (nodup_dataEps _) hdu)).trans (.of_fields rfl rfl)

theorem State.busReset_packetKept {s : State} {h : Nat} (hd : s.Detached h) : s.PacketKept s.busReset h := by
  have hreset := State.resetEndpoints_packetKept hd
  unfold State.busReset
  generalize s.resetEndpoints = u at hreset ⊢
  exact hreset.trans (.of_fields rfl rfl)

theorem State.reinit_packetKept {s : State} {h : Nat} (hd : s.Detached h) : s.PacketKept s.reinit h := by
  have hreset := State.busReset_packetKept hd
  unfold State.reinit
  generalize s.busReset = u at hreset ⊢
  exact hreset.trans (.of_fields rfl rfl)

theorem State.unseeded_packetKept {s : State} {h : Nat} (v : Byte) (hd : s.Detached h) :
    s.PacketKept (s.unseeded v) h := by
  have hd' : ({ s with config := v, rxNeeded := 0 } : State).Detached h := hd.of_fields rfl rfl rfl fun _ _ _ ha => ha
  have hreclaimed := State.reclaimed_packetKept (nodup_dataEps s.cfg) hd'
  rw [State.unseeded, (State.foldl_configureEp _ _ (nodup_dataEps _)).1, State.reclaimSlots_drainQueues]
  exact ⟨hreclaimed.owner, hreclaimed.header⟩

/-- Taking packets back frees no detached packet (R261, R262). -/
theorem State.Detached.isFree_unseeded {s : State} {h : Nat} (v : Byte) (hd : s.Detached h) :
    (s.unseeded v).isFree h = false :=
  ((s.unseeded v).isFree_eq_false_iff h).mpr fun hfree => hd.notMem_recyclableBytes 0 (s.freeBytes_unseeded v hfree)

theorem seedSlot_packetKept {s t : State} {ep : Ep} {b : Bank} {h : Nat} (hh : s.isFree h = false)
    (ht : seedSlot s ep b = .ok t) : s.PacketKept t h := by
  unfold seedSlot at ht
  split at ht
  · next p u hu =>
    obtain ⟨hne, halloc⟩ := allocPacket_packetKept hu hh
    split at ht <;> cases ht
    next v hv => exact (halloc.trans (arm_packetKept hv h)).trans (v.setOwner_packetKept _ hne)
  · cases ht
    exact .of_fields rfl rfl

/-- Seeding takes free packets alone (R264). -/
theorem seedSlots_packetKept {l : List (Ep × Bank)} {s t : State} {h : Nat} (hh : s.isFree h = false)
    (ht : seedSlots l s = .ok t) : s.PacketKept t h := by
  induction l generalizing s with
  | nil =>
    cases ht
    exact .refl _ h
  | cons x l ih =>
    rw [seedSlots] at ht
    split at ht
    · next u hu =>
      have hmask : u.isFree h = false := (u.isFree_eq_false_iff h).mpr fun hfree =>
        (s.isFree_eq_false_iff h).mp hh ((seedSlot_storesWithin hu).2 hfree)
      exact (seedSlot_packetKept hh hu).trans (ih hmask ht)
    · cases ht

theorem reconfigure_packetKept {s t : State} {v : Byte} {h : Nat} (hd : s.Detached h)
    (ht : reconfigure s v = .ok t) : s.PacketKept t h := by
  rw [reconfigure_eq] at ht
  exact (State.unseeded_packetKept v hd).trans (seedSlots_packetKept (hd.isFree_unseeded v) ht)

/-! ### Endpoint 0 (R183) -/

theorem State.Detached.beginSetup {s : State} {h : Nat} (hd : s.Detached h) (p : SetupPacket) :
    (s.beginSetup p).Detached h :=
  hd.of_fields rfl rfl rfl fun ep d b ha => by
    rw [State.slot_beginSetup] at ha
    split at ha
    · cases ha
    · exact ha

theorem setupStage_packetKept {p : SetupPacket} {i : Instr} {s t : State} {h : Nat} (hd : s.Detached h)
    (ht : setupStage p (requestHandler i) s = .ok t) : s.PacketKept t h := by
  obtain ⟨u, r, v, hu, hv, rfl⟩ := setupStage_ok ht
  have hhandler : (s.beginSetup p).PacketKept u h := by
    rcases requestHandler_frame hu with ⟨_, _, _, -, hreconf⟩ | hframe
    · exact reconfigure_packetKept (hd.beginSetup p) hreconf
    · rw [hframe]
      exact .of_fields rfl rfl
  have hstage : u.PacketKept { v with tokenSuspend := false } h := by
    rw [applyResult_frame hv]
    exact .of_fields rfl rfl
  exact .trans (t := s.beginSetup p) (.of_fields rfl rfl) (hhandler.trans hstage)

theorem ep0Setup_packetKept {s t : State} {b : Bank} {h : Nat} (hd : s.Detached h) (ht : ep0Setup s b = .ok t) :
    s.PacketKept t h := by
  obtain ⟨p, hp⟩ := ep0Setup_ok ht
  rw [dispatchRequest_eq] at hp
  refine .trans (t := s.setSlot 0 .rx b _) (.of_fields rfl rfl) (setupStage_packetKept ?_ hp)
  refine hd.of_fields rfl rfl rfl fun ep d b' ha => ?_
  rw [State.slot_setSlot] at ha
  split at ha
  · cases ha
  · exact ha

/-! ### TOKEN_DONE (R136, R182) -/

theorem handleEntry_packetKept {s t : State} {e : StatEntry} {h : Nat} (hd : s.Detached h)
    (ht : handleEntry s e = .ok t) : s.PacketKept t h := by
  rcases handleEntry_ok ht with ⟨p, -, -, ht⟩ | ht | ht
  · rcases ep0Token_ok ht with ⟨-, -, ht⟩ | ht | ht
    · exact ep0Setup_packetKept hd ht
    · rw [ep0OutDone_frame ht]
      exact .of_fields rfl rfl
    · rw [ep0InDone_frame ht]
      exact .of_fields rfl rfl
  · exact txDone_packetKept hd ht
  · exact rxDone_packetKept hd ht

theorem execTokenDone_packetKept {s t : State} {h : Nat} (hd : s.Detached h) (ht : execTokenDone s = .next t) :
    s.PacketKept t h := by
  obtain ⟨-, ht⟩ := (whenAlive_next _ _ _).mp ht
  split at ht
  · cases ht
    exact .refl s h
  · next e rest _ =>
    refine commit_packetKept (fun u hu => ?_) ht
    refine .trans (t := { s with stat := rest }) (.of_fields rfl rfl) (handleEntry_packetKept ?_ hu)
    exact hd.of_fields rfl rfl rfl fun _ _ _ ha => ha

/-! ### The foreground commands -/

theorem execAlloc_packetKept {s t : State} {h : Nat} (hd : s.Detached h) (ht : execAlloc s = .next t) :
    s.PacketKept t h := by
  obtain ⟨-, ht⟩ := (whenAlive_next _ _ _).mp ht
  split at ht <;> cases ht
  · next hu => exact (allocPacket_packetKept hu hd.notFree).2.trans (.of_fields rfl rfl)
  · exact .of_fields rfl rfl

theorem execFree_packetKept {x : Half} {s t : State} {h : Nat} (hne : x.toNat ≠ h) (ht : execFree x s = .next t) :
    s.PacketKept t h := by
  obtain ⟨-, ht⟩ := (whenAlive_next _ _ _).mp ht
  split at ht <;> cases ht
  · exact (s.release_packetKept hne).trans (.of_fields rfl rfl)
  · exact .of_fields rfl rfl

theorem execTx_packetKept {ep : Ep} {x : Half} {s t : State} {h : Nat} (hd : s.Detached h) (hne : x.toNat ≠ h)
    (ht : execTx ep x s = .next t) : s.PacketKept t h := by
  obtain ⟨-, ht⟩ := (whenAlive_next _ _ _).mp ht
  iterate 4
    split at ht
    · cases ht
      exact .of_fields rfl rfl
  refine commit_packetKept (fun u hu => ?_) ht
  split at hu <;> cases hu
  next v hv => exact (submitPacket_packetKept hd hne hv).trans (.of_fields rfl rfl)

theorem execRx_packetKept {ep : Ep} {s t : State} {h : Nat} (hd : s.Detached h) (ht : execRx ep s = .next t) :
    s.PacketKept t h := by
  obtain ⟨-, ht⟩ := (whenAlive_next _ _ _).mp ht
  iterate 2
    split at ht
    · cases ht
      exact .of_fields rfl rfl
  split at ht <;> cases ht
  · exact .of_fields rfl rfl
  · next q rest hq =>
    have hne : q ≠ h := fun he => hd.notInRxq ep (by rw [hq, he]; exact List.mem_cons_self)
    exact ((s.setHeader_packetKept _ hne).trans (State.setOwner_packetKept _ .caller hne)).trans (.of_fields rfl rfl)

theorem execPktFill_packetKept {x : Half} {data : List Byte} {s t : State} {h : Nat} (hne : x.toNat ≠ h)
    (ht : execPktFill x data s = .next t) : s.PacketKept t h := by
  obtain ⟨-, ht⟩ := (whenAlive_next _ _ _).mp ht
  split at ht
  · cases ht
    exact .of_fields rfl rfl
  · refine commit_packetKept (fun u hu => ?_) ht
    split at hu <;> cases hu
    next v hv =>
      obtain ⟨-, rfl⟩ := (State.writeBuffer_ok _ _ _ _ _).mp hv
      exact (s.setHeader_packetKept _ hne).trans (.of_fields rfl rfl)

theorem returnCount_packetKept {ep : Ep} {n : Word} {s t : State} (h : Nat) (ht : returnCount s ep n = .next t) :
    s.PacketKept t h := by
  obtain ⟨-, ht⟩ := (whenAlive_next _ _ _).mp ht
  split at ht <;> cases ht <;> exact .of_fields rfl rfl

theorem execPktRead_packetKept {x : Half} {s t : State} (h : Nat) (ht : execPktRead x s = .next t) :
    s.PacketKept t h := by
  obtain ⟨-, ht⟩ := (whenAlive_next _ _ _).mp ht
  split at ht
  · cases ht
    exact .of_fields rfl rfl
  · refine commit_packetKept (fun u hu => ?_) ht
    split at hu <;> cases hu
    exact .of_fields rfl rfl

/-! ### The resets (R343) -/

theorem execInit_packetKept {s t : State} {h : Nat} (hd : s.Detached h) (ht : execInit s = .next t) :
    s.PacketKept t h := by
  obtain ⟨-, ht⟩ := (whenAlive_next _ _ _).mp ht
  cases ht
  have hreset := State.busReset_packetKept hd
  generalize s.busReset = u at hreset ⊢
  exact hreset.trans (.of_fields rfl rfl)

theorem execReinit_packetKept {s t : State} {h : Nat} (hd : s.Detached h) (ht : execReinit s = .next t) :
    s.PacketKept t h := by
  obtain ⟨-, ht⟩ := (whenAlive_next _ _ _).mp ht
  cases ht
  exact (State.reinit_packetKept hd).trans (.of_fields rfl rfl)

theorem execHostBusReset_packetKept {s t : State} {h : Nat} (hd : s.Detached h) (ht : execHostBusReset s = .next t) :
    s.PacketKept t h := by
  obtain ⟨-, ht⟩ := (whenAlive_next _ _ _).mp ht
  split at ht <;> cases ht
  · exact State.busReset_packetKept hd
  · exact .refl s h

theorem execPowerTimeout_packetKept {s t : State} {h : Nat} (hd : s.Detached h) (ht : execPowerTimeout s = .next t) :
    s.PacketKept t h := by
  obtain ⟨-, ht⟩ := (whenAlive_next _ _ _).mp ht
  split at ht
  · refine commit_packetKept (fun u hu => ?_) ht
    split at hu <;> cases hu
    next v hv =>
      have hframe := lowerPower_frame hv
      have hkept : s.PacketKept v h := by
        rw [hframe]
        exact .of_fields rfl rfl
      have hdv : v.Detached h := by
        rw [hframe]
        exact hd.of_fields rfl rfl rfl fun _ _ _ ha => ha
      exact hkept.trans (State.reinit_packetKept hdv)
  · cases ht
    exact .refl s h

/-! ### The SIE's transactions (R292 to R294) -/

theorem memWrite_packetKept {s t : State} {ref : BufRef} {bs : List Byte} (h : Nat) (ht : memWrite s ref bs = .ok t) :
    s.PacketKept t h := by
  obtain ⟨-, -, -, -, rfl⟩ := (memWrite_ok _ _ _ _).mp ht
  exact .of_fields rfl rfl

@[simp] theorem State.completeTransaction_owner (s : State) (ep : Ep) (d : Dir) (x : Desc) :
    (s.completeTransaction ep d x).owner = s.owner := rfl

@[simp] theorem State.completeTransaction_pkt (s : State) (ep : Ep) (d : Dir) (x : Desc) :
    (s.completeTransaction ep d x).pkt = s.pkt := rfl

theorem execHostSetup_packetKept {a : BitVec 7} {p : SetupPacket} {s t : State} (h : Nat)
    (ht : execHostSetup a p s = .next t) : s.PacketKept t h := by
  obtain ⟨-, ht⟩ := (whenAlive_next _ _ _).mp ht
  split at ht
  · refine commit_packetKept (fun u hu => ?_) ht
    split at hu <;> cases hu
    next v hv => exact (memWrite_packetKept h hv).trans (.of_fields (by simp) (by simp))
  · cases ht
    exact .refl s h

theorem execHostOut_packetKept {ep : Ep} {a : BitVec 7} {data : List Byte} {s t : State} (h : Nat)
    (ht : execHostOut ep a data s = .next t) : s.PacketKept t h := by
  obtain ⟨-, ht⟩ := (whenAlive_next _ _ _).mp ht
  split at ht
  · split at ht
    · cases ht
      exact .of_fields rfl rfl
    split at ht
    · refine commit_packetKept (fun u hu => ?_) ht
      unfold receiveOut at hu
      split at hu <;> cases hu
      next v hv => exact (memWrite_packetKept h hv).trans (.of_fields (by simp) (by simp))
    · cases ht
      exact .refl s h
  · cases ht
    exact .refl s h

theorem execHostIn_packetKept {ep : Ep} {a : BitVec 7} {s t : State} (h : Nat) (ht : execHostIn ep a s = .next t) :
    s.PacketKept t h := by
  obtain ⟨-, ht⟩ := (whenAlive_next _ _ _).mp ht
  split at ht
  · split at ht
    · cases ht
      exact .of_fields rfl rfl
    split at ht
    · refine commit_packetKept (fun u hu => ?_) ht
      unfold sendIn at hu
      split at hu <;> cases hu
      next v hv =>
        rw [(memRead_ok _ _ _ _ _ hv).2.1]
        exact .of_fields rfl rfl
    · cases ht
      exact .refl s h
  · cases ht
    exact .refl s h

/-! ### Every instruction -/

theorem exec_request_packetKept {i : Instr} {s t : State} {h : Nat} (hi : i.isCommand = false) (hd : s.Detached h)
    (ht : exec i s = .next t) : s.PacketKept t h := by
  obtain ⟨p, hp⟩ := exec_request i hi
  rw [hp, runRequest, whenAlive_next] at ht
  exact commit_packetKept (fun u hu => setupStage_packetKept hd hu) ht.2

/-- The instruction is a FREE, a TX or a PKT_FILL of packet `h`. -/
def IsAbout (h : Nat) : Instr → Prop
  | .free x | .tx _ x | .pktFill x _ => x.toNat = h
  | _ => False

/-- Every instruction that is not about a detached packet keeps its owner and its header. -/
theorem exec_packetKept {i : Instr} {s t : State} {h : Nat} (hd : s.Detached h) (hi : ¬IsAbout h i)
    (ht : exec i s = .next t) : s.PacketKept t h := by
  cases i with
  | init => exact execInit_packetKept hd ht
  | alloc => exact execAlloc_packetKept hd ht
  | free => exact execFree_packetKept hi ht
  | tx => exact execTx_packetKept hd hi ht
  | rx => exact execRx_packetKept hd ht
  | txByteCount | txPacketCount | rxByteCount => exact returnCount_packetKept h ht
  | configured | deviceReload =>
    obtain ⟨-, ht⟩ := (whenAlive_next _ _ _).mp ht
    cases ht
    exact .of_fields rfl rfl
  | reinit => exact execReinit_packetKept hd ht
  | pktFill => exact execPktFill_packetKept hi ht
  | pktRead => exact execPktRead_packetKept h ht
  | tokenDone => exact execTokenDone_packetKept hd ht
  | powerTimeout => exact execPowerTimeout_packetKept hd ht
  | hostSetup => exact execHostSetup_packetKept h ht
  | hostOut => exact execHostOut_packetKept h ht
  | hostIn => exact execHostIn_packetKept h ht
  | hostBusReset => exact execHostBusReset_packetKept hd ht
  | _ => exact exec_request_packetKept rfl hd ht

/-! ### The bytes -/

theorem State.Detached.notMem_slotBytes {s : State} {h : Nat} (hd : s.Detached h) (ep : Ep) (d : Dir) (n k : Nat) :
    (Buffer.pool h, k) ∉ slotBytes (s.nextSlot ep d) n := by
  rintro ⟨b, off, htarget, hb, -⟩
  cases hb
  refine hd.notInSlot ep d (s.ppBank ep d) ?_
  change refTarget (s.slot ep d (s.ppBank ep d)).addr = _ at htarget
  cases haddr : (s.slot ep d (s.ppBank ep d)).addr with
  | pool i =>
    rw [haddr] at htarget
    cases htarget
    rfl
  | null | reg =>
    rw [haddr] at htarget
    cases htarget

/-- An instruction that is not about a detached packet stores none of its bytes. ALLOC is set apart: with no packet
free, `storedBytes` names packet 0 for it, though it then stores nothing (`execAlloc_storesFree`). -/
theorem State.Detached.notMem_storedBytes {s : State} {i : Instr} {h : Nat} (hd : s.Detached h) (hi : ¬IsAbout h i)
    (halloc : i ≠ .alloc) (k : Nat) : (Buffer.pool h, k) ∉ storedBytes s i := by
  cases i with
  | alloc => exact absurd rfl halloc
  | pktFill x data =>
    rintro ⟨hx, -⟩
    cases hx
    exact hi rfl
  | hostSetup => exact hd.notMem_slotBytes _ _ _ k
  | hostOut => exact hd.notMem_slotBytes _ _ _ k
  | setConfiguration => exact hd.notMem_recyclableBytes k
  | tokenDone => exact fun hx => hx.elim Buffer.noConfusion (hd.notMem_recyclableBytes k)
  | powerTimeout => exact fun ⟨_, hx⟩ => Buffer.noConfusion hx
  | getStatusDevice | getStatusEndpoint | getConfiguration | hidGetIdle | hidGetProtocol =>
    exact fun hx => Buffer.noConfusion hx.1
  | _ => exact Set.notMem_empty _

/-- ALLOC stores bytes of a free packet alone (R110). -/
theorem execAlloc_storesFree {s t : State} (ht : execAlloc s = .next t) : s.StoresWithin t s.freeBytes := by
  obtain ⟨-, ht⟩ := (whenAlive_next _ _ _).mp ht
  split at ht <;> cases ht
  · next p u hu => exact (allocPacket_storesFree hu).then_same (u.returning_sameMemory _)
  · exact (s.returning_sameMemory _).storesWithin _

/-- Every instruction that is not about a detached packet keeps its bytes. -/
theorem exec_byteAt_of_detached {i : Instr} {s t : State} {h k : Nat} (hd : s.Detached h) (hi : ¬IsAbout h i)
    (hk : k < bufferLen s.cfg (.pool h)) (ht : exec i s = .next t) : t.byteAt (.pool h) k = s.byteAt (.pool h) k := by
  by_cases halloc : i = .alloc
  · subst halloc
    exact (execAlloc_storesFree ht).byteAt hk fun hx =>
      hd.notMem_recyclableBytes k (s.freeBytes_subset_recyclable hx)
  · exact (exec_storesWithin ht).byteAt hk (hd.notMem_storedBytes hi halloc k)

/-- Settles O60: a packet the caller owns is detached, and an instruction not about it leaves it alone. -/
theorem callerPacketsIsolated : Obligations.CallerPacketsIsolated := by
  intro i s t h hs hlt hown hother ht
  have hd := hs.detached hlt hown
  have hi : ¬IsAbout h i := by
    intro habout
    cases i with
    | free x => exact (hother x habout).1 rfl
    | tx ep x => exact (hother x habout).2.1 ep rfl
    | pktFill x d => exact (hother x habout).2.2 d rfl
    | _ => exact habout
  obtain ⟨howner, hheader⟩ := exec_packetKept hd hi ht
  exact ⟨howner.trans hown, hheader, fun k hk => exec_byteAt_of_detached hd hi (by rwa [bufferLen_pool hlt]) ht⟩

end Sys2Proof.Machine
end

section
/-! How the endpoint-0 control state moves (R180): each endpoint-0 completion along the arcs of its kind, the resets to
IDLE, and no other command at all. -/

namespace Sys2Proof.Machine

/-! ### What leaves endpoint 0's control fields alone -/

/-- The fields endpoint 0's control transfers run on: the control state, the control context, the address to come and
the address register (R21, R32, R34, R37). -/
def State.control (s : State) : Ctl × Ep0 × Option (BitVec 7) × BitVec 7 := (s.ctl, s.ep0, s.setAddrPending, s.addr)

theorem State.ctl_of_control {s t : State} (h : t.control = s.control) : t.ctl = s.ctl := congrArg (·.1) h

/-- A body that takes effect whole or leaves the fault mark alone (R313). -/
theorem commit_control {s t : State} {body : Except FaultReason State}
    (hbody : ∀ u, body = .ok u → u.control = s.control) (ht : commit s body = .next t) : t.control = s.control :=
  commit_induction (P := fun u => u.control = s.control) (fun _ => rfl) hbody ht

theorem arm_control {s t : State} {ep : Ep} {d : Dir} {b : Bank} {ref : BufRef} {n : BitVec 10} {tg : Toggle}
    (h : arm s ep d b ref n tg = .ok t) : t.control = s.control := by
  obtain ⟨-, rfl⟩ := (arm_ok _ _ _ _ _ _ _ _).mp h
  rfl

theorem State.release_control (s : State) (h : Nat) : (s.release h).control = s.control := by
  rw [State.release_frame]
  rfl

theorem allocPacket_control {s t : State} {p : Nat} (h : allocPacket s = some (p, t)) : t.control = s.control := by
  rw [(allocPacket_frame _ _ _ h).2]
  rfl

theorem submitPacket_control {s t : State} {ep : Ep} {h : Nat} (ht : submitPacket s ep h = .ok t) :
    t.control = s.control := by
  unfold submitPacket at ht
  split at ht
  · split at ht <;> cases ht
    next u hu => exact (arm_control hu :)
  · cases ht
    rw [State.enqueueTx_eq]
    rfl

theorem refillTx_control {s t : State} {ep : Ep} {c : Bank} (h : refillTx s ep c = .ok t) :
    t.control = s.control := by
  unfold refillTx at h
  split at h
  · cases h
    rfl
  · simp only at h
    split at h <;> cases h
    next u hu => exact (arm_control hu :)

/-- A TX completion of a data endpoint (R137). -/
theorem txDone_control {s t : State} {ep : Ep} {c : Bank} (h : txDone s ep c = .ok t) : t.control = s.control := by
  unfold txDone at h
  split at h
  · cases h
  split at h
  · cases h
  · cases h
  next hd _ =>
  split at h
  · cases h
  next u hu =>
  obtain ⟨-, rfl⟩ := (releaseSlot_ok _ _ _ _ _).mp hu
  split at h
  · cases h
  next v hv =>
  cases h
  have hrelease := (s.setSlot ep .tx c Slot.cleared).release_control hd
  split at hv
  · exact (refillTx_control hv).trans hrelease
  · cases hv
    exact hrelease

theorem refillRx_control {s t : State} {ep : Ep} {b : Bank} (h : refillRx s ep b = .ok t) :
    t.control = s.control := by
  unfold refillRx at h
  split at h
  · next p u hu =>
    split at h <;> cases h
    next v hv => exact (arm_control hv).trans (allocPacket_control hu)
  · split at h <;> cases h
    next u hu =>
      obtain ⟨-, rfl⟩ := (releaseSlot_ok _ _ _ _ _).mp hu
      rfl

/-- An RX completion of a data endpoint (R140). -/
theorem rxDone_control {s t : State} {ep : Ep} {b : Bank} {n : BitVec 10} (h : rxDone s ep b n = .ok t) :
    t.control = s.control := by
  unfold rxDone at h
  split at h
  · cases h
  · cases h
  split at h
  · refine (refillRx_control h).trans ?_
    rw [acceptRx_eq]
    rfl
  · exact arm_control h

theorem memWrite_control {s t : State} {ref : BufRef} {bs : List Byte} (h : memWrite s ref bs = .ok t) :
    t.control = s.control := by
  obtain ⟨-, -, -, -, rfl⟩ := (memWrite_ok _ _ _ _).mp h
  rfl

/-! ### The commands that leave endpoint 0's control fields alone -/

theorem execAlloc_control {s t : State} (ht : execAlloc s = .next t) : t.control = s.control := by
  obtain ⟨-, ht⟩ := (whenAlive_next _ _ _).mp ht
  split at ht <;> cases ht
  · next hu => exact (allocPacket_control hu :)
  · rfl

theorem execFree_control {h : Half} {s t : State} (ht : execFree h s = .next t) : t.control = s.control := by
  obtain ⟨-, ht⟩ := (whenAlive_next _ _ _).mp ht
  split at ht <;> cases ht
  · exact s.release_control _
  · rfl

theorem execTx_control {ep : Ep} {h : Half} {s t : State} (ht : execTx ep h s = .next t) : t.control = s.control := by
  obtain ⟨-, ht⟩ := (whenAlive_next _ _ _).mp ht
  iterate 4
    split at ht
    · cases ht
      rfl
  refine commit_control (fun u hu => ?_) ht
  split at hu <;> cases hu
  next v hv => exact (submitPacket_control hv :)

theorem execRx_control {ep : Ep} {s t : State} (ht : execRx ep s = .next t) : t.control = s.control := by
  obtain ⟨-, ht⟩ := (whenAlive_next _ _ _).mp ht
  iterate 2
    split at ht
    · cases ht
      rfl
  split at ht <;> cases ht <;> rfl

theorem returnCount_control {ep : Ep} {n : Word} {s t : State} (ht : returnCount s ep n = .next t) :
    t.control = s.control := by
  obtain ⟨-, ht⟩ := (whenAlive_next _ _ _).mp ht
  split at ht <;> cases ht <;> rfl

theorem execPktFill_control {h : Half} {data : List Byte} {s t : State} (ht : execPktFill h data s = .next t) :
    t.control = s.control := by
  obtain ⟨-, ht⟩ := (whenAlive_next _ _ _).mp ht
  split at ht
  · cases ht
    rfl
  · refine commit_control (fun u hu => ?_) ht
    split at hu <;> cases hu
    next v hv =>
      obtain ⟨-, rfl⟩ := (State.writeBuffer_ok _ _ _ _ _).mp hv
      rfl

theorem execPktRead_control {h : Half} {s t : State} (ht : execPktRead h s = .next t) : t.control = s.control := by
  obtain ⟨-, ht⟩ := (whenAlive_next _ _ _).mp ht
  split at ht
  · cases ht
    rfl
  · refine commit_control (fun u hu => ?_) ht
    split at hu <;> cases hu
    rfl

theorem execHostSetup_control {a : BitVec 7} {p : SetupPacket} {s t : State} (ht : execHostSetup a p s = .next t) :
    t.control = s.control := by
  obtain ⟨-, ht⟩ := (whenAlive_next _ _ _).mp ht
  split at ht
  · refine commit_control (fun u hu => ?_) ht
    split at hu <;> cases hu
    next v hv => exact (memWrite_control hv :)
  · cases ht
    rfl

theorem receiveOut_control {ep : Ep} {data : List Byte} {s t : State} (ht : receiveOut s ep data = .ok t) :
    t.control = s.control := by
  unfold receiveOut at ht
  split at ht <;> cases ht
  next v hv => exact (memWrite_control hv :)

theorem sendIn_control {ep : Ep} {s t : State} (ht : sendIn s ep = .ok t) : t.control = s.control := by
  unfold sendIn at ht
  split at ht <;> cases ht
  next v hv =>
    rw [(memRead_ok _ _ _ _ _ hv).2.1]
    rfl

theorem execHostOut_control {ep : Ep} {a : BitVec 7} {data : List Byte} {s t : State}
    (ht : execHostOut ep a data s = .next t) : t.control = s.control := by
  obtain ⟨-, ht⟩ := (whenAlive_next _ _ _).mp ht
  split at ht
  · split at ht
    · cases ht
      rfl
    split at ht
    · exact commit_control (fun u hu => receiveOut_control hu) ht
    · cases ht
      rfl
  · cases ht
    rfl

theorem execHostIn_control {ep : Ep} {a : BitVec 7} {s t : State} (ht : execHostIn ep a s = .next t) :
    t.control = s.control := by
  obtain ⟨-, ht⟩ := (whenAlive_next _ _ _).mp ht
  split at ht
  · split at ht
    · cases ht
      rfl
    split at ht
    · exact commit_control (fun u hu => sendIn_control hu) ht
    · cases ht
      rfl
  · cases ht
    rfl

/-! ### The stages of a SETUP (R183) -/

/-- Every answer of a handler starts a stage, and none starts STATUS_OUT. -/
theorem applyResult_ctl {s t : State} {r : HandlerResult} (h : applyResult s r = .ok t) : t.ctl ≠ .statusOut := by
  have hstatusIn {u : State} (hu : startStatusIn u = .ok t) : t.ctl ≠ .statusOut := by
    obtain ⟨-, rfl⟩ := (arm_ok _ _ _ _ _ _ _ _).mp hu
    exact Ctl.noConfusion
  cases r with
  | stall =>
    cases h
    exact Ctl.noConfusion
  | dataIn r off len =>
    rw [armNextIn_frame h]
    exact Ctl.noConfusion
  | dataOut sink =>
    rw [applyResult, startOut] at h
    split at h
    · exact hstatusIn h
    · cases h
      exact Ctl.noConfusion
  | noData => exact hstatusIn h

theorem ep0Setup_ctl {s t : State} {b : Bank} (h : ep0Setup s b = .ok t) : t.ctl ≠ .statusOut := by
  obtain ⟨p, hp⟩ := ep0Setup_ok h
  obtain ⟨u, r, v, -, hv, rfl⟩ := setupStage_ok hp
  exact (applyResult_ctl hv :)

/-! ### The completions of endpoint 0 (R188, R191) -/

/-- The moves of an IN completion. -/
theorem ep0InDone_ctl {s t : State} {c : Bank} (h : ep0InDone s c = .ok t) :
    t.ctl = s.ctl ∨ (s.ctl = .dataIn ∧ s.ep0.pending = none ∧ t.ctl = .statusOut) ∨
      (s.ctl = .statusIn ∧ t.ctl = .idle) := by
  unfold ep0InDone at h
  split at h
  · cases h
  split at h
  · cases h
  next u hu =>
  obtain ⟨-, rfl⟩ := (releaseSlot_ok _ _ _ _ _).mp hu
  simp only at h
  split at h
  · next hctl =>
    split at h
    · rw [armNextIn_frame h]
      exact .inl rfl
    · next hpending =>
      cases h
      exact .inr (.inl ⟨hctl, hpending, rfl⟩)
  · next hctl => split at h <;> cases h <;> exact .inr (.inr ⟨hctl, rfl⟩)
  all_goals
    cases h
    exact .inl rfl

theorem dataOutPacket_ctl {s t : State} {data : List Byte} (h : dataOutPacket s data = .ok t) :
    t.ctl = s.ctl ∨ t.ctl = .statusIn := by
  unfold dataOutPacket at h
  simp only at h
  split at h
  · obtain ⟨-, rfl⟩ := (arm_ok _ _ _ _ _ _ _ _).mp h
    exact .inr rfl
  · cases h
    left
    simp only [callSink]
    split <;> rfl

/-- The moves of an OUT completion. -/
theorem ep0OutDone_ctl {s t : State} {b : Bank} {n : BitVec 10} (h : ep0OutDone s b n = .ok t) :
    t.ctl = s.ctl ∨ (s.ctl = .dataIn ∧ t.ctl = .idle) ∨ (s.ctl = .dataOut ∧ t.ctl = .statusIn) ∨
      (s.ctl = .statusOut ∧ t.ctl = .idle) := by
  unfold ep0OutDone at h
  split at h
  · cases h
  split at h
  · cases h
  next u hu =>
  obtain ⟨-, rfl⟩ := (arm_ok _ _ _ _ _ _ _ _).mp hu
  split at h
  · next hctl => exact (dataOutPacket_ctl h).imp_right fun hstatus => .inr (.inl ⟨hctl, hstatus⟩)
  · next hctl =>
    cases h
    exact .inr (.inr (.inr ⟨hctl, rfl⟩))
  · next hctl =>
    cases h
    exact .inr (.inl ⟨hctl, rfl⟩)
  all_goals
    cases h
    exact .inl rfl

/-! ### TOKEN_DONE (R136, R182) -/

/-- The three kinds of endpoint-0 entry and their completions (R87, R182). -/
theorem ep0Token_cases {s t : State} {d : Dir} {b : Bank} {p : Pid} {n : BitVec 10} (h : ep0Token s d b p n = .ok t) :
    (d = .rx ∧ p = .setupToken ∧ ep0Setup s b = .ok t) ∨ (d = .tx ∧ p = .inToken ∧ ep0InDone s b = .ok t) ∨
      (d = .rx ∧ p = .outToken ∧ ep0OutDone s b n = .ok t) := by
  unfold ep0Token at h
  split at h
  · exact .inl ⟨rfl, rfl, h⟩
  · exact .inr (.inr ⟨rfl, rfl, h⟩)
  · exact .inr (.inl ⟨rfl, rfl, h⟩)
  all_goals cases h

/-- The arcs of R180's table: the moves a token-done entry of endpoint 0 makes. -/
def ControlArc (s t : State) (e : StatEntry) : Prop :=
  (e.dir = .rx ∧ (s.slot 0 .rx e.bank).desc.low = 0xD ∧ t.ctl ≠ .statusOut) ∨
    (e.dir = .tx ∧ (s.slot 0 .tx e.bank).desc.low = 0x9 ∧
      ((s.ctl = .dataIn ∧ s.ep0.pending = none ∧ t.ctl = .statusOut) ∨ (s.ctl = .statusIn ∧ t.ctl = .idle))) ∨
    (e.dir = .rx ∧ (s.slot 0 .rx e.bank).desc.low = 0x1 ∧
      ((s.ctl = .dataIn ∧ t.ctl = .idle) ∨ (s.ctl = .dataOut ∧ t.ctl = .statusIn) ∨
        (s.ctl = .statusOut ∧ t.ctl = .idle)))

/-- An entry of a data endpoint moves nothing; one of endpoint 0 moves along an arc of its kind, or not at all. -/
theorem handleEntry_ctl {s t : State} {e : StatEntry} (h : handleEntry s e = .ok t) :
    t.ctl = s.ctl ∨ e.ep = 0 ∧ ControlArc s t e := by
  obtain ⟨ep, d, b⟩ := e
  rcases handleEntry_ok h with ⟨p, hep, hlow, h⟩ | h | h
  · obtain rfl : ep = 0 := hep
    obtain ⟨hd, rfl, h⟩ | ⟨hd, rfl, h⟩ | ⟨hd, rfl, h⟩ := ep0Token_cases h
    all_goals cases hd
    · exact .inr ⟨rfl, .inl ⟨rfl, hlow, ep0Setup_ctl h⟩⟩
    · exact (ep0InDone_ctl h).imp_right fun harc => ⟨rfl, .inr (.inl ⟨rfl, hlow, harc⟩)⟩
    · exact (ep0OutDone_ctl h).imp_right fun harc => ⟨rfl, .inr (.inr ⟨rfl, hlow, harc⟩)⟩
  · exact .inl (State.ctl_of_control (txDone_control h))
  · exact .inl (State.ctl_of_control (rxDone_control h))

theorem execTokenDone_ctl {s t : State} (ht : execTokenDone s = .next t) :
    t.ctl = s.ctl ∨ ∃ e rest, s.stat = e :: rest ∧ e.ep = 0 ∧ ControlArc s t e := by
  obtain ⟨-, ht⟩ := (whenAlive_next _ _ _).mp ht
  split at ht
  · cases ht
    exact .inl rfl
  · next e rest hstat =>
    refine commit_induction
      (P := fun u => u.ctl = s.ctl ∨ ∃ e rest, s.stat = e :: rest ∧ e.ep = 0 ∧ ControlArc s u e)
      (fun _ => .inl rfl) (fun u hu => ?_) ht
    exact (handleEntry_ctl hu).imp_right fun harc => ⟨e, rest, hstat, harc⟩

/-! ### The resets (R343) -/

theorem State.busReset_ctl (s : State) : s.busReset.ctl = .idle := by
  rw [State.busReset_frame]

theorem execHostBusReset_ctl {s t : State} (ht : execHostBusReset s = .next t) : t.ctl = s.ctl ∨ t.ctl = .idle := by
  obtain ⟨-, ht⟩ := (whenAlive_next _ _ _).mp ht
  split at ht <;> cases ht
  · exact .inr s.busReset_ctl
  · exact .inl rfl

theorem execPowerTimeout_ctl {s t : State} (ht : execPowerTimeout s = .next t) : t.ctl = s.ctl ∨ t.ctl = .idle := by
  obtain ⟨-, ht⟩ := (whenAlive_next _ _ _).mp ht
  split at ht
  · refine commit_induction (P := fun u => u.ctl = s.ctl ∨ u.ctl = .idle) (fun _ => .inl rfl) (fun u hu => ?_) ht
    split at hu <;> cases hu
    next v _ => exact .inr v.busReset_ctl
  · cases ht
    exact .inl rfl

/-! ### Every command -/

/-- The moves of the control state: none, to IDLE by a command that resets the bus, or along an arc by a TOKEN_DONE. -/
theorem exec_ctl {i : Instr} {s t : State} (hi : i.isCommand = true) (ht : exec i s = .next t) :
    t.ctl = s.ctl ∨ ((i = .init ∨ i = .reinit ∨ i = .hostBusReset ∨ i = .powerTimeout) ∧ t.ctl = .idle) ∨
      (i = .tokenDone ∧ ∃ e rest, s.stat = e :: rest ∧ e.ep = 0 ∧ ControlArc s t e) := by
  cases i with
  | init | reinit =>
    obtain ⟨-, ht⟩ := (whenAlive_next _ _ _).mp ht
    cases ht
    exact .inr (.inl ⟨by simp, s.busReset_ctl⟩)
  | hostBusReset => exact (execHostBusReset_ctl ht).imp_right fun hidle => .inl ⟨by simp, hidle⟩
  | powerTimeout => exact (execPowerTimeout_ctl ht).imp_right fun hidle => .inl ⟨by simp, hidle⟩
  | tokenDone => exact (execTokenDone_ctl ht).imp_right fun harc => .inr ⟨rfl, harc⟩
  | alloc => exact .inl (State.ctl_of_control (execAlloc_control ht))
  | free => exact .inl (State.ctl_of_control (execFree_control ht))
  | tx => exact .inl (State.ctl_of_control (execTx_control ht))
  | rx => exact .inl (State.ctl_of_control (execRx_control ht))
  | txByteCount | txPacketCount | rxByteCount => exact .inl (State.ctl_of_control (returnCount_control ht))
  | configured | deviceReload =>
    obtain ⟨-, ht⟩ := (whenAlive_next _ _ _).mp ht
    cases ht
    exact .inl rfl
  | pktFill => exact .inl (State.ctl_of_control (execPktFill_control ht))
  | pktRead => exact .inl (State.ctl_of_control (execPktRead_control ht))
  | hostSetup => exact .inl (State.ctl_of_control (execHostSetup_control ht))
  | hostOut => exact .inl (State.ctl_of_control (execHostOut_control ht))
  | hostIn => exact .inl (State.ctl_of_control (execHostIn_control ht))
  | _ => cases hi

/-- Settles O56: of the three cases the first, no move, is excluded. -/
theorem controlStateMoves : Obligations.ControlStateMoves := fun _ _ _ hi ht hmoved =>
  (exec_ctl hi ht).resolve_left hmoved

end Sys2Proof.Machine
end

section
/-! The completions of endpoint 0's data and status stages (R186, R188, R191), by the control state they find. -/

namespace Sys2Proof.Machine

/-! ### IN completion (R186, R188) -/

theorem exec_tokenDone_ep0In {s : State} {c : Bank} {rest : List StatEntry} (hs : s.Alive)
    (hstat : s.stat = ⟨0, .tx, c⟩ :: rest) (hown : (s.slot 0 .tx c).desc.own = false)
    (hlow : (s.slot 0 .tx c).desc.low = 0x9) :
    exec .tokenDone s = commit s (ep0InDone { s with stat := rest } c) := by
  have hentry := handleEntry_of_legal (s := { s with stat := rest }) (p := .inToken) hown hlow rfl
  rw [exec_tokenDone_of_stat hs hstat, hentry, if_pos rfl, ep0Token]

/-- The slot of the completed packet is released, and bank and toggle advance (R188). -/
def State.inCompleted (s : State) : State :=
  { s.setSlot 0 .tx s.ep0.bank Slot.cleared with
    ep0 := { s.ep0 with bank := s.ep0.bank.other, toggle := s.ep0.toggle.other } }

section
variable {s : State} (hown : (s.slot 0 .tx s.ep0.bank).desc.own = false)
include hown

theorem ep0InDone_dataIn_last (hctl : s.ctl = .dataIn) (hpending : s.ep0.pending = none) :
    ep0InDone s s.ep0.bank = .ok { s.inCompleted with ctl := .statusOut } := by
  simp only [ep0InDone, ne_eq, not_true, if_false, releaseSlot_of_released s 0 .tx _ hown, hctl]
  split
  · next hsome => cases hsome.symm.trans hpending
  · rfl

theorem ep0InDone_dataIn_next (hctl : s.ctl = .dataIn) {r : Region} {off : Nat}
    (hpending : s.ep0.pending = some (r, off)) :
    ep0InDone s s.ep0.bank = armNextIn s.inCompleted r off := by
  simp only [ep0InDone, ne_eq, not_true, if_false, releaseSlot_of_released s 0 .tx _ hown, hctl]
  split
  · next hsome =>
    cases hsome.symm.trans hpending
    rfl
  · next hnone => cases hnone.symm.trans hpending

theorem ep0InDone_statusIn_address (hctl : s.ctl = .statusIn) {a : BitVec 7} (haddr : s.setAddrPending = some a) :
    ep0InDone s s.ep0.bank = .ok { s.inCompleted with addr := a, setAddrPending := none, ctl := .idle } := by
  simp only [ep0InDone, ne_eq, not_true, if_false, releaseSlot_of_released s 0 .tx _ hown, hctl, haddr]
  rfl

theorem ep0InDone_statusIn (hctl : s.ctl = .statusIn) (haddr : s.setAddrPending = none) :
    ep0InDone s s.ep0.bank = .ok { s.inCompleted with ctl := .idle } := by
  simp only [ep0InDone, ne_eq, not_true, if_false, releaseSlot_of_released s 0 .tx _ hown, hctl, haddr]
  rfl

theorem ep0InDone_elsewhere (hctl : s.ctl = .idle ∨ s.ctl = .dataOut ∨ s.ctl = .statusOut) :
    ep0InDone s s.ep0.bank = .ok s.inCompleted := by
  rcases hctl with hctl | hctl | hctl
  all_goals
    simp only [ep0InDone, ne_eq, not_true, if_false, releaseSlot_of_released s 0 .tx _ hown, hctl]
    rfl

end

/-- The other bank's slot is as it was when the completed one has been released. -/
theorem State.slot_inCompleted (s : State) :
    s.inCompleted.slot 0 .tx s.inCompleted.ep0.bank = s.slot 0 .tx s.ep0.bank.other :=
  State.slot_setSlot_other s 0 0 .tx .tx s.ep0.bank s.ep0.bank.other Slot.cleared fun h => Bank.other_ne _ h.2.2

theorem armNextIn_of_owned {s : State} (r : Region) (off : Nat) (h : (s.slot 0 .tx s.ep0.bank).desc.own = true) :
    armNextIn s r off = .error .ownedDescriptorWrite := by
  simp only [armNextIn, (arm_error s 0 .tx s.ep0.bank _ _ _ _).mpr ⟨h, rfl⟩]

/-- Settles O30: by the control state, and in DATA_IN by what is pending. -/
theorem controlInCompletion : Obligations.ControlInCompletion := by
  intro s c rest hs hstat hown hlow
  dsimp only
  rw [exec_tokenDone_ep0In hs hstat hown hlow]
  refine ⟨fun hc => ?mismatch, fun hc => ?_⟩
  case mismatch => rw [ep0InDone, if_pos hc, commit_error]
  subst hc
  refine ⟨fun hctl hpending => ?last, fun hctl r off hpending => ⟨fun hother => ?next, fun hother => ?owned⟩,
    fun hctl a haddr => ?address, fun hctl haddr => ?status, fun hctl => ?elsewhere⟩
  case last =>
    rw [ep0InDone_dataIn_last (s := { s with stat := rest }) hown hctl hpending]
    rfl
  case next =>
    rw [ep0InDone_dataIn_next (s := { s with stat := rest }) hown hctl hpending,
      armNextIn_of_released _ r off (by rw [State.slot_inCompleted]; exact hother)]
    rfl
  case owned =>
    rw [ep0InDone_dataIn_next (s := { s with stat := rest }) hown hctl hpending,
      armNextIn_of_owned r off (by rw [State.slot_inCompleted]; exact hother), commit_error]
  case address =>
    rw [ep0InDone_statusIn_address (s := { s with stat := rest }) hown hctl haddr]
    rfl
  case status =>
    rw [ep0InDone_statusIn (s := { s with stat := rest }) hown hctl haddr]
    rfl
  case elsewhere =>
    rw [ep0InDone_elsewhere (s := { s with stat := rest }) hown hctl]
    rfl

/-! ### OUT completion (R191) -/

theorem exec_tokenDone_ep0Out {s : State} {b : Bank} {rest : List StatEntry} (hs : s.Alive)
    (hstat : s.stat = ⟨0, .rx, b⟩ :: rest) (hown : (s.slot 0 .rx b).desc.own = false)
    (hlow : (s.slot 0 .rx b).desc.low = 0x1) :
    exec .tokenDone s = commit s (ep0OutDone { s with stat := rest } b (s.slot 0 .rx b).desc.bc) := by
  have hentry := handleEntry_of_legal (s := { s with stat := rest }) (p := .outToken) hown hlow rfl
  rw [exec_tokenDone_of_stat hs hstat, hentry, if_pos rfl, ep0Token]
  rfl

/-- The receive buffer is given back to the SIE (R191). -/
def State.outRearmed (s : State) (b : Bank) : State :=
  s.setSlot 0 .rx b { desc := armedDesc (ep0Count s.cfg) .data1, addr := ep0rxRef b }

/-- How many bytes of a packet the sink takes: those up to wLength (R191). -/
def State.sinkTaken (s : State) (data : List Byte) : Nat :=
  min data.length (s.setup.wLength.toNat - s.ep0out.received.toNat)

/-- How many bytes the sink has then received. -/
def State.sinkReceived (s : State) (data : List Byte) : Half :=
  s.ep0out.received + BitVec.ofNat 16 (s.sinkTaken data)

/-- The bytes of a packet have been passed to the sink (R191). -/
def State.sinkWritten (s : State) (sink : SinkId) (data : List Byte) : State :=
  { s.call (.sinkWrite sink s.ep0out.received (data.take (s.sinkTaken data))) with
    ep0out := { received := s.sinkReceived data, sink := some sink } }

theorem State.sinkWritten_call (s : State) (sink : SinkId) (data : List Byte) (c : CollabCall) :
    (s.sinkWritten sink data).call c = { s with
      ep0out := { received := s.sinkReceived data, sink := some sink }
      calls := s.calls ++ [.sinkWrite sink s.ep0out.received (data.take (s.sinkTaken data)), c] } := by
  simp [State.sinkWritten, State.call]

section
variable {s : State} {b : Bank} {n : BitVec 10} {data : List Byte}

theorem ep0OutDone_of_read_error {r : FaultReason} (hread : s.readBuffer (.region (.ep0rx b)) 0 n.toNat = .error r) :
    ep0OutDone s b n = .error r := by
  simp only [ep0OutDone, hread]

variable (hown : (s.slot 0 .rx b).desc.own = false)
  (hread : s.readBuffer (.region (.ep0rx b)) 0 n.toNat = .ok data)
include hown hread

theorem ep0OutDone_dataOut (hctl : s.ctl = .dataOut) : ep0OutDone s b n = dataOutPacket (s.outRearmed b) data := by
  simp only [ep0OutDone, hread, arm_of_released s 0 .rx b _ _ _ hown, hctl]
  rfl

theorem ep0OutDone_statusOut (hctl : s.ctl = .statusOut) :
    ep0OutDone s b n = .ok { s.outRearmed b with ctl := .idle } := by
  simp only [ep0OutDone, hread, arm_of_released s 0 .rx b _ _ _ hown, hctl]
  rfl

theorem ep0OutDone_dataIn (hctl : s.ctl = .dataIn) : ep0OutDone s b n =
    .ok { s.outRearmed b with ep0 := { s.ep0 with pending := none, pendingLen := 0 }, ctl := .idle } := by
  simp only [ep0OutDone, hread, arm_of_released s 0 .rx b _ _ _ hown, hctl]
  rfl

theorem ep0OutDone_elsewhere (hctl : s.ctl = .idle ∨ s.ctl = .statusIn) :
    ep0OutDone s b n = .ok (s.outRearmed b) := by
  rcases hctl with hctl | hctl
  all_goals
    simp only [ep0OutDone, hread, arm_of_released s 0 .rx b _ _ _ hown, hctl]
    rfl

end

/-- A packet of the data stage that does not end it: its bytes go to the sink, up to wLength (R191). -/
theorem dataOutPacket_of_more {s : State} {data : List Byte} {sink : SinkId} (hsink : s.ep0out.sink = some sink)
    (hmore : ¬(s.setup.wLength ≤ s.sinkReceived data ∨ data.length < s.cfg.ep0Size.toNat)) :
    dataOutPacket s data = .ok (s.sinkWritten sink data) := by
  simp only [dataOutPacket, callSink, hsink]
  exact if_neg hmore

/-- A short packet, or wLength reached, ends the data stage: the sink is completed and the status IN started (R191). -/
theorem dataOutPacket_of_end {s : State} {data : List Byte} {sink : SinkId} (hsink : s.ep0out.sink = some sink)
    (hend : s.setup.wLength ≤ s.sinkReceived data ∨ data.length < s.cfg.ep0Size.toNat) :
    dataOutPacket s data =
      startStatusIn ((s.sinkWritten sink data).call (.sinkComplete sink (s.sinkReceived data))) := by
  simp only [dataOutPacket, callSink, hsink]
  exact if_pos hend

theorem startStatusIn_of_owned {s : State} (h : (s.slot 0 .tx s.ep0.bank).desc.own = true) :
    startStatusIn s = .error .ownedDescriptorWrite :=
  (arm_error { s with ctl := .statusIn } 0 .tx s.ep0.bank _ _ _ _).mpr ⟨h, rfl⟩

/-- Giving a receive buffer back leaves the transmit slots as they were. -/
theorem State.slot_outRearmed (s : State) (b c : Bank) : (s.outRearmed b).slot 0 .tx c = s.slot 0 .tx c :=
  State.slot_setSlot_other s 0 0 .rx .tx b c _ fun h => Dir.noConfusion h.2.1

section
variable {s : State} {b : Bank} {n : BitVec 10} {data : List Byte} {sink : SinkId}
  (hown : (s.slot 0 .rx b).desc.own = false)
  (hread : s.readBuffer (.region (.ep0rx b)) 0 n.toNat = .ok data)
  (hctl : s.ctl = .dataOut) (hsink : s.ep0out.sink = some sink)
include hown hread hctl hsink

theorem ep0OutDone_dataOut_more
    (hmore : ¬(s.setup.wLength ≤ s.sinkReceived data ∨ data.length < s.cfg.ep0Size.toNat)) :
    ep0OutDone s b n = .ok ((s.outRearmed b).sinkWritten sink data) := by
  rw [ep0OutDone_dataOut hown hread hctl]
  exact dataOutPacket_of_more hsink hmore

variable (hend : s.setup.wLength ≤ s.sinkReceived data ∨ data.length < s.cfg.ep0Size.toNat)
include hend

theorem ep0OutDone_dataOut_owned (htx : (s.slot 0 .tx s.ep0.bank).desc.own = true) :
    ep0OutDone s b n = .error .ownedDescriptorWrite := by
  rw [← s.slot_outRearmed b] at htx
  rw [ep0OutDone_dataOut hown hread hctl, dataOutPacket_of_end (s := s.outRearmed b) hsink hend]
  exact startStatusIn_of_owned htx

/-- The last packet: the sink has its bytes and is completed, and the zero-length status packet is armed (R189). -/
theorem ep0OutDone_dataOut_last (htx : (s.slot 0 .tx s.ep0.bank).desc.own = false) :
    ep0OutDone s b n = .ok
      { (s.outRearmed b).setSlot 0 .tx s.ep0.bank { desc := armedDesc 0 s.ep0.toggle, addr := .reg .reply 0 } with
        calls := s.calls ++ [.sinkWrite sink s.ep0out.received (data.take (s.sinkTaken data)),
          .sinkComplete sink (s.sinkReceived data)]
        ep0out := { received := s.sinkReceived data, sink := some sink }
        ctl := .statusIn } := by
  rw [← s.slot_outRearmed b] at htx
  rw [ep0OutDone_dataOut hown hread hctl, dataOutPacket_of_end (s := s.outRearmed b) hsink hend,
    State.sinkWritten_call]
  exact startStatusIn_of_released _ htx

end

/-- Settles O31: by the control state, and in DATA_OUT by whether the packet ends the stage. -/
theorem controlOutCompletion : Obligations.ControlOutCompletion := by
  intro s b rest data hs hstat hown hlow
  dsimp only
  rw [exec_tokenDone_ep0Out hs hstat hown hlow]
  refine ⟨fun r hread => ?unread, fun hread hctl => ?statusOut, fun hread hctl => ?dataIn,
    fun hread hctl => ?elsewhere, fun hread hctl sink hsink =>
      ⟨fun hmore => ?more, fun hend htx => ?owned, fun hend htx => ?last⟩⟩
  case unread =>
    rw [ep0OutDone_of_read_error (s := { s with stat := rest }) hread]
    rfl
  case statusOut =>
    rw [ep0OutDone_statusOut (s := { s with stat := rest }) hown hread hctl]
    rfl
  case dataIn =>
    rw [ep0OutDone_dataIn (s := { s with stat := rest }) hown hread hctl]
    rfl
  case elsewhere =>
    rw [ep0OutDone_elsewhere (s := { s with stat := rest }) hown hread hctl]
    rfl
  case more =>
    rw [ep0OutDone_dataOut_more (s := { s with stat := rest }) hown hread hctl hsink hmore]
    rfl
  case owned =>
    rw [ep0OutDone_dataOut_owned (s := { s with stat := rest }) hown hread hctl hsink hend htx]
    rfl
  case last =>
    rw [ep0OutDone_dataOut_last (s := { s with stat := rest }) hown hread hctl hsink hend htx]
    rfl

end Sys2Proof.Machine
end

section
/-! The SETUP stage of each request but SET_CONFIGURATION (R183, R184): what a handler's answer starts is said once
(`exec_of_answer`), and each request then needs only what its handler answers. -/

namespace Sys2Proof.Machine

/-! ### What a handler's answer starts (R183 steps 7 to 9) -/

/-- What endpoint 0's next TX slot holds once an answer's stage has started; `l` is wLength. -/
def HandlerResult.txSlot (c : Params) (l : Half) : HandlerResult → Slot
  | .stall => Slot.cleared
  | .dataIn r off n => chunkSlot c r off.toNat (responseLen n l) .data1
  | .dataOut _ => if l = 0 then statusSlot else Slot.cleared
  | .noData => statusSlot

/-- `u` after the stage of an answer has started, with `e` as the control context the SETUP set and `b` as the BDT. -/
def State.answered (u : State) (l : Half) (e : Ep0) (b : PerEp (Dirs (Banks Slot))) : HandlerResult → State
  | .stall => { u with bdt := b, endpt := epPut u.endpt 0 0x0F, ep0 := e, ctl := .idle, tokenSuspend := false }
  | .dataIn r off n =>
    { u with
      bdt := b
      ep0 := afterChunk u.cfg e r off.toNat (responseLen n l)
      ctl := .dataIn
      tokenSuspend := false }
  | .dataOut sink =>
    if l = 0 then
      { u with
        bdt := b
        ep0 := e
        calls := u.calls ++ [.sinkComplete sink 0]
        ctl := .statusIn
        tokenSuspend := false }
    else
      { u with
        bdt := b
        ep0 := e
        ep0out := { received := 0, sink := some sink }
        ctl := .dataOut
        tokenSuspend := false }
  | .noData => { u with bdt := b, ep0 := e, ctl := .statusIn, tokenSuspend := false }

/-- The state a handler runs on, its fields written out (`State.beginSetup_eq_begun`), so that what the handler makes of
it reduces at sight. -/
abbrev State.begun (s : State) (p : SetupPacket) : State :=
  { s with
    setup := p
    bdt := (s.beginSetup p).bdt
    ep0 := s.ep0.fresh
    ep0out := { received := 0, sink := none }
    setAddrPending := none
    pwr := { s.pwr with armed := false } }

theorem State.beginSetup_eq_begun (s : State) (p : SetupPacket) : s.beginSetup p = s.begun p := rfl

/-- A SETUP takes both TX slots of endpoint 0 back (R183 step 3). -/
theorem ep0TxIs_beginSetup {s t : State} {p : SetupPacket} (h : t.bdt = (s.beginSetup p).bdt) :
    Ep0TxIs s t Slot.cleared := by
  simp only [Ep0TxIs, State.slot_congr t _ h, State.slot_beginSetup, and_self, if_true, true_and]
  exact fun _ _ _ hne => if_neg hne

theorem Ep0TxIs.arm {s u t : State} {x y : Slot} (hu : Ep0TxIs s u y)
    (h : t.bdt = (u.setSlot 0 .tx s.ep0.bank x).bdt) : Ep0TxIs s t x := by
  obtain ⟨-, hother, hkept⟩ := hu
  simp only [Ep0TxIs, State.slot_congr t _ h]
  refine ⟨State.slot_setSlot_same .., ?other, fun ep d b hne => ?kept⟩
  case other => rw [State.slot_setSlot_other _ _ _ _ _ _ _ _ fun h => Bank.other_ne _ h.2.2, hother]
  case kept => rw [State.slot_setSlot_other _ _ _ _ _ _ _ _ fun h => hne ⟨h.1, h.2.1⟩, hkept _ _ _ hne]

/-- The stage of an answer starts when the handler has left endpoint 0's slots and context as the SETUP set them. -/
theorem applyResult_of_kept {s u : State} {p : SetupPacket} (hcfg : u.cfg = s.cfg)
    (hbdt : u.bdt = (s.beginSetup p).bdt) (hep0 : u.ep0 = s.ep0.fresh) (hsetup : u.setup = p) (r : HandlerResult) :
    ∃ t, applyResult u r = .ok t ∧ Ep0TxIs s t (r.txSlot s.cfg p.wLength) ∧
      { t with tokenSuspend := false } = u.answered p.wLength s.ep0.fresh t.bdt r := by
  have hslots : Ep0TxIs s u Slot.cleared := ep0TxIs_beginSetup hbdt
  have hbank : u.ep0.bank = s.ep0.bank := by rw [hep0]; rfl
  have hown : (u.slot 0 .tx u.ep0.bank).desc.own = false := by rw [hbank, hslots.1]; rfl
  cases r with
  | stall =>
    refine ⟨_, rfl, hslots, ?_⟩
    rw [ep0Stall_eq, hep0]
    rfl
  | dataIn r off n =>
    refine ⟨_, startIn_of_released u r off n hown, hslots.arm ?_, ?_⟩
    · rw [hep0, hsetup, hcfg]
      rfl
    · rw [hep0, hsetup]
      rfl
  | noData =>
    refine ⟨_, startStatusIn_of_released u hown, hslots.arm ?_, ?_⟩
    · rw [hep0]
      rfl
    · rw [← hep0]
      rfl
  | dataOut sink =>
    refine ⟨_, startOut_of_released u sink hown, ?_⟩
    rw [hsetup]
    by_cases hl : p.wLength = 0
    · simp only [HandlerResult.txSlot, State.answered, if_pos hl]
      refine ⟨hslots.arm ?_, ?_⟩
      · rw [hep0]
        rfl
      · rw [← hep0]
        rfl
    · simp only [HandlerResult.txSlot, State.answered, if_neg hl]
      refine ⟨hslots, ?_⟩
      rw [← hep0, ← hsetup]

section
variable {i : Instr} {p : SetupPacket} {l : Half} {s u : State} {r : HandlerResult}

/-- The SETUP stage of a request whose handler answers `r`, leaving the state `u`. -/
theorem setupStage_of_answer (hset : ∀ v w l, i ≠ .setConfiguration v w l) (hl : p.wLength = l)
    (hu : requestHandler i (s.begun p) = .ok (u, r)) :
    ∃ t, setupStage p (requestHandler i) s = .ok t ∧ Ep0TxIs s t (r.txSlot s.cfg l) ∧
      t = u.answered l s.ep0.fresh t.bdt r := by
  subst hl
  have hframe := (requestHandler_frame hu).resolve_left fun ⟨v, w, l, hi, _⟩ => hset v w l hi
  obtain ⟨t, ht, hslots, heq⟩ := applyResult_of_kept (s := s) (u := u) (p := p) (by rw [hframe])
    (by rw [hframe]) (by rw [hframe]) (by rw [hframe]) r
  rw [← State.beginSetup_eq_begun] at hu
  exact ⟨_, setupStage_of_handler p _ s u t r hu ht, hslots, heq⟩

/-- The same for the instruction of the request. A use gives the instruction and what its handler answers, as
`(exec_of_answer … :)`: what it states then follows from the instruction, and the goal is that written out. -/
theorem exec_of_answer (hs : s.Alive) (hi : exec i = runRequest p (requestHandler i))
    (hset : ∀ v w l, i ≠ .setConfiguration v w l) (hl : p.wLength = l)
    (hu : requestHandler i (s.begun p) = .ok (u, r)) :
    ∃ t, exec i s = .next t ∧ Ep0TxIs s t (r.txSlot s.cfg l) ∧ t = u.answered l s.ep0.fresh t.bdt r := by
  obtain ⟨t, ht, hspec⟩ := setupStage_of_answer hset hl hu
  exact ⟨t, by rw [hi]; exact runRequest_of_ok p _ s t hs ht, hspec⟩

end

/-! ### Unsupported requests (R95, R197) -/

/-- Settles O32: what no row of the table names is answered by a stall, on the state with the receive buffer given
back. -/
theorem unknownRequestStalls : Obligations.UnknownRequestStalls := by
  intro s b rest bytes p hs hstat hown hlow hread hp hdecode
  rw [exec_tokenDone_setup hs hstat hown hlow hread hp, dispatchRequest_eq, hdecode, Option.getD_none]
  obtain ⟨t, ht, ⟨hbank, hother, hkept⟩, heq⟩ := setupStage_of_answer (i := .init) (p := p)
    (s := ({ s with stat := rest } : State).setSlot 0 .rx b
      { desc := armedDesc (ep0Count s.cfg) .data1, addr := ep0rxRef b }) nofun rfl rfl
  refine ⟨t, by rw [ht, commit_ok], heq, ?given, fun c => ?released, fun ep d c htx hrx => ?_⟩
  case given =>
    rw [hkept 0 .rx b fun h => Dir.noConfusion h.2]
    exact State.slot_setSlot_same ..
  case released =>
    obtain rfl | rfl := Bank.eq_or_other s.ep0.bank c
    · exact hbank
    · exact hother
  rw [hkept ep d c htx]
  exact State.slot_setSlot_other _ _ _ _ _ _ _ _ hrx

/-! ### Requests without a data stage (R225 to R227, R238, R239, R243) -/

theorem requestEp_of_endpoint {c : Params} {w : Half} {i : Ep} (hi : i.val = (w.extractLsb' 0 7).toNat)
    (hle : i.val ≤ c.numEndpoints.val) : requestEp c w = some i := by
  rw [requestEp, dif_pos (hi ▸ i.isLt), if_pos (hi ▸ hle)]
  exact congrArg some (Fin.ext hi.symm)

theorem requestEp_of_above {c : Params} {w : Half} (h : c.numEndpoints.val < (w.extractLsb' 0 7).toNat) :
    requestEp c w = none := by
  unfold requestEp
  split
  · exact if_neg (Nat.not_le.mpr h)
  · rfl

theorem handleSetFeatureEndpoint_of_endpoint {w : Half} {s : State} {i : Ep} (hep : requestEp s.cfg w = some i) :
    handleSetFeatureEndpoint 0 w s = .ok (s.setEndpt i (withStall (epGet s.endpt i)), .noData) := by
  simp only [handleSetFeatureEndpoint, hep]
  rfl

theorem handleClearFeatureEndpoint_of_endpoint {w : Half} {s : State} {i : Ep} (hep : requestEp s.cfg w = some i) :
    handleClearFeatureEndpoint 0 w s = .ok (s.setEndpt i (withoutStall (epGet s.endpt i)), .noData) := by
  simp only [handleClearFeatureEndpoint, hep]
  rfl

/-- An endpoint above NUM_ENDPOINTS, or a selector other than ENDPOINT_HALT, is answered by a stall. -/
theorem handleSetFeatureEndpoint_of_unsupported {v w : Half} {s : State} (h : requestEp s.cfg w = none ∨ v ≠ 0) :
    handleSetFeatureEndpoint v w s = .ok (s, .stall) := by
  unfold handleSetFeatureEndpoint
  split
  · rfl
  · next hep => exact if_pos (h.resolve_left (by simp [hep]))

theorem handleClearFeatureEndpoint_of_unsupported {v w : Half} {s : State} (h : requestEp s.cfg w = none ∨ v ≠ 0) :
    handleClearFeatureEndpoint v w s = .ok (s, .stall) := by
  unfold handleClearFeatureEndpoint
  split
  · rfl
  · next hep => exact if_pos (h.resolve_left (by simp [hep]))

/-- Settles O38: by what each handler answers. -/
theorem requestsWithoutData : Obligations.RequestsWithoutData := by
  intro s v w l hs
  refine ⟨?address, fun i hi hle hv => ?feature, fun h => ?unsupported, ?idle, ?protocol, ?lineState⟩
  case address => exact (exec_of_answer (i := .setAddress v w l) hs rfl nofun rfl rfl :)
  case feature =>
    subst hv
    have hep := requestEp_of_endpoint hi hle
    exact ⟨(exec_of_answer (i := .setFeatureEndpoint 0 w l) hs rfl nofun rfl
        (handleSetFeatureEndpoint_of_endpoint (by exact hep)) :),
      (exec_of_answer (i := .clearFeatureEndpoint 0 w l) hs rfl nofun rfl
        (handleClearFeatureEndpoint_of_endpoint (by exact hep)) :)⟩
  case unsupported =>
    have hep := h.imp_left requestEp_of_above
    exact ⟨(exec_of_answer (i := .setFeatureEndpoint v w l) hs rfl nofun rfl
        (handleSetFeatureEndpoint_of_unsupported (by exact hep)) :),
      (exec_of_answer (i := .clearFeatureEndpoint v w l) hs rfl nofun rfl
        (handleClearFeatureEndpoint_of_unsupported (by exact hep)) :)⟩
  case idle => exact (exec_of_answer (i := .hidSetIdle v w l) hs rfl nofun rfl rfl :)
  case protocol => exact (exec_of_answer (i := .hidSetProtocol v w l) hs rfl nofun rfl rfl :)
  case lineState => exact (exec_of_answer (i := .cdcSetControlLineState v w l) hs rfl nofun rfl rfl :)

/-! ### Requests answered from REPLY (R220, R221, R231, R235, R236) -/

theorem handleGetStatusEndpoint_of_endpoint {w : Half} {s : State} {i : Ep} (hep : requestEp s.cfg w = some i) :
    handleGetStatusEndpoint w s =
      .ok (s.reply [if stallBit (epGet s.endpt i) then 0x01 else 0x00, 0x00], replyIn 2) := by
  simp only [handleGetStatusEndpoint, hep]

theorem handleGetStatusEndpoint_of_above {w : Half} {s : State} (hep : requestEp s.cfg w = none) :
    handleGetStatusEndpoint w s = .ok (s, .stall) := by
  simp only [handleGetStatusEndpoint, hep]

theorem handleHidGetIdle_eq (v w : Half) (s : State) : handleHidGetIdle v w s = .ok
    (({ s with draws := s.drop.draws, drawn := s.drop.drawn }.call (.idle w (lowByte v))).reply
      [BitVec.ofNat 8 s.drawValue], replyIn 1) := by
  rw [handleHidGetIdle, State.drop_frame s]

theorem handleHidGetProtocol_eq (w : Half) (s : State) : handleHidGetProtocol w s = .ok
    (({ s with draws := s.drop.draws, drawn := s.drop.drawn }.call (.protocol w)).reply
      [BitVec.ofNat 8 s.drawValue], replyIn 1) := by
  rw [handleHidGetProtocol, State.drop_frame s]

/-- Settles O39: by what each handler answers. -/
theorem requestsFromReply : Obligations.RequestsFromReply := by
  intro s v w l hs
  refine ⟨?device, fun i hi hle => ?endpoint, fun h => ?above, ?configuration, ?idle, ?protocol⟩
  case device => exact (exec_of_answer (i := .getStatusDevice v w l) hs rfl nofun rfl rfl :)
  case endpoint =>
    exact (exec_of_answer (i := .getStatusEndpoint v w l) hs rfl nofun rfl
      (handleGetStatusEndpoint_of_endpoint (by exact requestEp_of_endpoint hi hle)) :)
  case above =>
    exact (exec_of_answer (i := .getStatusEndpoint v w l) hs rfl nofun rfl
      (handleGetStatusEndpoint_of_above (by exact requestEp_of_above h)) :)
  case configuration => exact (exec_of_answer (i := .getConfiguration v w l) hs rfl nofun rfl rfl :)
  case idle =>
    obtain ⟨t, ht, hslots, heq⟩ := exec_of_answer (i := .hidGetIdle v w l) hs rfl nofun rfl (handleHidGetIdle_eq v w _)
    exact ⟨t, _, ht, hslots, by rw [heq]; rfl⟩
  case protocol =>
    obtain ⟨t, ht, hslots, heq⟩ := exec_of_answer (i := .hidGetProtocol v w l) hs rfl nofun rfl
      (handleHidGetProtocol_eq w _)
    exact ⟨t, _, ht, hslots, by rw [heq]; rfl⟩

/-! ### Requests that take host data (R237, R241) -/

/-- Settles O42: both handlers answer with a sink; which stage starts is decided by wLength. -/
theorem requestsWithHostData : Obligations.RequestsWithHostData := by
  intro s v w l hs
  have hreport := (exec_of_answer (l := l) (i := .hidSetReport v w l) hs rfl nofun rfl rfl :)
  have hcoding := (exec_of_answer (l := l) (i := .cdcSetLineCoding v w l) hs rfl nofun rfl rfl :)
  refine ⟨fun hl => ?stage, fun hl => ?complete⟩
  case stage =>
    simp only [HandlerResult.txSlot, State.answered, if_neg hl] at hreport hcoding
    exact ⟨hreport, hcoding⟩
  case complete =>
    simp only [HandlerResult.txSlot, State.answered, if_pos hl] at hreport hcoding
    exact ⟨hreport, hcoding⟩

/-! ### GET_DESCRIPTOR (R228 to R230, R270) -/

theorem findDescriptor_eq_none {c : Params} {v w : Half}
    (h : ∀ e ∈ c.descTable, ¬(e.wValue = v ∧ e.wIndex = w)) : findDescriptor c v w = none := by
  rw [findDescriptor, List.findIdx?_eq_none_iff]
  intro e he
  rw [← Bool.decide_and]
  exact decide_eq_false (h e he)

/-- The entry found is the first whose two fields are equal (R228). -/
theorem findDescriptor_eq_some {c : Params} {k : Nat} {e : DescEntry} (hk : c.descTable[k]? = some e)
    (hfirst : ∀ e' ∈ c.descTable.take k, ¬(e'.wValue = e.wValue ∧ e'.wIndex = e.wIndex)) :
    findDescriptor c e.wValue e.wIndex = some k := by
  obtain ⟨hlt, he⟩ := List.getElem?_eq_some_iff.mp hk
  rw [findDescriptor, List.findIdx?_eq_some_iff_getElem]
  refine ⟨hlt, by simp [he], fun j hj => ?_⟩
  rw [← Bool.decide_and, decide_eq_true_eq]
  exact hfirst _ (List.mem_take_iff_getElem.mpr ⟨j, by omega, rfl⟩)

/-- A string reports its own first byte, any other descriptor the table's length (R230). -/
theorem descriptorLength_eq {s : State} {k : Nat} {v n : Half} {e : DescEntry} (hk : s.cfg.descTable[k]? = some e)
    (hlen : if v.extractLsb' 8 8 = 3 then
        0 < bufferLen s.cfg (.region (.desc k)) ∧
          ∃ x : Byte, s.byteAt (.region (.desc k)) 0 = some x ∧ n = x.setWidth 16
      else n = e.length) : descriptorLength s k v = .ok n := by
  rw [descriptorLength, highByte]
  by_cases hstring : v.extractLsb' 8 8 = 3
  · rw [if_pos hstring] at hlen
    obtain ⟨hfits, x, hx, rfl⟩ := hlen
    have hread : s.readBuffer (.region (.desc k)) 0 1 = .ok [x] :=
      State.readBuffer_of_bytes (bs := [x]) hfits fun j hj => by
        obtain rfl : j = 0 := by simpa using hj
        exact hx
    rw [if_pos hstring, hread]
    rfl
  · rw [if_neg hstring] at hlen
    rw [if_neg hstring, hlen, List.getD_eq_getElem?_getD, List.getElem?_map, hk]
    rfl

theorem getDescriptor_of_none {s : State} {v w : Half} (hfind : findDescriptor s.cfg v w = none) :
    getDescriptor v w s = .ok (s, .stall) := by
  simp only [getDescriptor, hfind]

/-- With the power timer disarmed, a configuration descriptor arms it when the monitor is enabled (R270). -/
theorem getDescriptor_of_some {s : State} {v w n : Half} {k : Nat} (hfind : findDescriptor s.cfg v w = some k)
    (hlen : descriptorLength s k v = .ok n) (hdisarmed : s.pwr.armed = false) :
    getDescriptor v w s = .ok ({ s with
      pwr := { s.pwr with armed := decide (v.extractLsb' 8 8 = 2) && s.cfg.powerNegEnabled } },
        .dataIn (.desc k) 0 n) := by
  simp only [getDescriptor, hfind, hlen, hdisarmed, highByte]
  by_cases h : v.extractLsb' 8 8 = 2 <;> simp [h]

/-! ### Requests answered from a collaborator's region (R234, R242) -/

/-- GET_REPORT's answer is a stall or bytes of the report region. -/
theorem reportAnswer_cases (x : Nat) :
    reportAnswer x = .stall ∨ ∃ off n, reportAnswer x = .dataIn (.collab .hidReport) off n := by
  cases x with
  | zero => exact .inl rfl
  | succ n => exact .inr ⟨_, _, rfl⟩

/-- Every offset and length of the report region is some free value's answer. -/
theorem exists_reportAnswer_eq (off n : Half) : ∃ x, reportAnswer x = .dataIn (.collab .hidReport) off n := by
  refine ⟨65536 * off.toNat + n.toNat + 1, ?_⟩
  have hdiv : (65536 * off.toNat + n.toNat) / 65536 = off.toNat := by omega
  rw [reportAnswer, hdiv, BitVec.ofNat_toNat, BitVec.setWidth_eq]
  congr
  apply BitVec.eq_of_toNat_eq
  rw [BitVec.toNat_ofNat]
  omega

theorem handleHidGetReport_of_answer {v w : Half} {s : State} {r : HandlerResult}
    (hr : reportAnswer s.drawValue = r) : handleHidGetReport v w s = .ok
      ({ s with draws := s.drop.draws, drawn := s.drop.drawn }.call (.getReport v w), r) := by
  rw [handleHidGetReport, State.drop_frame s, hr]

/-- Settles O41: by what GET_REPORT's free value answers. -/
theorem requestsFromCollaborators : Obligations.RequestsFromCollaborators := by
  intro s v w l hs
  refine ⟨?report, ?stall, fun off n => ?sent, ?coding⟩
  case report =>
    obtain hr | ⟨off, n, hr⟩ := reportAnswer_cases s.drawValue
    all_goals
      obtain ⟨t, ht, hslots, heq⟩ := exec_of_answer (i := .hidGetReport v w l) hs rfl nofun rfl
        (handleHidGetReport_of_answer (by exact hr))
    · exact ⟨t, ht, .inl ⟨hslots, by rw [heq]; rfl⟩⟩
    · exact ⟨t, ht, .inr ⟨off, n, hslots, by rw [heq]; rfl⟩⟩
  case stall =>
    obtain ⟨t, ht, -, heq⟩ := exec_of_answer (s := { s with draws := 0 :: s.draws }) (i := .hidGetReport v w l) hs rfl
      nofun rfl (handleHidGetReport_of_answer (r := .stall) rfl)
    exact ⟨0, t, ht, by rw [heq]; rfl⟩
  case sent =>
    obtain ⟨x, hx⟩ := exists_reportAnswer_eq off n
    obtain ⟨t, ht, hslots, -⟩ := exec_of_answer (s := { s with draws := x :: s.draws }) (i := .hidGetReport v w l) hs
      rfl nofun rfl (handleHidGetReport_of_answer (by exact hx))
    exact ⟨x, t, ht, hslots⟩
  case coding => exact (exec_of_answer (i := .cdcGetLineCoding v w l) hs rfl nofun rfl rfl :)

end Sys2Proof.Machine

namespace Sys2Proof
open Machine

/-- Settles O40: both recipients have one handler, which looks the entry up. -/
theorem getDescriptor : Obligations.GetDescriptor := by
  intro s v w l hs
  refine ⟨fun hnone => ?unknown, fun k e n hk hv hw hfirst hlen => ?found⟩
  case unknown =>
    have hfind := findDescriptor_eq_none hnone
    exact ⟨(exec_of_answer (i := .getDescriptorDevice v w l) hs rfl nofun rfl
        (getDescriptor_of_none (by exact hfind)) :),
      (exec_of_answer (i := .getDescriptorInterface v w l) hs rfl nofun rfl
        (getDescriptor_of_none (by exact hfind)) :)⟩
  case found =>
    subst hv hw
    have hfind := findDescriptor_eq_some hk hfirst
    exact ⟨(exec_of_answer (i := .getDescriptorDevice e.wValue e.wIndex l) hs rfl nofun rfl
        (getDescriptor_of_some (by exact hfind) (descriptorLength_eq (by exact hk) (by exact hlen)) rfl) :),
      (exec_of_answer (i := .getDescriptorInterface e.wValue e.wIndex l) hs rfl nofun rfl
        (getDescriptor_of_some (by exact hfind) (descriptorLength_eq (by exact hk) (by exact hlen)) rfl) :)⟩

end Sys2Proof
end

section
/-! SET_CONFIGURATION (R232, R260 to R264): how many packets are free once they have been taken back, and which RX
slots a seeding reaches with them. -/

namespace Sys2Proof.Machine

/-! ### The packets taken back (R261, R262) -/

/-- Once the slots and the FIFOs of a list of endpoints have been emptied, the free packets are those that were free, in
one of the slots or in one of the FIFOs. -/
theorem State.isFree_reclaimed_iff (s : State) {l : List Ep} (hl : l.Nodup) {h : Nat} (hh : h < s.free.length) :
    (l.foldl State.drainEp (l.foldl State.reclaimEp s)).isFree h = true ↔
      s.isFree h = true ∨ s.heldBy l h ∨ ∃ ep ∈ l, h ∈ epGet s.rxq ep ∨ h ∈ epGet s.txq ep := by
  obtain ⟨hlen, -, hreclaim, -⟩ := s.pool_foldl_reclaimEp l h hl
  obtain ⟨-, -, hdrain, -⟩ := (l.foldl State.reclaimEp s).pool_foldl_drainEp l h hl
  have hrxq : (l.foldl State.reclaimEp s).rxq = s.rxq := by rw [State.foldl_reclaimEp_frame]
  have htxq : (l.foldl State.reclaimEp s).txq = s.txq := by rw [State.foldl_reclaimEp_frame]
  rw [hdrain (hlen ▸ hh), hreclaim hh, hrxq, htxq, or_assoc]

theorem State.free_length_unseeded (s : State) (v : Byte) : (s.unseeded v).free.length = s.free.length := by
  obtain ⟨hreclaim, -⟩ := State.pool_foldl_reclaimEp (dataEps s.cfg) { s with config := v, rxNeeded := 0 } 0
    (nodup_dataEps _)
  obtain ⟨hdrain, -⟩ := State.pool_foldl_drainEp (dataEps s.cfg)
    ((dataEps s.cfg).foldl State.reclaimEp { s with config := v, rxNeeded := 0 }) 0 (nodup_dataEps _)
  rw [State.unseeded_free, hdrain, hreclaim]

/-- Before RX slots are seeded, every packet that was free or in transit is free (R260). -/
theorem State.isFree_unseeded (s : State) (v : Byte) {h : Nat} (hh : h < s.free.length) :
    (s.unseeded v).isFree h = (s.isFree h || s.inTransit h) := by
  rw [Bool.eq_iff_iff, Bool.or_eq_true, State.inTransit_iff, State.isFree, State.unseeded_free]
  exact State.isFree_reclaimed_iff { s with config := v, rxNeeded := 0 } (nodup_dataEps s.cfg) hh

theorem State.freeIds_length_unseeded (s : State) (v : Byte) : (s.unseeded v).freeIds.length = s.reclaimable := by
  rw [State.freeIds, State.free_length_unseeded, State.reclaimable]
  exact congrArg List.length (List.filter_congr fun h hh => s.isFree_unseeded v (List.mem_range.mp hh))

/-! ### Seeding (R264) -/

/-- Seeding a slot that holds no buffer arms a free packet in it, or counts it as starved when none is free. -/
theorem seedSlot_ok {s t : State} {ep : Ep} {b : Bank} (ht : seedSlot s ep b = .ok t) :
    (∃ p, s.isFree p = true ∧ t.free = s.free.set p false ∧ t.rxNeeded = s.rxNeeded ∧
        t.slot ep .rx b = { desc := armedDesc 64 (bankToggle b), addr := .pool p }) ∨
      (s.freeIds = [] ∧ t = { s with rxNeeded := s.rxNeeded + 1 }) := by
  unfold seedSlot at ht
  split at ht
  · next p u hu =>
    split at ht <;> cases ht
    next v hv =>
      obtain ⟨-, rfl⟩ := (arm_ok _ _ _ _ _ _ _ _).mp hv
      obtain ⟨hp, hframe⟩ := allocPacket_frame _ _ _ hu
      refine .inl ⟨p, hp, ?_, ?_, State.slot_setSlot_same u ep .rx b _⟩
      all_goals
        rw [hframe]
        rfl
  · next hu =>
    cases ht
    exact .inr ⟨s.freeIds_eq_nil_iff.mpr ((allocPacket_none s).mp hu), rfl⟩

theorem State.isFree_of_set {s t : State} {p : Nat} (hp : s.isFree p = true) (ht : t.free = s.free.set p false)
    (h : Nat) : t.isFree h = if h = p then false else s.isFree h := by
  rw [State.isFree, ht]
  exact s.isFree_setFree p h false (s.isFree_lt p hp)

theorem State.freeIds_congr {s t : State} (h : t.free = s.free) : t.freeIds = s.freeIds := by
  have hisFree : t.isFree = s.isFree := by
    funext i
    rw [State.isFree, h, State.isFree]
  rw [State.freeIds, h, hisFree, State.freeIds]

theorem State.freeIds_length_of_set {s t : State} {p : Nat} (hp : s.isFree p = true)
    (ht : t.free = s.free.set p false) : t.freeIds.length + 1 = s.freeIds.length := by
  rw [State.freeIds_congr (s := s.setFree p false) ht, s.freeIds_setFree_false p hp]
  exact List.length_erase_add_one ((s.mem_freeIds p).mpr hp)

/-- What seeding the slots of a list has done: the first get a packet each, as many as there are, and the others are
counted as starved. -/
structure Seeded (l : List (Ep × Bank)) (s t : State) : Prop where
  needed : t.rxNeeded = s.rxNeeded + BitVec.ofNat 32 (l.length - s.freeIds.length)
  left : t.freeIds.length = s.freeIds.length - l.length
  taken : ∀ h, t.isFree h = true → s.isFree h = true
  armed : ∀ (k : Nat) (ep : Ep) (b : Bank), l[k]? = some (ep, b) → k < s.freeIds.length →
    ∃ p, t.slot ep .rx b = { desc := armedDesc 64 (bankToggle b), addr := .pool p } ∧ t.isFree p = false ∧
      s.isFree p = true
  starved : ∀ (k : Nat) (ep : Ep) (b : Bank), l[k]? = some (ep, b) → s.freeIds.length ≤ k →
    t.slot ep .rx b = s.slot ep .rx b

/-- The first slot has got packet `p`, and the others have been seeded from the packets left. -/
theorem Seeded.cons_armed {l : List (Ep × Bank)} {s u t : State} {ep : Ep} {b : Bank} {p : Nat} (hrest : Seeded l u t)
    (hp : s.isFree p = true) (hfree : u.free = s.free.set p false) (hneeded : u.rxNeeded = s.rxNeeded)
    (hfirst : t.slot ep .rx b = { desc := armedDesc 64 (bankToggle b), addr := .pool p })
    (hkept : ∀ x ∈ l, u.slot x.1 .rx x.2 = s.slot x.1 .rx x.2) : Seeded ((ep, b) :: l) s t := by
  have hcount := State.freeIds_length_of_set hp hfree
  have hsub (h : Nat) (hu : u.isFree h = true) : s.isFree h = true := by
    rw [State.isFree_of_set hp hfree] at hu
    split at hu
    · cases hu
    · exact hu
  have hgone : t.isFree p = false := Bool.eq_false_iff.mpr fun ht => by
    simpa [State.isFree_of_set hp hfree] using hrest.taken p ht
  refine ⟨?_, ?_, fun h ht => hsub h (hrest.taken h ht), fun k e c hk hlt => ?armed, fun k e c hk hle => ?starved⟩
  · rw [hrest.needed, hneeded, List.length_cons, ← hcount, Nat.add_sub_add_right]
  · rw [hrest.left, List.length_cons]
    omega
  case armed =>
    cases k with
    | zero =>
      cases hk
      exact ⟨p, hfirst, hgone, hp⟩
    | succ k =>
      obtain ⟨q, hq, hqt, hqu⟩ := hrest.armed k e c hk (by omega)
      exact ⟨q, hq, hqt, hsub q hqu⟩
  case starved =>
    cases k with
    | zero => omega
    | succ k =>
      rw [hrest.starved k e c hk (by omega)]
      exact hkept (e, c) (List.mem_of_getElem? hk)

/-- No packet was free, and the first slot has been counted as starved like the others. -/
theorem Seeded.cons_starved {l : List (Ep × Bank)} {s u t : State} {ep : Ep} {b : Bank} (hrest : Seeded l u t)
    (hnone : s.freeIds = []) (hfree : u.free = s.free) (hneeded : u.rxNeeded = s.rxNeeded + 1)
    (hslot : u.slot = s.slot) (hfirst : t.slot ep .rx b = s.slot ep .rx b) : Seeded ((ep, b) :: l) s t := by
  have hs : s.freeIds.length = 0 := List.length_eq_zero_iff.mpr hnone
  have hu : u.freeIds.length = 0 := by rw [State.freeIds_congr hfree, hs]
  refine ⟨?_, by rw [hrest.left, hu, hs, Nat.zero_sub, Nat.zero_sub], fun h ht => ?taken,
    fun k e c _ hlt => absurd hlt (by omega), fun k e c hk _ => ?starved⟩
  · rw [hrest.needed, hneeded, hu, hs, List.length_cons, Nat.sub_zero, Nat.sub_zero, BitVec.ofNat_add,
      BitVec.add_comm (BitVec.ofNat 32 l.length), ← BitVec.add_assoc]
    rfl
  case taken =>
    have hfreed := hrest.taken h ht
    rwa [State.isFree, hfree] at hfreed
  case starved =>
    cases k with
    | zero =>
      cases hk
      exact hfirst
    | succ k => rw [hrest.starved k e c hk (by omega), hslot]

/-- By induction on the slots: the first takes a packet or is counted, and the others are seeded from what is left. -/
theorem seedSlots_seeded {l : List (Ep × Bank)} {s t : State} (hl : l.Nodup) (ht : seedSlots l s = .ok t) :
    Seeded l s t := by
  induction l generalizing s with
  | nil =>
    cases ht
    exact ⟨by simp, by simp, fun _ => id, by simp, by simp⟩
  | cons x l ih =>
    obtain ⟨ep, b⟩ := x
    rw [List.nodup_cons] at hl
    rw [seedSlots] at ht
    split at ht
    · next u hu =>
      have hrest := ih hl.2 ht
      have hfirst : t.slot ep .rx b = u.slot ep .rx b := seedSlots_slot _ _ _ ht ep .rx b fun _ => hl.1
      obtain ⟨p, hp, hfree, hneeded, hslot⟩ | ⟨hnone, rfl⟩ := seedSlot_ok hu
      · exact hrest.cons_armed hp hfree hneeded (hfirst.trans hslot) fun y hy =>
          seedSlot_slot _ _ _ _ hu y.1 .rx y.2 fun h => hl.1 (by rw [← h.1, ← h.2.2]; exact hy)
      · exact hrest.cons_starved hnone rfl rfl rfl hfirst
    · cases ht

/-! ### Reconfigure (R260) -/

theorem isDataEp_of_rxEnabled {c : Params} {ep : Ep} (h : rxEnabled c ep = true) : isDataEp c ep = true := by
  rw [rxEnabled, Bool.and_eq_true] at h
  exact h.1

section
variable {s t : State} {v : Byte} (ht : reconfigure s v = .ok t)
include ht

theorem reconfigure_seeded : Seeded (rxSlots s.cfg) (s.unseeded v) t :=
  seedSlots_seeded (nodup_rxSlots _) ht

/-- A slot that is not seeded is cleared on a data endpoint, and left alone elsewhere. -/
theorem reconfigure_slot {ep : Ep} {d : Dir} (b : Bank) (hne : d = .rx → rxEnabled s.cfg ep = false) :
    t.slot ep d b = if isDataEp s.cfg ep = true then Slot.cleared else s.slot ep d b := by
  rw [seedSlots_slot _ _ _ ht ep d b fun hd hmem => Bool.eq_false_iff.mp (hne hd) ((mem_rxSlots _ _ _).mp hmem)]
  exact ((s.unseeded_spec v).2 ep).1 d b

/-- The FIFOs, the byte counts, the bank states and the control bytes (R262, R263). -/
theorem reconfigure_arrays (ep : Ep) :
    epGet t.rxq ep = (if isDataEp s.cfg ep = true then [] else epGet s.rxq ep) ∧
      epGet t.txq ep = (if isDataEp s.cfg ep = true then [] else epGet s.txq ep) ∧
      epGet t.rxBytes ep = (if isDataEp s.cfg ep = true then 0 else epGet s.rxBytes ep) ∧
      epGet t.txState ep = (if isDataEp s.cfg ep = true then bothFree (epGet s.txState ep) else epGet s.txState ep) ∧
      epGet t.endpt ep = if isDataEp s.cfg ep = true then epConfigOf s.cfg ep else epGet s.endpt ep := by
  rw [seedSlots_frame _ _ _ ht]
  exact ((s.unseeded_spec v).2 ep).2

theorem reconfigure_rxNeeded : t.rxNeeded = BitVec.ofNat 32 ((rxSlots s.cfg).length - s.reclaimable) := by
  have hzero : (s.unseeded v).rxNeeded = 0 := by rw [(s.unseeded_spec v).1]
  rw [(reconfigure_seeded ht).needed, hzero, State.freeIds_length_unseeded]
  exact BitVec.zero_add _

theorem reconfigure_freeIds_length : t.freeIds.length = s.reclaimable - (rxSlots s.cfg).length := by
  rw [(reconfigure_seeded ht).left, State.freeIds_length_unseeded]

section
variable {k : Nat} {ep : Ep} {b : Bank} (hk : (rxSlots s.cfg)[k]? = some (ep, b))
include hk

/-- The RX slots within the number of packets taken back get one each (R264). -/
theorem reconfigure_slot_armed (hlt : k < s.reclaimable) :
    ∃ p, t.slot ep .rx b = { desc := armedDesc 64 (bankToggle b), addr := .pool p } ∧ t.isFree p = false ∧
      (s.isFree p = true ∨ s.inTransit p = true) := by
  obtain ⟨p, hslot, hgone, hp⟩ := (reconfigure_seeded ht).armed k ep b hk (by rwa [State.freeIds_length_unseeded])
  have hlength : p < s.free.length := s.free_length_unseeded v ▸ State.isFree_lt _ p hp
  rw [s.isFree_unseeded v hlength, Bool.or_eq_true] at hp
  exact ⟨p, hslot, hgone, hp⟩

theorem reconfigure_slot_starved (hle : s.reclaimable ≤ k) : t.slot ep .rx b = Slot.cleared := by
  have hep := isDataEp_of_rxEnabled ((mem_rxSlots _ _ _).mp (List.mem_of_getElem? hk))
  rw [(reconfigure_seeded ht).starved k ep b hk (by rwa [State.freeIds_length_unseeded]),
    ((s.unseeded_spec v).2 ep).1, if_pos hep]

end
end

/-! ### The SETUP stage of SET_CONFIGURATION (R183, R232) -/

/-- What is in transit does not depend on endpoint 0, whose slots a SETUP takes back. -/
theorem State.inTransit_beginSetup (s : State) (p : SetupPacket) : (s.beginSetup p).inTransit = s.inTransit := by
  funext h
  have hheld : (s.beginSetup p).heldBy (dataEps s.cfg) h ↔ s.heldBy (dataEps s.cfg) h := by
    refine exists_congr fun ep => and_congr_right fun he => ?_
    simp only [State.slot_beginSetup, isDataEp_ne_zero s.cfg ep ((mem_dataEps _ _).mp he), false_and, if_false]
  rw [Bool.eq_iff_iff, State.inTransit_iff, State.inTransit_iff]
  exact or_congr_left hheld

theorem State.reclaimable_beginSetup (s : State) (p : SetupPacket) : (s.beginSetup p).reclaimable = s.reclaimable := by
  rw [State.reclaimable, State.inTransit_beginSetup]
  rfl

/-- `u`, what Reconfigure leaves, once the status IN has been armed and the SETUP handled. -/
def State.statusArmed (u : State) (b : Bank) : State :=
  { u.setSlot 0 .tx b statusSlot with ctl := .statusIn, tokenSuspend := false }

theorem State.slot_statusArmed (u : State) (b : Bank) (ep : Ep) (d : Dir) (c : Bank) :
    (u.statusArmed b).slot ep d c = if ep = 0 ∧ d = .tx ∧ c = b then statusSlot else u.slot ep d c :=
  State.slot_setSlot u 0 ep .tx d b c statusSlot

theorem setupStage_setConfiguration {p : SetupPacket} {v w l : Half} {s u : State}
    (hu : reconfigure (s.beginSetup p) (lowByte v) = .ok u) :
    setupStage p (requestHandler (.setConfiguration v w l)) s = .ok (u.statusArmed s.ep0.bank) := by
  have hep0 : u.ep0 = s.ep0.fresh := by rw [reconfigure_frame _ _ _ hu]; rfl
  have hbank : u.ep0.bank = s.ep0.bank := by rw [hep0]; rfl
  have hreleased : (u.slot 0 .tx u.ep0.bank).desc.own = false := by
    rw [reconfigure_ep0 _ _ _ hu, State.slot_beginSetup, if_pos ⟨rfl, rfl⟩]
    rfl
  have hhandler : requestHandler (.setConfiguration v w l) (s.beginSetup p) = .ok (u, .noData) := by
    simp only [requestHandler, handleSetConfiguration, hu]
  rw [setupStage_of_handler p _ s u _ .noData hhandler (startStatusIn_of_released u hreleased), hbank, hep0]
  rfl

/-- Settles O43: by what Reconfigure leaves of each array, and the status packet armed after it. -/
theorem setConfigurationReseeds : Obligations.SetConfigurationReseeds := by
  intro s v w l hs
  obtain ⟨u, hu⟩ := reconfigure_total (s.beginSetup (requestPacket 0x00 0x09 v w l)) (lowByte v)
  have hreclaimable := s.reclaimable_beginSetup (requestPacket 0x00 0x09 v w l)
  refine ⟨_, runRequest_of_ok _ _ _ _ hs (setupStage_setConfiguration (w := w) (l := l) hu), ?frame,
    fun ep hep => ?data, fun ep hep => ?elsewhere, fun k ep b hk => ⟨fun hlt => ?armed, fun hle => ?starved⟩, ?count,
    ?bank, ?other⟩
  case frame =>
    have hframe := reconfigure_frame _ _ _ hu
    rw [reconfigure_rxNeeded hu, hreclaimable] at hframe
    conv_lhs => rw [hframe]
    rfl
  case data =>
    obtain ⟨hrxq, htxq, hbytes, hstate, hendpt⟩ := reconfigure_arrays hu ep
    rw [if_pos (by exact hep)] at hrxq htxq hbytes hstate hendpt
    have hne := isDataEp_ne_zero _ _ hep
    have hcleared {d : Dir} (b : Bank) (hd : d = .rx → rxEnabled s.cfg ep = false) :
        (u.statusArmed s.ep0.bank).slot ep d b = Slot.cleared := by
      rw [State.slot_statusArmed, if_neg fun h => hne h.1, reconfigure_slot hu b hd, if_pos (by exact hep)]
    exact ⟨hrxq, htxq, hbytes, hstate, hendpt, fun b => hcleared b fun h => Dir.noConfusion h,
      fun hrx b => hcleared b fun _ => hrx⟩
  case elsewhere =>
    obtain ⟨hrxq, htxq, hbytes, hstate, hendpt⟩ := reconfigure_arrays hu ep
    have hno : ¬isDataEp s.cfg ep = true := Bool.eq_false_iff.mp hep
    rw [if_neg (by exact hno)] at hrxq htxq hbytes hstate hendpt
    refine ⟨hrxq, htxq, hbytes, hstate, hendpt, fun d b hne => ?_⟩
    rw [State.slot_statusArmed, if_neg fun h => hne ⟨h.1, h.2.1⟩,
      reconfigure_slot hu b fun _ => Bool.eq_false_iff.mpr fun hrx => hno (isDataEp_of_rxEnabled hrx),
      if_neg (by exact hno), State.slot_beginSetup, if_neg hne]
  case armed =>
    obtain ⟨p, hslot, hgone, hp⟩ := reconfigure_slot_armed hu hk (by rw [hreclaimable]; exact hlt)
    rw [State.inTransit_beginSetup] at hp
    exact ⟨p, by rw [State.slot_statusArmed, if_neg fun h => Dir.noConfusion h.2.1, hslot], hgone, hp⟩
  case starved =>
    rw [State.slot_statusArmed, if_neg fun h => Dir.noConfusion h.2.1,
      reconfigure_slot_starved hu hk (by rw [hreclaimable]; exact hle)]
  case count =>
    rw [← hreclaimable]
    exact (reconfigure_freeIds_length hu :)
  case bank => rw [State.slot_statusArmed, if_pos ⟨rfl, rfl, rfl⟩]
  case other =>
    rw [State.slot_statusArmed, if_neg fun h => Bank.other_ne _ h.2.2, reconfigure_ep0 _ _ _ hu,
      State.slot_beginSetup, if_pos ⟨rfl, rfl⟩]

end Sys2Proof.Machine
end

section
/-! Bus reset, power and reload: what `State.busReset` leaves (R343), POWER_TIMEOUT's writes of the bMaxPower bytes
(R272), and that a stopped machine has no step. -/

namespace Sys2Proof

/-! ### Arrays by their entries -/

theorem Banks.ext_get {α : Type} {v w : Banks α} (h : ∀ b, v.get b = w.get b) : v = w := by
  obtain ⟨even, odd⟩ := v
  obtain ⟨even', odd'⟩ := w
  obtain rfl : even = even' := h .even
  obtain rfl : odd = odd' := h .odd
  rfl

theorem Dirs.ext_get {α : Type} {v w : Dirs α} (h : ∀ d, v.get d = w.get d) : v = w := by
  obtain ⟨rx, tx⟩ := v
  obtain ⟨rx', tx'⟩ := w
  obtain rfl : rx = rx' := h .rx
  obtain rfl : tx = tx' := h .tx
  rfl

end Sys2Proof

namespace Sys2Proof.Machine

/-! ### A stopped machine (R47, R276) -/

/-- Every instruction first asks whether the machine is alive. -/
theorem exec_eq_whenAlive (i : Instr) (s : State) : ∃ k, exec i s = whenAlive s k := by
  cases i <;> exact ⟨_, rfl⟩

theorem whenAlive_of_reloaded {s : State} (k : Out) (hfault : s.fault = none) (hreloaded : s.reloaded = true) :
    whenAlive s k = .fault .reloaded := by
  rw [whenAlive, hfault, hreloaded]
  rfl

theorem exec_of_reloaded (i : Instr) {s : State} (hfault : s.fault = none) (hreloaded : s.reloaded = true) :
    exec i s = .fault .reloaded := by
  obtain ⟨k, hk⟩ := exec_eq_whenAlive i s
  rw [hk, whenAlive_of_reloaded k hfault hreloaded]

theorem exec_deviceReload {s : State} (hs : s.Alive) :
    exec .deviceReload s = .next { s with reloaded := true, result := some (.ok .unit) } := by
  rw [exec, execDeviceReload, whenAlive_of_alive s _ hs]
  rfl

/-- Settles O24: the reload leaves no fault mark, so what stops every later instruction is the reload. -/
theorem deviceReloadStops : Obligations.DeviceReloadStops := by
  intro s hs
  refine ⟨exec_deviceReload hs, fun i t ht => ?_⟩
  cases (exec_deviceReload hs).symm.trans ht
  exact exec_of_reloaded i hs.1 rfl

/-! ### The packets a bus reset takes back (R343 step 3) -/

/-- Emptying the slots and the FIFOs of a list of endpoints gives the pool the packets that were there, and every other
packet keeps its owner. -/
theorem State.ownerOf_reclaimed (s : State) {l : List Ep} (hl : l.Nodup) (h : Nat) :
    ((s.heldBy l h ∨ ∃ ep ∈ l, h ∈ epGet s.rxq ep ∨ h ∈ epGet s.txq ep) →
        (l.foldl State.drainEp (l.foldl State.reclaimEp s)).ownerOf h = .pool) ∧
      (¬(s.heldBy l h ∨ ∃ ep ∈ l, h ∈ epGet s.rxq ep ∨ h ∈ epGet s.txq ep) →
        (l.foldl State.drainEp (l.foldl State.reclaimEp s)).ownerOf h = s.ownerOf h) := by
  obtain ⟨-, -, -, hheld, hnotHeld⟩ := s.pool_foldl_reclaimEp l h hl
  obtain ⟨-, -, -, hqueued, hnotQueued⟩ := (l.foldl State.reclaimEp s).pool_foldl_drainEp l h hl
  have hrxq : (l.foldl State.reclaimEp s).rxq = s.rxq := by rw [State.foldl_reclaimEp_frame]
  have htxq : (l.foldl State.reclaimEp s).txq = s.txq := by rw [State.foldl_reclaimEp_frame]
  rw [hrxq, htxq] at hqueued hnotQueued
  constructor
  · intro hin
    by_cases hq : ∃ ep ∈ l, h ∈ epGet s.rxq ep ∨ h ∈ epGet s.txq ep
    · exact hqueued hq
    · rw [hnotQueued hq, hheld (hin.resolve_right hq)]
  · intro hout
    obtain ⟨hslot, hq⟩ := not_or.mp hout
    rw [hnotQueued hq, hnotHeld hslot]

theorem State.resetControl_pool (s : State) : s.resetControl.free = s.free ∧ s.resetControl.owner = s.owner :=
  ⟨rfl, rfl⟩

/-- The pool after a bus reset is the one emptying the slots and the FIFOs of the data endpoints leaves. -/
theorem State.busReset_pool (s : State) :
    ∃ u : State, u = { s with pp := u.pp, stat := [] } ∧
      s.busReset.free = ((dataEps s.cfg).foldl State.drainEp ((dataEps s.cfg).foldl State.reclaimEp u)).free ∧
      s.busReset.owner = ((dataEps s.cfg).foldl State.drainEp ((dataEps s.cfg).foldl State.reclaimEp u)).owner := by
  obtain ⟨hframe, -⟩ := State.foldl_resetPp (endpoints s.cfg) { s with stat := [] }
  have hcfg : ((endpoints s.cfg).foldl State.resetPp { s with stat := [] }).cfg = s.cfg := by rw [hframe]
  obtain ⟨hfree, howner⟩ := s.resetEndpoints.resetControl_pool
  refine ⟨_, hframe, ?_⟩
  rw [State.busReset, hfree, howner, State.resetEndpoints, (State.foldl_disableEp _ _).1,
    State.reclaimSlots_drainQueues, hcfg]
  exact ⟨rfl, rfl⟩

/-- A bus reset frees the packets in transit, and keeps every other packet's bit. -/
theorem State.isFree_busReset (s : State) {h : Nat} (hh : h < s.free.length) :
    s.busReset.isFree h = (s.isFree h || s.inTransit h) := by
  obtain ⟨u, hu, hfree, -⟩ := s.busReset_pool
  have hreclaimed := u.isFree_reclaimed_iff (nodup_dataEps s.cfg) (h := h) (by rw [hu]; exact hh)
  rw [State.isFree, ← hfree, ← State.isFree, hu] at hreclaimed
  rw [Bool.eq_iff_iff, Bool.or_eq_true, State.inTransit_iff]
  exact hreclaimed

/-- A bus reset gives the pool the packets in transit, and every other packet keeps its owner. -/
theorem State.ownerOf_busReset (s : State) (h : Nat) :
    s.busReset.ownerOf h = if s.inTransit h = true then .pool else s.ownerOf h := by
  obtain ⟨u, hu, -, howner⟩ := s.busReset_pool
  have hreclaimed := u.ownerOf_reclaimed (nodup_dataEps s.cfg) h
  rw [State.ownerOf, ← howner, ← State.ownerOf, hu] at hreclaimed
  obtain ⟨htaken, hkept⟩ := hreclaimed
  split
  · next hin => exact htaken ((s.inTransit_iff h).mp hin)
  · next hout => exact hkept (mt (s.inTransit_iff h).mpr hout)

/-! ### The ten steps (R343) -/

theorem isDataEp_of_not_isEndpoint {c : Params} {ep : Ep} (h : isEndpoint c ep = false) : isDataEp c ep = false :=
  Bool.eq_false_iff.mpr fun hd => by simp [isEndpoint_of_isDataEp c ep hd] at h

theorem ne_zero_of_not_isEndpoint {c : Params} {ep : Ep} (h : isEndpoint c ep = false) : ep ≠ 0 := by
  rintro rfl
  simp at h

/-- `BusResetState` does the ten steps of R343 and nothing else. -/
theorem State.busResetDone (s : State) : BusResetDone s s.busReset where
  fields := s.busReset_frame
  ppbits ep d hep := by
    obtain ⟨-, -, -, -, hpp, -⟩ := s.busReset_arrays ep
    exact (hpp d).trans (if_pos (decide_eq_true hep))
  slots ep d b hep := (s.busReset_arrays ep).1 hep d b
  queues ep hep := by
    obtain ⟨-, -, -, -, -, hrxq, htxq, hbytes, hstate, hendpt⟩ := s.busReset_arrays ep
    rw [if_pos hep] at hrxq htxq hbytes hstate
    rw [if_neg (isDataEp_ne_zero _ _ hep), if_pos hep] at hendpt
    exact ⟨hrxq, htxq, hbytes, hstate, hendpt⟩
  ep0Tx := by
    obtain ⟨-, htx, -⟩ := s.busReset_arrays 0
    exact htx
  ep0Rx := by
    obtain ⟨-, -, hrx, -⟩ := s.busReset_arrays 0
    exact hrx
  ep0Endpt := by
    obtain ⟨-, -, -, -, -, -, -, -, -, hendpt⟩ := s.busReset_arrays 0
    exact hendpt
  unused ep hep := by
    obtain ⟨-, -, -, hslot, hpp, hrxq, htxq, hbytes, hstate, hendpt⟩ := s.busReset_arrays ep
    have hno : ¬isDataEp s.cfg ep = true := by simp [isDataEp_of_not_isEndpoint hep]
    rw [if_neg hno] at hrxq htxq hbytes hstate
    rw [if_neg (ne_zero_of_not_isEndpoint hep), if_neg hno] at hendpt
    refine ⟨Dirs.ext_get fun d => Banks.ext_get fun b => ?_, Dirs.ext_get fun d => ?_, hstate, htxq, hrxq, hbytes,
      hendpt⟩
    · exact hslot (isDataEp_of_not_isEndpoint hep) (ne_zero_of_not_isEndpoint hep) d b
    · exact (hpp d).trans (if_neg (by simp [hep]))
  ep0Queues := by
    obtain ⟨-, -, -, -, -, hrxq, htxq, hbytes, hstate, -⟩ := s.busReset_arrays 0
    exact ⟨hstate, htxq, hrxq, hbytes⟩
  freed _ hh := s.isFree_busReset hh
  owned := s.ownerOf_busReset

theorem exec_hostBusReset_of_attached {s : State} (hs : s.Alive) (hattached : s.attached = true) :
    exec .hostBusReset s = .next s.busReset := by
  rw [exec, execHostBusReset, whenAlive_of_alive s _ hs, if_pos hattached]

/-- Reinit is a bus reset, counted and logged (R274). -/
theorem State.reinit_eq (s : State) :
    s.reinit = { s.busReset with reconnects := s.reconnects + 1, obs := s.obs ++ [.reconnect] } := by
  have hobs : s.busReset.obs = s.obs := by rw [State.busReset_frame]
  rw [← hobs]
  rfl

theorem exec_init {s : State} (hs : s.Alive) :
    exec .init s = .next { s.busReset with attached := true, result := some (.ok .unit) } := by
  rw [exec, execInit, whenAlive_of_alive s _ hs]
  rfl

theorem exec_reinit {s : State} (hs : s.Alive) :
    exec .reinit s = .next (s.reinit.returning (.ok .unit)) := by
  rw [exec, execReinit, whenAlive_of_alive s _ hs]

/-- Settles O22: all three run `BusResetState`. -/
theorem busResets : Obligations.BusResets := fun s hs =>
  ⟨s.busReset, s.busResetDone, exec_hostBusReset_of_attached hs, exec_init hs,
    by rw [exec_reinit hs, State.reinit_eq]; rfl⟩

/-! ### Lowering the bMaxPower bytes (R272) -/

/-- DESC(k) holds a configuration descriptor: the high byte of its wValue is 2 (R272). -/
def IsConfigDesc (c : Params) (k : Nat) : Prop :=
  ∃ e, c.descTable[k]? = some e ∧ e.wValue.extractLsb' 8 8 = 2

/-- A configuration descriptor is long enough for its bMaxPower byte (R62). -/
def PowerByteFits (c : Params) (k : Nat) : Prop :=
  IsConfigDesc c k → c.bMaxPowerOffset < bufferLen c (.region (.desc k))

/-- The bMaxPower bytes of the configuration descriptors among a list of descriptors. -/
def powerBytes (c : Params) (l : List Nat) : ByteSet :=
  {x | ∃ k ∈ l, IsConfigDesc c k ∧ x = (.region (.desc k), c.bMaxPowerOffset)}

theorem lowerEntry_of_isConfigDesc {s : State} {k : Nat} (hk : IsConfigDesc s.cfg k) :
    lowerEntry s k = s.writeBuffer (.region (.desc k)) s.cfg.bMaxPowerOffset [s.cfg.loweredBMaxPower] := by
  obtain ⟨e, he, hconfig⟩ := hk
  simp only [lowerEntry, he, if_pos hconfig]

theorem lowerEntry_of_not_isConfigDesc {s : State} {k : Nat} (hk : ¬IsConfigDesc s.cfg k) :
    lowerEntry s k = .ok s := by
  unfold lowerEntry
  split
  · rfl
  · next e he => exact if_neg fun hconfig => hk ⟨e, he, hconfig⟩

theorem lowerEntry_of_fits {s : State} {k : Nat} (hfits : PowerByteFits s.cfg k) : ∃ t, lowerEntry s k = .ok t := by
  by_cases hk : IsConfigDesc s.cfg k
  · rw [lowerEntry_of_isConfigDesc hk]
    exact ⟨_, (State.writeBuffer_ok _ _ _ _ _).mpr ⟨hfits hk, rfl⟩⟩
  · exact ⟨s, lowerEntry_of_not_isConfigDesc hk⟩

theorem lowerEntry_of_not_fits {s : State} {k : Nat} (hshort : ¬PowerByteFits s.cfg k) :
    lowerEntry s k = .error .outOfBounds := by
  obtain ⟨hk, hlen⟩ := Classical.not_imp.mp hshort
  rw [lowerEntry_of_isConfigDesc hk]
  exact if_pos (Nat.lt_succ_iff.mpr (Nat.not_lt.mp hlen))

theorem lowerEntry_stores {s t : State} {k : Nat} (ht : lowerEntry s k = .ok t) :
    s.StoresWithin t (powerBytes s.cfg [k]) := by
  by_cases hk : IsConfigDesc s.cfg k
  · rw [lowerEntry_of_isConfigDesc hk] at ht
    refine (State.writeBuffer_storesWithin ht).mono fun x ⟨hbuf, hge, hlt⟩ => ?_
    exact ⟨k, List.mem_singleton_self k, hk, Prod.ext hbuf (Nat.le_antisymm (Nat.le_of_lt_succ hlt) hge)⟩
  · rw [lowerEntry_of_not_isConfigDesc hk] at ht
    cases ht
    exact .refl _ _

/-- The bMaxPower byte of a configuration descriptor has been lowered. -/
theorem lowerEntry_byteAt {s t : State} {k : Nat} (hs : s.MemoryCanonical) (hk : IsConfigDesc s.cfg k)
    (ht : lowerEntry s k = .ok t) :
    t.byteAt (.region (.desc k)) s.cfg.bMaxPowerOffset = some s.cfg.loweredBMaxPower := by
  rw [lowerEntry_of_isConfigDesc hk] at ht
  obtain ⟨-, rfl⟩ := (State.writeBuffer_ok _ _ _ _ _).mp ht
  exact s.byteAt_putBytes_same _ _ 0 [s.cfg.loweredBMaxPower] hs Nat.zero_lt_one

theorem lowerEntries_cons_of_ok {s t : State} {k : Nat} (l : List Nat) (ht : lowerEntry s k = .ok t) :
    lowerEntries (k :: l) s = lowerEntries l t := by
  rw [lowerEntries, ht]

theorem lowerEntries_cons_ok {s t : State} {k : Nat} {l : List Nat} (ht : lowerEntries (k :: l) s = .ok t) :
    ∃ u, lowerEntry s k = .ok u ∧ lowerEntries l u = .ok t := by
  rw [lowerEntries] at ht
  split at ht
  · next u hu => exact ⟨u, hu, ht⟩
  · cases ht

theorem lowerEntries_of_fits {l : List Nat} {s : State} (hfits : ∀ k ∈ l, PowerByteFits s.cfg k) :
    ∃ t, lowerEntries l s = .ok t := by
  induction l generalizing s with
  | nil => exact ⟨s, rfl⟩
  | cons k l ih =>
    obtain ⟨hhead, htail⟩ := List.forall_mem_cons.mp hfits
    obtain ⟨u, hu⟩ := lowerEntry_of_fits hhead
    rw [lowerEntries_cons_of_ok l hu]
    exact ih ((lowerEntry_stores hu).cfg ▸ htail)

/-- One configuration descriptor that is too short is enough for the fault. -/
theorem lowerEntries_of_not_fits {l : List Nat} {s : State} {k : Nat} (hk : k ∈ l)
    (hshort : ¬PowerByteFits s.cfg k) : lowerEntries l s = .error .outOfBounds := by
  induction l generalizing s with
  | nil => cases hk
  | cons j l ih =>
    by_cases hj : PowerByteFits s.cfg j
    · obtain ⟨u, hu⟩ := lowerEntry_of_fits hj
      have hmem : k ∈ l := (List.mem_cons.mp hk).resolve_left fun h => hshort (h ▸ hj)
      rw [lowerEntries_cons_of_ok l hu]
      exact ih hmem ((lowerEntry_stores hu).cfg ▸ hshort)
    · rw [lowerEntries, lowerEntry_of_not_fits hj]

theorem lowerEntries_stores {l : List Nat} {s t : State} (ht : lowerEntries l s = .ok t) :
    s.StoresWithin t (powerBytes s.cfg l) := by
  induction l generalizing s with
  | nil =>
    cases ht
    exact .refl _ _
  | cons k l ih =>
    obtain ⟨u, hu, hrest⟩ := lowerEntries_cons_ok ht
    have htail := ih hrest
    rw [(lowerEntry_stores hu).cfg] at htail
    refine ((lowerEntry_stores hu).mono ?_).trans (htail.mono ?_)
    · rintro x ⟨j, hj, hx⟩
      exact ⟨j, List.mem_cons.mpr (.inl (List.mem_singleton.mp hj)), hx⟩
    · rintro x ⟨j, hj, hx⟩
      exact ⟨j, List.mem_cons_of_mem k hj, hx⟩

/-- Every listed configuration descriptor's bMaxPower byte has been lowered: the last write of it stays. -/
theorem lowerEntries_byteAt {l : List Nat} {s t : State} {k : Nat} (hs : s.MemoryCanonical) (hmem : k ∈ l)
    (hk : IsConfigDesc s.cfg k) (hlen : s.cfg.bMaxPowerOffset < bufferLen s.cfg (.region (.desc k)))
    (ht : lowerEntries l s = .ok t) :
    t.byteAt (.region (.desc k)) s.cfg.bMaxPowerOffset = some s.cfg.loweredBMaxPower := by
  induction l generalizing s with
  | nil => cases hmem
  | cons j l ih =>
    obtain ⟨u, hu, hrest⟩ := lowerEntries_cons_ok ht
    have hcfg := (lowerEntry_stores hu).cfg
    by_cases htail : k ∈ l
    · have hlater := ih ((lowerEntry_stores hu).canonical hs) htail (hcfg ▸ hk) (hcfg ▸ hlen) hrest
      rwa [hcfg] at hlater
    · obtain rfl := (List.mem_cons.mp hmem).resolve_right htail
      rw [(lowerEntries_stores hrest).byteAt (hcfg ▸ hlen), lowerEntry_byteAt hs hk hu]
      rintro ⟨i, hi, -, hx⟩
      obtain rfl : k = i := by simpa using (Prod.mk.inj hx).1
      exact htail hi

/-! ### POWER_TIMEOUT (R271, R272, R274) -/

/-- POWER_TIMEOUT disarms the timer first (R271). -/
abbrev State.disarmed (s : State) : State := { s with pwr := { s.pwr with armed := false } }

/-- POWER_TIMEOUT has disarmed the timer, and LowerPower has recorded itself and left memory `m` (R271, R272). -/
def State.powerLowered (s : State) (m : Memory) : State :=
  { s with pwr := { armed := false, lowered := true }, mem := m }

theorem lowerPower_of_ok {s v : State}
    (hv : lowerEntries (List.range s.cfg.descTable.length) s.disarmed = .ok v) :
    lowerPower s.disarmed = .ok (s.powerLowered v.mem) := by
  have hframe := lowerEntries_frame hv
  rw [lowerPower, hv, hframe]
  rfl

theorem exec_powerTimeout_of_ok {s v : State} (hs : s.Alive) (harmed : s.pwr.armed = true)
    (hv : lowerEntries (List.range s.cfg.descTable.length) s.disarmed = .ok v) :
    exec .powerTimeout s = .next (s.powerLowered v.mem).reinit := by
  rw [exec, execPowerTimeout, whenAlive_of_alive s _ hs, if_pos harmed, lowerPower_of_ok hv]
  rfl

theorem exec_powerTimeout_of_error {s : State} {r : FaultReason} (hs : s.Alive) (harmed : s.pwr.armed = true)
    (hr : lowerEntries (List.range s.cfg.descTable.length) s.disarmed = .error r) :
    exec .powerTimeout s = .next (s.raise r) := by
  rw [exec, execPowerTimeout, whenAlive_of_alive s _ hs, if_pos harmed, lowerPower, hr]
  rfl

/-- Without its count and its entry of the log, a reinit is a bus reset. -/
theorem State.reinit_busResetDone (s : State) :
    BusResetDone s { s.reinit with reconnects := s.reconnects, obs := s.obs } := by
  have hreset : { s.reinit with reconnects := s.reconnects, obs := s.obs } = s.busReset := by
    rw [State.reinit_eq, State.busReset_frame]
  rw [hreset]
  exact s.busResetDone

theorem mem_range_of_isConfigDesc {c : Params} {k : Nat} (hk : IsConfigDesc c k) :
    k ∈ List.range c.descTable.length := by
  obtain ⟨e, he, -⟩ := hk
  exact List.mem_range.mpr (List.getElem?_eq_some_iff.mp he).1

/-- The bytes a reinit leaves are those of the memory LowerPower wrote. -/
theorem State.byteAt_reinit_powerLowered {s v : State} (hcfg : v.cfg = s.cfg) (b : Buffer) (k : Nat) :
    (s.powerLowered v.mem).reinit.byteAt b k = v.byteAt b k := by
  obtain ⟨hcfg', hmem'⟩ := (s.powerLowered v.mem).reinit_sameMemory
  rw [State.byteAt, State.byteAt, hcfg', hmem', hcfg]
  rfl

/-- Settles O25: the writes of the configuration descriptors by induction on the list of descriptors, then a reinit. -/
theorem powerTimeoutLowers : Obligations.PowerTimeoutLowers := by
  intro s hs hm harmed
  constructor
  · intro hfits
    obtain ⟨v, hv⟩ := lowerEntries_of_fits (l := List.range s.cfg.descTable.length)
      (s := s.disarmed) fun k _ ⟨e, he, hconfig⟩ => hfits k e he hconfig
    have hstores := lowerEntries_stores hv
    have hbyte := State.byteAt_reinit_powerLowered (s := s) hstores.cfg
    have hreinit := (s.powerLowered v.mem).reinit_eq
    refine ⟨_, v.mem, exec_powerTimeout_of_ok hs harmed hv, (s.powerLowered v.mem).reinit_busResetDone, ?count, ?log,
      fun k e he hconfig => ?lowered, fun b j hj hnot => ?kept⟩
    case count => rw [hreinit]; rfl
    case log => rw [hreinit]; rfl
    case lowered =>
      rw [hbyte]
      have hk : IsConfigDesc s.cfg k := ⟨e, he, hconfig⟩
      exact lowerEntries_byteAt (s := s.disarmed) hm (mem_range_of_isConfigDesc hk) hk (hfits k e he hconfig) hv
    case kept =>
      rw [hbyte]
      refine hstores.byteAt hj ?_
      rintro ⟨k, -, ⟨e, he, hconfig⟩, hx⟩
      obtain ⟨rfl, rfl⟩ := Prod.mk.inj hx
      exact hnot ⟨k, e, rfl, he, hconfig, rfl⟩
  · rintro ⟨k, e, he, hconfig, hlen⟩
    have hk : IsConfigDesc s.cfg k := ⟨e, he, hconfig⟩
    exact exec_powerTimeout_of_error hs harmed
      (lowerEntries_of_not_fits (mem_range_of_isConfigDesc hk) fun hfit => Nat.not_lt.mpr hlen (hfit hk))

end Sys2Proof.Machine
end

section
/-! The SIE's transactions (46_sie_interface.md): what HOST_SETUP, HOST_OUT and HOST_IN leave when they are enabled, and
what none of them writes. -/

namespace Sys2Proof.Machine

/-! ### Memory access by reference (R62) -/

/-- A reference to fewer than `n` bytes: Null, or one too near the end of its buffer. -/
def BufRef.TooShort (c : Params) (ref : BufRef) (n : Nat) : Prop :=
  ∀ buf off, refTarget ref = some (buf, off) → bufferLen c buf < off + n

theorem memWrite_of_fits {s : State} {ref : BufRef} {bs : List Byte} {buf : Buffer} {off : Nat}
    (href : refTarget ref = some (buf, off)) (hfit : off + bs.length ≤ bufferLen s.cfg buf) :
    memWrite s ref bs = .ok (s.putBytes buf off bs) :=
  (memWrite_ok _ _ _ _).mpr ⟨buf, off, href, hfit, rfl⟩

theorem memWrite_of_tooShort {s : State} {ref : BufRef} {bs : List Byte} (h : ref.TooShort s.cfg bs.length) :
    memWrite s ref bs = .error .outOfBounds := by
  cases hw : memWrite s ref bs with
  | ok t =>
    obtain ⟨buf, off, href, hfit, -⟩ := (memWrite_ok _ _ _ _).mp hw
    exact absurd hfit (Nat.not_le.mpr (h buf off href))
  | error r => rw [memWrite_error _ _ _ _ hw]

theorem memRead_of_tooShort {s : State} {ref : BufRef} {n : Nat} (h : ref.TooShort s.cfg n) :
    memRead s ref n = .error .outOfBounds := by
  unfold memRead
  split
  · rfl
  · next buf off href =>
    have hshort := h buf off href
    rw [State.readBuffer, if_pos hshort]
    split <;> rfl

theorem bufferKey_add (c : Params) (b : Buffer) (off k : Nat) : bufferKey c b (off + k) = bufferKey c b off + k :=
  (Nat.add_assoc _ _ _).symm

theorem State.exists_readBuffer_of_written {s : State} {b : Buffer} {off n : Nat} (hfit : off + n ≤ bufferLen s.cfg b)
    (hbytes : ∀ k < n, (s.byteAt b (off + k)).isSome = true) : ∃ bs, s.readBuffer b off n = .ok bs := by
  rw [State.readBuffer, if_neg (Nat.not_lt.mpr hfit)]
  exact readBytes_of_some _ _ _ _ fun k hk => bufferKey_add s.cfg b off k ▸ hbytes k hk

/-- A byte that has no value makes every read over it fault, at any offset. -/
theorem State.readBuffer_of_none {s : State} {b : Buffer} {off n k : Nat} (hfit : off + n ≤ bufferLen s.cfg b)
    (hk : k < n) (hnone : s.byteAt b (off + k) = none) : s.readBuffer b off n = .error .unwrittenRead := by
  cases hread : s.readBuffer b off n with
  | ok bs =>
    obtain ⟨-, hlen, hbytes⟩ := s.readBuffer_ok b off n bs hread
    cases hnone.symm.trans (hbytes k (hlen ▸ hk))
  | error r =>
    rw [State.readBuffer, if_neg (Nat.not_lt.mpr hfit)] at hread
    rw [readBytes_error _ _ _ _ _ hread]

/-- A read within a buffer succeeds in a collaborator's region, and where every byte has been written. -/
theorem exists_memRead {s : State} {ref : BufRef} {n : Nat} {buf : Buffer} {off : Nat}
    (href : refTarget ref = some (buf, off)) (hfit : off + n ≤ bufferLen s.cfg buf)
    (hbytes : isCollab buf = true ∨ ∀ k < n, (s.byteAt buf (off + k)).isSome = true) :
    ∃ bs t, memRead s ref n = .ok (bs, t) := by
  simp only [memRead, href, if_neg (Nat.not_lt.mpr hfit)]
  cases hcollab : isCollab buf with
  | true => exact ⟨_, _, rfl⟩
  | false =>
    obtain ⟨bs, hread⟩ := State.exists_readBuffer_of_written hfit (hbytes.resolve_left (by simp [hcollab]))
    exact ⟨bs, s, by rw [hread]; rfl⟩

theorem memRead_of_unwritten {s : State} {ref : BufRef} {n : Nat} {buf : Buffer} {off k : Nat}
    (href : refTarget ref = some (buf, off)) (hfit : off + n ≤ bufferLen s.cfg buf) (hcollab : isCollab buf = false)
    (hk : k < n) (hnone : s.byteAt buf (off + k) = none) : memRead s ref n = .error .unwrittenRead := by
  simp only [memRead, href, hcollab, State.readBuffer_of_none hfit hk hnone]
  rfl

/-! ### When a transaction is enabled (R290, R292 to R295) -/

theorem tokenReaches_of {s : State} {a : BitVec 7} (hattached : s.attached = true) (ha : a = s.addr)
    (hstat : s.stat.length < s.cfg.statDepth) : tokenReaches s a = true := by
  simp [tokenReaches, hattached, ha, hstat]

theorem transactionReaches_of {s : State} {ep : Ep} {a : BitVec 7} (htoken : tokenReaches s a = true)
    (hsuspend : s.tokenSuspend = false) (hep : ep.val ≤ s.cfg.numEndpoints.val) :
    transactionReaches s ep a = true := by
  simp [transactionReaches, isEndpoint, htoken, hsuspend, hep]

theorem exec_hostOut_of_stalled {s : State} {ep : Ep} {a : BitVec 7} {data : List Byte} (hs : s.Alive)
    (hreach : transactionReaches s ep a = true) (hrxen : rxenBit (epGet s.endpt ep) = true)
    (hlen : data.length ≤ maxPacket s.cfg ep) (hstall : stallBit (epGet s.endpt ep) = true) :
    exec (.hostOut ep a data) s = .next (s.emit (.stall ep .outToken)) := by
  rw [exec, execHostOut, whenAlive_of_alive s _ hs, hreach, hrxen, decide_eq_true hlen, hstall]
  rfl

/-- An OUT that the slot takes (R293). -/
theorem exec_hostOut_of_slot {s : State} {ep : Ep} {a : BitVec 7} {data : List Byte} (hs : s.Alive)
    (hreach : transactionReaches s ep a = true) (hrxen : rxenBit (epGet s.endpt ep) = true)
    (hlen : data.length ≤ maxPacket s.cfg ep) (hstall : stallBit (epGet s.endpt ep) = false)
    (hown : (s.nextSlot ep .rx).desc.own = true) (hbc : data.length ≤ (s.nextSlot ep .rx).desc.bc.toNat) :
    exec (.hostOut ep a data) s = commit s (receiveOut s ep data) := by
  rw [exec, execHostOut, whenAlive_of_alive s _ hs, hreach, hrxen, decide_eq_true hlen, hstall, hown,
    decide_eq_true hbc]
  rfl

theorem exec_hostIn_of_stalled {s : State} {ep : Ep} {a : BitVec 7} (hs : s.Alive)
    (hreach : transactionReaches s ep a = true) (htxen : txenBit (epGet s.endpt ep) = true)
    (hstall : stallBit (epGet s.endpt ep) = true) :
    exec (.hostIn ep a) s = .next (s.emit (.stall ep .inToken)) := by
  rw [exec, execHostIn, whenAlive_of_alive s _ hs, hreach, htxen, hstall]
  rfl

/-- An IN that the slot answers (R294). -/
theorem exec_hostIn_of_slot {s : State} {ep : Ep} {a : BitVec 7} (hs : s.Alive)
    (hreach : transactionReaches s ep a = true) (htxen : txenBit (epGet s.endpt ep) = true)
    (hstall : stallBit (epGet s.endpt ep) = false) (hown : (s.nextSlot ep .tx).desc.own = true) :
    exec (.hostIn ep a) s = commit s (sendIn s ep) := by
  rw [exec, execHostIn, whenAlive_of_alive s _ hs, hreach, htxen, hstall, hown]
  rfl

/-! ### HOST_SETUP, HOST_OUT and HOST_IN (R292 to R295) -/

theorem receiveOut_of_write {s t : State} {ep : Ep} {data : List Byte}
    (h : memWrite s (s.nextSlot ep .rx).addr data = .ok t) :
    receiveOut s ep data =
      .ok ((t.completeTransaction ep .rx (completedRx (s.nextSlot ep .rx).desc .outToken data.length)).emit
        (.outAck ep data.length)) := by
  rw [receiveOut, h]

theorem receiveOut_of_fault {s : State} {ep : Ep} {data : List Byte} {r : FaultReason}
    (h : memWrite s (s.nextSlot ep .rx).addr data = .error r) : receiveOut s ep data = .error r := by
  rw [receiveOut, h]

theorem sendIn_of_read {s t : State} {ep : Ep} {bs : List Byte}
    (h : memRead s (s.nextSlot ep .tx).addr (s.nextSlot ep .tx).desc.bc.toNat = .ok (bs, t)) :
    sendIn s ep =
      .ok ((t.completeTransaction ep .tx (completedTx (s.nextSlot ep .tx).desc)).emit
        (.inData ep (s.nextSlot ep .tx).desc.data1 bs)) := by
  rw [sendIn, h]

theorem sendIn_of_fault {s : State} {ep : Ep} {r : FaultReason}
    (h : memRead s (s.nextSlot ep .tx).addr (s.nextSlot ep .tx).desc.bc.toNat = .error r) :
    sendIn s ep = .error r := by
  rw [sendIn, h]

/-- Settles O36: the two STALL handshakes. -/
theorem stallHandshake : Obligations.StallHandshake := by
  intro s ep a d hs hattached ha hstat hsuspend hep hstall
  have hreach := transactionReaches_of (tokenReaches_of hattached ha hstat) hsuspend hep
  exact ⟨fun hrxen hlen => exec_hostOut_of_stalled hs hreach hrxen hlen hstall,
    fun htxen => exec_hostIn_of_stalled hs hreach htxen hstall⟩

/-- Settles O33: by whether the slot's buffer takes the eight bytes. -/
theorem hostSetupLands : Obligations.HostSetupLands := by
  intro s a p hs hattached ha hstat hrxen b x hown hbc
  have henabled : setupEnabled s a = true := by
    simp only [setupEnabled, tokenReaches_of hattached ha hstat, hrxen, Bool.true_and]
    exact Bool.and_eq_true_iff.mpr ⟨hown, decide_eq_true hbc⟩
  rw [exec, execHostSetup, whenAlive_of_alive s _ hs, if_pos henabled]
  constructor
  · intro buf off href hfit
    rw [memWrite_of_fits (ref := (s.nextSlot 0 .rx).addr) (bs := setupBytes p) href hfit]
    rfl
  · intro hshort
    rw [memWrite_of_tooShort (ref := (s.nextSlot 0 .rx).addr) (bs := setupBytes p) hshort]
    rfl

/-- Settles O34: by whether the slot's buffer takes the packet. -/
theorem hostOutLands : Obligations.HostOutLands := by
  intro s ep a d hs hattached ha hstat hsuspend hep hrxen hstall hlen b x hown hbc
  have hreach := transactionReaches_of (tokenReaches_of hattached ha hstat) hsuspend hep
  rw [exec_hostOut_of_slot hs hreach hrxen hlen hstall hown hbc]
  exact ⟨fun buf off href hfit => congrArg (commit s) (receiveOut_of_write (memWrite_of_fits href hfit)),
    fun hshort => congrArg (commit s) (receiveOut_of_fault (memWrite_of_tooShort hshort))⟩

/-- Settles O35: by what the read of the slot's bytes answers. -/
theorem hostInSends : Obligations.HostInSends := by
  intro s ep a hs hattached ha hstat hsuspend hep htxen hstall b x hown
  have hreach := transactionReaches_of (tokenReaches_of hattached ha hstat) hsuspend hep
  rw [exec_hostIn_of_slot hs hreach htxen hstall hown]
  refine ⟨fun buf off href hfit hbytes => ?sent, fun hshort => ?tooShort,
    fun buf off href hfit hcollab ⟨k, hk, hnone⟩ => ?unwritten⟩
  case sent =>
    obtain ⟨bs, t, hread⟩ := exists_memRead href hfit hbytes
    obtain ⟨hlen, hframe, buf', off', href', -, hblock⟩ := memRead_ok _ _ _ _ _ hread
    obtain ⟨rfl, rfl⟩ : buf = buf' ∧ off = off' := by simpa using href.symm.trans href'
    refine ⟨bs, _, congrArg (commit s) (sendIn_of_read hread), hlen, fun hcollab => ?bytes,
      fun hcollab => ?draws, ?frame⟩
    case bytes => exact (s.readBuffer_ok buf off _ bs (hblock hcollab).2).2.2
    case draws => rw [(hblock hcollab).1]; exact ⟨rfl, rfl⟩
    case frame => rw [hframe]; rfl
  case tooShort => exact congrArg (commit s) (sendIn_of_fault (memRead_of_tooShort hshort))
  case unwritten =>
    exact congrArg (commit s) (sendIn_of_fault (memRead_of_unwritten href hfit hcollab hk hnone))

/-! ### What the SIE writes (R20, R298) -/

/-- What the SIE may write (R20): no descriptor's `addr` or `data1` and no arming, and of the control bytes endpoint 0's
alone. -/
structure State.SieWrites (s t : State) : Prop where
  frame : t = { s with
    mem := t.mem
    bdt := t.bdt
    pp := t.pp
    stat := t.stat
    tokenSuspend := t.tokenSuspend
    endpt := t.endpt
    obs := t.obs
    draws := t.draws
    drawn := t.drawn }
  endpt : ∀ ep, ep ≠ 0 → epGet t.endpt ep = epGet s.endpt ep
  slots : ∀ ep d b, (t.slot ep d b).addr = (s.slot ep d b).addr ∧
    (t.slot ep d b).desc.data1 = (s.slot ep d b).desc.data1 ∧
    ((t.slot ep d b).desc.own = true → (s.slot ep d b).desc.own = true)

theorem State.SieWrites.trans {s t u : State} (h₁ : s.SieWrites t) (h₂ : t.SieWrites u) : s.SieWrites u where
  frame := by rw [h₂.frame, h₁.frame]
  endpt ep hep := (h₂.endpt ep hep).trans (h₁.endpt ep hep)
  slots ep d b := by
    obtain ⟨haddr₁, hdata₁, hown₁⟩ := h₁.slots ep d b
    obtain ⟨haddr₂, hdata₂, hown₂⟩ := h₂.slots ep d b
    exact ⟨haddr₂.trans haddr₁, hdata₂.trans hdata₁, hown₁ ∘ hown₂⟩

/-- Neither the descriptors nor the control bytes are written. -/
theorem State.SieWrites.of_frame {s t : State} (h : t = { s with
    mem := t.mem
    stat := t.stat
    tokenSuspend := t.tokenSuspend
    obs := t.obs
    draws := t.draws
    drawn := t.drawn }) : s.SieWrites t := by
  rw [h]
  exact ⟨rfl, fun _ _ => rfl, fun _ _ _ => ⟨rfl, rfl, id⟩⟩

theorem memWrite_sieWrites {s t : State} {ref : BufRef} {bs : List Byte} (h : memWrite s ref bs = .ok t) :
    s.SieWrites t := by
  obtain ⟨-, -, -, -, rfl⟩ := (memWrite_ok _ _ _ _).mp h
  exact .of_frame rfl

theorem memRead_sieWrites {s t : State} {ref : BufRef} {n : Nat} {bs : List Byte}
    (h : memRead s ref n = .ok (bs, t)) : s.SieWrites t := by
  rw [(memRead_ok _ _ _ _ _ h).2.1]
  exact .of_frame rfl

/-- Handing back the slot the SIE uses next: its DATA1 stays, its OWN is cleared. -/
theorem State.completeTransaction_sieWrites (s : State) (ep : Ep) (d : Dir) {x : Desc}
    (hdata : x.data1 = (s.nextSlot ep d).desc.data1) (hown : x.own = false) :
    s.SieWrites (s.completeTransaction ep d x) where
  frame := rfl
  endpt _ _ := rfl
  slots ep' d' b' := by
    have hslot : (s.completeTransaction ep d x).slot ep' d' b' =
        if ep' = ep ∧ d' = d ∧ b' = s.ppBank ep d then { s.nextSlot ep d with desc := x } else s.slot ep' d' b' :=
      s.slot_setSlot ep ep' d d' (s.ppBank ep d) b' _
    rw [hslot]
    split
    · next heq =>
      obtain ⟨rfl, rfl, rfl⟩ := heq
      exact ⟨rfl, hdata, fun h => by simp [hown] at h⟩
    · exact ⟨rfl, rfl, id⟩

/-- Writing endpoint 0's control byte and suspending tokens (R291). -/
theorem State.suspend_sieWrites (s : State) (x : Byte) :
    s.SieWrites { s.setEndpt 0 x with tokenSuspend := true } where
  frame := rfl
  endpt ep hep := epGet_epPut_other s.endpt 0 ep x hep
  slots _ _ _ := ⟨rfl, rfl, id⟩

/-! ### What a transaction shows the host (R46, R298) -/

/-- An IN packet with this toggle and so many bytes has been armed on the endpoint. -/
def State.ArmedIn (s : State) (ep : Ep) (tg : Toggle) (n : Nat) : Prop :=
  ∃ b, (s.slot ep .tx b).desc.own = true ∧ (s.slot ep .tx b).desc.data1 = tg ∧ n = (s.slot ep .tx b).desc.bc.toNat

/-- A transaction without a fault: no step, or what the SIE may write and one entry of the log, which shows the host an
IN packet only if it was armed. -/
inductive State.SieStep (s : State) : State → Prop where
  | idle : s.SieStep s
  | shows {u : State} (o : HostObs) (writes : s.SieWrites u) (obs : u.obs = s.obs)
      (armed : ∀ ep tg bs, o = .inData ep tg bs → s.ArmedIn ep tg bs.length) : s.SieStep (u.emit o)

theorem State.SieStep.stall (s : State) (ep : Ep) (pid : Pid) : s.SieStep (s.emit (.stall ep pid)) :=
  .shows _ (.of_frame rfl) rfl fun _ _ _ h => nomatch h

theorem State.SieStep.sieWrites {s t : State} (h : s.SieStep t) : s.SieWrites t := by
  cases h with
  | idle => exact .of_frame rfl
  | shows _ hwrites => exact hwrites.trans (.of_frame rfl)

theorem State.SieStep.armedIn {s t : State} {ep : Ep} {tg : Toggle} {bs : List Byte} (h : s.SieStep t)
    (hobs : t.obs = s.obs ++ [.inData ep tg bs]) : s.ArmedIn ep tg bs.length := by
  cases h with
  | idle => simp at hobs
  | shows o _ hkept harmed =>
    refine harmed ep tg bs ?_
    simpa [hkept] using hobs

/-- A transaction's body is a step of the SIE once it has not faulted. -/
theorem commit_sieStep {s t : State} {body : Except FaultReason State}
    (hbody : ∀ u, body = .ok u → s.SieStep u) (ht : commit s body = .next t) (hfault : t.fault = none) :
    s.SieStep t := by
  rcases (commit_next _ _ _).mp ht with hok | ⟨r, -, rfl⟩
  · exact hbody t hok
  · cases hfault

theorem receiveOut_sieStep {s t : State} {ep : Ep} {data : List Byte} (ht : receiveOut s ep data = .ok t) :
    s.SieStep t := by
  unfold receiveOut at ht
  split at ht <;> cases ht
  next u hu =>
    obtain ⟨_, _, -, -, rfl⟩ := (memWrite_ok _ _ _ _).mp hu
    exact .shows _ ((memWrite_sieWrites hu).trans (State.completeTransaction_sieWrites _ ep .rx rfl rfl)) rfl
      fun _ _ _ h => nomatch h

theorem sendIn_sieStep {s t : State} {ep : Ep} (hown : (s.nextSlot ep .tx).desc.own = true)
    (ht : sendIn s ep = .ok t) : s.SieStep t := by
  unfold sendIn at ht
  split at ht <;> cases ht
  next bs u hu =>
    obtain ⟨hlen, hframe, -⟩ := memRead_ok _ _ _ _ _ hu
    refine .shows _ ((memRead_sieWrites hu).trans (State.completeTransaction_sieWrites _ ep .tx ?data rfl)) ?obs
      fun ep' tg bs' h => ?armed
    case data => rw [hframe]; rfl
    case obs => rw [hframe]; rfl
    case armed =>
      cases h
      exact ⟨s.ppBank ep .tx, hown, rfl, hlen⟩

theorem execHostSetup_sieStep {a : BitVec 7} {p : SetupPacket} {s t : State} (ht : execHostSetup a p s = .next t)
    (hfault : t.fault = none) : s.SieStep t := by
  obtain ⟨-, ht⟩ := (whenAlive_next _ _ _).mp ht
  split at ht
  · refine commit_sieStep (fun u hu => ?_) ht hfault
    split at hu <;> cases hu
    next v hv =>
      obtain ⟨_, _, -, -, rfl⟩ := (memWrite_ok _ _ _ _).mp hv
      have hcomplete := (memWrite_sieWrites hv).trans (State.completeTransaction_sieWrites _ 0 .rx
        (x := completedRx (s.nextSlot 0 .rx).desc .setupToken 8) rfl rfl)
      exact .shows _ (hcomplete.trans (State.suspend_sieWrites _ _)) rfl fun _ _ _ h => nomatch h
  · cases ht
    exact .idle

theorem execHostOut_sieStep {ep : Ep} {a : BitVec 7} {data : List Byte} {s t : State}
    (ht : execHostOut ep a data s = .next t) (hfault : t.fault = none) : s.SieStep t := by
  obtain ⟨-, ht⟩ := (whenAlive_next _ _ _).mp ht
  split at ht
  · split at ht
    · cases ht
      exact .stall s ep .outToken
    split at ht
    · exact commit_sieStep (fun u hu => receiveOut_sieStep hu) ht hfault
    · cases ht
      exact .idle
  · cases ht
    exact .idle

theorem execHostIn_sieStep {ep : Ep} {a : BitVec 7} {s t : State} (ht : execHostIn ep a s = .next t)
    (hfault : t.fault = none) : s.SieStep t := by
  obtain ⟨-, ht⟩ := (whenAlive_next _ _ _).mp ht
  split at ht
  · split at ht
    · cases ht
      exact .stall s ep .inToken
    split at ht
    · next hown => exact commit_sieStep (fun u hu => sendIn_sieStep hown hu) ht hfault
    · cases ht
      exact .idle
  · cases ht
    exact .idle

/-- Settles O37: each of the three transactions is a step of the SIE. -/
theorem sieNeverArms : Obligations.SieNeverArms := by
  intro i s t hi ht hfault
  have hstep : s.SieStep t := by
    rcases hi with ⟨a, p, rfl⟩ | ⟨ep, a, d, rfl⟩ | ⟨ep, a, rfl⟩
    · exact execHostSetup_sieStep ht hfault
    · exact execHostOut_sieStep ht hfault
    · exact execHostIn_sieStep ht hfault
  obtain ⟨hframe, hendpt, hslots⟩ := hstep.sieWrites
  exact ⟨hframe, hendpt, hslots, fun _ _ _ hobs => hstep.armedIn hobs⟩

end Sys2Proof.Machine
end

section
/-! The reasons R313 calls unreachable: while the invariants hold, no body of a step answers one of them. -/

namespace Sys2Proof.Machine

/-! ### What a step marks (R313) -/

/-- An outcome marks no reason that R313 calls unreachable. -/
def NoInternalMark : Out → Prop
  | .next t => ∀ r, t.fault = some r → r.isInternal = false
  | .fault _ => True
  | .refused _ => True

/-- What a body run from `s` may answer: a state with the mark of `s`, or a reason R313 does not call unreachable. -/
def State.AnswersExternal (s : State) : Except FaultReason State → Prop
  | .ok t => t.fault = s.fault
  | .error r => r.isInternal = false

theorem State.AnswersExternal.of_ok {s t : State} {body : Except FaultReason State} (h : s.AnswersExternal body)
    (hok : body = .ok t) : t.fault = s.fault := by
  rwa [hok] at h

theorem State.AnswersExternal.of_error {s : State} {r : FaultReason} {body : Except FaultReason State}
    (h : s.AnswersExternal body) (herror : body = .error r) : r.isInternal = false := by
  rwa [herror] at h

/-- What a body may answer depends on the mark alone. -/
theorem State.AnswersExternal.congr {s u : State} {body : Except FaultReason State} (h : u.AnswersExternal body)
    (hfault : u.fault = s.fault) : s.AnswersExternal body := by
  cases body with
  | ok t => exact Eq.trans h hfault
  | error r => exact h

theorem whenAlive_noInternalMark {s : State} {k : Out} (h : s.Alive → NoInternalMark k) :
    NoInternalMark (whenAlive s k) := by
  unfold whenAlive
  split
  · trivial
  next hfault =>
  split
  · trivial
  · next hreloaded => exact h ⟨hfault, by simpa using hreloaded⟩

theorem next_noInternalMark {s t : State} (hs : s.Alive) (ht : t.fault = s.fault) : NoInternalMark (.next t) :=
  fun _ hr => nomatch (ht.trans hs.1).symm.trans hr

theorem raise_noInternalMark (s : State) {r : FaultReason} (h : r.isInternal = false) :
    NoInternalMark (.next (s.raise r)) := by
  intro _ hr
  cases hr
  exact h

theorem commit_noInternalMark {s : State} {body : Except FaultReason State} (hs : s.Alive)
    (hbody : s.AnswersExternal body) : NoInternalMark (commit s body) := by
  cases body with
  | ok u => exact next_noInternalMark hs hbody
  | error r => exact raise_noInternalMark s hbody

/-- What a memory access raises is not internal (R62). -/
theorem isInternal_of_memory_reason {r : FaultReason} (h : r = .outOfBounds ∨ r = .unwrittenRead) :
    r.isInternal = false := by
  rcases h with rfl | rfl <;> rfl

/-! ### The mark under the shared operations -/

@[simp] theorem State.release_fault (s : State) (h : Nat) : (s.release h).fault = s.fault := by
  rw [State.release_frame]

@[simp] theorem State.busReset_fault (s : State) : s.busReset.fault = s.fault := by
  rw [State.busReset_frame]

theorem allocPacket_fault {s t : State} {p : Nat} (h : allocPacket s = some (p, t)) : t.fault = s.fault := by
  rw [(allocPacket_frame _ _ _ h).2]

@[simp] theorem State.enqueueTx_fault (s : State) (ep : Ep) (h : Nat) : (s.enqueueTx ep h).fault = s.fault := by
  rw [State.enqueueTx_eq]

@[simp] theorem acceptRx_fault (s : State) (ep : Ep) (h : Nat) (n : BitVec 10) :
    (acceptRx s ep h n).fault = s.fault := by
  rw [acceptRx_eq]

/-! ### The completions of the data endpoints (R137, R140) -/

theorem BufRef.exists_pool_of_isPool {x : BufRef} (h : x.isPool = true) : ∃ i, x = .pool i := by
  cases x with
  | pool i => exact ⟨i, rfl⟩
  | null | reg => cases h

/-- The bank the SIE completes next is one R138 has a row for when it is armed, and a packet waits only while both
banks are armed. -/
theorem completionTable_of_first {st : TxState} {c : Bank} {q : List Nat} (hfirst : firstBank st = c)
    (harmed : txArmed st c = true) (hgate : q ≠ [] → noneFree st = true) :
    ∃ st', completionTable st c q.isEmpty = .ok (!q.isEmpty, st') := by
  subst hfirst
  cases q with
  | cons => exact ⟨_, completionTable_refill _ (hgate (List.cons_ne_nil _ _))⟩
  | nil =>
    cases st with
    | bothFreeEvenFirst | bothFreeOddFirst => cases harmed
    | evenFree | oddFree | noneFreeEvenFirst | noneFreeOddFirst => exact ⟨_, rfl⟩

theorem txDone_answersExternal {s : State} {ep : Ep} {c : Bank} (hfirst : firstBank (epGet s.txState ep) = c)
    (harmed : txArmed (epGet s.txState ep) c = true)
    (hgate : epGet s.txq ep ≠ [] → noneFree (epGet s.txState ep) = true)
    (hown : (s.slot ep .tx c).desc.own = false) (haddr : (s.slot ep .tx c).addr.isPool = true) :
    s.AnswersExternal (txDone s ep c) := by
  obtain ⟨h, haddr⟩ := BufRef.exists_pool_of_isPool haddr
  obtain ⟨st, htable⟩ := completionTable_of_first hfirst harmed hgate
  cases hq : epGet s.txq ep with
  | nil =>
    rw [txDone_idle (by rw [htable, hq]; rfl) hown haddr]
    exact State.release_fault _ h
  | cons q qs =>
    rw [txDone_refill (by rw [htable, hq]; rfl) hown haddr hq]
    exact State.release_fault _ h

theorem refillRx_answersExternal {s : State} {ep : Ep} {b : Bank} (hown : (s.slot ep .rx b).desc.own = false) :
    s.AnswersExternal (refillRx s ep b) := by
  by_cases hfree : ∃ i, s.isFree i = true
  · obtain ⟨i, hi⟩ := hfree
    rw [refillRx_of_free hi hown]
    exact (allocPacket_fault (allocPacket_of_isFree hi) :)
  · rw [refillRx_of_none (by simpa using hfree) hown]
    rfl

theorem rxDone_answersExternal {s : State} {ep : Ep} {b : Bank} (n : BitVec 10)
    (hown : (s.slot ep .rx b).desc.own = false) (haddr : (s.slot ep .rx b).addr.isPool = true) :
    s.AnswersExternal (rxDone s ep b n) := by
  obtain ⟨h, haddr⟩ := BufRef.exists_pool_of_isPool haddr
  by_cases hn : n = 0
  · subst hn
    rw [rxDone_of_empty hown haddr]
    rfl
  · rw [rxDone_of_nonempty hn haddr]
    exact (refillRx_answersExternal (by rw [acceptRx_slot]; exact hown)).congr (acceptRx_fault s ep h n)

/-! ### Endpoint 0 (R183, R188, R191) -/

/-- An IN completion on the SIE's bank, with the other one released, raises nothing (R188). -/
theorem ep0InDone_total {s : State} (hown : (s.slot 0 .tx s.ep0.bank).desc.own = false)
    (hother : (s.slot 0 .tx s.ep0.bank.other).desc.own = false) : ∃ t, ep0InDone s s.ep0.bank = .ok t := by
  cases hctl : s.ctl with
  | idle => exact ⟨_, ep0InDone_elsewhere hown (.inl hctl)⟩
  | dataOut => exact ⟨_, ep0InDone_elsewhere hown (.inr (.inl hctl))⟩
  | statusOut => exact ⟨_, ep0InDone_elsewhere hown (.inr (.inr hctl))⟩
  | statusIn =>
    cases haddr : s.setAddrPending with
    | none => exact ⟨_, ep0InDone_statusIn hown hctl haddr⟩
    | some a => exact ⟨_, ep0InDone_statusIn_address hown hctl haddr⟩
  | dataIn =>
    cases hpending : s.ep0.pending with
    | none => exact ⟨_, ep0InDone_dataIn_last hown hctl hpending⟩
    | some x =>
      rw [ep0InDone_dataIn_next hown hctl hpending]
      exact ⟨_, armNextIn_of_released _ x.1 x.2 (by rw [State.slot_inCompleted]; exact hother)⟩

theorem callSink_frame (s : State) (f : SinkId → CollabCall) :
    callSink s f = { s with calls := (callSink s f).calls } := by
  unfold callSink
  cases s.ep0out.sink <;> rfl

/-- A packet of the data stage raises nothing while the transmit bank is released (R191). -/
theorem dataOutPacket_total {s : State} (data : List Byte) (hown : (s.slot 0 .tx s.ep0.bank).desc.own = false) :
    ∃ t, dataOutPacket s data = .ok t := by
  unfold dataOutPacket
  dsimp only
  split
  · refine ⟨_, startStatusIn_of_released _ ?_⟩
    rw [callSink_frame, callSink_frame s]
    exact hown
  · exact ⟨_, rfl⟩

theorem ep0OutDone_answersExternal {s : State} {b : Bank} (n : BitVec 10) (hown : (s.slot 0 .rx b).desc.own = false)
    (hidle : s.ctl = .dataOut → (s.slot 0 .tx s.ep0.bank).desc.own = false) :
    s.AnswersExternal (ep0OutDone s b n) := by
  cases hread : s.readBuffer (.region (.ep0rx b)) 0 n.toNat with
  | error r =>
    rw [ep0OutDone_of_read_error hread]
    exact isInternal_of_memory_reason (s.readBuffer_error _ _ _ _ hread)
  | ok data =>
    have htotal : ∃ t, ep0OutDone s b n = .ok t := by
      cases hctl : s.ctl with
      | idle => exact ⟨_, ep0OutDone_elsewhere hown hread (.inl hctl)⟩
      | statusIn => exact ⟨_, ep0OutDone_elsewhere hown hread (.inr hctl)⟩
      | statusOut => exact ⟨_, ep0OutDone_statusOut hown hread hctl⟩
      | dataIn => exact ⟨_, ep0OutDone_dataIn hown hread hctl⟩
      | dataOut =>
        rw [ep0OutDone_dataOut hown hread hctl]
        exact dataOutPacket_total data (by rw [← s.slot_outRearmed b] at hidle; exact hidle hctl)
    obtain ⟨t, ht⟩ := htotal
    rw [ht, State.AnswersExternal, ep0OutDone_frame ht]

theorem descriptorLength_error {s : State} {k : Nat} {v : Half} {r : FaultReason}
    (h : descriptorLength s k v = .error r) : r = .outOfBounds ∨ r = .unwrittenRead := by
  unfold descriptorLength at h
  split at h
  · split at h <;> cases h
    next hread => exact s.readBuffer_error _ _ _ _ hread
  · cases h

theorem getDescriptor_error {v w : Half} {s : State} {r : FaultReason} (h : getDescriptor v w s = .error r) :
    r = .outOfBounds ∨ r = .unwrittenRead := by
  unfold getDescriptor at h
  split at h
  · cases h
  · split at h <;> cases h
    next hlength => exact descriptorLength_error hlength

/-- A request handler faults on a memory access alone (R184). -/
theorem requestHandler_error {i : Instr} {s : State} {r : FaultReason} (h : requestHandler i s = .error r) :
    r = .outOfBounds ∨ r = .unwrittenRead := by
  cases i with
  | setConfiguration v w l =>
    obtain ⟨t, ht⟩ := reconfigure_total s (lowByte v)
    rw [requestHandler, handleSetConfiguration, ht] at h
    cases h
  | getDescriptorDevice | getDescriptorInterface => exact getDescriptor_error h
  | getStatusEndpoint =>
    simp only [requestHandler, handleGetStatusEndpoint] at h
    split at h <;> cases h
  | clearFeatureEndpoint | setFeatureEndpoint =>
    simp only [requestHandler, handleClearFeatureEndpoint, handleSetFeatureEndpoint] at h
    split at h
    · cases h
    · split at h <;> cases h
  | _ => cases h

/-- A handler leaves the transmit bank of endpoint 0 released, as the SETUP stage gave it. -/
theorem requestHandler_released {i : Instr} {p : SetupPacket} {s t : State} {r : HandlerResult}
    (h : requestHandler i (s.beginSetup p) = .ok (t, r)) : (t.slot 0 .tx t.ep0.bank).desc.own = false := by
  have hslot : ∀ b, t.slot 0 .tx b = Slot.cleared := by
    intro b
    have hbegin := s.slot_beginSetup p 0 .tx b
    rw [if_pos ⟨rfl, rfl⟩] at hbegin
    rw [← hbegin]
    rcases requestHandler_frame h with ⟨v, w, l, -, hreconf⟩ | hframe
    · exact reconfigure_ep0 _ _ _ hreconf .tx b
    · rw [State.slot_congr t (s.beginSetup p) (by rw [hframe])]
  rw [hslot]
  rfl

theorem setupStage_answersExternal (p : SetupPacket) (i : Instr) (s : State) :
    s.AnswersExternal (setupStage p (requestHandler i) s) := by
  cases hstage : setupStage p (requestHandler i) s with
  | ok t => exact (setupStage_setup_fault hstage).2
  | error r =>
    unfold setupStage at hstage
    split at hstage
    · next hhandler =>
      cases hstage
      exact isInternal_of_memory_reason (requestHandler_error hhandler)
    · next t res hhandler =>
      obtain ⟨u, hu⟩ := applyResult_total t res (requestHandler_released hhandler)
      rw [hu] at hstage
      cases hstage

theorem ep0Setup_answersExternal {s : State} {b : Bank} (hown : (s.slot 0 .rx b).desc.own = false) :
    s.AnswersExternal (ep0Setup s b) := by
  cases hread : s.readBuffer (.region (.ep0rx b)) 0 8 with
  | error r =>
    rw [ep0Setup, hread]
    exact isInternal_of_memory_reason (s.readBuffer_error _ _ _ _ hread)
  | ok bytes =>
    cases hp : setupOfBytes bytes with
    | none =>
      simp only [ep0Setup, hread, hp]
      rfl
    | some p =>
      rw [ep0Setup_of_read hown hread hp, dispatchRequest_eq]
      exact setupStage_answersExternal p _ _

/-! ### TOKEN_DONE (R136) -/

/-- The bank of the oldest entry heads the list of its endpoint and direction. -/
theorem State.pending_head {s : State} {e : StatEntry} {rest : List StatEntry} (hstat : s.stat = e :: rest) :
    (s.pending e.ep e.dir).head? = some e.bank := by
  simp [State.pending, hstat]

theorem isDataEp_of_isEndpoint {c : Params} {ep : Ep} (h : isEndpoint c ep = true) (hne : ep ≠ 0) :
    isDataEp c ep = true := by
  have hle : ep.val ≤ c.numEndpoints.val := by simpa [isEndpoint] using h
  have hpos : ep.val ≠ 0 := fun hv => hne (Fin.ext hv)
  exact (isDataEp_iff c ep).mpr ⟨by omega, hle⟩

/-- An entry of endpoint 0 (R182): an IN completion is one of `ep0.bank`, and in DATA_OUT the transmit bank is
released. -/
theorem ep0Token_answersExternal {s : State} {d : Dir} {b : Bank} {p : Pid} {rest : List StatEntry} (n : BitVec 10)
    (hstep : s.InStep) (hstat : s.stat = ⟨0, d, b⟩ :: rest) (hown : (s.slot 0 d b).desc.own = false)
    (hlegal : legalToken s.cfg 0 d p = true) : s.AnswersExternal (ep0Token { s with stat := rest } d b p n) := by
  cases d with
  | rx =>
    cases p with
    | setupToken => exact ep0Setup_answersExternal (s := { s with stat := rest }) hown
    | outToken =>
      exact ep0OutDone_answersExternal (s := { s with stat := rest }) n hown fun hctl => (hstep.dataOutIdle hctl).2
    | inToken => cases hlegal
  | tx =>
    cases p with
    | inToken =>
      obtain rfl : b = s.ep0.bank := by rw [hstep.ep0First, State.pending_head hstat, Option.getD_some]
      obtain ⟨t, ht⟩ := ep0InDone_total (s := { s with stat := rest }) hown hstep.ep0Other
      rw [ep0Token, ht, State.AnswersExternal, ep0InDone_frame ht]
    | setupToken | outToken => cases hlegal

/-- The oldest entry is of a slot the SIE has completed, and of the kind its endpoint expects. -/
theorem handleEntry_answersExternal {s : State} {e : StatEntry} {rest : List StatEntry} (howner : s.Ownership)
    (hgate : s.QueueGate) (hstep : s.InStep) (hstat : s.stat = e :: rest) :
    s.AnswersExternal (handleEntry { s with stat := rest } e) := by
  obtain ⟨hrange, hown, ⟨p, hpid, hlegal⟩, hbuffer⟩ := hstep.entries e (hstat ▸ List.mem_cons_self)
  obtain ⟨ep, d, b⟩ := e
  rw [handleEntry_of_legal (s := { s with stat := rest }) hown ((pidOf_eq_some_iff _ _).mp hpid) hlegal]
  by_cases hep : ep = 0
  · subst hep
    rw [if_pos rfl]
    exact ep0Token_answersExternal _ hstep hstat hown hlegal
  · have hdata := isDataEp_of_isEndpoint hrange hep
    have hpool := hbuffer hep
    rw [if_neg hep]
    cases d with
    | rx => exact rxDone_answersExternal (s := { s with stat := rest }) _ hown hpool
    | tx =>
      have hfirst := hstep.txFirst ep hdata
      rw [State.pending_head hstat, Option.getD_some] at hfirst
      exact txDone_answersExternal (s := { s with stat := rest }) hfirst (howner.txBanks ep hdata b ▸ hpool) (hgate ep)
        hown hpool

theorem execTokenDone_noInternalMark {s : State} (howner : s.Ownership) (hgate : s.QueueGate) (hstep : s.InStep) :
    NoInternalMark (execTokenDone s) := by
  refine whenAlive_noInternalMark fun hs => ?_
  split
  · exact next_noInternalMark hs rfl
  · next hstat => exact commit_noInternalMark hs (handleEntry_answersExternal howner hgate hstep hstat)

/-! ### TX (R135, R160) -/

/-- R135 arms a bank that is free. -/
theorem submitTable_free {st st' : TxState} {b : Bank} (h : submitTable st = some (b, st')) : txArmed st b = false := by
  cases st with
  | noneFreeEvenFirst | noneFreeOddFirst => cases h
  | bothFreeEvenFirst | bothFreeOddFirst | evenFree | oddFree =>
    cases h
    rfl

theorem submitPacket_answersExternal {s : State} {ep : Ep} (h : Nat) (hstep : s.InStep)
    (hep : isDataEp s.cfg ep = true) : s.AnswersExternal (submitPacket s ep h) := by
  cases htable : submitTable (epGet s.txState ep) with
  | none =>
    rw [submitPacket_of_no_bank htable]
    exact s.enqueueTx_fault ep h
  | some x =>
    have hown : (s.slot ep .tx x.1).desc.own = false := by
      rw [hstep.txOwned ep hep, submitTable_free htable, Bool.false_and]
    rw [submitPacket_of_free_bank htable hown]
    rfl

theorem execTx_noInternalMark {s : State} (ep : Ep) (h : Half) (hstep : s.InStep) : NoInternalMark (execTx ep h s) := by
  refine whenAlive_noInternalMark fun hs => ?_
  split
  · exact next_noInternalMark hs rfl
  next henabled =>
  have hep : isDataEp s.cfg ep = true := by
    simp only [Bool.not_eq_true', Bool.not_eq_false, txEnabled, Bool.and_eq_true] at henabled
    exact henabled.1
  have hsubmit := submitPacket_answersExternal (handleId h) hstep hep
  split
  · exact raise_noInternalMark s rfl
  split
  · exact raise_noInternalMark s rfl
  split
  · exact next_noInternalMark hs rfl
  refine commit_noInternalMark hs ?_
  split
  · next hok => exact (hsubmit.of_ok hok :)
  · next herror => exact hsubmit.of_error herror

/-! ### The packet pool and the queues: the caller's reasons and the memory's (R110, R112, R162 to R169) -/

theorem execAlloc_noInternalMark (s : State) : NoInternalMark (execAlloc s) := by
  refine whenAlive_noInternalMark fun hs => ?_
  split
  · next halloc => exact next_noInternalMark hs (allocPacket_fault halloc :)
  · exact next_noInternalMark hs rfl

theorem execFree_noInternalMark (h : Half) (s : State) : NoInternalMark (execFree h s) := by
  refine whenAlive_noInternalMark fun hs => ?_
  split
  · exact next_noInternalMark hs (s.release_fault _)
  · exact raise_noInternalMark s rfl

theorem execRx_noInternalMark (ep : Ep) (s : State) : NoInternalMark (execRx ep s) := by
  refine whenAlive_noInternalMark fun hs => ?_
  split
  · exact next_noInternalMark hs rfl
  split
  · exact next_noInternalMark hs rfl
  split <;> exact next_noInternalMark hs rfl

theorem returnCount_noInternalMark (s : State) (ep : Ep) (n : Word) : NoInternalMark (returnCount s ep n) := by
  refine whenAlive_noInternalMark fun hs => ?_
  split <;> exact next_noInternalMark hs rfl

theorem State.writeBuffer_answersExternal (s : State) (b : Buffer) (off : Nat) (bs : List Byte) :
    s.AnswersExternal (s.writeBuffer b off bs) := by
  unfold State.writeBuffer
  split <;> rfl

theorem execPktFill_noInternalMark (h : Half) (data : List Byte) (s : State) :
    NoInternalMark (execPktFill h data s) := by
  refine whenAlive_noInternalMark fun hs => ?_
  split
  · exact raise_noInternalMark s rfl
  have hwrite := s.writeBuffer_answersExternal (.pool (handleId h)) 0 data
  refine commit_noInternalMark hs ?_
  split
  · next hok => exact (hwrite.of_ok hok :)
  · next herror => exact hwrite.of_error herror

theorem execPktRead_noInternalMark (h : Half) (s : State) : NoInternalMark (execPktRead h s) := by
  refine whenAlive_noInternalMark fun hs => ?_
  split
  · exact raise_noInternalMark s rfl
  refine commit_noInternalMark hs ?_
  split
  · rfl
  · next hread => exact isInternal_of_memory_reason (s.readBuffer_error _ _ _ _ hread)

/-! ### POWER_TIMEOUT and HOST_BUS_RESET (R271, R272, R343) -/

theorem lowerEntries_error {l : List Nat} {s : State} {r : FaultReason} (h : lowerEntries l s = .error r) :
    r = .outOfBounds := by
  by_cases hfits : ∀ k ∈ l, PowerByteFits s.cfg k
  · obtain ⟨t, ht⟩ := lowerEntries_of_fits hfits
    cases h.symm.trans ht
  · push Not at hfits
    obtain ⟨k, hk, hshort⟩ := hfits
    cases h.symm.trans (lowerEntries_of_not_fits hk hshort)
    rfl

theorem lowerPower_answersExternal (s : State) : s.AnswersExternal (lowerPower s) := by
  cases hlower : lowerPower s with
  | ok t => exact (congrArg State.fault (lowerPower_frame hlower) :)
  | error r =>
    unfold lowerPower at hlower
    split at hlower <;> cases hlower
    next herror => exact isInternal_of_memory_reason (.inl (lowerEntries_error herror))

theorem execPowerTimeout_noInternalMark (s : State) : NoInternalMark (execPowerTimeout s) := by
  refine whenAlive_noInternalMark fun hs => ?_
  split
  · have hlower := lowerPower_answersExternal s.disarmed
    refine commit_noInternalMark hs ?_
    split
    · next u hok => exact u.busReset_fault.trans (hlower.of_ok hok)
    · next herror => exact hlower.of_error herror
  · exact next_noInternalMark hs rfl

theorem execHostBusReset_noInternalMark (s : State) : NoInternalMark (execHostBusReset s) := by
  refine whenAlive_noInternalMark fun hs => ?_
  split
  · exact next_noInternalMark hs s.busReset_fault
  · exact next_noInternalMark hs rfl

/-! ### The SIE's transactions: the memory's reasons (R292 to R294) -/

theorem memWrite_answersExternal (s : State) (ref : BufRef) (bs : List Byte) :
    s.AnswersExternal (memWrite s ref bs) := by
  unfold memWrite
  split
  · rfl
  · exact s.writeBuffer_answersExternal _ _ _

theorem receiveOut_answersExternal (s : State) (ep : Ep) (data : List Byte) :
    s.AnswersExternal (receiveOut s ep data) := by
  have hwrite := memWrite_answersExternal s (s.nextSlot ep .rx).addr data
  unfold receiveOut
  split
  · next herror => exact hwrite.of_error herror
  · next hok => exact (hwrite.of_ok hok :)

theorem sendIn_answersExternal (s : State) (ep : Ep) : s.AnswersExternal (sendIn s ep) := by
  unfold sendIn
  split
  · next hread => exact isInternal_of_memory_reason (memRead_error _ _ _ _ hread)
  · next hread =>
    obtain ⟨-, hframe, -⟩ := memRead_ok _ _ _ _ _ hread
    exact (congrArg State.fault hframe :)

theorem execHostSetup_noInternalMark (a : BitVec 7) (p : SetupPacket) (s : State) :
    NoInternalMark (execHostSetup a p s) := by
  refine whenAlive_noInternalMark fun hs => ?_
  split
  · have hwrite := memWrite_answersExternal s (s.nextSlot 0 .rx).addr (setupBytes p)
    refine commit_noInternalMark hs ?_
    split
    · next herror => exact hwrite.of_error herror
    · next hok => exact (hwrite.of_ok hok :)
  · exact next_noInternalMark hs rfl

theorem execHostOut_noInternalMark (ep : Ep) (a : BitVec 7) (data : List Byte) (s : State) :
    NoInternalMark (execHostOut ep a data s) := by
  refine whenAlive_noInternalMark fun hs => ?_
  split
  · split
    · exact next_noInternalMark hs rfl
    split
    · exact commit_noInternalMark hs (receiveOut_answersExternal s ep data)
    · exact next_noInternalMark hs rfl
  · exact next_noInternalMark hs rfl

theorem execHostIn_noInternalMark (ep : Ep) (a : BitVec 7) (s : State) : NoInternalMark (execHostIn ep a s) := by
  refine whenAlive_noInternalMark fun hs => ?_
  split
  · split
    · exact next_noInternalMark hs rfl
    split
    · exact commit_noInternalMark hs (sendIn_answersExternal s ep)
    · exact next_noInternalMark hs rfl
  · exact next_noInternalMark hs rfl

/-! ### Every command -/

/-- Only TX and TOKEN_DONE run a body that could raise such a reason, and the invariants give what its checks ask
for. -/
theorem exec_noInternalMark {i : Instr} {s : State} (howner : s.Ownership) (hgate : s.QueueGate) (hstep : s.InStep)
    (hi : i.isCommand = true) : NoInternalMark (exec i s) := by
  cases i with
  | tokenDone => exact execTokenDone_noInternalMark howner hgate hstep
  | tx ep h => exact execTx_noInternalMark ep h hstep
  | init | reinit => exact whenAlive_noInternalMark fun hs => next_noInternalMark hs s.busReset_fault
  | configured | deviceReload => exact whenAlive_noInternalMark fun hs => next_noInternalMark hs rfl
  | alloc => exact execAlloc_noInternalMark s
  | free h => exact execFree_noInternalMark h s
  | rx ep => exact execRx_noInternalMark ep s
  | txByteCount | txPacketCount | rxByteCount => exact returnCount_noInternalMark s _ _
  | pktFill h data => exact execPktFill_noInternalMark h data s
  | pktRead h => exact execPktRead_noInternalMark h s
  | powerTimeout => exact execPowerTimeout_noInternalMark s
  | hostBusReset => exact execHostBusReset_noInternalMark s
  | hostSetup a p => exact execHostSetup_noInternalMark a p s
  | hostOut ep a data => exact execHostOut_noInternalMark ep a data s
  | hostIn ep a => exact execHostIn_noInternalMark ep a s
  | _ => cases hi

/-- Settles O54: the outcome of every command marks no such reason. -/
theorem internalFaultsUnreachable : Obligations.InternalFaultsUnreachable := by
  intro i s t r howner hgate hstep hi ht
  have hmark := exec_noInternalMark howner hgate hstep hi
  rw [ht] at hmark
  exact hmark r

end Sys2Proof.Machine
end

section
/-! Who owns what after a bus reset (R345), and what answers before INIT (R340, R341). -/

namespace Sys2Proof.Machine

/-! ### Where a packet is (R44) -/

/-- A slot that holds a packet is a data endpoint's, so the packet is in transit. -/
theorem State.Ownership.inTransit_of_slot {s : State} {ep : Ep} {d : Dir} {b : Bank} {h : Nat} (hs : s.Ownership)
    (haddr : (s.slot ep d b).addr = .pool h) : s.inTransit h = true := by
  have hep : isDataEp s.cfg ep = true := by
    by_contra hno
    obtain ⟨-, -, hslots⟩ := hs.elsewhere ep (Bool.eq_false_iff.mpr hno)
    cases (congrArg BufRef.isPool haddr).symm.trans (hslots d b)
  exact (s.inTransit_iff h).mpr (.inl ⟨ep, (mem_dataEps _ _).mpr hep, d, b, haddr⟩)

/-- A FIFO that holds a packet is a data endpoint's, so the packet is in transit. -/
theorem State.Ownership.inTransit_of_queue {s : State} {ep : Ep} {h : Nat} (hs : s.Ownership)
    (hq : h ∈ epGet s.rxq ep ∨ h ∈ epGet s.txq ep) : s.inTransit h = true := by
  have hep : isDataEp s.cfg ep = true := by
    by_contra hno
    obtain ⟨htxq, hrxq, -⟩ := hs.elsewhere ep (Bool.eq_false_iff.mpr hno)
    simp [htxq, hrxq] at hq
  exact (s.inTransit_iff h).mpr (.inr ⟨ep, (mem_dataEps _ _).mpr hep, hq⟩)

/-- A packet that is not in transit is free and the pool's, or the caller's. -/
theorem State.Ownership.pool_or_caller {s : State} {h : Nat} (hs : s.Ownership) (hlt : h < s.cfg.nPackets)
    (hout : ¬s.inTransit h = true) :
    (s.ownerOf h = .pool ∧ s.isFree h = true) ∨ (s.ownerOf h = .caller ∧ s.isFree h = false) := by
  cases howner : s.ownerOf h with
  | pool => exact .inl ⟨rfl, (hs.poolIffFree h hlt).mpr howner⟩
  | caller => exact .inr ⟨rfl, (hs.detached hlt howner).notFree⟩
  | slot ep d b => exact absurd (hs.inTransit_of_slot ((hs.inSlot ep d b h).mpr ⟨hlt, howner⟩)) hout
  | queue ep d =>
    refine absurd (hs.inTransit_of_queue (ep := ep) ?_) hout
    cases d with
    | rx => exact .inl ((hs.rxQueued ep h).mpr ⟨hlt, howner⟩)
    | tx => exact .inr ((hs.txQueued ep h).mpr ⟨hlt, howner⟩)

/-- The owners do not depend on the power monitor and the memory. -/
theorem State.Ownership.with_pwr_mem {s : State} (hs : s.Ownership) (p : Pwr) (m : Memory) :
    ({ s with pwr := p, mem := m } : State).Ownership :=
  { hs with }

/-! ### After a bus reset (R345) -/

/-- A bus reset takes back the packets in transit, and every other packet is the pool's or the caller's already. -/
theorem BusResetDone.pool_or_caller {s t : State} {h : Nat} (hr : BusResetDone s t) (hs : s.Ownership)
    (hlt : h < s.cfg.nPackets) :
    (t.ownerOf h = .pool ∧ t.isFree h = true) ∨ (t.ownerOf h = .caller ∧ t.isFree h = false) := by
  rw [hr.owned h, hr.freed h (hs.masks ▸ hlt)]
  by_cases hin : s.inTransit h = true
  · exact .inl ⟨if_pos hin, by rw [hin, Bool.or_true]⟩
  · rw [if_neg hin, Bool.eq_false_iff.mpr hin, Bool.or_false]
    exact hs.pool_or_caller hlt hin

/-- After a bus reset the slots of endpoint 0 RX are the only ones the SIE owns among the endpoints in range. -/
theorem BusResetDone.slot_own_iff {s t : State} {ep : Ep} (hr : BusResetDone s t) (d : Dir) (b : Bank)
    (hep : isEndpoint s.cfg ep = true) : (t.slot ep d b).desc.own = true ↔ ep = 0 ∧ d = .rx := by
  by_cases hzero : ep = 0
  · subst hzero
    cases d with
    | rx => simp [hr.ep0Rx b]
    | tx => simp [hr.ep0Tx b]
  · rw [hr.slots ep d b (isDataEp_of_isEndpoint hep hzero)]
    simp [hzero]

/-- Each of the four commands that reset the bus runs `BusResetState`, POWER_TIMEOUT once it has lowered the
descriptors; beside it they write only the attachment, the reconnects, the log and the result. -/
theorem exec_busResetDone {i : Instr} {s t : State} (hi : i ∈ [Instr.init, .reinit, .hostBusReset, .powerTimeout])
    (hattached : i = .hostBusReset → s.attached = true) (harmed : i = .powerTimeout → s.pwr.armed = true)
    (ht : exec i s = .next t) (hfault : t.fault = none) :
    ∃ p m v, BusResetDone { s with pwr := p, mem := m } v ∧
      t = { v with attached := t.attached, reconnects := t.reconnects, obs := t.obs, result := t.result } := by
  obtain ⟨k, hk⟩ := exec_eq_whenAlive i s
  obtain ⟨hs, -⟩ := (whenAlive_next s t k).mp (hk ▸ ht)
  obtain ⟨v, hdone, hbus, hinit, hreinit⟩ := busResets s hs
  simp only [List.mem_cons, List.not_mem_nil, or_false] at hi
  obtain rfl | rfl | rfl | rfl := hi
  · cases hinit.symm.trans ht
    exact ⟨s.pwr, s.mem, v, hdone, rfl⟩
  · cases hreinit.symm.trans ht
    exact ⟨s.pwr, s.mem, v, hdone, rfl⟩
  · cases (hbus (hattached rfl)).symm.trans ht
    exact ⟨s.pwr, s.mem, t, hdone, rfl⟩
  · cases hlower : lowerEntries (List.range s.cfg.descTable.length) s.disarmed with
    | ok w =>
      have hnext := exec_powerTimeout_of_ok hs (harmed rfl) hlower
      have hlowered := (s.powerLowered w.mem).reinit_busResetDone
      generalize (s.powerLowered w.mem).reinit = u at hnext hlowered
      cases hnext.symm.trans ht
      exact ⟨_, w.mem, _, hlowered, rfl⟩
    | error r =>
      cases (exec_powerTimeout_of_error hs (harmed rfl) hlower).symm.trans ht
      cases hfault

/-- Settles O23: all four run `BusResetState`, and it takes back every packet that is in transit. -/
theorem ownersAfterBusReset : Obligations.OwnersAfterBusReset := by
  intro i s t hs hi hattached harmed ht hfault
  obtain ⟨p, m, v, hdone, hreset⟩ := exec_busResetDone hi hattached harmed ht hfault
  rw [hreset]
  exact ⟨fun h hlt => hdone.pool_or_caller (hs.with_pwr_mem p m) hlt, hdone.slots,
    fun ep d b => hdone.slot_own_iff d b⟩

/-! ### Before INIT (R340, R341) -/

theorem State.powerOn_alive (c : Params) : (State.powerOn c).Alive := ⟨rfl, rfl⟩

theorem State.isFree_powerOn {c : Params} {h : Nat} (hlt : h < c.nPackets) : (State.powerOn c).isFree h = true := by
  simp [State.isFree, State.powerOn, hlt]

/-- ALLOC gives the caller an empty packet. -/
theorem allocPacket_gives {s t : State} {i : Nat} (halloc : allocPacket s = some (i, t))
    (hmasks : s.free.length = s.cfg.nPackets) (howners : s.owner.length = s.cfg.nPackets)
    (hheaders : s.pkt.length = s.cfg.nPackets) :
    t.callerOwns i = true ∧ t.header i = { len := 0, index := 0, next := none } := by
  obtain ⟨hfree, hframe⟩ := allocPacket_frame _ _ _ halloc
  have hlt : i < s.cfg.nPackets := hmasks ▸ s.isFree_lt i hfree
  rw [State.callerOwns_iff, hframe]
  refine ⟨⟨hlt, ?owner⟩, ?header⟩
  case owner => exact (s.ownerOf_setOwner i i .caller (howners ▸ hlt)).trans (if_pos rfl)
  case header => exact (s.header_setHeader i i _ (hheaders ▸ hlt)).trans (if_pos rfl)

/-- TX of the packet an ALLOC gives, before any configuration. -/
theorem exec_alloc_tx_of_not_configured {s : State} {ep : Ep} {i : Nat} (hs : s.Alive)
    (hmasks : s.free.length = s.cfg.nPackets) (howners : s.owner.length = s.cfg.nPackets)
    (hheaders : s.pkt.length = s.cfg.nPackets) (hconfig : s.config = 0) (hep : txEnabled s.cfg ep = true)
    (hfree : s.isFree i = true) :
    ∃ t h, exec .alloc s = .next t ∧ t.result = some (.ok (.handle h)) ∧
      (h < 65536 → exec (.tx ep (BitVec.ofNat 16 h)) t = .next (t.returning (.err .notConfigured))) := by
  have halloc := allocPacket_of_isFree hfree
  obtain ⟨hown, hheader⟩ := allocPacket_gives halloc hmasks howners hheaders
  obtain ⟨-, hframe⟩ := allocPacket_frame _ _ _ halloc
  generalize s.drop.claim s.pick = u at halloc hown hheader hframe
  have hcfg : u.cfg = s.cfg := by rw [hframe]
  have hu : u.Alive := by rw [hframe]; exact hs
  have huconfig : u.config = 0 := by rw [hframe]; exact hconfig
  refine ⟨_, s.pick, exec_alloc_of_some hs halloc, rfl, fun h16 => ?_⟩
  obtain ⟨-, -, -, hnotConfigured⟩ :=
    txChecksInOrder (u.returning (.ok (.handle s.pick))) ep (BitVec.ofNat 16 s.pick) hu
  have hid : (BitVec.ofNat 16 s.pick).toNat = s.pick := by rw [BitVec.toNat_ofNat, Nat.mod_eq_of_lt h16]
  rw [hid] at hnotConfigured
  refine hnotConfigured (hcfg ▸ hep) hown ?_ huconfig
  change (u.header s.pick).len.toNat ≤ 64
  simp [hheader]

/-- Settles O10: power-on is unattached and unconfigured, with nothing waiting, so each command answers as in any such
state. -/
theorem beforeInit : Obligations.BeforeInit := by
  intro c ep a p d s
  have hs : s.Alive := State.powerOn_alive c
  obtain ⟨hentry, htimeout, hreset, htoken, -⟩ := notEnabledNoStep s ep a p d hs
  obtain ⟨hsetup, hout, hin⟩ := htoken (.inl rfl)
  obtain ⟨hcounts, -, hconfigured⟩ := countsAndConfigured s ep hs
  obtain ⟨-, hrx, -⟩ := rxTakesHead s ep hs
  refine ⟨hsetup, hout, hin, hreset rfl, hentry rfl, htimeout rfl, hconfigured, fun hep => hrx hep (.inl rfl),
    fun hep => ?counts, fun hep hpos => ?tx⟩
  case counts =>
    obtain ⟨htxBytes, htxPackets, hrxBytes⟩ := hcounts ((isDataEp_iff c ep).mp hep)
    have hq : epGet s.txq ep = [] := epGet_replicate [] ep
    have hb : epGet s.rxBytes ep = 0 := epGet_replicate 0 ep
    rw [hq] at htxBytes htxPackets
    rw [hb] at hrxBytes
    exact ⟨htxBytes, htxPackets, hrxBytes⟩
  case tx =>
    exact exec_alloc_tx_of_not_configured hs List.length_replicate List.length_replicate List.length_replicate rfl hep
      (State.isFree_powerOn hpos)

end Sys2Proof.Machine
end

section
/-! What one command shows outside the block: the observation log, the ppbits, the address register and the fault mark
(`Shows`, `exec_shows`). The completions of the data endpoints are taken apart here once, for this and for the
invariants. -/

namespace Sys2Proof.Machine

/-! ### The packet operations, taken apart (R135, R137, R140) -/

/-- TX arms a free bank or queues. -/
theorem submitPacket_cases {s t : State} {ep : Ep} {h : Nat} (ht : submitPacket s ep h = .ok t) :
    (∃ b st, submitTable (epGet s.txState ep) = some (b, st) ∧ (s.slot ep .tx b).desc.own = false ∧
        t = s.submitted ep b h st) ∨
      (submitTable (epGet s.txState ep) = none ∧ t = (s.enqueueTx ep h).setOwner h (.queue ep .tx)) := by
  unfold submitPacket at ht
  split at ht
  · next b st htable =>
    split at ht <;> cases ht
    next u hu =>
      obtain ⟨hown, rfl⟩ := (arm_ok _ _ _ _ _ _ _ _).mp hu
      exact .inl ⟨b, st, htable, hown, rfl⟩
  · next htable =>
    cases ht
    exact .inr ⟨htable, rfl⟩

/-- The bank whose packet has been sent is released and its packet with it. -/
abbrev State.txReleased (s : State) (ep : Ep) (c : Bank) (h : Nat) : State :=
  (s.setSlot ep .tx c Slot.cleared).release h

/-- The head of the TX FIFO has been armed in a bank (R137, action REFILL). -/
def State.txRefilled (s : State) (ep : Ep) (c : Bank) (q : Nat) (rest : List Nat) : State :=
  { s.setSlot ep .tx c { desc := armedDesc ((s.header q).len.setWidth 10) (bankToggle c), addr := .pool q } with
    txq := epPut s.txq ep rest
    pkt := s.pkt.set q { s.header q with next := none }
    owner := s.owner.set q (.slot ep .tx c) }

/-- R138 refills exactly when a packet waits. -/
theorem completionTable_refills {st st' : TxState} {c : Bank} {empty refill : Bool}
    (h : completionTable st c empty = .ok (refill, st')) : refill = !empty := by
  unfold completionTable at h
  split at h <;> cases h <;> rfl

/-- A TX completion releases the bank and its packet, and then refills the bank or leaves it free. -/
theorem txDone_cases {s t : State} {ep : Ep} {c : Bank} (ht : txDone s ep c = .ok t) :
    ∃ h st, (s.slot ep .tx c).addr = .pool h ∧ (s.slot ep .tx c).desc.own = false ∧
      ((epGet s.txq ep = [] ∧ completionTable (epGet s.txState ep) c true = .ok (false, st) ∧
          t = (s.txReleased ep c h).setTxState ep st) ∨
        ∃ q rest, epGet s.txq ep = q :: rest ∧ completionTable (epGet s.txState ep) c false = .ok (true, st) ∧
          t = ((s.txReleased ep c h).txRefilled ep c q rest).setTxState ep st) := by
  unfold txDone at ht
  split at ht
  · cases ht
  next refill st htable =>
  split at ht
  · cases ht
  · cases ht
  next h haddr =>
  split at ht
  · cases ht
  next u hu =>
  obtain ⟨hown, rfl⟩ := (releaseSlot_ok _ _ _ _ _).mp hu
  refine ⟨h, st, haddr, hown, ?_⟩
  have htxq : epGet (s.txReleased ep c h).txq ep = epGet s.txq ep := by
    rw [State.txReleased, State.release_frame]
    rfl
  have hslot : ((s.txReleased ep c h).slot ep .tx c).desc.own = false := by
    rw [State.txReleased, State.slot_release_tx, State.slot_setSlot_same]
    rfl
  obtain rfl := completionTable_refills htable
  cases hq : epGet s.txq ep with
  | nil =>
    rw [hq] at htable ht
    cases ht
    exact .inl ⟨rfl, htable, rfl⟩
  | cons q rest =>
    rw [hq] at htable ht htxq
    rw [List.isEmpty_cons, Bool.not_false, if_pos rfl, refillTx_of_released htxq hslot] at ht
    cases ht
    exact .inr ⟨q, rest, rfl, htable, rfl⟩

/-- A slot that has received a packet gets a fresh one, or is left released and counted (R140, R141). -/
theorem refillRx_cases {s t : State} {ep : Ep} {b : Bank} (ht : refillRx s ep b = .ok t) :
    (s.slot ep .rx b).desc.own = false ∧
      ((∃ p u, allocPacket s = some (p, u) ∧
          t = (u.setSlot ep .rx b { desc := armedDesc 64 (bankToggle b), addr := .pool p }).setOwner p
            (.slot ep .rx b)) ∨
        (allocPacket s = none ∧ t = { s.setSlot ep .rx b Slot.cleared with rxNeeded := s.rxNeeded + 1 })) := by
  unfold refillRx at ht
  split at ht
  · next p u hu =>
    split at ht <;> cases ht
    next v hv =>
      obtain ⟨hown, rfl⟩ := (arm_ok _ _ _ _ _ _ _ _).mp hv
      rw [State.slot_congr u s (by rw [(allocPacket_frame _ _ _ hu).2])] at hown
      exact ⟨hown, .inl ⟨p, u, hu, rfl⟩⟩
  · next hnone =>
    split at ht <;> cases ht
    next u hu =>
      obtain ⟨hown, rfl⟩ := (releaseSlot_ok _ _ _ _ _).mp hu
      exact ⟨hown, .inr ⟨hnone, rfl⟩⟩

/-- An RX completion rearms the slot with the packet it has, or queues that packet and refills the slot. -/
theorem rxDone_cases {s t : State} {ep : Ep} {b : Bank} {n : BitVec 10} (ht : rxDone s ep b n = .ok t) :
    ∃ h, (s.slot ep .rx b).addr = .pool h ∧ (s.slot ep .rx b).desc.own = false ∧
      (t = s.setSlot ep .rx b { desc := armedDesc 64 (bankToggle b), addr := .pool h } ∨
        refillRx (acceptRx s ep h n) ep b = .ok t) := by
  unfold rxDone at ht
  split at ht
  · cases ht
  · cases ht
  next h haddr =>
  refine ⟨h, haddr, ?_⟩
  split at ht
  · obtain ⟨hown, -⟩ := refillRx_cases ht
    rw [acceptRx_slot] at hown
    exact ⟨hown, .inr ht⟩
  · obtain ⟨hown, rfl⟩ := (arm_ok _ _ _ _ _ _ _ _).mp ht
    exact ⟨hown, .inl rfl⟩

end Sys2Proof.Machine
end

section
/-! What one command shows outside the block: the observation log, the ppbits, the address register and the fault mark
(`Shows`, `exec_shows`), and the four statements about them. -/

namespace Sys2Proof.Machine

/-! ### What is seen outside the block -/

/-- The log, the ppbits, the address register and the fault mark (R46, R40, R37, R47). -/
def State.shown (s : State) : List HostObs × PerEp (Dirs Bank) × BitVec 7 × Option FaultReason :=
  (s.obs, s.pp, s.addr, s.fault)

/-- Which command shows the host an entry of the log (R46). -/
inductive ShownBy : Instr → HostObs → Prop
  | inData (ep : Ep) (a : BitVec 7) (tg : Toggle) (bs : List Byte) : ShownBy (.hostIn ep a) (.inData ep tg bs)
  | outAck (ep : Ep) (a : BitVec 7) (data : List Byte) : ShownBy (.hostOut ep a data) (.outAck ep data.length)
  | setupAck (a : BitVec 7) (p : SetupPacket) : ShownBy (.hostSetup a p) .setupAck
  | stallIn (ep : Ep) (a : BitVec 7) : ShownBy (.hostIn ep a) (.stall ep .inToken)
  | stallOut (ep : Ep) (a : BitVec 7) (data : List Byte) : ShownBy (.hostOut ep a data) (.stall ep .outToken)

/-- The ways a command can change what is seen outside the block. -/
inductive Shows (i : Instr) (s : State) : State → Prop
  | marked (r : FaultReason) : Shows i s (s.raise r)
  | quiet {t : State} (shown : t.shown = s.shown) : Shows i s t
  | addressed {t : State} {a : BitVec 7} {rest : List StatEntry} (hi : i = .tokenDone) (hctl : s.ctl = .statusIn)
      (hpending : s.setAddrPending = some a) (hstat : s.stat = ⟨0, .tx, s.ep0.bank⟩ :: rest)
      (shown : t.shown = (s.obs, s.pp, a, s.fault)) : Shows i s t
  | transaction {t : State} {o : HostObs} (hi : ShownBy i o) (obs : t.obs = s.obs ++ [o]) (addr : t.addr = s.addr)
      (fault : t.fault = s.fault) : Shows i s t
  | reset {t : State} (hi : i = .init ∨ i = .reinit ∨ i = .hostBusReset ∨ i = .powerTimeout)
      (obs : t.obs = s.obs ∨ t.obs = s.obs ++ [.reconnect] ∧ (i = .reinit ∨ i = .powerTimeout))
      (pp : ∀ ep d, isEndpoint s.cfg ep = true → t.ppBank ep d = .even) (addr : t.addr = 0)
      (fault : t.fault = s.fault) : Shows i s t

theorem commit_shows {i : Instr} {s t : State} {body : Except FaultReason State}
    (hbody : ∀ u, body = .ok u → Shows i s u) (ht : commit s body = .next t) : Shows i s t :=
  commit_induction (P := Shows i s) .marked hbody ht

/-! ### What the block's operations leave unseen -/

theorem arm_shown {s t : State} {ep : Ep} {d : Dir} {b : Bank} {ref : BufRef} {n : BitVec 10} {tg : Toggle}
    (h : arm s ep d b ref n tg = .ok t) : t.shown = s.shown := by
  obtain ⟨-, rfl⟩ := (arm_ok _ _ _ _ _ _ _ _).mp h
  rfl

theorem State.release_shown (s : State) (h : Nat) : (s.release h).shown = s.shown := by
  rw [State.release_frame]
  rfl

theorem allocPacket_shown {s t : State} {p : Nat} (h : allocPacket s = some (p, t)) : t.shown = s.shown := by
  rw [(allocPacket_frame _ _ _ h).2]
  rfl

theorem submitPacket_shown {s t : State} {ep : Ep} {h : Nat} (ht : submitPacket s ep h = .ok t) :
    t.shown = s.shown := by
  obtain ⟨b, st, -, -, rfl⟩ | ⟨-, rfl⟩ := submitPacket_cases ht
  · rfl
  · rw [State.enqueueTx_eq]
    rfl

theorem txDone_shown {s t : State} {ep : Ep} {c : Bank} (ht : txDone s ep c = .ok t) : t.shown = s.shown := by
  obtain ⟨h, st, -, -, ⟨-, -, rfl⟩ | ⟨q, rest, -, -, rfl⟩⟩ := txDone_cases ht
  all_goals exact (s.setSlot ep .tx c Slot.cleared).release_shown h

theorem rxDone_shown {s t : State} {ep : Ep} {b : Bank} {n : BitVec 10} (ht : rxDone s ep b n = .ok t) :
    t.shown = s.shown := by
  obtain ⟨h, -, -, rfl | hrefill⟩ := rxDone_cases ht
  · rfl
  · have haccept : (acceptRx s ep h n).shown = s.shown := by
      rw [acceptRx_eq]
      rfl
    obtain ⟨-, ⟨p, u, hu, rfl⟩ | ⟨-, rfl⟩⟩ := refillRx_cases hrefill
    · exact (allocPacket_shown hu).trans haccept
    · exact haccept

/-- A SETUP stage, SET_CONFIGURATION's included, shows nothing (R183). -/
theorem setupStage_shown {p : SetupPacket} {i : Instr} {s t : State}
    (ht : setupStage p (requestHandler i) s = .ok t) : t.shown = s.shown := by
  obtain ⟨u, r, v, hu, hv, rfl⟩ := setupStage_ok ht
  rw [applyResult_frame hv]
  rcases requestHandler_frame hu with ⟨b, w, l, -, hreconf⟩ | hframe
  · rw [reconfigure_frame _ _ _ hreconf]
    rfl
  · rw [hframe]
    rfl

theorem ep0Setup_shown {s t : State} {b : Bank} (ht : ep0Setup s b = .ok t) : t.shown = s.shown := by
  obtain ⟨p, hp⟩ := ep0Setup_ok ht
  rw [dispatchRequest_eq] at hp
  exact (setupStage_shown hp :)

/-- An IN completion writes the address register only as the status IN of a SET_ADDRESS completes (R188, R193). -/
theorem ep0InDone_shown {s t : State} {c : Bank} (ht : ep0InDone s c = .ok t) :
    t.shown = s.shown ∨
      c = s.ep0.bank ∧ s.ctl = .statusIn ∧
        ∃ a, s.setAddrPending = some a ∧ t.shown = (s.obs, s.pp, a, s.fault) := by
  unfold ep0InDone at ht
  split at ht
  · cases ht
  next hbank =>
  split at ht
  · cases ht
  next u hu =>
  obtain ⟨-, rfl⟩ := (releaseSlot_ok _ _ _ _ _).mp hu
  simp only at ht
  split at ht
  · split at ht
    · rw [armNextIn_frame ht]
      exact .inl rfl
    · cases ht
      exact .inl rfl
  · next hctl =>
    split at ht <;> cases ht
    · next a ha => exact .inr ⟨not_not.mp hbank, hctl, a, ha, rfl⟩
    · exact .inl rfl
  all_goals
    cases ht
    exact .inl rfl

/-! ### TOKEN_DONE (R136) -/

theorem handleEntry_shows {s t : State} {e : StatEntry} {rest : List StatEntry} (hstat : s.stat = e :: rest)
    (ht : handleEntry { s with stat := rest } e = .ok t) : Shows .tokenDone s t := by
  obtain ⟨ep, d, b⟩ := e
  rcases handleEntry_ok ht with ⟨p, hep, -, ht⟩ | ht | ht
  · obtain rfl : ep = 0 := hep
    obtain ⟨-, -, ht⟩ | ⟨hd, -, ht⟩ | ⟨-, -, ht⟩ := ep0Token_cases ht
    · exact .quiet (ep0Setup_shown ht :)
    · obtain rfl : d = .tx := hd
      obtain hquiet | ⟨hbank, hctl, a, hpending, hshown⟩ := ep0InDone_shown ht
      · exact .quiet hquiet
      · obtain rfl : b = s.ep0.bank := hbank
        exact .addressed rfl hctl hpending hstat hshown
    · rw [ep0OutDone_frame ht]
      exact .quiet rfl
  · exact .quiet (txDone_shown ht :)
  · exact .quiet (rxDone_shown ht :)

theorem execTokenDone_shows {s t : State} (ht : execTokenDone s = .next t) : Shows .tokenDone s t := by
  obtain ⟨-, ht⟩ := (whenAlive_next _ _ _).mp ht
  split at ht
  · cases ht
    exact .quiet rfl
  · next hstat => exact commit_shows (fun u hu => handleEntry_shows hstat hu) ht

/-! ### The foreground commands and the requests -/

theorem execAlloc_shows {s t : State} (ht : execAlloc s = .next t) : Shows .alloc s t := by
  obtain ⟨-, ht⟩ := (whenAlive_next _ _ _).mp ht
  split at ht <;> cases ht
  · next hu => exact .quiet (allocPacket_shown hu :)
  · exact .quiet rfl

theorem execFree_shows {h : Half} {s t : State} (ht : execFree h s = .next t) : Shows (.free h) s t := by
  obtain ⟨-, ht⟩ := (whenAlive_next _ _ _).mp ht
  split at ht <;> cases ht
  · exact .quiet (s.release_shown _ :)
  · exact .marked _

theorem execTx_shows {ep : Ep} {h : Half} {s t : State} (ht : execTx ep h s = .next t) : Shows (.tx ep h) s t := by
  obtain ⟨-, ht⟩ := (whenAlive_next _ _ _).mp ht
  split at ht
  · cases ht
    exact .quiet rfl
  iterate 2
    split at ht
    · cases ht
      exact .marked _
  split at ht
  · cases ht
    exact .quiet rfl
  refine commit_shows (fun u hu => ?_) ht
  split at hu <;> cases hu
  next v hv => exact .quiet (submitPacket_shown hv :)

theorem execRx_shows {ep : Ep} {s t : State} (ht : execRx ep s = .next t) : Shows (.rx ep) s t := by
  obtain ⟨-, ht⟩ := (whenAlive_next _ _ _).mp ht
  iterate 2
    split at ht
    · cases ht
      exact .quiet rfl
  split at ht <;> cases ht <;> exact .quiet rfl

theorem returnCount_shows {i : Instr} {ep : Ep} {n : Word} {s t : State} (ht : returnCount s ep n = .next t) :
    Shows i s t := by
  obtain ⟨-, ht⟩ := (whenAlive_next _ _ _).mp ht
  split at ht <;> cases ht <;> exact .quiet rfl

theorem execPktFill_shows {h : Half} {data : List Byte} {s t : State} (ht : execPktFill h data s = .next t) :
    Shows (.pktFill h data) s t := by
  obtain ⟨-, ht⟩ := (whenAlive_next _ _ _).mp ht
  split at ht
  · cases ht
    exact .marked _
  · refine commit_shows (fun u hu => ?_) ht
    split at hu <;> cases hu
    next v hv =>
      obtain ⟨-, rfl⟩ := (State.writeBuffer_ok _ _ _ _ _).mp hv
      exact .quiet rfl

theorem execPktRead_shows {h : Half} {s t : State} (ht : execPktRead h s = .next t) : Shows (.pktRead h) s t := by
  obtain ⟨-, ht⟩ := (whenAlive_next _ _ _).mp ht
  split at ht
  · cases ht
    exact .marked _
  · refine commit_shows (fun u hu => ?_) ht
    split at hu <;> cases hu
    exact .quiet rfl

theorem exec_request_shows {i : Instr} {s t : State} (hi : i.isCommand = false) (ht : exec i s = .next t) :
    Shows i s t := by
  obtain ⟨p, hp⟩ := exec_request i hi
  rw [hp, runRequest, whenAlive_next] at ht
  exact commit_shows (fun u hu => .quiet (setupStage_shown hu)) ht.2

/-! ### The resets (R343) -/

/-- A command that resets the bus, once its body is known to have run `BusResetState` on a state `u` with the
parameters and the mark of `s`. -/
theorem busReset_shows {i : Instr} {s t u : State} (hi : i = .init ∨ i = .reinit ∨ i = .hostBusReset ∨ i = .powerTimeout)
    (hcfg : u.cfg = s.cfg) (hfault : u.fault = s.fault)
    (ht : (t.pp, t.addr, t.fault) = (u.busReset.pp, u.busReset.addr, u.busReset.fault))
    (hobs : t.obs = s.obs ∨ t.obs = s.obs ++ [.reconnect] ∧ (i = .reinit ∨ i = .powerTimeout)) : Shows i s t := by
  obtain ⟨hpp, haddr, htfault⟩ : t.pp = u.busReset.pp ∧ t.addr = u.busReset.addr ∧ t.fault = u.busReset.fault := by
    simpa using ht
  refine .reset hi hobs (fun ep d hep => ?pp) ?addr ?fault
  case pp =>
    have heven := u.busResetDone.ppbits ep d (of_decide_eq_true (hcfg ▸ hep))
    rwa [State.ppBank, hpp]
  case addr => rw [haddr, State.busReset_frame]
  case fault => rw [htfault, State.busReset_fault, hfault]

theorem execInit_shows {s t : State} (ht : execInit s = .next t) : Shows .init s t := by
  obtain ⟨-, ht⟩ := (whenAlive_next _ _ _).mp ht
  cases ht
  refine busReset_shows (u := s) (.inl rfl) rfl rfl rfl (.inl ?_)
  rw [State.busReset_frame]
  rfl

theorem State.reinit_obs (s : State) : s.reinit.obs = s.obs ++ [.reconnect] := by
  rw [State.reinit_eq]

theorem execReinit_shows {s t : State} (ht : execReinit s = .next t) : Shows .reinit s t := by
  obtain ⟨-, ht⟩ := (whenAlive_next _ _ _).mp ht
  cases ht
  exact busReset_shows (u := s) (.inr (.inl rfl)) rfl rfl rfl (.inr ⟨s.reinit_obs, .inl rfl⟩)

theorem execHostBusReset_shows {s t : State} (ht : execHostBusReset s = .next t) : Shows .hostBusReset s t := by
  obtain ⟨-, ht⟩ := (whenAlive_next _ _ _).mp ht
  split at ht <;> cases ht
  · refine busReset_shows (u := s) (.inr (.inr (.inl rfl))) rfl rfl rfl (.inl ?_)
    rw [State.busReset_frame]
  · exact .quiet rfl

theorem execPowerTimeout_shows {s t : State} (ht : execPowerTimeout s = .next t) : Shows .powerTimeout s t := by
  obtain ⟨-, ht⟩ := (whenAlive_next _ _ _).mp ht
  split at ht
  · refine commit_shows (fun u hu => ?_) ht
    split at hu <;> cases hu
    next v hv =>
      have hframe := lowerPower_frame hv
      refine busReset_shows (u := v) (.inr (.inr (.inr rfl))) (by rw [hframe]) (by rw [hframe]) rfl
        (.inr ⟨?_, .inr rfl⟩)
      rw [State.reinit_obs, hframe]
  · cases ht
    exact .quiet rfl

/-! ### The transactions of the SIE (R292 to R295) -/

theorem execHostSetup_shows {a : BitVec 7} {p : SetupPacket} {s t : State} (ht : execHostSetup a p s = .next t) :
    Shows (.hostSetup a p) s t := by
  obtain ⟨-, ht⟩ := (whenAlive_next _ _ _).mp ht
  split at ht
  · refine commit_shows (fun u hu => ?_) ht
    split at hu <;> cases hu
    next v hv =>
      have hshown : v.shown = s.shown := by
        obtain ⟨-, -, -, -, rfl⟩ := (memWrite_ok _ _ _ _).mp hv
        rfl
      exact .transaction (.setupAck a p) (congrArg (· ++ [HostObs.setupAck]) (congrArg (·.1) hshown : v.obs = s.obs))
        (congrArg (·.2.2.1) hshown) (congrArg (·.2.2.2) hshown)
  · cases ht
    exact .quiet rfl

theorem execHostOut_shows {ep : Ep} {a : BitVec 7} {data : List Byte} {s t : State}
    (ht : execHostOut ep a data s = .next t) : Shows (.hostOut ep a data) s t := by
  obtain ⟨-, ht⟩ := (whenAlive_next _ _ _).mp ht
  split at ht
  · split at ht
    · cases ht
      exact .transaction (.stallOut ep a data) rfl rfl rfl
    split at ht
    · refine commit_shows (fun u hu => ?_) ht
      unfold receiveOut at hu
      split at hu <;> cases hu
      next v hv =>
        obtain ⟨-, -, -, -, rfl⟩ := (memWrite_ok _ _ _ _).mp hv
        exact .transaction (.outAck ep a data) rfl rfl rfl
    · cases ht
      exact .quiet rfl
  · cases ht
    exact .quiet rfl

theorem execHostIn_shows {ep : Ep} {a : BitVec 7} {s t : State} (ht : execHostIn ep a s = .next t) :
    Shows (.hostIn ep a) s t := by
  obtain ⟨-, ht⟩ := (whenAlive_next _ _ _).mp ht
  split at ht
  · split at ht
    · cases ht
      exact .transaction (.stallIn ep a) rfl rfl rfl
    split at ht
    · refine commit_shows (fun u hu => ?_) ht
      unfold sendIn at hu
      split at hu <;> cases hu
      next bs v hv =>
        obtain ⟨-, hframe, -⟩ := memRead_ok _ _ _ _ _ hv
        rw [hframe]
        exact .transaction (.inData ep a _ bs) rfl rfl rfl
    · cases ht
      exact .quiet rfl
  · cases ht
    exact .quiet rfl

/-! ### Every instruction -/

theorem exec_shows {i : Instr} {s t : State} (ht : exec i s = .next t) : Shows i s t := by
  cases i with
  | init => exact execInit_shows ht
  | alloc => exact execAlloc_shows ht
  | free => exact execFree_shows ht
  | tx => exact execTx_shows ht
  | rx => exact execRx_shows ht
  | txByteCount | txPacketCount | rxByteCount => exact returnCount_shows ht
  | configured | deviceReload =>
    obtain ⟨-, ht⟩ := (whenAlive_next _ _ _).mp ht
    cases ht
    exact .quiet rfl
  | reinit => exact execReinit_shows ht
  | pktFill => exact execPktFill_shows ht
  | pktRead => exact execPktRead_shows ht
  | tokenDone => exact execTokenDone_shows ht
  | powerTimeout => exact execPowerTimeout_shows ht
  | hostSetup => exact execHostSetup_shows ht
  | hostOut => exact execHostOut_shows ht
  | hostIn => exact execHostIn_shows ht
  | hostBusReset => exact execHostBusReset_shows ht
  | _ => exact exec_request_shows rfl ht

theorem Shows.fault_eq {i : Instr} {s t : State} (h : Shows i s t) : t.fault = s.fault ∨ ∃ r, t = s.raise r := by
  cases h with
  | marked r => exact .inr ⟨r, rfl⟩
  | quiet hshown => exact .inl (congrArg (·.2.2.2) hshown)
  | addressed _ _ _ _ hshown => exact .inl (congrArg (·.2.2.2) hshown)
  | transaction _ _ _ hfault => exact .inl hfault
  | reset _ _ _ _ hfault => exact .inl hfault

/-- Settles O57: of the ways a command can change what is seen, a transaction and a REINIT add an entry. -/
theorem observationsAppended : Obligations.ObservationsAppended := by
  intro i s t ht
  cases exec_shows ht with
  | marked => exact .inl rfl
  | quiet hshown => exact .inl (congrArg (·.1) hshown)
  | addressed _ _ _ _ hshown => exact .inl (congrArg (·.1) hshown)
  | transaction hi hobs =>
    refine .inr ⟨_, hobs, ?_⟩
    cases hi with
    | inData ep a => exact ⟨a, rfl⟩
    | outAck ep a data => exact ⟨a, data, rfl, rfl⟩
    | setupAck a p => exact ⟨a, p, rfl⟩
    | stallIn ep a => exact ⟨a, rfl⟩
    | stallOut ep a data => exact ⟨a, data, rfl⟩
  | reset _ hobs => exact hobs.imp_right fun ⟨hobs, hi⟩ => ⟨.reconnect, hobs, hi⟩

/-- Settles O58: a transaction is the SIE's, and a bus reset sets every ppbit to EVEN. -/
theorem ppbitsAreTheSies : Obligations.PpbitsAreTheSies := by
  intro i s t ht hmoved
  cases exec_shows ht with
  | marked => exact absurd rfl hmoved
  | quiet hshown => exact absurd (congrArg (·.2.1) hshown) hmoved
  | addressed _ _ _ _ hshown => exact absurd (congrArg (·.2.1) hshown) hmoved
  | transaction hi =>
    cases hi with
    | setupAck a p => exact .inl ⟨a, p, rfl⟩
    | outAck ep a data | stallOut ep a data => exact .inr (.inl ⟨ep, a, data, rfl⟩)
    | inData ep a | stallIn ep a => exact .inr (.inr (.inl ⟨ep, a, rfl⟩))
  | reset hi _ hpp => exact .inr (.inr (.inr ⟨hi, hpp⟩))

/-- Settles O55: the address is written by the status IN of a SET_ADDRESS and by a bus reset. -/
theorem addressWrittenOnly : Obligations.AddressWrittenOnly := by
  intro i s t ht hmoved
  cases exec_shows ht with
  | marked => exact absurd rfl hmoved
  | quiet hshown => exact absurd (congrArg (·.2.2.1) hshown) hmoved
  | addressed hi hctl hpending hstat hshown =>
    have haddr := congrArg (·.2.2.1) hshown
    exact .inl ⟨hi, hctl, hpending.trans (congrArg some haddr.symm), _, hstat⟩
  | transaction _ _ haddr => exact absurd haddr hmoved
  | reset hi _ _ haddr => exact .inr ⟨hi, haddr⟩

/-! ### Faults (R47, R276, R313) -/

theorem commit_total (s : State) (body : Except FaultReason State) : ∃ t, commit s body = .next t := by
  cases body <;> exact ⟨_, rfl⟩

theorem whenAlive_of_fault {s : State} {r : FaultReason} (k : Out) (h : s.fault = some r) :
    whenAlive s k = .fault (.faulted r) := by
  rw [whenAlive, h]

/-- An outcome is a next state. -/
def IsNext (o : Out) : Prop := ∃ t, o = .next t

theorem IsNext.ite {c : Prop} [Decidable c] {x y : Out} (hx : IsNext x) (hy : IsNext y) :
    IsNext (if c then x else y) := by
  split
  · exact hx
  · exact hy

/-- An agent that has a step takes one: every instruction answers a next state (R310, R313). -/
theorem exec_isNext {i : Instr} {s : State} (hs : s.Alive) : IsNext (exec i s) := by
  have hnext (t : State) : IsNext (.next t) := ⟨t, rfl⟩
  have hcommit (body : Except FaultReason State) : IsNext (commit s body) := commit_total s body
  have halive {k : Out} (hk : IsNext k) : IsNext (whenAlive s k) := (whenAlive_of_alive s k hs).symm ▸ hk
  cases i with
  | init | reinit | configured | deviceReload => exact halive (hnext _)
  | alloc => exact halive (by split <;> exact hnext _)
  | free => exact halive (.ite (hnext _) (hnext _))
  | tx => exact halive (.ite (hnext _) (.ite (hnext _) (.ite (hnext _) (.ite (hnext _) (hcommit _)))))
  | rx => exact halive (.ite (hnext _) (.ite (hnext _) (by split <;> exact hnext _)))
  | txByteCount | txPacketCount | rxByteCount => exact halive (.ite (hnext _) (hnext _))
  | pktFill | pktRead => exact halive (.ite (hnext _) (hcommit _))
  | tokenDone =>
    refine halive ?_
    split
    · exact hnext _
    · exact hcommit _
  | powerTimeout => exact halive (.ite (hcommit _) (hnext _))
  | hostSetup => exact halive (.ite (hcommit _) (hnext _))
  | hostOut | hostIn => exact halive (.ite (.ite (hnext _) (.ite (hcommit _) (hnext _))) (hnext _))
  | hostBusReset => exact halive (.ite (hnext _) (hnext _))
  | _ => exact halive (hcommit _)

/-- Settles O8: every instruction first asks whether the machine is alive, and of the ways a command can change what is
seen only the mark's writes the mark. -/
theorem faultsWriteTheMarkOnly : Obligations.FaultsWriteTheMarkOnly := by
  intro i s
  refine ⟨fun r hr => ?_, exec_of_reloaded i, fun hs => ?_⟩
  · obtain ⟨k, hk⟩ := exec_eq_whenAlive i s
    rw [hk, whenAlive_of_fault k hr]
  · obtain ⟨t, ht⟩ := exec_isNext (i := i) hs
    exact ⟨t, ht, (exec_shows ht).fault_eq.imp_left fun hfault => hfault.trans hs.1⟩

end Sys2Proof.Machine
end

section
/-! What a command changes in the pool, the BDT, the FIFOs and the counts (`State.Change`): every next state is reached
by a chain of such changes (`exec_changes`), so that an invariant over these fields is proved change by change. -/

namespace Sys2Proof.Machine

/-! ### The slots of endpoint 0 (R183, R186, R188, R191) -/

theorem armNextIn_ok {s t : State} {r : Region} {off : Nat} (ht : armNextIn s r off = .ok t) :
    (s.slot 0 .tx s.ep0.bank).desc.own = false ∧
      t = { s.setSlot 0 .tx s.ep0.bank (chunkSlot s.cfg r off s.ep0.pendingLen s.ep0.toggle) with
        ep0 := afterChunk s.cfg s.ep0 r off s.ep0.pendingLen } := by
  cases hown : (s.slot 0 .tx s.ep0.bank).desc.own with
  | true => cases (armNextIn_of_owned r off hown).symm.trans ht
  | false =>
    cases (armNextIn_of_released s r off hown).symm.trans ht
    exact ⟨rfl, rfl⟩

theorem startStatusIn_ok {s t : State} (ht : startStatusIn s = .ok t) :
    (s.slot 0 .tx s.ep0.bank).desc.own = false ∧
      t = { s.setSlot 0 .tx s.ep0.bank { desc := armedDesc 0 s.ep0.toggle, addr := .reg .reply 0 } with
        ctl := .statusIn } := by
  obtain ⟨hown, rfl⟩ := (arm_ok _ _ _ _ _ _ _ _).mp ht
  exact ⟨hown, rfl⟩

/-- A slot armed from a region, as those of endpoint 0 are (R181). -/
def Slot.ArmedRegion (x : Slot) : Prop := x.desc.own = true ∧ x.addr.isPool = false

/-- The BDT of `t` is that of `s` but for the TX slot of bank `b` of endpoint 0, which was released and is armed. -/
def State.TxArmedIn (s t : State) (b : Bank) : Prop :=
  (s.slot 0 .tx b).desc.own = false ∧ ∃ x : Slot, x.ArmedRegion ∧ t.bdt = (s.setSlot 0 .tx b x).bdt

/-- A handler's answer arms the TX slot of `ep0.bank`, unless it stalls or waits for data (R183 step 7). -/
theorem applyResult_bdt {s t : State} {r : HandlerResult} (ht : applyResult s r = .ok t) :
    t.ep0.bank = s.ep0.bank ∧ (t.bdt = s.bdt ∨ t.ctl ≠ .dataOut ∧ s.TxArmedIn t s.ep0.bank) := by
  have hstatus {u : State} (hbdt : u.bdt = s.bdt) (hep0 : u.ep0 = s.ep0) (hu : startStatusIn u = .ok t) :
      t.ep0.bank = s.ep0.bank ∧ (t.bdt = s.bdt ∨ t.ctl ≠ .dataOut ∧ s.TxArmedIn t s.ep0.bank) := by
    obtain ⟨hown, rfl⟩ := startStatusIn_ok hu
    rw [State.slot_congr u s hbdt, hep0] at hown
    refine ⟨congrArg Ep0.bank hep0,
      .inr ⟨Ctl.noConfusion, hown, { desc := armedDesc 0 s.ep0.toggle, addr := .reg .reply 0 }, ⟨rfl, rfl⟩, ?_⟩⟩
    simp only [State.setSlot_bdt, hbdt, hep0]
  cases r with
  | stall =>
    cases ht
    exact ⟨rfl, .inl rfl⟩
  | dataIn r off len =>
    obtain ⟨hown, rfl⟩ := armNextIn_ok ht
    exact ⟨rfl, .inr ⟨Ctl.noConfusion, hown, _, ⟨rfl, rfl⟩, rfl⟩⟩
  | dataOut sink =>
    rw [applyResult, startOut] at ht
    split at ht
    · exact hstatus (u := s.call (.sinkComplete sink 0)) rfl rfl ht
    · cases ht
      exact ⟨rfl, .inl rfl⟩
  | noData => exact hstatus rfl rfl ht

/-- An IN completion releases the bank, moves to the other one, and in DATA_IN may arm that (R188). -/
theorem ep0InDone_bdt {s t : State} {c : Bank} (ht : ep0InDone s c = .ok t) :
    c = s.ep0.bank ∧ (s.slot 0 .tx c).desc.own = false ∧ t.ep0.bank = c.other ∧
      ((t.bdt = s.inCompleted.bdt ∧ (t.ctl = .dataOut → s.ctl = .dataOut)) ∨
        t.ctl ≠ .dataOut ∧ s.inCompleted.TxArmedIn t c.other) := by
  unfold ep0InDone at ht
  split at ht
  · cases ht
  next hbank =>
  split at ht
  · cases ht
  next u hu =>
  obtain ⟨hown, rfl⟩ := (releaseSlot_ok _ _ _ _ _).mp hu
  obtain rfl := not_not.mp hbank
  simp only at ht
  split at ht
  · next hctl =>
    split at ht
    · obtain ⟨hnext, rfl⟩ := armNextIn_ok ht
      refine ⟨rfl, hown, rfl, .inr ⟨fun h => ?_, hnext, _, ⟨rfl, rfl⟩, rfl⟩⟩
      cases hctl.symm.trans h
    · cases ht
      exact ⟨rfl, hown, rfl, .inl ⟨rfl, fun h => Ctl.noConfusion h⟩⟩
  · split at ht <;> cases ht <;> exact ⟨rfl, hown, rfl, .inl ⟨rfl, fun h => Ctl.noConfusion h⟩⟩
  all_goals
    cases ht
    exact ⟨rfl, hown, rfl, .inl ⟨rfl, id⟩⟩

theorem dataOutPacket_bdt {s t : State} {data : List Byte} (ht : dataOutPacket s data = .ok t) :
    t.bdt = s.bdt ∨ t.ctl ≠ .dataOut ∧ s.TxArmedIn t s.ep0.bank := by
  unfold dataOutPacket at ht
  simp only at ht
  rw [callSink_frame s] at ht
  split at ht
  · rw [callSink_frame] at ht
    obtain ⟨hown, rfl⟩ := startStatusIn_ok ht
    exact .inr ⟨Ctl.noConfusion, hown, _, ⟨rfl, rfl⟩, rfl⟩
  · cases ht
    exact .inl rfl

/-- An OUT completion gives the receive buffer back, and in DATA_OUT may arm the status packet (R191). -/
theorem ep0OutDone_bdt {s t : State} {b : Bank} {n : BitVec 10} (ht : ep0OutDone s b n = .ok t) :
    (s.slot 0 .rx b).desc.own = false ∧ t.ep0.bank = s.ep0.bank ∧
      ((t.bdt = (s.outRearmed b).bdt ∧ (t.ctl = .dataOut → s.ctl = .dataOut)) ∨
        s.ctl = .dataOut ∧ t.ctl ≠ .dataOut ∧ (s.outRearmed b).TxArmedIn t s.ep0.bank) := by
  unfold ep0OutDone at ht
  split at ht
  · cases ht
  split at ht
  · cases ht
  next u hu =>
  obtain ⟨hown, rfl⟩ := (arm_ok _ _ _ _ _ _ _ _).mp hu
  refine ⟨hown, ?_⟩
  split at ht
  · next hctl =>
    refine ⟨by rw [dataOutPacket_frame ht]; rfl, ?_⟩
    exact (dataOutPacket_bdt ht).imp (fun hbdt => ⟨hbdt, fun _ => hctl⟩) fun harmed => ⟨hctl, harmed⟩
  all_goals
    cases ht
    exact ⟨rfl, .inl ⟨rfl, fun h => by simp_all⟩⟩

/-! ### TOKEN_DONE taken apart (R136) -/

/-- The entry is legal, its slot the block's, and it goes to endpoint 0 or to the completion of its direction. -/
theorem handleEntry_cases {s t : State} {ep : Ep} {d : Dir} {b : Bank} (ht : handleEntry s ⟨ep, d, b⟩ = .ok t) :
    (s.slot ep d b).desc.own = false ∧ ∃ p, (s.slot ep d b).desc.low = pidCode p ∧ legalToken s.cfg ep d p = true ∧
      ((ep = 0 ∧ ep0Token s d b p (s.slot ep d b).desc.bc = .ok t) ∨
        (isDataEp s.cfg ep = true ∧ ((d = .tx ∧ txDone s ep b = .ok t) ∨
          (d = .rx ∧ rxDone s ep b (s.slot ep d b).desc.bc = .ok t)))) := by
  unfold handleEntry at ht
  simp only at ht
  split at ht
  · cases ht
  next hown =>
  split at ht
  · cases ht
  next p hp =>
  split at ht
  · cases ht
  next hlegal =>
  have hlegal : legalToken s.cfg ep d p = true := by simpa using hlegal
  refine ⟨by simpa using hown, p, (pidOf_eq_some_iff _ _).mp hp, hlegal, ?_⟩
  split at ht
  · next hep => exact .inl ⟨hep, ht⟩
  next hep =>
  have hdata : isDataEp s.cfg ep = true := by
    cases d <;> cases p <;> simp_all [legalToken]
  cases d with
  | rx => exact .inr ⟨hdata, .inr ⟨rfl, ht⟩⟩
  | tx => exact .inr ⟨hdata, .inl ⟨rfl, ht⟩⟩

/-! ### The fields in question -/

/-- `t` has the parameters, the pool, the BDT, the bank states, the FIFOs, the counts and the configuration of `s`. -/
def State.SameStore (s t : State) : Prop :=
  t = { t with
    cfg := s.cfg
    pkt := s.pkt
    free := s.free
    owner := s.owner
    bdt := s.bdt
    txState := s.txState
    txq := s.txq
    rxq := s.rxq
    rxBytes := s.rxBytes
    rxNeeded := s.rxNeeded
    config := s.config }

/-- One change of those fields. -/
inductive State.Change (s : State) : State → Prop
  | same {t : State} (h : s.SameStore t) : s.Change t
  | taken {t : State} {p : Nat} (h : allocPacket s = some (p, t)) : s.Change t
  | released {h : Nat} (hown : s.callerOwns h = true) : s.Change (s.release h)
  | filled {h : Nat} (hown : s.callerOwns h = true) (len : Half) :
      s.Change (s.setHeader h { s.header h with len := len })
  | submitted {t : State} {ep : Ep} {h : Nat} (hep : isDataEp s.cfg ep = true) (hown : s.callerOwns h = true)
      (ht : submitPacket s ep h = .ok t) : s.Change t
  | rxTaken {ep : Ep} {h : Nat} {rest : List Nat} (hq : epGet s.rxq ep = h :: rest) : s.Change (takeRx s ep h rest)
  | txDone {t : State} {ep : Ep} {c : Bank} (hep : isDataEp s.cfg ep = true) (ht : txDone s ep c = .ok t) : s.Change t
  | rxDone {t : State} {ep : Ep} {b : Bank} {n : BitVec 10} (hep : isDataEp s.cfg ep = true)
      (ht : rxDone s ep b n = .ok t) : s.Change t
  | busReset : s.Change s.busReset
  | reconfigured {t : State} {v : Byte} (ht : reconfigure s v = .ok t) : s.Change t
  | ep0Slot (d : Dir) (b : Bank) {x : Slot} (hpool : x.addr.isPool = false)
      (hreleased : x.desc = releasedDesc → x.addr = .null) : s.Change (s.setSlot 0 d b x)
  | completed {ep : Ep} {d : Dir} {b : Bank} {x : Desc} (hown : (s.slot ep d b).desc.own = true) (hx : x.own = false)
      (hlow : x.low ≠ 0) : s.Change (s.setSlot ep d b { s.slot ep d b with desc := x })

/-- A chain of changes. -/
abbrev State.Changes : State → State → Prop := Relation.ReflTransGen State.Change

/-- An invariant that every change keeps, a chain keeps. -/
theorem State.Changes.induct {P : State → Prop} (hchange : ∀ {s t : State}, P s → s.Change t → P t) {s t : State}
    (h : s.Changes t) (hs : P s) : P t := by
  induction h with
  | refl => exact hs
  | tail _ hlast ih => exact hchange ih hlast

theorem State.SameStore.changes {s t : State} (h : s.SameStore t) : s.Changes t := .single (.same h)

theorem State.Changes.then_same {s t u : State} (h : s.Changes t) (hu : t.SameStore u) : s.Changes u :=
  h.tail (.same hu)

theorem commit_changes {s t : State} {body : Except FaultReason State} (hbody : ∀ u, body = .ok u → s.Changes u)
    (ht : commit s body = .next t) : s.Changes t :=
  commit_induction (P := s.Changes) (fun _ => State.SameStore.changes rfl) hbody ht

/-! ### Endpoint 0 -/

theorem ep0Armed_changes {s : State} (d : Dir) (b : Bank) {x : Slot} (hx : x.ArmedRegion) :
    s.Changes (s.setSlot 0 d b x) := by
  obtain ⟨hown, hpool⟩ := hx
  refine .single (.ep0Slot d b hpool fun h => ?_)
  rw [h] at hown
  cases hown

theorem State.TxArmedIn.changes {s t : State} {b : Bank} (h : s.TxArmedIn t b) (ht : t = { s with
    bdt := t.bdt
    ctl := t.ctl
    endpt := t.endpt
    ep0 := t.ep0
    ep0out := t.ep0out
    addr := t.addr
    setAddrPending := t.setAddrPending
    calls := t.calls }) : s.Changes t := by
  obtain ⟨-, x, hx, hbdt⟩ := h
  refine State.Changes.then_same (ep0Armed_changes .tx b hx) ?_
  rw [ht, hbdt]
  rfl

theorem applyResult_changes {s t : State} {r : HandlerResult} (ht : applyResult s r = .ok t) : s.Changes t := by
  have hframe := applyResult_frame ht
  obtain ⟨-, hbdt | ⟨-, harmed⟩⟩ := applyResult_bdt ht
  · refine State.SameStore.changes ?_
    rw [hframe, hbdt]
    rfl
  · exact harmed.changes (by rw [hframe])

/-- Taking back both TX slots and recording the packet (R183). -/
theorem State.beginSetup_changes (s : State) (p : SetupPacket) : s.Changes (s.beginSetup p) := by
  have hfirst : s.Changes (s.setSlot 0 .tx .even Slot.cleared) := .single (.ep0Slot .tx .even rfl fun _ => rfl)
  exact State.Changes.then_same (hfirst.tail (.ep0Slot .tx .odd (x := Slot.cleared) rfl fun _ => rfl)) rfl

theorem requestHandler_changes {i : Instr} {s t : State} {r : HandlerResult} (ht : requestHandler i s = .ok (t, r)) :
    s.Changes t := by
  rcases requestHandler_frame ht with ⟨_, _, _, -, hreconf⟩ | hframe
  · exact .single (.reconfigured hreconf)
  · rw [hframe]
    exact State.SameStore.changes rfl

theorem setupStage_changes {p : SetupPacket} {i : Instr} {s t : State}
    (ht : setupStage p (requestHandler i) s = .ok t) : s.Changes t := by
  obtain ⟨u, r, v, hu, hv, rfl⟩ := setupStage_ok ht
  exact State.Changes.then_same
    (((s.beginSetup_changes p).trans (requestHandler_changes hu)).trans (applyResult_changes hv)) rfl

theorem ep0Setup_changes {s t : State} {b : Bank} (ht : ep0Setup s b = .ok t) : s.Changes t := by
  obtain ⟨p, hp⟩ := ep0Setup_ok ht
  rw [dispatchRequest_eq] at hp
  exact (ep0Armed_changes .rx b ⟨rfl, rfl⟩).trans (setupStage_changes hp)

theorem ep0InDone_changes {s t : State} {c : Bank} (ht : ep0InDone s c = .ok t) : s.Changes t := by
  have hframe := ep0InDone_frame ht
  have hreleased : s.Changes s.inCompleted :=
    .trans (.single (.ep0Slot .tx s.ep0.bank (x := Slot.cleared) rfl fun _ => rfl)) (State.SameStore.changes rfl)
  obtain ⟨-, -, -, ⟨hbdt, -⟩ | ⟨-, harmed⟩⟩ := ep0InDone_bdt ht
  · refine State.Changes.then_same hreleased ?_
    rw [hframe, hbdt]
    rfl
  · refine hreleased.trans (harmed.changes ?_)
    rw [hframe]
    rfl

theorem ep0OutDone_changes {s t : State} {b : Bank} {n : BitVec 10} (ht : ep0OutDone s b n = .ok t) : s.Changes t := by
  have hframe := ep0OutDone_frame ht
  have hrearmed : s.Changes (s.outRearmed b) := ep0Armed_changes .rx b ⟨rfl, rfl⟩
  obtain ⟨-, -, ⟨hbdt, -⟩ | ⟨-, -, harmed⟩⟩ := ep0OutDone_bdt ht
  · refine State.Changes.then_same hrearmed ?_
    rw [hframe, hbdt]
    rfl
  · refine hrearmed.trans (harmed.changes ?_)
    rw [hframe]
    rfl

/-! ### The commands -/

theorem handleEntry_changes {s t : State} {e : StatEntry} (ht : handleEntry s e = .ok t) : s.Changes t := by
  obtain ⟨-, p, -, -, ⟨-, ht⟩ | ⟨hep, ⟨-, ht⟩ | ⟨-, ht⟩⟩⟩ := handleEntry_cases ht
  · obtain ⟨-, -, ht⟩ | ⟨-, -, ht⟩ | ⟨-, -, ht⟩ := ep0Token_cases ht
    · exact ep0Setup_changes ht
    · exact ep0InDone_changes ht
    · exact ep0OutDone_changes ht
  · exact .single (.txDone hep ht)
  · exact .single (.rxDone hep ht)

theorem execTokenDone_changes {s t : State} (ht : execTokenDone s = .next t) : s.Changes t := by
  obtain ⟨-, ht⟩ := (whenAlive_next _ _ _).mp ht
  split at ht
  · cases ht
    exact .refl
  · next e rest hstat =>
    refine commit_changes (fun u hu => ?_) ht
    have hpopped : s.Changes { s with stat := rest } := State.SameStore.changes rfl
    exact hpopped.trans (handleEntry_changes hu)

theorem execAlloc_changes {s t : State} (ht : execAlloc s = .next t) : s.Changes t := by
  obtain ⟨-, ht⟩ := (whenAlive_next _ _ _).mp ht
  split at ht <;> cases ht
  · next hu => exact State.Changes.then_same (.single (.taken hu)) rfl
  · exact State.SameStore.changes rfl

theorem execFree_changes {h : Half} {s t : State} (ht : execFree h s = .next t) : s.Changes t := by
  obtain ⟨-, ht⟩ := (whenAlive_next _ _ _).mp ht
  split at ht <;> cases ht
  · next hown => exact State.Changes.then_same (.single (.released hown)) rfl
  · exact State.SameStore.changes rfl

theorem execTx_changes {ep : Ep} {h : Half} {s t : State} (ht : execTx ep h s = .next t) : s.Changes t := by
  obtain ⟨-, ht⟩ := (whenAlive_next _ _ _).mp ht
  split at ht
  · cases ht
    exact State.SameStore.changes rfl
  next hen =>
  split at ht
  · cases ht
    exact State.SameStore.changes rfl
  next hown =>
  iterate 2
    split at ht
    · cases ht
      exact State.SameStore.changes rfl
  refine commit_changes (fun u hu => ?_) ht
  split at hu <;> cases hu
  next v hv =>
    obtain ⟨hep, -⟩ := Bool.and_eq_true_iff.mp (show txEnabled s.cfg ep = true by simpa using hen)
    exact State.Changes.then_same (.single (.submitted hep (by simpa using hown) hv)) rfl

theorem execRx_changes {ep : Ep} {s t : State} (ht : execRx ep s = .next t) : s.Changes t := by
  obtain ⟨-, ht⟩ := (whenAlive_next _ _ _).mp ht
  iterate 2
    split at ht
    · cases ht
      exact State.SameStore.changes rfl
  split at ht <;> cases ht
  · exact State.SameStore.changes rfl
  · next hq => exact State.Changes.then_same (.single (.rxTaken hq)) rfl

theorem returnCount_changes {ep : Ep} {n : Word} {s t : State} (ht : returnCount s ep n = .next t) : s.Changes t := by
  obtain ⟨-, ht⟩ := (whenAlive_next _ _ _).mp ht
  split at ht <;> cases ht <;> exact State.SameStore.changes rfl

theorem execPktFill_changes {h : Half} {data : List Byte} {s t : State} (ht : execPktFill h data s = .next t) :
    s.Changes t := by
  obtain ⟨-, ht⟩ := (whenAlive_next _ _ _).mp ht
  split at ht
  · cases ht
    exact State.SameStore.changes rfl
  · next hown =>
    refine commit_changes (fun u hu => ?_) ht
    split at hu <;> cases hu
    next v hv =>
      obtain ⟨-, rfl⟩ := (State.writeBuffer_ok _ _ _ _ _).mp hv
      exact State.Changes.then_same (.single (.filled (by simpa using hown) (BitVec.ofNat 16 data.length))) rfl

theorem execPktRead_changes {h : Half} {s t : State} (ht : execPktRead h s = .next t) : s.Changes t := by
  obtain ⟨-, ht⟩ := (whenAlive_next _ _ _).mp ht
  split at ht
  · cases ht
    exact State.SameStore.changes rfl
  · refine commit_changes (fun u hu => ?_) ht
    split at hu <;> cases hu
    exact State.SameStore.changes rfl

theorem exec_request_changes {i : Instr} {s t : State} (hi : i.isCommand = false) (ht : exec i s = .next t) :
    s.Changes t := by
  obtain ⟨p, hp⟩ := exec_request i hi
  rw [hp, runRequest, whenAlive_next] at ht
  exact commit_changes (fun u hu => setupStage_changes hu) ht.2

theorem execHostBusReset_changes {s t : State} (ht : execHostBusReset s = .next t) : s.Changes t := by
  obtain ⟨-, ht⟩ := (whenAlive_next _ _ _).mp ht
  split at ht <;> cases ht
  · exact .single .busReset
  · exact .refl

theorem State.afterBusReset_changes {s t : State} (h : s.busReset.SameStore t) : s.Changes t :=
  State.Changes.then_same (.single .busReset) h

theorem State.reinit_changes (s : State) : s.Changes s.reinit := by
  refine State.afterBusReset_changes ?_
  rw [State.reinit]
  generalize s.busReset = u
  rfl

theorem execInit_changes {s t : State} (ht : execInit s = .next t) : s.Changes t := by
  obtain ⟨-, ht⟩ := (whenAlive_next _ _ _).mp ht
  cases ht
  refine State.afterBusReset_changes ?_
  generalize s.busReset = u
  rfl

theorem execReinit_changes {s t : State} (ht : execReinit s = .next t) : s.Changes t := by
  obtain ⟨-, ht⟩ := (whenAlive_next _ _ _).mp ht
  cases ht
  exact State.Changes.then_same s.reinit_changes rfl

theorem execPowerTimeout_changes {s t : State} (ht : execPowerTimeout s = .next t) : s.Changes t := by
  obtain ⟨-, ht⟩ := (whenAlive_next _ _ _).mp ht
  split at ht
  · refine commit_changes (fun u hu => ?_) ht
    split at hu <;> cases hu
    next v hv =>
      have hlowered : s.Changes v := by
        rw [lowerPower_frame hv]
        exact State.SameStore.changes rfl
      exact hlowered.trans v.reinit_changes
  · cases ht
    exact .refl

/-! ### The SIE's transactions -/

theorem memWrite_changes {s t : State} {ref : BufRef} {bs : List Byte} (ht : memWrite s ref bs = .ok t) :
    s.Changes t := by
  obtain ⟨-, -, -, -, rfl⟩ := (memWrite_ok _ _ _ _).mp ht
  exact State.SameStore.changes rfl

/-- Handing back the slot the SIE uses next. -/
theorem State.completeTransaction_changes {s : State} {ep : Ep} {d : Dir} {x : Desc}
    (hown : (s.nextSlot ep d).desc.own = true) (hx : x.own = false) (hlow : x.low ≠ 0) :
    s.Changes (s.completeTransaction ep d x) :=
  State.Changes.then_same (.single (.completed hown hx hlow)) rfl

theorem execHostSetup_changes {a : BitVec 7} {p : SetupPacket} {s t : State} (ht : execHostSetup a p s = .next t) :
    s.Changes t := by
  obtain ⟨-, ht⟩ := (whenAlive_next _ _ _).mp ht
  split at ht
  · next hen =>
    have hown : (s.nextSlot 0 .rx).desc.own = true := by
      simp only [setupEnabled, Bool.and_eq_true] at hen
      exact hen.1.2
    refine commit_changes (fun u hu => ?_) ht
    split at hu <;> cases hu
    next v hv =>
      refine (memWrite_changes hv).trans (State.Changes.then_same (State.completeTransaction_changes ?_ rfl ?_) rfl)
      · obtain ⟨-, -, -, -, rfl⟩ := (memWrite_ok _ _ _ _).mp hv
        exact hown
      · exact show (pidCode .setupToken) ≠ 0 by decide
  · cases ht
    exact .refl

theorem execHostOut_changes {ep : Ep} {a : BitVec 7} {data : List Byte} {s t : State}
    (ht : execHostOut ep a data s = .next t) : s.Changes t := by
  obtain ⟨-, ht⟩ := (whenAlive_next _ _ _).mp ht
  split at ht
  · split at ht
    · cases ht
      exact State.SameStore.changes rfl
    split at ht
    · next hslot =>
      have hown : (s.nextSlot ep .rx).desc.own = true := (Bool.and_eq_true_iff.mp hslot).1
      refine commit_changes (fun u hu => ?_) ht
      unfold receiveOut at hu
      split at hu <;> cases hu
      next v hv =>
        refine (memWrite_changes hv).trans (State.Changes.then_same (State.completeTransaction_changes ?_ rfl ?_) rfl)
        · obtain ⟨-, -, -, -, rfl⟩ := (memWrite_ok _ _ _ _).mp hv
          exact hown
        · exact show (pidCode .outToken) ≠ 0 by decide
    · cases ht
      exact .refl
  · cases ht
    exact .refl

theorem execHostIn_changes {ep : Ep} {a : BitVec 7} {s t : State} (ht : execHostIn ep a s = .next t) :
    s.Changes t := by
  obtain ⟨-, ht⟩ := (whenAlive_next _ _ _).mp ht
  split at ht
  · split at ht
    · cases ht
      exact State.SameStore.changes rfl
    split at ht
    · next hown =>
      refine commit_changes (fun u hu => ?_) ht
      unfold sendIn at hu
      split at hu <;> cases hu
      next bs v hv =>
        obtain ⟨-, hframe, -⟩ := memRead_ok _ _ _ _ _ hv
        have hread : s.Changes v := by
          rw [hframe]
          exact State.SameStore.changes rfl
        refine hread.trans (State.Changes.then_same (State.completeTransaction_changes ?_ rfl ?_) rfl)
        · rw [hframe]
          exact hown
        · exact show (pidCode .inToken) ≠ 0 by decide
    · cases ht
      exact .refl
  · cases ht
    exact .refl

/-! ### Every instruction -/

theorem exec_changes {i : Instr} {s t : State} (ht : exec i s = .next t) : s.Changes t := by
  cases i with
  | init => exact execInit_changes ht
  | reinit => exact execReinit_changes ht
  | alloc => exact execAlloc_changes ht
  | free => exact execFree_changes ht
  | tx => exact execTx_changes ht
  | rx => exact execRx_changes ht
  | txByteCount | txPacketCount | rxByteCount => exact returnCount_changes ht
  | configured | deviceReload =>
    obtain ⟨-, ht⟩ := (whenAlive_next _ _ _).mp ht
    cases ht
    exact State.SameStore.changes rfl
  | pktFill => exact execPktFill_changes ht
  | pktRead => exact execPktRead_changes ht
  | tokenDone => exact execTokenDone_changes ht
  | powerTimeout => exact execPowerTimeout_changes ht
  | hostSetup => exact execHostSetup_changes ht
  | hostOut => exact execHostOut_changes ht
  | hostIn => exact execHostIn_changes ht
  | hostBusReset => exact execHostBusReset_changes ht
  | _ => exact exec_request_changes rfl ht

end Sys2Proof.Machine
end

section
/-! Every packet has one owner and is where its owner says (R44): each change moves packets one at a time, through the
caller's hands. -/

namespace Sys2Proof.Machine

/-! ### Where a packet is -/

/-- A FIFO. -/
def State.fifo (s : State) (ep : Ep) (d : Dir) : List Nat := epGet ((Dirs.mk s.rxq s.txq).get d) ep

/-- A FIFO has been written. -/
def State.setFifo (s : State) (ep : Ep) (d : Dir) (q : List Nat) : State :=
  match d with
  | .rx => s.setRxq ep q
  | .tx => s.setTxq ep q

/-- Packet `h` is at place `x`. -/
def State.At (s : State) (h : Nat) : Owner → Prop
  | .pool => s.isFree h = true
  | .queue ep d => h ∈ s.fifo ep d
  | .slot ep d b => (s.slot ep d b).addr = .pool h
  | .caller => h < s.cfg.nPackets ∧ s.ownerOf h = .caller

/-- Ownership (R44) but for the TX banks. -/
structure State.Placed (s : State) : Prop where
  headers : s.pkt.length = s.cfg.nPackets
  masks : s.free.length = s.cfg.nPackets
  owners : s.owner.length = s.cfg.nPackets
  place : ∀ (h : Nat) (x : Owner), s.At h x ↔ h < s.cfg.nPackets ∧ s.ownerOf h = x
  once : ∀ (ep : Ep) (d : Dir), (s.fifo ep d).Nodup
  released : ∀ (ep : Ep) (d : Dir) (b : Bank), (s.slot ep d b).desc = releasedDesc → (s.slot ep d b).addr = .null
  elsewhere : ∀ (ep : Ep) (d : Dir), isDataEp s.cfg ep = false →
    s.fifo ep d = [] ∧ ∀ b : Bank, (s.slot ep d b).addr.isPool = false

/-- A TX bank holds a packet exactly when its bank state says it is armed (R26). -/
def State.TxBanksAgree (s : State) : Prop :=
  ∀ ep : Ep, isDataEp s.cfg ep = true → ∀ b : Bank,
    (s.slot ep .tx b).addr.isPool = txArmed (epGet s.txState ep) b

theorem State.Ownership.placed {s : State} (hs : s.Ownership) : s.Placed where
  headers := hs.headers
  masks := hs.masks
  owners := hs.owners
  place h x := by
    cases x with
    | pool =>
      refine ⟨fun hfree => ?_, fun ⟨hlt, hown⟩ => (hs.poolIffFree h hlt).mpr hown⟩
      have hlt : h < s.cfg.nPackets := hs.masks ▸ s.isFree_lt h hfree
      exact ⟨hlt, (hs.poolIffFree h hlt).mp hfree⟩
    | queue ep d =>
      cases d with
      | rx => exact hs.rxQueued ep h
      | tx => exact hs.txQueued ep h
    | slot ep d b => exact hs.inSlot ep d b h
    | caller => exact Iff.rfl
  once ep d := by
    cases d with
    | rx => exact hs.rxOnce ep
    | tx => exact hs.txOnce ep
  released := hs.released
  elsewhere ep d hep := by
    obtain ⟨htxq, hrxq, hslots⟩ := hs.elsewhere ep hep
    cases d with
    | rx => exact ⟨hrxq, hslots .rx⟩
    | tx => exact ⟨htxq, hslots .tx⟩

theorem State.Placed.ownership {s : State} (hs : s.Placed) (hbanks : s.TxBanksAgree) : s.Ownership where
  headers := hs.headers
  masks := hs.masks
  owners := hs.owners
  poolIffFree h hlt := (hs.place h .pool).trans (and_iff_right hlt)
  txQueued ep h := hs.place h (.queue ep .tx)
  rxQueued ep h := hs.place h (.queue ep .rx)
  txOnce ep := hs.once ep .tx
  rxOnce ep := hs.once ep .rx
  inSlot ep d b h := hs.place h (.slot ep d b)
  released := hs.released
  elsewhere ep hep :=
    ⟨(hs.elsewhere ep .tx hep).1, (hs.elsewhere ep .rx hep).1, fun d => (hs.elsewhere ep d hep).2⟩
  txBanks := hbanks

/-- `t` has the fields of `s` that say where packets are. -/
structure State.SamePlaces (s t : State) : Prop where
  cfg : t.cfg = s.cfg
  headers : t.pkt.length = s.pkt.length
  free : t.free = s.free
  owner : t.owner = s.owner
  bdt : t.bdt = s.bdt
  rxq : t.rxq = s.rxq
  txq : t.txq = s.txq

theorem State.Placed.congr {s t : State} (hs : s.Placed) (h : s.SamePlaces t) : t.Placed := by
  obtain ⟨hcfg, hheaders, hfree, howner, hbdt, hrxq, htxq⟩ := h
  have hslot := State.slot_congr t s hbdt
  have hfifo : t.fifo = s.fifo := by
    funext ep d
    rw [State.fifo, hrxq, htxq, State.fifo]
  have hownerOf : t.ownerOf = s.ownerOf := by
    funext h
    rw [State.ownerOf, howner, State.ownerOf]
  have hat : t.At = s.At := by
    funext h x
    cases x <;> simp only [State.At, State.isFree, hfree, hfifo, hslot, hcfg, hownerOf]
  exact
    { headers := by rw [hheaders, hs.headers, hcfg]
      masks := by rw [hfree, hs.masks, hcfg]
      owners := by rw [howner, hs.owners, hcfg]
      place := by
        rw [hat, hcfg, hownerOf]
        exact hs.place
      once := hfifo ▸ hs.once
      released := hslot ▸ hs.released
      elsewhere := by
        rw [hcfg, hfifo, hslot]
        exact hs.elsewhere }

/-! ### One packet moves -/

theorem State.fifo_setFifo (s : State) (ep ep' : Ep) (d d' : Dir) (q : List Nat) :
    (s.setFifo ep d q).fifo ep' d' = if ep' = ep ∧ d' = d then q else s.fifo ep' d' := by
  cases d <;> cases d' <;> simp [State.setFifo, State.fifo, Dirs.get, epGet_epPut]

theorem State.setFifo_frame (s : State) (ep : Ep) (d : Dir) (q : List Nat) :
    s.setFifo ep d q = { s with rxq := (s.setFifo ep d q).rxq, txq := (s.setFifo ep d q).txq } := by
  cases d <;> rfl

/-- A place that is not the caller's does not depend on the owners. -/
theorem State.at_setOwner (s : State) (i h : Nat) (y : Owner) {x : Owner} (hx : x ≠ .caller) :
    (s.setOwner i y).At h x ↔ s.At h x := by
  cases x with
  | caller => exact absurd rfl hx
  | pool | slot | queue => exact Iff.rfl

/-- Packet `p` has gone to place `y`, and no other packet has moved. -/
theorem State.Placed.place_moved {s t : State} {p : Nat} {y : Owner} (hs : s.Placed) (hp : p < s.cfg.nPackets)
    (hcfg : t.cfg = s.cfg) (howner : t.owner = s.owner.set p y)
    (hat : ∀ (h : Nat) (x : Owner), x ≠ .caller → (t.At h x ↔ if h = p then x = y else s.At h x)) (h : Nat)
    (x : Owner) : t.At h x ↔ h < t.cfg.nPackets ∧ t.ownerOf h = x := by
  by_cases hx : x = .caller
  · rw [hx]
    exact Iff.rfl
  have hown : t.ownerOf h = if h = p then y else s.ownerOf h := by
    rw [State.ownerOf, howner]
    exact s.ownerOf_setOwner p h y (hs.owners ▸ hp)
  rw [hat h x hx, hcfg, hown]
  split
  · next heq => simp [heq, hp, eq_comm]
  · exact hs.place h x

/-- A packet at a place that is not `x` is not at `x`. -/
theorem State.Placed.not_at {s : State} {p : Nat} {x y : Owner} (hs : s.Placed) (hp : s.At p x) (hne : y ≠ x) :
    ¬s.At p y := fun hy => hne (((hs.place p y).mp hy).2.symm.trans ((hs.place p x).mp hp).2)

/-- Leaving place `x` and reaching place `y`, packet `p` alone. -/
theorem State.Placed.place_moved_of {s t : State} {p : Nat} {x y : Owner} (hs : s.Placed) (hp : s.At p x)
    (hcfg : t.cfg = s.cfg) (howner : t.owner = s.owner.set p y) (hx : x ≠ .caller → ∀ h, t.At h x ↔ h ≠ p ∧ s.At h x)
    (hy : y ≠ .caller → ∀ h, t.At h y ↔ h = p ∨ s.At h y) (hxy : x ≠ y)
    (hother : ∀ z, z ≠ x → z ≠ y → z ≠ .caller → ∀ h, t.At h z ↔ s.At h z) (h : Nat) (z : Owner) :
    t.At h z ↔ h < t.cfg.nPackets ∧ t.ownerOf h = z := by
  refine hs.place_moved ((hs.place p x).mp hp).1 hcfg howner (fun h z hz => ?_) h z
  by_cases hzx : z = x
  · subst hzx
    rw [hx hz]
    split
    · next heq => simp [heq, hxy]
    · next hne => simp [hne]
  by_cases hzy : z = y
  · subst hzy
    rw [hy hz]
    split
    · next heq => simp [heq]
    · next hne => simp [hne]
  rw [hother z hzx hzy hz]
  split
  · next heq => simp [heq, hzy, hs.not_at hp hzx]
  · exact Iff.rfl

/-- A free packet is taken. -/
theorem State.Placed.take {s : State} {p : Nat} (hs : s.Placed) (hp : s.isFree p = true) :
    ((s.setFree p false).setOwner p .caller).Placed where
  headers := hs.headers
  masks := by simp [hs.masks]
  owners := by simp [hs.owners]
  place := by
    refine hs.place_moved_of (x := .pool) hp rfl rfl (fun _ h => ?_) (absurd rfl) Owner.noConfusion ?_
    · show (s.setFree p false).isFree h = true ↔ h ≠ p ∧ s.isFree h = true
      simp [s.isFree_setFree p h false (s.isFree_lt p hp)]
    · rintro (_ | _ | _ | _) hpool - hcaller h
      · exact absurd rfl hpool
      · exact Iff.rfl
      · exact Iff.rfl
      · exact absurd rfl hcaller
  once := hs.once
  released := hs.released
  elsewhere := hs.elsewhere

/-- A packet of the caller's goes to the pool. -/
theorem State.Placed.toPool {s : State} {p : Nat} (hs : s.Placed) (hp : s.callerOwns p = true) :
    (s.toPool p).Placed where
  headers := hs.headers
  masks := by simp [hs.masks]
  owners := by simp [hs.owners]
  place := by
    have hp := (s.callerOwns_iff p).mp hp
    refine hs.place_moved_of (x := .caller) hp rfl rfl (absurd rfl) (fun _ h => ?_) Owner.noConfusion ?_
    · show (s.setFree p true).isFree h = true ↔ h = p ∨ s.isFree h = true
      simp [s.isFree_setFree p h true (hs.masks ▸ hp.1)]
    · rintro (_ | _ | _ | _) hcaller hpool - h
      · exact absurd rfl hpool
      · exact Iff.rfl
      · exact Iff.rfl
      · exact absurd rfl hcaller
  once := hs.once
  released := hs.released
  elsewhere := hs.elsewhere

/-- A packet of the caller's goes to the end of a FIFO. -/
theorem State.Placed.enqueue {s : State} {ep : Ep} {d : Dir} {p : Nat} (hs : s.Placed)
    (hep : isDataEp s.cfg ep = true) (hp : s.callerOwns p = true) :
    ((s.setFifo ep d (s.fifo ep d ++ [p])).setOwner p (.queue ep d)).Placed := by
  have hfifo (ep' : Ep) (d' : Dir) := s.fifo_setFifo ep ep' d d' (s.fifo ep d ++ [p])
  have hp := (s.callerOwns_iff p).mp hp
  have hnot : p ∉ s.fifo ep d := hs.not_at (x := .caller) (y := .queue ep d) hp Owner.noConfusion
  rw [State.setFifo_frame] at hfifo ⊢
  exact
    { headers := hs.headers
      masks := hs.masks
      owners := by simp [hs.owners]
      place := by
        refine hs.place_moved_of (x := .caller) hp rfl rfl (absurd rfl) (fun _ h => ?_) Owner.noConfusion ?_
        · refine (Eq.to_iff (congrArg (h ∈ ·) (hfifo ep d))).trans ?_
          show _ ↔ h = p ∨ h ∈ s.fifo ep d
          simp [or_comm]
        · rintro (_ | ⟨ep', d'⟩ | _ | _) hcaller hqueue - h
          · exact Iff.rfl
          · refine (Eq.to_iff (congrArg (h ∈ ·) (hfifo ep' d'))).trans ?_
            rw [if_neg (fun ⟨hep', hd'⟩ => hqueue (by rw [hep', hd']))]
            exact Iff.rfl
          · exact Iff.rfl
          · exact absurd rfl hcaller
      once := fun ep' d' => by
        refine (congrArg List.Nodup (hfifo ep' d')).mpr ?_
        split
        · exact List.nodup_append_comm.mp (List.nodup_cons.mpr ⟨hnot, hs.once ep d⟩)
        · exact hs.once ep' d'
      released := hs.released
      elsewhere := fun ep' d' hep' => by
        obtain ⟨hempty, hslots⟩ := hs.elsewhere ep' d' hep'
        refine ⟨(hfifo ep' d').trans ((if_neg ?_).trans hempty), hslots⟩
        rintro ⟨rfl, -⟩
        cases hep.symm.trans hep' }

/-- The head of a FIFO goes to the caller. -/
theorem State.Placed.dequeue {s : State} {ep : Ep} {d : Dir} {p : Nat} {rest : List Nat} (hs : s.Placed)
    (hq : s.fifo ep d = p :: rest) : ((s.setFifo ep d rest).setOwner p .caller).Placed := by
  have hfifo (ep' : Ep) (d' : Dir) := s.fifo_setFifo ep ep' d d' rest
  have hp : s.At p (.queue ep d) := show p ∈ s.fifo ep d from hq ▸ List.mem_cons_self
  obtain ⟨hnot, hrest⟩ := List.nodup_cons.mp (hq ▸ hs.once ep d)
  rw [State.setFifo_frame] at hfifo ⊢
  exact
    { headers := hs.headers
      masks := hs.masks
      owners := by simp [hs.owners]
      place := by
        refine hs.place_moved_of hp rfl rfl (fun _ h => ?_) (absurd rfl) Owner.noConfusion ?_
        · refine (Eq.to_iff (congrArg (h ∈ ·) (hfifo ep d))).trans ?_
          show _ ↔ h ≠ p ∧ h ∈ s.fifo ep d
          rw [hq, if_pos ⟨rfl, rfl⟩, List.mem_cons]
          constructor
          · exact fun hmem => ⟨fun heq => hnot (heq ▸ hmem), .inr hmem⟩
          · exact fun ⟨hne, hmem⟩ => hmem.resolve_left hne
        · rintro (_ | ⟨ep', d'⟩ | _ | _) hqueue - hcaller h
          · exact Iff.rfl
          · refine (Eq.to_iff (congrArg (h ∈ ·) (hfifo ep' d'))).trans ?_
            rw [if_neg (fun ⟨hep', hd'⟩ => hqueue (by rw [hep', hd']))]
            exact Iff.rfl
          · exact Iff.rfl
          · exact absurd rfl hcaller
      once := fun ep' d' => by
        refine (congrArg List.Nodup (hfifo ep' d')).mpr ?_
        split
        · exact hrest
        · exact hs.once ep' d'
      released := hs.released
      elsewhere := fun ep' d' hep' => by
        obtain ⟨hempty, hslots⟩ := hs.elsewhere ep' d' hep'
        refine ⟨(hfifo ep' d').trans ((if_neg ?_).trans hempty), hslots⟩
        rintro ⟨rfl, rfl⟩
        cases hempty.symm.trans hq }

/-- A packet of the caller's goes to a slot that holds none. -/
theorem State.Placed.fillSlot {s : State} {ep : Ep} {d : Dir} {b : Bank} {p : Nat} {x : Desc} (hs : s.Placed)
    (hep : isDataEp s.cfg ep = true) (hp : s.callerOwns p = true) (hslot : (s.slot ep d b).addr.isPool = false)
    (hx : x ≠ releasedDesc) :
    ((s.setSlot ep d b { desc := x, addr := .pool p }).setOwner p (.slot ep d b)).Placed := by
  have hp := (s.callerOwns_iff p).mp hp
  have hset (ep' : Ep) (d' : Dir) (b' : Bank) :
      ((s.setSlot ep d b { desc := x, addr := .pool p }).setOwner p (.slot ep d b)).slot ep' d' b' =
        if ep' = ep ∧ d' = d ∧ b' = b then { desc := x, addr := .pool p } else s.slot ep' d' b' :=
    s.slot_setSlot ep ep' d d' b b' _
  exact
    { headers := hs.headers
      masks := hs.masks
      owners := by simp [hs.owners]
      place := by
        refine hs.place_moved_of (x := .caller) hp rfl rfl (absurd rfl) (fun _ h => ?_) Owner.noConfusion ?_
        · have hno : ¬s.At h (.slot ep d b) := fun hat => by
            cases (congrArg BufRef.isPool hat).symm.trans hslot
          refine (Eq.to_iff (congrArg (Slot.addr · = .pool h) (hset ep d b))).trans ?_
          simp [hno, eq_comm]
        · rintro (_ | _ | ⟨ep', d', b'⟩ | _) hcaller hne - h
          · exact Iff.rfl
          · exact Iff.rfl
          · refine (Eq.to_iff (congrArg (Slot.addr · = .pool h) (hset ep' d' b'))).trans ?_
            rw [if_neg (fun ⟨hep', hd', hb'⟩ => hne (by rw [hep', hd', hb']))]
            exact Iff.rfl
          · exact absurd rfl hcaller
      once := hs.once
      released := fun ep' d' b' => by
        rw [hset]
        split
        · exact fun h => absurd h hx
        · exact hs.released ep' d' b'
      elsewhere := fun ep' d' hep' => by
        obtain ⟨hempty, hslots⟩ := hs.elsewhere ep' d' hep'
        refine ⟨hempty, fun b' => ?_⟩
        rw [hset, if_neg, hslots]
        rintro ⟨rfl, -⟩
        cases hep.symm.trans hep' }

/-- The packet of a slot goes to the caller. -/
theorem State.Placed.emptySlot {s : State} {ep : Ep} {d : Dir} {b : Bank} {p : Nat} (hs : s.Placed)
    (hslot : (s.slot ep d b).addr = .pool p) : ((s.setSlot ep d b Slot.cleared).setOwner p .caller).Placed := by
  have hset (ep' : Ep) (d' : Dir) (b' : Bank) :
      ((s.setSlot ep d b Slot.cleared).setOwner p .caller).slot ep' d' b' =
        if ep' = ep ∧ d' = d ∧ b' = b then Slot.cleared else s.slot ep' d' b' := s.slot_setSlot ep ep' d d' b b' _
  exact
    { headers := hs.headers
      masks := hs.masks
      owners := by simp [hs.owners]
      place := by
        refine hs.place_moved_of (x := .slot ep d b) hslot rfl rfl (fun _ h => ?_) (absurd rfl) Owner.noConfusion ?_
        · refine (Eq.to_iff (congrArg (Slot.addr · = .pool h) (hset ep d b))).trans ?_
          show _ ↔ h ≠ p ∧ (s.slot ep d b).addr = .pool h
          rw [hslot]
          simp [eq_comm]
        · rintro (_ | _ | ⟨ep', d', b'⟩ | _) hne - hcaller h
          · exact Iff.rfl
          · exact Iff.rfl
          · refine (Eq.to_iff (congrArg (Slot.addr · = .pool h) (hset ep' d' b'))).trans ?_
            rw [if_neg (fun ⟨hep', hd', hb'⟩ => hne (by rw [hep', hd', hb']))]
            exact Iff.rfl
          · exact absurd rfl hcaller
      once := hs.once
      released := fun ep' d' b' => by
        rw [hset]
        split
        · exact fun _ => rfl
        · exact hs.released ep' d' b'
      elsewhere := fun ep' d' hep' => by
        obtain ⟨hempty, hslots⟩ := hs.elsewhere ep' d' hep'
        refine ⟨hempty, fun b' => ?_⟩
        rw [hset]
        split
        · rfl
        · exact hslots b' }

/-- A slot keeps its packet, or the want of one, and is not released. -/
theorem State.Placed.setSlot_keep {s : State} {ep : Ep} {d : Dir} {b : Bank} {x : Slot} (hs : s.Placed)
    (haddr : (∀ h, x.addr = .pool h ↔ (s.slot ep d b).addr = .pool h))
    (hx : x.desc = releasedDesc → x.addr = .null) : (s.setSlot ep d b x).Placed := by
  have hset (ep' : Ep) (d' : Dir) (b' : Bank) (h : Nat) :
      ((s.setSlot ep d b x).slot ep' d' b').addr = .pool h ↔ (s.slot ep' d' b').addr = .pool h := by
    rw [State.slot_setSlot]
    split
    · next heq =>
      obtain ⟨rfl, rfl, rfl⟩ := heq
      exact haddr h
    · exact Iff.rfl
  exact
    { hs with
      place := fun h z => by
        refine Iff.trans ?_ (hs.place h z)
        cases z with
        | slot ep' d' b' => exact hset ep' d' b' h
        | pool | queue | caller => exact Iff.rfl
      released := fun ep' d' b' => by
        rw [State.slot_setSlot]
        split
        · exact hx
        · exact hs.released ep' d' b'
      elsewhere := fun ep' d' hep' => by
        obtain ⟨hempty, hslots⟩ := hs.elsewhere ep' d' hep'
        refine ⟨hempty, fun b' => Bool.eq_false_iff.mpr fun hpool => ?_⟩
        obtain ⟨h, hh⟩ := BufRef.exists_pool_of_isPool hpool
        cases (congrArg BufRef.isPool ((hset ep' d' b' h).mp hh)).symm.trans (hslots b') }

end Sys2Proof.Machine
end

section
/-! Ownership (R44) through every change of the pool, the BDT and the FIFOs. -/

namespace Sys2Proof.Machine

/-! ### Rules about the operations -/

@[simp] theorem State.setSlot_setSlot (s : State) (ep : Ep) (d : Dir) (b : Bank) (x y : Slot) :
    (s.setSlot ep d b x).setSlot ep d b y = s.setSlot ep d b y := by
  have hbdt : ((s.setSlot ep d b x).setSlot ep d b y).bdt = (s.setSlot ep d b y).bdt := by
    refine State.bdt_ext _ _ fun ep' d' b' => ?_
    simp only [State.slot_setSlot]
    split <;> rfl
  calc (s.setSlot ep d b x).setSlot ep d b y
      = { s with bdt := ((s.setSlot ep d b x).setSlot ep d b y).bdt } := rfl
    _ = s.setSlot ep d b y := by rw [hbdt]; rfl

/-- Release does not ask who owned the packet. -/
theorem State.release_setOwner (s : State) (h : Nat) (x : Owner) : (s.setOwner h x).release h = s.release h := by
  have htarget : (s.setOwner h x).redirectTarget = s.redirectTarget := rfl
  have hstarving : (starving (s.setOwner h x) && isConfigured (s.setOwner h x)) = (starving s && isConfigured s) := rfl
  have hcollapse (y : Owner) : ((s.owner.set h x).set h y) = s.owner.set h y := List.set_set _
  unfold State.release
  rw [hstarving]
  split
  · cases ht : s.redirectTarget with
    | none =>
      rw [State.redirect_none _ _ ht, State.redirect_none _ _ (htarget.trans ht)]
      simp [State.setOwner, State.setFree, hcollapse]
    | some target =>
      obtain ⟨ep, b⟩ := target
      rw [State.redirect_some _ _ _ _ ht, State.redirect_some _ _ _ _ (htarget.trans ht)]
      simp [State.setOwner, State.setSlot, hcollapse]
  · simp [State.setOwner, State.setFree, hcollapse]

theorem State.pkt_length_linkLast (s : State) (q : List Nat) (h : Nat) :
    (s.linkLast q h).pkt.length = s.pkt.length := by
  unfold State.linkLast
  cases q.getLast? <;> simp

/-- A packet the caller has just been given is the caller's. -/
theorem State.callerOwns_setOwner {s : State} {p : Nat} (hp : p < s.cfg.nPackets)
    (howners : s.owner.length = s.cfg.nPackets) : (s.setOwner p .caller).callerOwns p = true :=
  (State.callerOwns_iff _ p).mpr ⟨hp, (s.ownerOf_setOwner p p .caller (howners ▸ hp)).trans (if_pos rfl)⟩

/-! ### Releasing and allocating (R113, R110) -/

/-- A released packet goes to the pool or to a slot that needs one. -/
theorem State.Placed.release {s : State} {p : Nat} (hs : s.Placed) (hp : s.callerOwns p = true) :
    (s.release p).Placed := by
  unfold State.release
  split
  · cases ht : s.redirectTarget with
    | none =>
      rw [State.redirect_none s p ht]
      exact (hs.toPool hp).congr ⟨rfl, rfl, rfl, rfl, rfl, rfl, rfl⟩
    | some target =>
      obtain ⟨ep, b⟩ := target
      obtain ⟨hmem, hdesc⟩ := s.redirectTarget_some ep b ht
      obtain ⟨hep, -⟩ := Bool.and_eq_true_iff.mp ((mem_rxSlots s.cfg ep b).mp hmem)
      have hempty : (s.slot ep .rx b).addr.isPool = false := by rw [hs.released ep .rx b hdesc]; rfl
      rw [State.redirect_some s p ep b ht]
      exact (hs.fillSlot hep hp hempty (armedDesc_ne_released _ _)).congr ⟨rfl, rfl, rfl, rfl, rfl, rfl, rfl⟩
  · exact hs.toPool hp

theorem allocPacket_placed {s t : State} {p : Nat} (hs : s.Placed) (ht : allocPacket s = some (p, t)) : t.Placed := by
  obtain ⟨hfree, hframe⟩ := allocPacket_frame _ _ _ ht
  rw [hframe]
  exact (hs.take hfree).congr ⟨rfl, List.length_set, rfl, rfl, rfl, rfl, rfl⟩

/-- An allocated packet is armed in a slot; before, once that slot was emptied, every packet was in its place. -/
theorem allocPacket_armed_placed {s t : State} {p : Nat} {ep : Ep} {b : Bank} {x : Desc}
    (hs : (s.setSlot ep .rx b Slot.cleared).Placed) (hep : isDataEp s.cfg ep = true) (hx : x ≠ releasedDesc)
    (ht : allocPacket s = some (p, t)) :
    ((t.setSlot ep .rx b { desc := x, addr := .pool p }).setOwner p (.slot ep .rx b)).Placed := by
  obtain ⟨hfree, hframe⟩ := allocPacket_frame _ _ _ ht
  have hlt : p < s.cfg.nPackets := ((hs.place p .pool).mp hfree).1
  have hempty : ((s.setSlot ep .rx b Slot.cleared).slot ep .rx b).addr.isPool = false := by
    rw [State.slot_setSlot_same]
    rfl
  have hfilled := (hs.take hfree).fillSlot (x := x) (b := b) (d := .rx) hep
    (State.callerOwns_setOwner hlt hs.owners) hempty hx
  refine hfilled.congr ⟨?_, ?_, ?_, ?_, ?_, ?_, ?_⟩ <;> rw [hframe]
  · rfl
  · exact List.length_set
  · rfl
  · rfl
  · have hbdt := congrArg State.bdt (State.setSlot_setSlot s ep .rx b Slot.cleared { desc := x, addr := .pool p })
    exact hbdt.symm
  · rfl
  · rfl

/-! ### The completions of the data endpoints (R137, R140) -/

theorem State.Placed.txReleased {s : State} {ep : Ep} {c : Bank} {h : Nat} (hs : s.Placed)
    (haddr : (s.slot ep .tx c).addr = .pool h) : (s.txReleased ep c h).Placed := by
  have hlt := ((hs.place h (.slot ep .tx c)).mp haddr).1
  have hempty := hs.emptySlot haddr
  rw [State.txReleased, ← State.release_setOwner _ h .caller]
  exact hempty.release (State.callerOwns_setOwner hlt hs.owners)

theorem State.Placed.txRefilled {s : State} {ep : Ep} {c : Bank} {q : Nat} {rest : List Nat} (hs : s.Placed)
    (hep : isDataEp s.cfg ep = true) (hempty : (s.slot ep .tx c).addr.isPool = false)
    (hq : epGet s.txq ep = q :: rest) : (s.txRefilled ep c q rest).Placed := by
  have hlt : q < s.cfg.nPackets :=
    ((hs.place q (.queue ep .tx)).mp (show q ∈ epGet s.txq ep from hq ▸ List.mem_cons_self)).1
  have hfilled := (hs.dequeue (d := .tx) hq).fillSlot (d := .tx) (b := c)
    (x := armedDesc ((s.header q).len.setWidth 10) (bankToggle c)) hep (State.callerOwns_setOwner hlt hs.owners) hempty
    (armedDesc_ne_released _ _)
  exact hfilled.congr ⟨rfl, List.length_set, rfl, (List.set_set _).symm, rfl, rfl, rfl⟩

theorem txDone_placed {s t : State} {ep : Ep} {c : Bank} (hs : s.Placed) (hep : isDataEp s.cfg ep = true)
    (ht : txDone s ep c = .ok t) : t.Placed := by
  obtain ⟨h, st, haddr, -, ⟨-, -, rfl⟩ | ⟨q, rest, hq, -, rfl⟩⟩ := txDone_cases ht
  · exact (hs.txReleased haddr).congr ⟨rfl, rfl, rfl, rfl, rfl, rfl, rfl⟩
  · have hreleased := hs.txReleased haddr
    have hempty : ((s.txReleased ep c h).slot ep .tx c).addr.isPool = false := by
      rw [State.slot_release_tx, State.slot_setSlot_same]
      rfl
    have hcfg : (s.txReleased ep c h).cfg = s.cfg := by
      rw [State.txReleased, State.release_frame]
      rfl
    have htxq : (s.txReleased ep c h).txq = s.txq := by
      rw [State.txReleased, State.release_frame]
      rfl
    exact (hreleased.txRefilled (hcfg ▸ hep) hempty (htxq ▸ hq)).congr ⟨rfl, rfl, rfl, rfl, rfl, rfl, rfl⟩

/-- The packet received goes from its slot to the FIFO. -/
theorem acceptRx_placed {s : State} {ep : Ep} {b : Bank} {h : Nat} {n : BitVec 10} (hs : s.Placed)
    (hep : isDataEp s.cfg ep = true) (haddr : (s.slot ep .rx b).addr = .pool h) :
    ((acceptRx s ep h n).setSlot ep .rx b Slot.cleared).Placed := by
  have hlt := ((hs.place h (.slot ep .rx b)).mp haddr).1
  have hqueued := (hs.emptySlot haddr).enqueue (d := .rx) hep (State.callerOwns_setOwner hlt hs.owners)
  have hframe := acceptRx_eq s ep h n
  refine hqueued.congr ⟨?_, ?_, ?_, ?_, ?_, ?_, ?_⟩ <;> rw [hframe]
  · rfl
  · exact (State.pkt_length_linkLast _ _ _).trans List.length_set
  · rfl
  · exact (List.set_set _).symm
  · rfl
  · rfl
  · rfl

theorem rxDone_placed {s t : State} {ep : Ep} {b : Bank} {n : BitVec 10} (hs : s.Placed)
    (hep : isDataEp s.cfg ep = true) (ht : rxDone s ep b n = .ok t) : t.Placed := by
  obtain ⟨h, haddr, -, rfl | ht⟩ := rxDone_cases ht
  · refine hs.setSlot_keep (fun g => by rw [haddr]) fun hx => absurd hx (armedDesc_ne_released _ _)
  · have haccepted := acceptRx_placed (n := n) hs hep haddr
    have hcfg : (acceptRx s ep h n).cfg = s.cfg := by rw [acceptRx_eq]
    obtain ⟨-, ⟨p, u, hu, rfl⟩ | ⟨-, rfl⟩⟩ := refillRx_cases ht
    · exact allocPacket_armed_placed haccepted (hcfg ▸ hep) (armedDesc_ne_released _ _) hu
    · exact haccepted.congr ⟨rfl, rfl, rfl, rfl, rfl, rfl, rfl⟩

/-! ### TX and RX (R135, R162) -/

theorem submitPacket_placed {s t : State} {ep : Ep} {h : Nat} (hs : s.Ownership) (hep : isDataEp s.cfg ep = true)
    (hown : s.callerOwns h = true) (ht : submitPacket s ep h = .ok t) : t.Placed := by
  obtain ⟨b, st, htable, -, rfl⟩ | ⟨-, rfl⟩ := submitPacket_cases ht
  · have hempty := (hs.txBanks ep hep b).trans (submitTable_free htable)
    exact (hs.placed.fillSlot hep hown hempty (armedDesc_ne_released _ _)).congr ⟨rfl, rfl, rfl, rfl, rfl, rfl, rfl⟩
  · rw [State.enqueueTx_eq]
    exact (hs.placed.enqueue (d := .tx) hep hown).congr ⟨rfl, State.pkt_length_linkLast _ _ _, rfl, rfl, rfl, rfl, rfl⟩

theorem takeRx_placed {s : State} {ep : Ep} {h : Nat} {rest : List Nat} (hs : s.Placed)
    (hq : epGet s.rxq ep = h :: rest) : (takeRx s ep h rest).Placed :=
  (hs.dequeue (d := .rx) hq).congr ⟨rfl, List.length_set, rfl, rfl, rfl, rfl, rfl⟩

/-! ### Reclaiming and seeding (R260, R343) -/

/-- Every packet is the pool's or the caller's, and no slot and no FIFO holds one. -/
theorem State.placed_of_none_out {s : State} (hheaders : s.pkt.length = s.cfg.nPackets)
    (hmasks : s.free.length = s.cfg.nPackets) (howners : s.owner.length = s.cfg.nPackets)
    (hshared : ∀ h < s.cfg.nPackets,
      (s.ownerOf h = .pool ∧ s.isFree h = true) ∨ (s.ownerOf h = .caller ∧ s.isFree h = false))
    (hfifo : ∀ ep d, s.fifo ep d = []) (hslot : ∀ ep d b, (s.slot ep d b).addr.isPool = false)
    (hreleased : ∀ ep d b, (s.slot ep d b).desc = releasedDesc → (s.slot ep d b).addr = .null) : s.Placed where
  headers := hheaders
  masks := hmasks
  owners := howners
  place h x := by
    have hout (hx : x ≠ .pool) (hcaller : x ≠ .caller) : ¬(h < s.cfg.nPackets ∧ s.ownerOf h = x) := by
      rintro ⟨hlt, rfl⟩
      obtain ⟨hown, -⟩ | ⟨hown, -⟩ := hshared h hlt
      · exact hx hown
      · exact hcaller hown
    cases x with
    | caller => exact Iff.rfl
    | pool =>
      constructor
      · intro hfree
        have hlt : h < s.cfg.nPackets := hmasks ▸ s.isFree_lt h hfree
        obtain ⟨hown, -⟩ | ⟨-, hno⟩ := hshared h hlt
        · exact ⟨hlt, hown⟩
        · cases hno.symm.trans hfree
      · rintro ⟨hlt, hown⟩
        obtain ⟨-, hfree⟩ | ⟨hcaller, -⟩ := hshared h hlt
        · exact hfree
        · cases hown.symm.trans hcaller
    | queue ep d =>
      refine iff_of_false ?_ (hout Owner.noConfusion Owner.noConfusion)
      show h ∉ s.fifo ep d
      rw [hfifo]
      exact List.not_mem_nil
    | slot ep d b =>
      refine iff_of_false (fun haddr => ?_) (hout Owner.noConfusion Owner.noConfusion)
      cases (congrArg BufRef.isPool haddr).symm.trans (hslot ep d b)
  once ep d := hfifo ep d ▸ List.nodup_nil
  released := hreleased
  elsewhere ep d _ := ⟨hfifo ep d, hslot ep d⟩

/-- Emptying slots and FIFOs keeps the number of packets. -/
theorem State.reclaimed_lengths (s : State) {l : List Ep} (hl : l.Nodup) :
    (l.foldl State.drainEp (l.foldl State.reclaimEp s)).free.length = s.free.length ∧
      (l.foldl State.drainEp (l.foldl State.reclaimEp s)).owner.length = s.owner.length := by
  obtain ⟨hfree, howner, -⟩ := s.pool_foldl_reclaimEp l 0 hl
  obtain ⟨hfree', howner', -⟩ := (l.foldl State.reclaimEp s).pool_foldl_drainEp l 0 hl
  exact ⟨hfree'.trans hfree, howner'.trans howner⟩

theorem State.busReset_lengths (s : State) :
    s.busReset.free.length = s.free.length ∧ s.busReset.owner.length = s.owner.length := by
  obtain ⟨u, hu, hfree, howner⟩ := s.busReset_pool
  obtain ⟨hfree', howner'⟩ := u.reclaimed_lengths (nodup_dataEps s.cfg)
  rw [hfree, howner, hfree', howner', hu]
  exact ⟨rfl, rfl⟩

theorem State.unseeded_owner (s : State) (v : Byte) :
    (s.unseeded v).owner = ((dataEps s.cfg).foldl State.drainEp ((dataEps s.cfg).foldl State.reclaimEp
      { s with config := v, rxNeeded := 0 })).owner := by
  rw [State.unseeded, (State.foldl_configureEp _ _ (nodup_dataEps _)).1, State.reclaimSlots_drainQueues]

/-- Before RX slots are seeded the packets in transit are the pool's, and every other packet keeps its owner. -/
theorem State.ownerOf_unseeded (s : State) (v : Byte) (h : Nat) :
    (s.unseeded v).ownerOf h = if s.inTransit h = true then .pool else s.ownerOf h := by
  obtain ⟨htaken, hkept⟩ :=
    State.ownerOf_reclaimed { s with config := v, rxNeeded := 0 } (nodup_dataEps s.cfg) h
  rw [State.ownerOf, ← State.unseeded_owner, ← State.ownerOf] at htaken hkept
  split
  · next hin => exact htaken ((s.inTransit_iff h).mp hin)
  · next hout => exact hkept (mt (s.inTransit_iff h).mpr hout)

theorem State.unseeded_lengths (s : State) (v : Byte) :
    (s.unseeded v).free.length = s.free.length ∧ (s.unseeded v).owner.length = s.owner.length := by
  rw [State.unseeded_free, State.unseeded_owner]
  exact State.reclaimed_lengths { s with config := v, rxNeeded := 0 } (nodup_dataEps s.cfg)

/-- Only data endpoints queue packets, so emptying their FIFOs empties all. -/
theorem State.Ownership.fifo_emptied {s t : State} (hs : s.Ownership) (ht : s.FifosEmptied t) (ep : Ep) (d : Dir) :
    t.fifo ep d = [] := by
  cases hep : isDataEp s.cfg ep with
  | true =>
    cases d with
    | rx => exact (ht.rxq ep).trans (if_pos hep)
    | tx => exact (ht.txq ep).trans (if_pos hep)
  | false =>
    obtain ⟨htxq, hrxq, -⟩ := hs.elsewhere ep hep
    cases d with
    | rx => exact (ht.rxq ep).trans ((if_neg (Bool.eq_false_iff.mp hep)).trans hrxq)
    | tx => exact (ht.txq ep).trans ((if_neg (Bool.eq_false_iff.mp hep)).trans htxq)

theorem State.unseeded_fifosEmptied (s : State) (v : Byte) : s.FifosEmptied (s.unseeded v) where
  txq ep := ((s.unseeded_spec v).2 ep).2.2.1
  rxq ep := ((s.unseeded_spec v).2 ep).2.1

theorem State.Ownership.busReset_placed {s : State} (hs : s.Ownership) : s.busReset.Placed := by
  obtain ⟨hfree, howner⟩ := s.busReset_lengths
  have hframe := s.busReset_frame
  have hcfg : s.busReset.cfg = s.cfg := by rw [hframe]
  have hslot (ep : Ep) (d : Dir) (b : Bank) : (s.busReset.slot ep d b).addr.isPool = false ∧
      ((s.busReset.slot ep d b).desc = releasedDesc → (s.busReset.slot ep d b).addr = .null) := by
    obtain ⟨hdata, htx, hrx, hother, -⟩ := s.busReset_arrays ep
    cases hep : isDataEp s.cfg ep with
    | true => rw [hdata hep]; exact ⟨rfl, fun _ => rfl⟩
    | false =>
      by_cases hzero : ep = 0
      · subst hzero
        cases d with
        | tx => rw [htx]; exact ⟨rfl, fun _ => rfl⟩
        | rx => rw [hrx]; exact ⟨rfl, fun h => absurd h (armedDesc_ne_released _ _)⟩
      · rw [hother hep hzero]
        obtain ⟨-, -, hpool⟩ := hs.elsewhere ep hep
        exact ⟨hpool d b, hs.released ep d b⟩
  refine State.placed_of_none_out ?_ ?_ ?_ (fun h hlt => ?_) (fun ep d => ?_) (fun ep d b => (hslot ep d b).1)
    fun ep d b => (hslot ep d b).2
  · rw [hframe]
    exact hs.headers
  · rw [hfree, hs.masks, hcfg]
  · rw [howner, hs.owners, hcfg]
  · exact s.busResetDone.pool_or_caller hs (hcfg ▸ hlt)
  · exact hs.fifo_emptied s.busReset_fifosEmptied ep d

theorem State.Ownership.unseeded_placed {s : State} (hs : s.Ownership) (v : Byte) : (s.unseeded v).Placed := by
  obtain ⟨hfree, howner⟩ := s.unseeded_lengths v
  obtain ⟨hframe, harrays⟩ := s.unseeded_spec v
  have hcfg : (s.unseeded v).cfg = s.cfg := by rw [hframe]
  refine State.placed_of_none_out ?_ ?_ ?_ (fun h hlt => ?_) (fun ep d => ?_) (fun ep d b => ?_) fun ep d b => ?_
  · rw [hframe]
    exact hs.headers
  · rw [hfree, hs.masks, hcfg]
  · rw [howner, hs.owners, hcfg]
  · rw [s.ownerOf_unseeded, s.isFree_unseeded v (hs.masks ▸ hcfg ▸ hlt)]
    by_cases hin : s.inTransit h = true
    · exact .inl ⟨if_pos hin, by rw [hin, Bool.or_true]⟩
    · rw [if_neg hin, Bool.eq_false_iff.mpr hin, Bool.or_false]
      exact hs.pool_or_caller (hcfg ▸ hlt) hin
  · exact hs.fifo_emptied (s.unseeded_fifosEmptied v) ep d
  · rw [(harrays ep).1]
    split
    · rfl
    · next hep => exact (hs.placed.elsewhere ep d (Bool.eq_false_iff.mpr hep)).2 b
  · rw [(harrays ep).1]
    split
    · exact fun _ => rfl
    · exact hs.released ep d b

/-- Seeding one slot. -/
theorem seedSlot_placed {s t : State} {ep : Ep} {b : Bank} (hs : s.Placed) (hep : isDataEp s.cfg ep = true)
    (hempty : s.slot ep .rx b = Slot.cleared) (ht : seedSlot s ep b = .ok t) : t.Placed := by
  have hsame : (s.setSlot ep .rx b Slot.cleared).Placed :=
    hs.setSlot_keep (fun h => by rw [hempty]) fun _ => rfl
  obtain ⟨p, u, hu, heq⟩ | ⟨-, heq⟩ := seedSlot_cases s ep b (by rw [hempty]; rfl)
  · cases heq.symm.trans ht
    exact allocPacket_armed_placed hsame hep (armedDesc_ne_released _ _) hu
  · cases heq.symm.trans ht
    exact hs.congr ⟨rfl, rfl, rfl, rfl, rfl, rfl, rfl⟩

theorem seedSlots_placed {l : List (Ep × Bank)} {s t : State} (hs : s.Placed) (hl : l.Nodup)
    (hempty : ∀ x ∈ l, isDataEp s.cfg x.1 = true ∧ s.slot x.1 .rx x.2 = Slot.cleared)
    (ht : seedSlots l s = .ok t) : t.Placed := by
  induction l generalizing s with
  | nil =>
    cases ht
    exact hs
  | cons x l ih =>
    obtain ⟨ep, b⟩ := x
    obtain ⟨hnew, hl⟩ := List.nodup_cons.mp hl
    obtain ⟨hep, hslot⟩ := hempty (ep, b) List.mem_cons_self
    rw [seedSlots] at ht
    split at ht
    · next u hu =>
      have hcfg : u.cfg = s.cfg := by rw [seedSlot_frame s u ep b hu]
      refine ih (seedSlot_placed hs hep hslot hu) hl (fun y hy => ?_) ht
      obtain ⟨hyep, hyslot⟩ := hempty y (List.mem_cons_of_mem _ hy)
      refine ⟨hcfg ▸ hyep, (seedSlot_slot s u ep b hu y.1 .rx y.2 ?_).trans hyslot⟩
      rintro ⟨hy₁, -, hy₂⟩
      exact hnew (hy₁ ▸ hy₂ ▸ hy)
    · cases ht

theorem State.Ownership.reconfigure_placed {s t : State} {v : Byte} (hs : s.Ownership) (ht : reconfigure s v = .ok t) :
    t.Placed := by
  obtain ⟨hframe, harrays⟩ := s.unseeded_spec v
  have hcfg : (s.unseeded v).cfg = s.cfg := by rw [hframe]
  refine seedSlots_placed (hs.unseeded_placed v) (nodup_rxSlots s.cfg) (fun x hx => ?_) ht
  obtain ⟨hep, -⟩ := Bool.and_eq_true_iff.mp ((mem_rxSlots s.cfg x.1 x.2).mp hx)
  exact ⟨hcfg ▸ hep, ((harrays x.1).1 .rx x.2).trans (if_pos hep)⟩

/-! ### The TX banks (R26, R135, R138) -/

/-- A TX slot and a bank state that have not changed still agree. -/
theorem State.TxBanksAgree.congr {s t : State} (hs : s.TxBanksAgree) (hcfg : t.cfg = s.cfg)
    (hslot : ∀ ep b, isDataEp s.cfg ep = true → (t.slot ep .tx b).addr.isPool = (s.slot ep .tx b).addr.isPool)
    (hstate : t.txState = s.txState) : t.TxBanksAgree := fun ep hep b => by
  rw [hcfg] at hep
  rw [hslot ep b hep, hstate]
  exact hs ep hep b

/-- One TX bank and its endpoint's state have changed together. -/
theorem State.TxBanksAgree.set {s t : State} {ep : Ep} {c : Bank} {st : TxState} {x : Slot} (hs : s.TxBanksAgree)
    (hcfg : t.cfg = s.cfg) (hslot : ∀ ep' b, t.slot ep' .tx b = (s.setSlot ep .tx c x).slot ep' .tx b)
    (hstate : t.txState = epPut s.txState ep st) (hset : x.addr.isPool = txArmed st c)
    (hother : txArmed st c.other = txArmed (epGet s.txState ep) c.other) : t.TxBanksAgree := fun ep' hep b => by
  rw [hcfg] at hep
  rw [hslot, State.slot_setSlot, hstate, epGet_epPut]
  by_cases heq : ep' = ep
  · subst heq
    obtain rfl | rfl := c.eq_or_other b
    · simpa using hset
    · simpa [Bank.other_ne, hother] using hs ep' hep c.other
  · simpa [heq] using hs ep' hep b

/-- Arming a free bank arms that one only (R135). -/
theorem submitTable_arms_one {st st' : TxState} {b : Bank} (h : submitTable st = some (b, st')) :
    txArmed st' b = true ∧ txArmed st' b.other = txArmed st b.other := by
  cases st <;> cases h <;> decide

/-- A completion disarms its bank, or refills it, and leaves the other (R138). -/
theorem completionTable_disarms_one {st st' : TxState} {c : Bank} {empty refill : Bool}
    (h : completionTable st c empty = .ok (refill, st')) :
    txArmed st' c = refill ∧ txArmed st' c.other = txArmed st c.other := by
  unfold completionTable at h
  split at h <;> cases h <;> decide +revert

end Sys2Proof.Machine
end

section
/-! Every change keeps Ownership (R44), so every instruction does. -/

namespace Sys2Proof.Machine

theorem State.SameStore.samePlaces {s t : State} (h : s.SameStore t) : s.SamePlaces t := by
  rw [h]
  exact ⟨rfl, rfl, rfl, rfl, rfl, rfl, rfl⟩

theorem State.SameStore.txBanksAgree {s t : State} (h : s.SameStore t) (hs : s.TxBanksAgree) : t.TxBanksAgree := by
  rw [h]
  exact hs

theorem allocPacket_txBanksAgree {s t : State} {p : Nat} (hs : s.TxBanksAgree) (ht : allocPacket s = some (p, t)) :
    t.TxBanksAgree := by
  rw [(allocPacket_frame _ _ _ ht).2]
  exact hs

theorem State.TxBanksAgree.release {s : State} (hs : s.TxBanksAgree) (h : Nat) : (s.release h).TxBanksAgree := by
  refine hs.congr ?_ (fun ep b _ => by rw [State.slot_release_tx]) ?_ <;> rw [State.release_frame]

theorem submitPacket_txBanksAgree {s t : State} {ep : Ep} {h : Nat} (hs : s.TxBanksAgree)
    (ht : submitPacket s ep h = .ok t) : t.TxBanksAgree := by
  obtain ⟨b, st, htable, -, rfl⟩ | ⟨-, rfl⟩ := submitPacket_cases ht
  · obtain ⟨hset, hother⟩ := submitTable_arms_one htable
    exact hs.set rfl (fun _ _ => rfl) rfl hset.symm hother
  · rw [State.enqueueTx_eq]
    exact hs

theorem txDone_txBanksAgree {s t : State} {ep : Ep} {c : Bank} (hs : s.TxBanksAgree) (ht : txDone s ep c = .ok t) :
    t.TxBanksAgree := by
  have hcfg (h : Nat) : (s.txReleased ep c h).cfg = s.cfg := by rw [State.txReleased, State.release_frame]; rfl
  have hstate (h : Nat) : (s.txReleased ep c h).txState = s.txState := by
    rw [State.txReleased, State.release_frame]; rfl
  have hslot (h : Nat) (ep' : Ep) (b : Bank) := (s.setSlot ep .tx c Slot.cleared).slot_release_tx h ep' b
  obtain ⟨h, st, -, -, ⟨-, htable, rfl⟩ | ⟨q, rest, -, htable, rfl⟩⟩ := txDone_cases ht
  · obtain ⟨hset, hother⟩ := completionTable_disarms_one htable
    refine hs.set (hcfg h) (hslot h) ?_ hset.symm hother
    rw [State.setTxState_txState, hstate]
  · obtain ⟨hset, hother⟩ := completionTable_disarms_one htable
    refine hs.set (x := ⟨armedDesc (((s.txReleased ep c h).header q).len.setWidth 10) (bankToggle c), .pool q⟩)
      (hcfg h) (fun ep' b => ?_) ?_ hset.symm hother
    · refine (State.slot_setSlot _ _ _ _ _ _ _ _).trans ?_
      rw [hslot, ← State.slot_setSlot, State.setSlot_setSlot]
    · rw [State.setTxState_txState, ← hstate h]
      rfl

theorem refillRx_txBanksAgree {s t : State} {ep : Ep} {b : Bank} (hs : s.TxBanksAgree)
    (ht : refillRx s ep b = .ok t) : t.TxBanksAgree := by
  have hslot (u : State) (x : Slot) (ep' : Ep) (b' : Bank) :
      (u.setSlot ep .rx b x).slot ep' .tx b' = u.slot ep' .tx b' :=
    State.slot_setSlot_other _ _ _ _ _ _ _ _ fun h => Dir.noConfusion h.2.1
  obtain ⟨-, ⟨p, u, hu, rfl⟩ | ⟨-, rfl⟩⟩ := refillRx_cases ht
  · exact (allocPacket_txBanksAgree hs hu).congr rfl (fun ep' b' _ => congrArg (·.addr.isPool) (hslot u _ ep' b')) rfl
  · exact hs.congr rfl (fun ep' b' _ => congrArg (·.addr.isPool) (hslot s _ ep' b')) rfl

theorem rxDone_txBanksAgree {s t : State} {ep : Ep} {b : Bank} {n : BitVec 10} (hs : s.TxBanksAgree)
    (ht : rxDone s ep b n = .ok t) : t.TxBanksAgree := by
  obtain ⟨h, -, -, rfl | ht⟩ := rxDone_cases ht
  · refine hs.congr rfl (fun ep' b' _ => ?_) rfl
    rw [State.slot_setSlot_other _ _ _ _ _ _ _ _ fun h => Dir.noConfusion h.2.1]
  · refine refillRx_txBanksAgree ?_ ht
    rw [acceptRx_eq]
    exact hs

theorem State.busReset_txBanksAgree (s : State) : s.busReset.TxBanksAgree := fun ep hep b => by
  have hcfg : s.busReset.cfg = s.cfg := by rw [s.busReset_frame]
  rw [hcfg] at hep
  obtain ⟨hslot, -, -, -, -, -, -, -, hstate, -⟩ := s.busReset_arrays ep
  rw [hslot hep, hstate, if_pos hep]
  rfl

theorem bothFree_not_armed (st : TxState) (b : Bank) : txArmed (bothFree st) b = false := by
  cases st <;> rfl

/-- Re-seeding leaves the TX slots of the data endpoints cleared and both their banks free (R261, R262). -/
theorem reconfigure_tx {s t : State} {v : Byte} (ht : reconfigure s v = .ok t) {ep : Ep}
    (hep : isDataEp s.cfg ep = true) (b : Bank) :
    t.slot ep .tx b = Slot.cleared ∧ txArmed (epGet t.txState ep) b = false := by
  obtain ⟨-, -, -, hstate, -⟩ := reconfigure_arrays ht ep
  refine ⟨?_, ?_⟩
  · rw [reconfigure_slot ht b (Dir.noConfusion : Dir.tx = .rx → _), if_pos hep]
  · rw [hstate, if_pos hep, bothFree_not_armed]

theorem reconfigure_txBanksAgree {s t : State} {v : Byte} (ht : reconfigure s v = .ok t) : t.TxBanksAgree :=
  fun ep hep b => by
    have hcfg : t.cfg = s.cfg := by rw [reconfigure_frame s t v ht]
    obtain ⟨hslot, harmed⟩ := reconfigure_tx ht (hcfg ▸ hep) b
    rw [hslot, harmed]
    rfl

/-! ### Every change -/

theorem State.Ownership.placed_change {s t : State} (hs : s.Ownership) (h : s.Change t) : t.Placed := by
  cases h with
  | same h => exact hs.placed.congr h.samePlaces
  | taken h => exact allocPacket_placed hs.placed h
  | released hown => exact hs.placed.release hown
  | filled _ len => exact hs.placed.congr ⟨rfl, List.length_set, rfl, rfl, rfl, rfl, rfl⟩
  | submitted hep hown ht => exact submitPacket_placed hs hep hown ht
  | rxTaken hq => exact takeRx_placed hs.placed hq
  | txDone hep ht => exact txDone_placed hs.placed hep ht
  | rxDone hep ht => exact rxDone_placed hs.placed hep ht
  | busReset => exact hs.busReset_placed
  | reconfigured ht => exact hs.reconfigure_placed ht
  | ep0Slot d b hpool hreleased =>
    refine hs.placed.setSlot_keep (fun h => ?_) hreleased
    have hold : (s.slot 0 d b).addr.isPool = false := (hs.elsewhere 0 (isDataEp_zero s.cfg)).2.2 d b
    constructor <;> intro haddr
    · cases (congrArg BufRef.isPool haddr).symm.trans hpool
    · cases (congrArg BufRef.isPool haddr).symm.trans hold
  | completed _ _ hlow =>
    exact hs.placed.setSlot_keep (fun h => Iff.rfl) fun h => absurd (congrArg Desc.low h) hlow

theorem State.Ownership.txBanksAgree_change {s t : State} (hs : s.Ownership) (h : s.Change t) : t.TxBanksAgree := by
  have hbanks : s.TxBanksAgree := hs.txBanks
  cases h with
  | same h => exact h.txBanksAgree hbanks
  | taken h => exact allocPacket_txBanksAgree hbanks h
  | released => exact hbanks.release _
  | filled | rxTaken => exact hbanks
  | submitted _ _ ht => exact submitPacket_txBanksAgree hbanks ht
  | txDone _ ht => exact txDone_txBanksAgree hbanks ht
  | rxDone _ ht => exact rxDone_txBanksAgree hbanks ht
  | busReset => exact s.busReset_txBanksAgree
  | reconfigured ht => exact reconfigure_txBanksAgree ht
  | ep0Slot d b =>
    refine hbanks.congr rfl (fun ep b' hep => ?_) rfl
    rw [State.slot_setSlot_other _ _ _ _ _ _ _ _ fun h => isDataEp_ne_zero _ _ hep h.1]
  | completed =>
    refine hbanks.congr rfl (fun ep b' hep => ?_) rfl
    rw [State.slot_setSlot]
    split
    · next heq => obtain ⟨rfl, rfl, rfl⟩ := heq; rfl
    · rfl

theorem State.Ownership.change {s t : State} (hs : s.Ownership) (h : s.Change t) : t.Ownership :=
  (hs.placed_change h).ownership (hs.txBanksAgree_change h)

/-- Settles O50: every change keeps Ownership, and an instruction is a chain of changes. -/
theorem ownershipKept : Obligations.OwnershipKept := fun _ _ _ hs ht =>
  (exec_changes ht).induct State.Ownership.change hs

end Sys2Proof.Machine
end

section
/-! Packets wait in a TX FIFO only while both banks are armed (R45(b)), and what the SIE owns carries its bank's toggle
(R134): every change keeps both. -/

namespace Sys2Proof.Machine

/-! ### Frames of the changes -/

theorem refillRx_frame {s t : State} {ep : Ep} {b : Bank} (ht : refillRx s ep b = .ok t) :
    t = { s with
      free := t.free
      owner := t.owner
      pkt := t.pkt
      mem := t.mem
      bdt := t.bdt
      rxNeeded := t.rxNeeded
      draws := t.draws
      drawn := t.drawn } := by
  obtain ⟨-, ⟨p, u, hu, rfl⟩ | ⟨-, rfl⟩⟩ := refillRx_cases ht
  · rw [(allocPacket_frame _ _ _ hu).2]
    rfl
  · rfl

theorem rxDone_frame {s t : State} {ep : Ep} {b : Bank} {n : BitVec 10} (ht : rxDone s ep b n = .ok t) :
    t = { s with
      free := t.free
      owner := t.owner
      pkt := t.pkt
      mem := t.mem
      bdt := t.bdt
      rxq := t.rxq
      rxBytes := t.rxBytes
      rxNeeded := t.rxNeeded
      draws := t.draws
      drawn := t.drawn } := by
  obtain ⟨h, -, -, rfl | ht⟩ := rxDone_cases ht
  · rfl
  · have hframe := refillRx_frame ht
    rw [acceptRx_eq] at hframe
    rw [hframe]

theorem State.txReleased_frame (s : State) (ep : Ep) (c : Bank) (h : Nat) :
    s.txReleased ep c h = { s with
      free := (s.txReleased ep c h).free
      owner := (s.txReleased ep c h).owner
      bdt := (s.txReleased ep c h).bdt
      rxNeeded := (s.txReleased ep c h).rxNeeded } := by
  have hframe := (s.setSlot ep .tx c Slot.cleared).release_frame h
  rw [State.txReleased, hframe]
  rfl

/-! ### The gate (R45(b)) -/

/-- The FIFO and the bank state of one endpoint have changed together. -/
theorem State.QueueGate.set {s t : State} {ep : Ep} {st : TxState} (hs : s.QueueGate)
    (hstate : t.txState = epPut s.txState ep st) (hother : ∀ ep', ep' ≠ ep → epGet t.txq ep' = epGet s.txq ep')
    (hgate : epGet t.txq ep ≠ [] → noneFree st = true) : t.QueueGate := fun ep' hq => by
  rw [hstate, epGet_epPut]
  by_cases heq : ep' = ep
  · subst heq
    rw [if_pos rfl]
    exact hgate hq
  · rw [if_neg heq]
    exact hs ep' (hother ep' heq ▸ hq)

theorem State.QueueGate.congr {s t : State} (hs : s.QueueGate) (htxq : t.txq = s.txq) (hstate : t.txState = s.txState) :
    t.QueueGate := fun ep hq => by
  rw [hstate]
  exact hs ep (htxq ▸ hq)

/-- The FIFOs of the data endpoints have been emptied; the other bank states are as they were. -/
theorem State.QueueGate.emptied {s t : State} (hs : s.QueueGate) (hempty : s.FifosEmptied t)
    (hstate : ∀ ep, isDataEp s.cfg ep = false → epGet t.txState ep = epGet s.txState ep) : t.QueueGate := fun ep hq => by
  have htxq := hempty.txq ep
  cases hep : isDataEp s.cfg ep with
  | true =>
    rw [if_pos hep] at htxq
    exact absurd htxq hq
  | false =>
    rw [if_neg (Bool.eq_false_iff.mp hep)] at htxq
    rw [hstate ep hep]
    exact hs ep (htxq ▸ hq)

/-- TX queues only when no bank is free (R135). -/
theorem submitTable_gate (st : TxState) : submitTable st = none ↔ noneFree st = true := by
  cases st <;> decide

/-- A bank is refilled only when no bank was free, and then none is (R138). -/
theorem completionTable_gate {st st' : TxState} {c : Bank} (h : completionTable st c false = .ok (true, st')) :
    noneFree st' = true := by
  revert h
  cases st <;> cases c <;> rintro ⟨⟩ <;> rfl

theorem submitPacket_queueGate {s t : State} {ep : Ep} {h : Nat} (hs : s.QueueGate)
    (ht : submitPacket s ep h = .ok t) : t.QueueGate := by
  obtain ⟨b, st, htable, -, rfl⟩ | ⟨htable, rfl⟩ := submitPacket_cases ht
  · refine hs.set rfl (fun _ _ => rfl) fun hq => ?_
    cases ((submitTable_gate _).mpr (hs ep hq)).symm.trans htable
  · refine hs.set (ep := ep) (st := epGet s.txState ep) ?_ (fun ep' hne => ?_) fun _ => (submitTable_gate _).mp htable
    · rw [State.enqueueTx_eq, epPut_epGet]
      rfl
    · rw [State.enqueueTx_eq]
      exact epGet_epPut_other _ _ _ _ hne

theorem txDone_queueGate {s t : State} {ep : Ep} {c : Bank} (hs : s.QueueGate) (ht : txDone s ep c = .ok t) :
    t.QueueGate := by
  obtain ⟨h, st, -, -, ⟨hq, -, rfl⟩ | ⟨q, rest, -, htable, rfl⟩⟩ := txDone_cases ht
  · rw [State.txReleased_frame]
    exact hs.set rfl (fun _ _ => rfl) fun hne => absurd hq hne
  · rw [State.txReleased_frame]
    exact hs.set rfl (fun ep' hne => epGet_epPut_other _ _ _ _ hne) fun _ => completionTable_gate htable

theorem State.QueueGate.change {s t : State} (hs : s.QueueGate) (h : s.Change t) : t.QueueGate := by
  cases h with
  | same h =>
    rw [h]
    exact hs
  | taken h =>
    rw [(allocPacket_frame _ _ _ h).2]
    exact hs
  | released =>
    rw [State.release_frame]
    exact hs
  | filled | rxTaken | ep0Slot | completed => exact hs
  | submitted _ _ ht => exact submitPacket_queueGate hs ht
  | txDone _ ht => exact txDone_queueGate hs ht
  | rxDone _ ht =>
    rw [rxDone_frame ht]
    exact hs
  | busReset =>
    refine hs.emptied s.busReset_fifosEmptied fun ep hep => ?_
    obtain ⟨-, -, -, -, -, -, -, -, hstate, -⟩ := s.busReset_arrays ep
    exact hstate.trans (if_neg (Bool.eq_false_iff.mp hep))
  | reconfigured ht =>
    refine hs.emptied (reconfigure_fifosEmptied ht) fun ep hep => ?_
    obtain ⟨-, -, -, hstate, -⟩ := reconfigure_arrays ht ep
    exact hstate.trans (if_neg (Bool.eq_false_iff.mp hep))

/-! ### The toggles (R134) -/

/-- Writing a slot with its bank's toggle, or not for the SIE. -/
theorem State.TogglesFollowBanks.setSlot {s : State} {ep : Ep} {d : Dir} {b : Bank} {x : Slot}
    (hs : s.TogglesFollowBanks)
    (hx : isDataEp s.cfg ep = true → x.desc.own = true → x.desc.data1 = bankToggle b) :
    (s.setSlot ep d b x).TogglesFollowBanks := fun ep' hep d' b' => by
  rw [State.slot_setSlot]
  split
  · next heq =>
    obtain ⟨rfl, -, rfl⟩ := heq
    exact hx hep
  · exact hs ep' hep d' b'

theorem State.TogglesFollowBanks.release {s : State} (hs : s.TogglesFollowBanks) (h : Nat) :
    (s.release h).TogglesFollowBanks := by
  unfold State.release
  split
  · cases ht : s.redirectTarget with
    | none =>
      rw [State.redirect_none s h ht]
      exact hs
    | some target =>
      rw [State.redirect_some s h _ _ ht]
      exact hs.setSlot fun _ _ => rfl
  · exact hs

theorem submitPacket_toggles {s t : State} {ep : Ep} {h : Nat} (hs : s.TogglesFollowBanks)
    (ht : submitPacket s ep h = .ok t) : t.TogglesFollowBanks := by
  obtain ⟨b, st, -, -, rfl⟩ | ⟨-, rfl⟩ := submitPacket_cases ht
  · exact hs.setSlot fun _ _ => rfl
  · rw [State.enqueueTx_eq]
    exact hs

theorem txDone_toggles {s t : State} {ep : Ep} {c : Bank} (hs : s.TogglesFollowBanks) (ht : txDone s ep c = .ok t) :
    t.TogglesFollowBanks := by
  have hcleared := hs.setSlot (ep := ep) (d := .tx) (b := c) (x := Slot.cleared) fun _ h => Bool.noConfusion h
  obtain ⟨h, st, -, -, ⟨-, -, rfl⟩ | ⟨q, rest, -, -, rfl⟩⟩ := txDone_cases ht
  · exact hcleared.release h
  · exact (hcleared.release h).setSlot fun _ _ => rfl

theorem rxDone_toggles {s t : State} {ep : Ep} {b : Bank} {n : BitVec 10} (hs : s.TogglesFollowBanks)
    (ht : rxDone s ep b n = .ok t) : t.TogglesFollowBanks := by
  obtain ⟨h, -, -, rfl | ht⟩ := rxDone_cases ht
  · exact hs.setSlot fun _ _ => rfl
  · have haccepted : (acceptRx s ep h n).TogglesFollowBanks := by
      rw [acceptRx_eq]
      exact hs
    obtain ⟨-, ⟨p, u, hu, rfl⟩ | ⟨-, rfl⟩⟩ := refillRx_cases ht
    · rw [(allocPacket_frame _ _ _ hu).2]
      exact haccepted.setSlot fun _ _ => rfl
    · exact haccepted.setSlot fun _ h => Bool.noConfusion h

theorem seedSlot_toggles {s t : State} {ep : Ep} {b : Bank} (hs : s.TogglesFollowBanks)
    (ht : seedSlot s ep b = .ok t) : t.TogglesFollowBanks := by
  unfold seedSlot at ht
  split at ht
  · next p u hu =>
    split at ht <;> cases ht
    next v hv =>
      obtain ⟨-, rfl⟩ := (arm_ok _ _ _ _ _ _ _ _).mp hv
      rw [(allocPacket_frame _ _ _ hu).2]
      exact hs.setSlot fun _ _ => rfl
  · cases ht
    exact hs

theorem seedSlots_toggles {l : List (Ep × Bank)} {s t : State} (hs : s.TogglesFollowBanks)
    (ht : seedSlots l s = .ok t) : t.TogglesFollowBanks := by
  induction l generalizing s with
  | nil =>
    cases ht
    exact hs
  | cons x l ih =>
    rw [seedSlots] at ht
    split at ht
    · next u hu => exact ih (seedSlot_toggles hs hu) ht
    · cases ht

/-- Cleared slots carry no toggle, and there is no other on the data endpoints before RX slots are seeded. -/
theorem State.unseeded_toggles (s : State) (v : Byte) : (s.unseeded v).TogglesFollowBanks := fun ep hep d b hown => by
  obtain ⟨hframe, harrays⟩ := s.unseeded_spec v
  rw [hframe] at hep
  rw [(harrays ep).1, if_pos hep] at hown
  cases hown

theorem State.busReset_toggles (s : State) : s.busReset.TogglesFollowBanks := fun ep hep d b hown => by
  rw [s.busReset_frame] at hep
  rw [(s.busReset_arrays ep).1 hep] at hown
  cases hown

theorem State.TogglesFollowBanks.change {s t : State} (hs : s.TogglesFollowBanks) (h : s.Change t) :
    t.TogglesFollowBanks := by
  cases h with
  | same h =>
    rw [h]
    exact hs
  | taken h =>
    rw [(allocPacket_frame _ _ _ h).2]
    exact hs
  | released => exact hs.release _
  | filled | rxTaken => exact hs
  | submitted _ _ ht => exact submitPacket_toggles hs ht
  | txDone _ ht => exact txDone_toggles hs ht
  | rxDone _ ht => exact rxDone_toggles hs ht
  | busReset => exact s.busReset_toggles
  | reconfigured ht => exact seedSlots_toggles (s.unseeded_toggles _) ht
  | ep0Slot => exact hs.setSlot fun hep => by cases hep
  | completed _ hx => exact hs.setSlot fun _ hown => by cases hx.symm.trans hown

/-- Settles O49: every change keeps both, and an instruction is a chain of changes. -/
theorem gateAndTogglesKept : Obligations.GateAndTogglesKept := fun _ _ _ ht =>
  ⟨(exec_changes ht).induct State.QueueGate.change, (exec_changes ht).induct State.TogglesFollowBanks.change⟩

end Sys2Proof.Machine
end

section
/-! The RX byte counts are exact (R45(a)) and the links agree with the FIFOs (R27): every change keeps both, given
Ownership, which keeps a packet in one FIFO at most. -/

namespace Sys2Proof.Machine

/-! ### Headers -/

theorem State.header_of_pkt_set {s t : State} {p : Nat} {x : Header} (ht : t.pkt = s.pkt.set p x) {g : Nat}
    (hne : g ≠ p) : t.header g = s.header g := by
  rw [State.header, ht, State.header, List.getD_eq_getElem?_getD, List.getElem?_set_ne hne.symm,
    List.getD_eq_getElem?_getD]

theorem State.header_of_pkt_eq {s t : State} (ht : t.pkt = s.pkt) : t.header = s.header := by
  funext g
  rw [State.header, ht, State.header]

theorem State.header_linkLast_other {s : State} {q : List Nat} {h g : Nat} (hq : g ∉ q) (hne : g ≠ h) :
    (s.linkLast q h).header g = s.header g := by
  have hfirst : (s.setNext h none).header g = s.header g := State.header_of_pkt_set rfl hne
  unfold State.linkLast
  cases hl : q.getLast? with
  | none => exact hfirst
  | some l =>
    exact (State.header_of_pkt_set rfl (ne_of_mem_of_not_mem (List.mem_of_getLast? hl) hq).symm).trans hfirst

/-- The packet appended is the end. -/
theorem State.next_linkLast_end {s : State} {q : List Nat} {h : Nat} (hq : h ∉ q) (hlt : h < s.pkt.length) :
    ((s.linkLast q h).header h).next = none := by
  have hfirst : ((s.setNext h none).header h).next = none := by
    rw [State.setNext_eq, State.header_setHeader _ _ _ _ hlt, if_pos rfl]
  unfold State.linkLast
  cases hl : q.getLast? with
  | none => exact hfirst
  | some l =>
    refine (congrArg Header.next ?_).trans hfirst
    exact State.header_of_pkt_set rfl (ne_of_mem_of_not_mem (List.mem_of_getLast? hl) hq).symm

/-- The end before points to it. -/
theorem State.next_linkLast_last {s : State} {q : List Nat} {h l : Nat} (hl : q.getLast? = some l)
    (hlt : l < s.pkt.length) : ((s.linkLast q h).header l).next = some h := by
  rw [State.linkLast, hl]
  have hlt' : l < (s.setNext h none).pkt.length := by simpa using hlt
  show (((s.setNext h none).setNext l (some h)).header l).next = some h
  rw [State.setNext_eq, State.header_setHeader _ _ _ _ hlt', if_pos rfl]

/-- The others keep their links. -/
theorem State.header_linkLast_dropLast {s : State} {q : List Nat} {h g : Nat} (hq : q.Nodup) (hg : g ∈ q.dropLast)
    (hne : g ≠ h) : (s.linkLast q h).header g = s.header g := by
  have hfirst : (s.setNext h none).header g = s.header g := State.header_of_pkt_set rfl hne
  unfold State.linkLast
  cases hl : q.getLast? with
  | none => exact hfirst
  | some l =>
    refine (State.header_of_pkt_set rfl fun heq => ?_).trans hfirst
    rw [← List.dropLast_append_getLast? l hl] at hq
    exact List.disjoint_of_nodup_append hq hg (heq ▸ List.mem_singleton_self l)

/-! ### Links (R27) -/

theorem State.linked_nil (s : State) : s.Linked [] := fun k hk => absurd hk (Nat.not_lt_zero k)

theorem State.linked_cons {s : State} {p : Nat} {q : List Nat} :
    s.Linked (p :: q) ↔ (s.header p).next = q.head? ∧ s.Linked q := by
  constructor
  · intro h
    refine ⟨(h 0 (Nat.succ_pos _)).trans (List.head?_eq_getElem? (l := q)).symm, fun k hk => ?_⟩
    exact h (k + 1) (Nat.succ_lt_succ hk)
  · rintro ⟨hhead, hrest⟩ k hk
    cases k with
    | zero => exact hhead.trans List.head?_eq_getElem?
    | succ k => exact hrest k (Nat.lt_of_succ_lt_succ hk)

theorem State.Linked.congr {s t : State} {q : List Nat} (hs : s.Linked q)
    (h : ∀ g ∈ q, (t.header g).next = (s.header g).next) : t.Linked q := fun k hk =>
  (h _ (List.getElem_mem hk)).trans (hs k hk)

theorem State.Linked.concat {s t : State} {q : List Nat} {h : Nat} (hs : s.Linked q)
    (hkept : ∀ g ∈ q.dropLast, (t.header g).next = (s.header g).next)
    (hlast : ∀ l, q.getLast? = some l → (t.header l).next = some h) (hend : (t.header h).next = none) :
    t.Linked (q ++ [h]) := by
  induction q with
  | nil => exact State.linked_cons.mpr ⟨hend, t.linked_nil⟩
  | cons p q ih =>
    obtain ⟨hp, hq⟩ := State.linked_cons.mp hs
    cases q with
    | nil => exact State.linked_cons.mpr ⟨hlast p rfl, State.linked_cons.mpr ⟨hend, t.linked_nil⟩⟩
    | cons p' q =>
      refine State.linked_cons.mpr ⟨(hkept p List.mem_cons_self).trans hp, ih hq (fun g hg => ?_) fun l hl => ?_⟩
      · exact hkept g (List.mem_cons_of_mem p hg)
      · exact hlast l (List.getLast?_cons_cons.trans hl)

/-- Appending a packet that is not in the FIFO. -/
theorem State.Linked.linkLast {s : State} {q : List Nat} {h : Nat} (hs : s.Linked q) (hnodup : q.Nodup) (hq : h ∉ q)
    (hlt : ∀ g ∈ q, g < s.pkt.length) (hh : h < s.pkt.length) : (s.linkLast q h).Linked (q ++ [h]) := by
  refine hs.concat (fun g hg => ?_) (fun l hl => State.next_linkLast_last hl (hlt l (List.mem_of_getLast? hl)))
    (State.next_linkLast_end hq hh)
  rw [State.header_linkLast_dropLast hnodup hg (ne_of_mem_of_not_mem (List.mem_of_mem_dropLast hg) hq)]

/-- R27 for every FIFO. -/
def State.Links (s : State) : Prop := ∀ ep d, s.Linked (s.fifo ep d)

theorem State.linksAgree_iff (s : State) : s.LinksAgree ↔ s.Links := by
  constructor
  · intro h ep d
    cases d with
    | rx => exact (h ep).2
    | tx => exact (h ep).1
  · exact fun h ep => ⟨h ep .tx, h ep .rx⟩

/-! ### Packets of a FIFO -/

/-- A packet is in one FIFO at most. -/
theorem State.Placed.fifo_eq {s : State} {ep ep' : Ep} {d d' : Dir} {h : Nat} (hs : s.Placed) (hq : h ∈ s.fifo ep d)
    (hq' : h ∈ s.fifo ep' d') : ep' = ep ∧ d' = d := by
  have howner := ((hs.place h (.queue ep d)).mp hq).2
  have howner' := ((hs.place h (.queue ep' d')).mp hq').2
  cases howner.symm.trans howner'
  exact ⟨rfl, rfl⟩

/-- A packet at another place is in no FIFO. -/
theorem State.Placed.not_mem_fifo {s : State} {h : Nat} {x : Owner} (hs : s.Placed) (hx : s.At h x)
    (hne : ∀ ep d, x ≠ .queue ep d) (ep : Ep) (d : Dir) : h ∉ s.fifo ep d :=
  hs.not_at (y := .queue ep d) hx fun heq => hne ep d heq.symm

/-- `t` has the FIFOs and the counts of `s`, and the headers of the packets in them. -/
structure State.QueuesKept (s t : State) : Prop where
  rxq : t.rxq = s.rxq
  txq : t.txq = s.txq
  rxBytes : t.rxBytes = s.rxBytes
  header : ∀ ep d, ∀ g ∈ s.fifo ep d, t.header g = s.header g

theorem State.QueuesKept.fifo {s t : State} (h : s.QueuesKept t) : t.fifo = s.fifo := by
  funext ep d
  rw [State.fifo, h.rxq, h.txq, State.fifo]

theorem State.QueuesKept.links {s t : State} (h : s.QueuesKept t) (hs : s.Links) : t.Links := fun ep d => by
  rw [h.fifo]
  exact (hs ep d).congr fun g hg => by rw [h.header ep d g hg]

theorem State.QueuesKept.rxBytesExact {s t : State} (h : s.QueuesKept t) (hs : s.RxBytesExact) : t.RxBytesExact :=
  fun ep => by
    rw [h.rxBytes, h.rxq, hs ep]
    exact State.sumLens_congr _ _ _ fun g hg => by rw [h.header ep .rx g hg]

/-- Writing the header of a packet that is in no FIFO. -/
theorem State.QueuesKept.of_pkt_set {s t : State} {p : Nat} {x : Header} (hrxq : t.rxq = s.rxq) (htxq : t.txq = s.txq)
    (hbytes : t.rxBytes = s.rxBytes) (hpkt : t.pkt = s.pkt.set p x) (hp : ∀ ep d, p ∉ s.fifo ep d) :
    s.QueuesKept t :=
  ⟨hrxq, htxq, hbytes, fun ep d _ hg => State.header_of_pkt_set hpkt (ne_of_mem_of_not_mem hg (hp ep d))⟩

/-- Writing no header. -/
theorem State.QueuesKept.of_pkt_eq {s t : State} (hrxq : t.rxq = s.rxq) (htxq : t.txq = s.txq)
    (hbytes : t.rxBytes = s.rxBytes) (hpkt : t.pkt = s.pkt) : s.QueuesKept t :=
  ⟨hrxq, htxq, hbytes, fun _ _ g _ => congrFun (State.header_of_pkt_eq hpkt) g⟩

/-! ### Links through the changes -/

/-- A packet that was in no FIFO is now the end of one; its own header may have been written before (`u`). -/
theorem State.Placed.links_enqueued {s t u : State} {ep : Ep} {d : Dir} {h : Nat} (hs : s.Placed) (hlinks : s.Links)
    (hlt : h < s.cfg.nPackets) (hout : ∀ ep d, h ∉ s.fifo ep d) (hlen : u.pkt.length = s.pkt.length)
    (hu : ∀ g, g ≠ h → u.header g = s.header g) (hpkt : t.pkt = (u.linkLast (s.fifo ep d) h).pkt)
    (hfifo : ∀ ep' d', t.fifo ep' d' = if ep' = ep ∧ d' = d then s.fifo ep d ++ [h] else s.fifo ep' d') :
    t.Links := fun ep' d' => by
  have hheader : t.header = (u.linkLast (s.fifo ep d) h).header := State.header_of_pkt_eq hpkt
  have hkept (ep' : Ep) (d' : Dir) : u.Linked (s.fifo ep' d') :=
    (hlinks ep' d').congr fun g hg => by rw [hu g (ne_of_mem_of_not_mem hg (hout ep' d'))]
  have hin (g : Nat) (hg : g ∈ s.fifo ep d) : g < u.pkt.length := by
    rw [hlen, hs.headers]
    exact ((hs.place g (.queue ep d)).mp hg).1
  rw [hfifo]
  split
  · have hlinked := (hkept ep d).linkLast (hs.once ep d) (hout ep d) hin (hlen ▸ hs.headers ▸ hlt)
    exact hlinked.congr fun g _ => by rw [hheader]
  · next hne =>
    refine (hkept ep' d').congr fun g hg => ?_
    rw [hheader, State.header_linkLast_other (fun hq => hne (hs.fifo_eq hq hg)) (ne_of_mem_of_not_mem hg (hout ep' d'))]

/-- The head of a FIFO has been taken, and its header written. -/
theorem State.Placed.links_dequeued {s t : State} {ep : Ep} {d : Dir} {h : Nat} {rest : List Nat} {x : Header}
    (hs : s.Placed) (hlinks : s.Links) (hq : s.fifo ep d = h :: rest) (hpkt : t.pkt = s.pkt.set h x)
    (hfifo : ∀ ep' d', t.fifo ep' d' = if ep' = ep ∧ d' = d then rest else s.fifo ep' d') : t.Links :=
  fun ep' d' => by
    obtain ⟨hnot, -⟩ := List.nodup_cons.mp (hq ▸ hs.once ep d)
    have hrest := (State.linked_cons.mp (hq ▸ hlinks ep d)).2
    have hmem : h ∈ s.fifo ep d := hq ▸ List.mem_cons_self
    rw [hfifo]
    split
    · exact hrest.congr fun g hg => by rw [State.header_of_pkt_set hpkt (ne_of_mem_of_not_mem hg hnot)]
    · next hne =>
      refine (hlinks ep' d').congr fun g hg => ?_
      have hnot : h ∉ s.fifo ep' d' := fun hmem' => hne (hs.fifo_eq hmem hmem')
      rw [State.header_of_pkt_set hpkt (ne_of_mem_of_not_mem hg hnot)]

/-- FIFOs that are all empty are linked. -/
theorem State.links_of_empty {s : State} (h : ∀ ep d, s.fifo ep d = []) : s.Links := fun ep d => h ep d ▸ s.linked_nil

theorem allocPacket_queuesKept {s t : State} {p : Nat} (ht : allocPacket s = some (p, t))
    (hout : ∀ ep d, p ∉ s.fifo ep d) : s.QueuesKept t := by
  obtain ⟨-, hframe⟩ := allocPacket_frame _ _ _ ht
  refine .of_pkt_set ?_ ?_ ?_ (congrArg State.pkt hframe) hout
  all_goals rw [hframe]

theorem State.Placed.taken_queuesKept {s t : State} {p : Nat} (hs : s.Placed) (ht : allocPacket s = some (p, t)) :
    s.QueuesKept t := by
  obtain ⟨hfree, -⟩ := allocPacket_frame _ _ _ ht
  exact allocPacket_queuesKept ht (hs.not_mem_fifo (x := .pool) hfree fun _ _ => Owner.noConfusion)

theorem State.Placed.filled_queuesKept {s : State} {h : Nat} (hs : s.Placed) (hown : s.callerOwns h = true)
    (x : Header) : s.QueuesKept (s.setHeader h x) := by
  have hown := (s.callerOwns_iff h).mp hown
  exact .of_pkt_set rfl rfl rfl (s.setHeader_pkt h x)
    (hs.not_mem_fifo (x := .caller) hown fun _ _ => Owner.noConfusion)

theorem State.release_queuesKept (s : State) (h : Nat) : s.QueuesKept (s.release h) := by
  rw [State.release_frame]
  exact .of_pkt_eq rfl rfl rfl rfl

theorem State.QueuesKept.trans {s t u : State} (h : s.QueuesKept t) (h' : t.QueuesKept u) : s.QueuesKept u where
  rxq := h'.rxq.trans h.rxq
  txq := h'.txq.trans h.txq
  rxBytes := h'.rxBytes.trans h.rxBytes
  header ep d g hg := (h'.header ep d g (h.fifo ▸ hg)).trans (h.header ep d g hg)

theorem submitPacket_links {s t : State} {ep : Ep} {h : Nat} (hs : s.Placed) (hlinks : s.Links)
    (hown : s.callerOwns h = true) (ht : submitPacket s ep h = .ok t) : t.Links := by
  have hown := (s.callerOwns_iff h).mp hown
  obtain ⟨b, st, -, -, rfl⟩ | ⟨-, rfl⟩ := submitPacket_cases ht
  · exact (State.QueuesKept.of_pkt_eq (s := s) rfl rfl rfl rfl).links hlinks
  · rw [State.enqueueTx_eq]
    exact hs.links_enqueued (d := .tx) (u := s) hlinks hown.1
      (hs.not_mem_fifo (x := .caller) hown fun _ _ => Owner.noConfusion) rfl (fun _ _ => rfl) rfl
      (s.fifo_setFifo ep · .tx · _)

theorem takeRx_links {s : State} {ep : Ep} {h : Nat} {rest : List Nat} (hs : s.Placed) (hlinks : s.Links)
    (hq : epGet s.rxq ep = h :: rest) : (takeRx s ep h rest).Links :=
  hs.links_dequeued (d := .rx) hlinks hq rfl (s.fifo_setFifo ep · .rx · rest)

theorem txDone_links {s t : State} {ep : Ep} {c : Bank} (hs : s.Placed) (hlinks : s.Links)
    (ht : txDone s ep c = .ok t) : t.Links := by
  obtain ⟨h, st, haddr, -, ⟨-, -, rfl⟩ | ⟨q, rest, hq, -, rfl⟩⟩ := txDone_cases ht
  · rw [State.txReleased_frame]
    exact (State.QueuesKept.of_pkt_eq (s := s) rfl rfl rfl rfl).links hlinks
  · rw [State.txReleased_frame]
    exact hs.links_dequeued (d := .tx) hlinks hq rfl (s.fifo_setFifo ep · .tx · rest)

theorem acceptRx_links {s : State} {ep : Ep} {b : Bank} {h : Nat} (n : BitVec 10) (hs : s.Placed) (hlinks : s.Links)
    (haddr : (s.slot ep .rx b).addr = .pool h) : (acceptRx s ep h n).Links := by
  rw [acceptRx_eq]
  exact hs.links_enqueued (d := .rx) hlinks ((hs.place h (.slot ep .rx b)).mp haddr).1
    (hs.not_mem_fifo (x := .slot ep .rx b) haddr fun _ _ => Owner.noConfusion) List.length_set
    (fun g hne => State.header_of_pkt_set rfl hne) rfl (s.fifo_setFifo ep · .rx · _)

/-- Once a packet has been accepted, what the slot gets is in no FIFO. -/
theorem refillRx_queuesKept {s t : State} {ep : Ep} {b : Bank} (hs : (s.setSlot ep .rx b Slot.cleared).Placed)
    (ht : refillRx s ep b = .ok t) : s.QueuesKept t := by
  obtain ⟨-, ⟨p, u, hu, rfl⟩ | ⟨-, rfl⟩⟩ := refillRx_cases ht
  · obtain ⟨hfree, -⟩ := allocPacket_frame _ _ _ hu
    have hout := hs.not_mem_fifo (x := .pool) hfree fun _ _ => Owner.noConfusion
    exact (allocPacket_queuesKept hu hout).trans (.of_pkt_eq rfl rfl rfl rfl)
  · exact .of_pkt_eq rfl rfl rfl rfl

/-- An RX completion rearms its slot, or queues the packet it received and touches no other in a FIFO. -/
theorem rxDone_queues {s t : State} {ep : Ep} {b : Bank} {n : BitVec 10} (hs : s.Placed)
    (hep : isDataEp s.cfg ep = true) (ht : rxDone s ep b n = .ok t) :
    s.QueuesKept t ∨ ∃ h, (s.slot ep .rx b).addr = .pool h ∧ (acceptRx s ep h n).QueuesKept t := by
  obtain ⟨h, haddr, -, rfl | ht⟩ := rxDone_cases ht
  · exact .inl (.of_pkt_eq rfl rfl rfl rfl)
  · exact .inr ⟨h, haddr, refillRx_queuesKept (acceptRx_placed hs hep haddr) ht⟩

theorem rxDone_links {s t : State} {ep : Ep} {b : Bank} {n : BitVec 10} (hs : s.Placed) (hlinks : s.Links)
    (hep : isDataEp s.cfg ep = true) (ht : rxDone s ep b n = .ok t) : t.Links := by
  obtain hkept | ⟨h, haddr, hkept⟩ := rxDone_queues hs hep ht
  · exact hkept.links hlinks
  · exact hkept.links (acceptRx_links n hs hlinks haddr)

theorem State.Ownership.links_change {s t : State} (hs : s.Ownership) (hlinks : s.Links) (h : s.Change t) :
    t.Links := by
  have hplaced := hs.placed
  cases h with
  | same h =>
    rw [h]
    exact (State.QueuesKept.of_pkt_eq (s := s) rfl rfl rfl rfl).links hlinks
  | taken h => exact (hplaced.taken_queuesKept h).links hlinks
  | released => exact (s.release_queuesKept _).links hlinks
  | filled hown => exact (hplaced.filled_queuesKept hown _).links hlinks
  | submitted _ hown ht => exact submitPacket_links hplaced hlinks hown ht
  | rxTaken hq => exact takeRx_links hplaced hlinks hq
  | txDone _ ht => exact txDone_links hplaced hlinks ht
  | rxDone hep ht => exact rxDone_links hplaced hlinks hep ht
  | busReset => exact State.links_of_empty (hs.fifo_emptied s.busReset_fifosEmptied)
  | reconfigured ht => exact State.links_of_empty (hs.fifo_emptied (reconfigure_fifosEmptied ht))
  | ep0Slot | completed => exact (State.QueuesKept.of_pkt_eq (s := s) rfl rfl rfl rfl).links hlinks

/-! ### RX byte counts through the changes -/

/-- The RX FIFOs and counts are the same, and so are the lengths of the packets. -/
theorem State.RxBytesExact.congr {s t : State} (hs : s.RxBytesExact) (hrxq : t.rxq = s.rxq)
    (hbytes : t.rxBytes = s.rxBytes) (hlen : ∀ g, (t.header g).len = (s.header g).len) : t.RxBytesExact := fun ep => by
  rw [hbytes, hrxq, hs ep]
  exact State.sumLens_congr _ _ _ fun g _ => (hlen g).symm

theorem submitPacket_rxBytesExact {s t : State} {ep : Ep} {h : Nat} (hs : s.RxBytesExact)
    (ht : submitPacket s ep h = .ok t) : t.RxBytesExact := by
  obtain ⟨b, st, -, -, rfl⟩ | ⟨-, rfl⟩ := submitPacket_cases ht
  · exact hs
  · refine hs.congr ?_ ?_ fun g => ?_
    pick_goal 3
    · exact s.header_len_linkLast (epGet s.txq ep) h g
    all_goals rw [State.enqueueTx_eq]; rfl

theorem txDone_rxBytesExact {s t : State} {ep : Ep} {c : Bank} (hs : s.RxBytesExact) (ht : txDone s ep c = .ok t) :
    t.RxBytesExact := by
  obtain ⟨h, st, -, -, ⟨-, -, rfl⟩ | ⟨q, rest, -, -, rfl⟩⟩ := txDone_cases ht
  · rw [State.txReleased_frame]
    exact hs
  · rw [State.txReleased_frame]
    exact hs.congr rfl rfl fun g => s.header_len_setNext q g none

theorem takeRx_rxBytesExact {s : State} {ep : Ep} {h : Nat} {rest : List Nat} (hs : s.RxBytesExact)
    (hq : epGet s.rxq ep = h :: rest) : (takeRx s ep h rest).RxBytesExact := fun ep' => by
  have hlen (q : List Nat) : (takeRx s ep h rest).sumLens q = s.sumLens q :=
    State.sumLens_congr _ _ _ fun g _ => s.header_len_setNext h g none
  show epGet (epPut s.rxBytes ep (epGet s.rxBytes ep - (s.header h).len.setWidth 32)) ep' =
    (takeRx s ep h rest).sumLens (epGet (epPut s.rxq ep rest) ep')
  rw [hlen, epGet_epPut, epGet_epPut]
  split
  · rw [hs ep, hq, State.sumLens_cons, BitVec.add_comm, BitVec.add_sub_cancel]
  · exact hs ep'

theorem acceptRx_rxBytesExact {s : State} {ep : Ep} {h : Nat} (n : BitVec 10) (hs : s.RxBytesExact)
    (hlt : h < s.pkt.length) (hout : ∀ ep d, h ∉ s.fifo ep d) : (acceptRx s ep h n).RxBytesExact := fun ep' => by
  have hlen (g : Nat) : ((acceptRx s ep h n).header g).len =
      ((s.setHeader h { len := n.setWidth 16, index := 0, next := none }).header g).len := by
    rw [acceptRx_eq]
    exact State.header_len_linkLast _ _ _ g
  have hkept (ep' : Ep) : (acceptRx s ep h n).sumLens (epGet s.rxq ep') = s.sumLens (epGet s.rxq ep') := by
    refine State.sumLens_congr _ _ _ fun g hg => ?_
    rw [hlen, State.header_of_pkt_set rfl (ne_of_mem_of_not_mem hg (hout ep' .rx))]
  have hnew : ((acceptRx s ep h n).header h).len = n.setWidth 16 := by
    rw [hlen, State.header_setHeader _ _ _ _ hlt, if_pos rfl]
  have hframe := acceptRx_eq s ep h n
  have hrxq : (acceptRx s ep h n).rxq = epPut s.rxq ep (epGet s.rxq ep ++ [h]) := by rw [hframe]
  have hbytes : (acceptRx s ep h n).rxBytes = epPut s.rxBytes ep (epGet s.rxBytes ep + n.setWidth 32) := by rw [hframe]
  have hwide : (n.setWidth 16).setWidth 32 = n.setWidth 32 := by bv_omega
  rw [hrxq, hbytes, epGet_epPut, epGet_epPut]
  split
  · rw [State.sumLens_append, hkept, ← hs ep, State.sumLens_cons, hnew, State.sumLens_nil,
      hwide]
    exact congrArg _ (BitVec.add_zero _).symm
  · rw [hkept]
    exact hs ep'

theorem rxDone_rxBytesExact {s t : State} {ep : Ep} {b : Bank} {n : BitVec 10} (hs : s.Placed)
    (hbytes : s.RxBytesExact) (hep : isDataEp s.cfg ep = true) (ht : rxDone s ep b n = .ok t) : t.RxBytesExact := by
  obtain hkept | ⟨h, haddr, hkept⟩ := rxDone_queues hs hep ht
  · exact hkept.rxBytesExact hbytes
  · have hlt := ((hs.place h (.slot ep .rx b)).mp haddr).1
    exact hkept.rxBytesExact (acceptRx_rxBytesExact n hbytes (hs.headers ▸ hlt)
      (hs.not_mem_fifo (x := .slot ep .rx b) haddr fun _ _ => Owner.noConfusion))

/-- The RX FIFOs are empty, and the counts of the data endpoints 0. -/
theorem State.Ownership.rxBytesExact_emptied {s t : State} (hs : s.Ownership) (hbytes : s.RxBytesExact)
    (hempty : s.FifosEmptied t)
    (ht : ∀ ep, epGet t.rxBytes ep = if isDataEp s.cfg ep = true then 0 else epGet s.rxBytes ep) : t.RxBytesExact :=
  fun ep => by
    have hnil : epGet t.rxq ep = [] := hs.fifo_emptied hempty ep .rx
    rw [hnil, ht, State.sumLens_nil]
    split
    · rfl
    · next hep =>
      obtain ⟨-, hrxq, -⟩ := hs.elsewhere ep (Bool.eq_false_iff.mpr hep)
      rw [hbytes ep, hrxq, State.sumLens_nil]

theorem State.busReset_rxBytes (s : State) (ep : Ep) :
    epGet s.busReset.rxBytes ep = if isDataEp s.cfg ep = true then 0 else epGet s.rxBytes ep := by
  obtain ⟨-, -, -, -, -, -, -, hbytes, -⟩ := s.busReset_arrays ep
  exact hbytes

theorem State.Ownership.rxBytesExact_change {s t : State} (hs : s.Ownership) (hbytes : s.RxBytesExact)
    (h : s.Change t) : t.RxBytesExact := by
  have hplaced := hs.placed
  cases h with
  | same h =>
    rw [h]
    exact hbytes
  | taken h => exact (hplaced.taken_queuesKept h).rxBytesExact hbytes
  | released => exact (s.release_queuesKept _).rxBytesExact hbytes
  | filled hown => exact (hplaced.filled_queuesKept hown _).rxBytesExact hbytes
  | submitted _ _ ht => exact submitPacket_rxBytesExact hbytes ht
  | rxTaken hq => exact takeRx_rxBytesExact hbytes hq
  | txDone _ ht => exact txDone_rxBytesExact hbytes ht
  | rxDone hep ht => exact rxDone_rxBytesExact hplaced hbytes hep ht
  | busReset => exact hs.rxBytesExact_emptied hbytes s.busReset_fifosEmptied s.busReset_rxBytes
  | reconfigured ht =>
    exact hs.rxBytesExact_emptied hbytes (reconfigure_fifosEmptied ht) fun ep => (reconfigure_arrays ht ep).2.2.1
  | ep0Slot | completed => exact hbytes

/-- An invariant that Ownership makes every change keep. -/
theorem exec_induct {P : State → Prop} (hchange : ∀ {s t : State}, s.Ownership → P s → s.Change t → P t) {i : Instr}
    {s t : State} (hs : s.Ownership) (hP : P s) (ht : exec i s = .next t) : P t :=
  ((exec_changes ht).induct (P := fun u => u.Ownership ∧ P u)
    (fun ⟨hu, hPu⟩ hc => ⟨hu.change hc, hchange hu hPu hc⟩) ⟨hs, hP⟩).2

/-- Settles O51: every change keeps both, given Ownership. -/
theorem queueCountsKept : Obligations.QueueCountsKept := fun _ _ _ hs ht =>
  ⟨fun hbytes => exec_induct State.Ownership.rxBytesExact_change hs hbytes ht, fun hlinks =>
    (State.linksAgree_iff _).mpr
      (exec_induct State.Ownership.links_change hs ((State.linksAgree_iff _).mp hlinks) ht)⟩

end Sys2Proof.Machine
end

section
/-! While configured, the starvation counter is the number of RX slots without a buffer (R45(d)): every change keeps it,
given Ownership. -/

namespace Sys2Proof.Machine

/-! ### Counting -/

/-- Of a list without repeats, one more element is kept. -/
theorem length_filter_one_more {α : Type} [DecidableEq α] {l : List α} {p q : α → Bool} {x : α} (hl : l.Nodup)
    (hx : x ∈ l) (hpx : p x = false) (hqx : q x = true) (hother : ∀ y ∈ l, y ≠ x → p y = q y) :
    (l.filter q).length = (l.filter p).length + 1 := by
  have herase : l.filter p = (l.filter q).erase x := by
    rw [(hl.filter q).erase_eq_filter, List.filter_filter]
    refine List.filter_congr fun y hy => ?_
    by_cases heq : y = x
    · simp [heq, hpx]
    · simp [heq, hother y hy heq]
  rw [herase, List.length_erase_add_one (List.mem_filter.mpr ⟨hx, hqx⟩)]

/-- A filter that keeps exactly what comes from place `n` on. -/
theorem filter_eq_drop {α : Type} {l : List α} {p : α → Bool} {n : Nat}
    (h : ∀ k (x : α), l[k]? = some x → p x = decide (n ≤ k)) : l.filter p = l.drop n := by
  have hbefore : (l.take n).filter p = [] := by
    refine List.filter_eq_nil_iff.mpr fun x hx => ?_
    obtain ⟨k, hk, rfl⟩ := List.mem_take_iff_getElem.mp hx
    rw [h k _ (List.getElem?_eq_getElem (by omega))]
    simp only [decide_eq_true_eq]
    omega
  have hafter : (l.drop n).filter p = l.drop n := by
    refine List.filter_eq_self.mpr fun x hx => ?_
    obtain ⟨k, hk, rfl⟩ := List.mem_drop_iff_getElem.mp hx
    rw [h (n + k) _ (List.getElem?_eq_getElem (by omega))]
    simp
  calc l.filter p = (l.take n ++ l.drop n).filter p := by rw [List.take_append_drop]
    _ = l.drop n := by rw [List.filter_append, hbefore, hafter, List.nil_append]

/-! ### The starved slots -/

theorem isDataEp_of_mem_rxSlots {c : Params} {ep : Ep} {b : Bank} (h : (ep, b) ∈ rxSlots c) : isDataEp c ep = true :=
  isDataEp_of_rxEnabled ((mem_rxSlots c ep b).mp h)

theorem State.starvedSlots_congr {s t : State} (hcfg : t.cfg = s.cfg)
    (hslot : ∀ ep b, (ep, b) ∈ rxSlots s.cfg → (t.slot ep .rx b = Slot.cleared ↔ s.slot ep .rx b = Slot.cleared)) :
    t.starvedSlots = s.starvedSlots := by
  rw [State.starvedSlots, hcfg]
  exact List.filter_congr fun x hx => decide_eq_decide.mpr (hslot x.1 x.2 hx)

/-- Clearing a slot that held a buffer starves one more. -/
theorem State.starvedSlots_length {s t : State} {ep : Ep} {b : Bank} (hcfg : t.cfg = s.cfg)
    (hmem : (ep, b) ∈ rxSlots s.cfg) (hs : s.slot ep .rx b ≠ Slot.cleared) (ht : t.slot ep .rx b = Slot.cleared)
    (hother : ∀ ep' b', (ep', b') ≠ (ep, b) → t.slot ep' .rx b' = s.slot ep' .rx b') :
    t.starvedSlots.length = s.starvedSlots.length + 1 := by
  rw [State.starvedSlots, State.starvedSlots, hcfg]
  exact length_filter_one_more (nodup_rxSlots _) hmem (decide_eq_false hs) (decide_eq_true ht)
    fun y _ hy => by rw [hother y.1 y.2 hy]

/-- Nothing has happened to which RX slots hold a buffer, and to the counter. -/
theorem State.StarvationExact.congr {s t : State} (hs : s.StarvationExact) (hcfg : t.cfg = s.cfg)
    (hneeded : t.rxNeeded = s.rxNeeded) (hconfig : t.config = s.config)
    (hslot : ∀ ep b, (ep, b) ∈ rxSlots s.cfg → (t.slot ep .rx b = Slot.cleared ↔ s.slot ep .rx b = Slot.cleared))
    (hpool : ∀ ep b, (t.slot ep .rx b).addr.isPool = true → (s.slot ep .rx b).addr.isPool = true) :
    t.StarvationExact where
  seededOnly ep b h := hcfg ▸ hs.seededOnly ep b (hpool ep b h)
  counter h := by rw [hneeded, hs.counter (hconfig ▸ h), State.starvedSlots_congr hcfg hslot]

/-- No RX slot has been written. -/
theorem State.StarvationExact.of_slots {s t : State} (hs : s.StarvationExact) (hcfg : t.cfg = s.cfg)
    (hneeded : t.rxNeeded = s.rxNeeded) (hconfig : t.config = s.config)
    (hslot : ∀ ep b, t.slot ep .rx b = s.slot ep .rx b) : t.StarvationExact :=
  hs.congr hcfg hneeded hconfig (fun ep b _ => by rw [hslot]) fun ep b h => hslot ep b ▸ h

/-- One RX slot has been written: it held a buffer and holds one, or it held none and holds none. -/
theorem State.StarvationExact.setSlot {s t : State} {ep : Ep} {b : Bank} {x : Slot} (hs : s.StarvationExact)
    (hcfg : t.cfg = s.cfg) (hneeded : t.rxNeeded = s.rxNeeded) (hconfig : t.config = s.config)
    (hslot : ∀ ep' b', t.slot ep' .rx b' = (s.setSlot ep .rx b x).slot ep' .rx b')
    (hcleared : (ep, b) ∈ rxSlots s.cfg → (x = Slot.cleared ↔ s.slot ep .rx b = Slot.cleared))
    (hpool : x.addr.isPool = true → (s.slot ep .rx b).addr.isPool = true) : t.StarvationExact := by
  refine hs.congr hcfg hneeded hconfig (fun ep' b' hmem => ?_) fun ep' b' => ?_
  all_goals
    rw [hslot, State.slot_setSlot]
    split
  · next heq =>
    obtain ⟨rfl, -, rfl⟩ := heq
    exact hcleared hmem
  · exact Iff.rfl
  · next heq =>
    obtain ⟨rfl, -, rfl⟩ := heq
    exact hpool
  · exact id

/-- Writing an RX slot that is to be seeded. -/
theorem State.StarvationExact.seededOnly_set {s t : State} {ep : Ep} {b : Bank} {x : Slot} (hs : s.StarvationExact)
    (hcfg : t.cfg = s.cfg) (hmem : (ep, b) ∈ rxSlots s.cfg)
    (hslot : ∀ ep' b', t.slot ep' .rx b' = (s.setSlot ep .rx b x).slot ep' .rx b') (ep' : Ep) (b' : Bank)
    (hpool : (t.slot ep' .rx b').addr.isPool = true) : (ep', b') ∈ rxSlots t.cfg := by
  rw [hcfg]
  rw [hslot, State.slot_setSlot] at hpool
  split at hpool
  · next heq =>
    obtain ⟨rfl, -, rfl⟩ := heq
    exact hmem
  · exact hs.seededOnly ep' b' hpool

/-- A starved slot has got a buffer, and one less is counted. -/
theorem State.StarvationExact.fed {s t : State} {ep : Ep} {b : Bank} {x : Slot} (hs : s.StarvationExact)
    (hcfg : t.cfg = s.cfg) (hneeded : t.rxNeeded = s.rxNeeded - 1) (hconfig : t.config = s.config)
    (hmem : (ep, b) ∈ rxSlots s.cfg) (hold : s.slot ep .rx b = Slot.cleared) (hnew : x ≠ Slot.cleared)
    (hslot : ∀ ep' b', t.slot ep' .rx b' = (s.setSlot ep .rx b x).slot ep' .rx b') : t.StarvationExact where
  seededOnly := hs.seededOnly_set hcfg hmem hslot
  counter h := by
    have hset : t.slot ep .rx b = x := (hslot ep b).trans (s.slot_setSlot_same ep .rx b x)
    have hlength := State.starvedSlots_length (s := t) (t := s) hcfg.symm (hcfg ▸ hmem) (hset.symm ▸ hnew) hold
      fun ep' b' hne => by
        rw [hslot, State.slot_setSlot_other _ _ _ _ _ _ _ _ fun heq => hne (Prod.ext heq.1 heq.2.2)]
    rw [hneeded, hs.counter (hconfig ▸ h), hlength, BitVec.ofNat_add]
    exact BitVec.add_sub_cancel _ _

/-- A slot has lost its buffer, and one more is counted. -/
theorem State.StarvationExact.starve {s t : State} {ep : Ep} {b : Bank} (hs : s.StarvationExact)
    (hcfg : t.cfg = s.cfg) (hneeded : t.rxNeeded = s.rxNeeded + 1) (hconfig : t.config = s.config)
    (hold : (s.slot ep .rx b).addr.isPool = true)
    (hslot : ∀ ep' b', t.slot ep' .rx b' = (s.setSlot ep .rx b Slot.cleared).slot ep' .rx b') :
    t.StarvationExact where
  seededOnly := hs.seededOnly_set hcfg (hs.seededOnly ep b hold) hslot
  counter h := by
    have hset : t.slot ep .rx b = Slot.cleared := (hslot ep b).trans (s.slot_setSlot_same ep .rx b Slot.cleared)
    have hheld : s.slot ep .rx b ≠ Slot.cleared := fun heq => by
      rw [heq] at hold
      cases hold
    have hlength := State.starvedSlots_length hcfg (hs.seededOnly ep b hold) hheld hset fun ep' b' hne => by
      rw [hslot, State.slot_setSlot_other _ _ _ _ _ _ _ _ fun heq => hne (Prod.ext heq.1 heq.2.2)]
    rw [hneeded, hs.counter (hconfig ▸ h), hlength, BitVec.ofNat_add]
    rfl

/-! ### The changes -/

/-- A redirect gives the first starved slot a buffer and counts one less; without one, none is starved (R115). -/
theorem State.StarvationExact.redirect {s : State} (hs : s.StarvationExact)
    (hreleased : ∀ ep b, (s.slot ep .rx b).desc = releasedDesc → (s.slot ep .rx b).addr = .null) (h : Nat) :
    (s.redirect h).StarvationExact := by
  cases ht : s.redirectTarget with
  | none =>
    have hnone : s.starvedSlots = [] := List.filter_eq_nil_iff.mpr fun x hx hcleared =>
      s.redirectTarget_none ht x hx (congrArg Slot.desc (of_decide_eq_true hcleared))
    rw [State.redirect_none s h ht]
    exact ⟨hs.seededOnly, fun _ => (congrArg (fun l => BitVec.ofNat 32 (List.length l)) hnone).symm⟩
  | some target =>
    obtain ⟨ep, b⟩ := target
    obtain ⟨hmem, hdesc⟩ := s.redirectTarget_some ep b ht
    have hcleared : s.slot ep .rx b = Slot.cleared := by
      cases hx : s.slot ep .rx b with
      | mk desc addr =>
        have haddr := hreleased ep b hdesc
        rw [hx] at hdesc haddr
        cases hdesc
        cases haddr
        rfl
    rw [State.redirect_some s h ep b ht]
    exact hs.fed rfl rfl rfl hmem hcleared (fun heq => armedDesc_ne_released _ _ (congrArg Slot.desc heq))
      fun _ _ => rfl

theorem State.StarvationExact.release {s : State} (hs : s.StarvationExact)
    (hreleased : ∀ ep b, (s.slot ep .rx b).desc = releasedDesc → (s.slot ep .rx b).addr = .null) (h : Nat) :
    (s.release h).StarvationExact := by
  unfold State.release
  split
  · exact hs.redirect hreleased h
  · exact hs.of_slots rfl rfl rfl fun _ _ => rfl

/-- Writing a TX slot. -/
theorem State.slot_rx_setSlot_tx (s : State) (ep ep' : Ep) (b b' : Bank) (x : Slot) :
    (s.setSlot ep .tx b x).slot ep' .rx b' = s.slot ep' .rx b' :=
  State.slot_setSlot_other _ _ _ _ _ _ _ _ fun h => Dir.noConfusion h.2.1

theorem submitPacket_starvationExact {s t : State} {ep : Ep} {h : Nat} (hs : s.StarvationExact)
    (ht : submitPacket s ep h = .ok t) : t.StarvationExact := by
  obtain ⟨b, st, -, -, rfl⟩ | ⟨-, rfl⟩ := submitPacket_cases ht
  · exact hs.of_slots rfl rfl rfl fun ep' b' => s.slot_rx_setSlot_tx ep ep' b b' _
  · rw [State.enqueueTx_eq]
    exact hs.of_slots rfl rfl rfl fun _ _ => rfl

theorem txDone_starvationExact {s t : State} {ep : Ep} {c : Bank} (hs : s.StarvationExact)
    (hreleased : ∀ ep b, (s.slot ep .rx b).desc = releasedDesc → (s.slot ep .rx b).addr = .null)
    (ht : txDone s ep c = .ok t) : t.StarvationExact := by
  have hslot (ep' : Ep) (b' : Bank) := s.slot_rx_setSlot_tx ep ep' c b' Slot.cleared
  have hcleared : (s.setSlot ep .tx c Slot.cleared).StarvationExact := hs.of_slots rfl rfl rfl hslot
  have hrelease (h : Nat) : (s.txReleased ep c h).StarvationExact :=
    hcleared.release (fun ep' b' => by rw [hslot]; exact hreleased ep' b') h
  obtain ⟨h, st, -, -, ⟨-, -, rfl⟩ | ⟨q, rest, -, -, rfl⟩⟩ := txDone_cases ht
  · exact (hrelease h).of_slots rfl rfl rfl fun _ _ => rfl
  · exact (hrelease h).of_slots rfl rfl rfl fun ep' b' => State.slot_rx_setSlot_tx _ ep ep' c b' _

theorem rxDone_starvationExact {s t : State} {ep : Ep} {b : Bank} {n : BitVec 10} (hs : s.StarvationExact)
    (ht : rxDone s ep b n = .ok t) : t.StarvationExact := by
  obtain ⟨h, haddr, -, ht⟩ := rxDone_cases ht
  have hpool : (s.slot ep .rx b).addr.isPool = true := congrArg BufRef.isPool haddr
  have hheld : s.slot ep .rx b ≠ Slot.cleared := fun heq => by cases haddr.symm.trans (congrArg Slot.addr heq)
  have harmed (r : BufRef) : ({ desc := armedDesc 64 (bankToggle b), addr := r } : Slot) ≠ Slot.cleared := fun heq =>
    armedDesc_ne_released _ _ (congrArg Slot.desc heq)
  obtain rfl | ht := ht
  · exact hs.setSlot rfl rfl rfl (fun _ _ => rfl) (fun _ => iff_of_false (harmed _) hheld) fun _ => hpool
  · obtain ⟨-, ⟨p, u, hu, rfl⟩ | ⟨-, rfl⟩⟩ := refillRx_cases ht
    · rw [(allocPacket_frame _ _ _ hu).2, acceptRx_eq]
      exact hs.setSlot rfl rfl rfl (fun _ _ => rfl) (fun _ => iff_of_false (harmed _) hheld) fun _ => hpool
    · rw [acceptRx_eq]
      exact hs.starve rfl rfl rfl hpool fun _ _ => rfl

/-- A bus reset leaves the device unconfigured, and no RX slot with a packet. -/
theorem State.Ownership.busReset_starvationExact {s : State} (hs : s.Ownership) : s.busReset.StarvationExact where
  seededOnly ep b hpool := by
    have hno : (s.busReset.slot ep .rx b).addr.isPool = false := by
      obtain ⟨hdata, -, hrx, hother, -⟩ := s.busReset_arrays ep
      cases hep : isDataEp s.cfg ep with
      | true => rw [hdata hep]; rfl
      | false =>
        by_cases hzero : ep = 0
        · rw [hzero, hrx]; rfl
        · rw [hother hep hzero]
          exact (hs.placed.elsewhere ep .rx hep).2 b
    cases hno.symm.trans hpool
  counter h := by
    rw [State.busReset_frame] at h
    exact absurd rfl h

/-- SET_CONFIGURATION seeds the RX slots in order while packets last, and counts the others (R264). -/
theorem State.Ownership.reconfigure_starvationExact {s t : State} {v : Byte} (hs : s.Ownership)
    (ht : reconfigure s v = .ok t) : t.StarvationExact where
  seededOnly ep b hpool := by
    rw [show t.cfg = s.cfg by rw [reconfigure_frame s t v ht], mem_rxSlots]
    by_contra hno
    rw [reconfigure_slot ht b fun _ => Bool.eq_false_iff.mpr hno] at hpool
    split at hpool
    · cases hpool
    · next hep => cases ((hs.placed.elsewhere ep .rx (Bool.eq_false_iff.mpr hep)).2 b).symm.trans hpool
  counter _ := by
    have hdrop : t.starvedSlots = (rxSlots s.cfg).drop s.reclaimable := by
      rw [State.starvedSlots, show t.cfg = s.cfg by rw [reconfigure_frame s t v ht]]
      refine filter_eq_drop fun k x hx => ?_
      by_cases hle : s.reclaimable ≤ k
      · rw [reconfigure_slot_starved ht hx hle]
        simp [hle]
      · obtain ⟨p, hslot, -⟩ := reconfigure_slot_armed ht hx (Nat.lt_of_not_le hle)
        have hne : t.slot x.1 .rx x.2 ≠ Slot.cleared := fun heq =>
          armedDesc_ne_released _ _ (congrArg Slot.desc (hslot.symm.trans heq))
        simp [hle, hne]
    rw [hdrop, List.length_drop]
    exact reconfigure_rxNeeded ht

theorem State.Ownership.starvationExact_change {s t : State} (hs : s.Ownership) (hexact : s.StarvationExact)
    (h : s.Change t) : t.StarvationExact := by
  have hreleased (ep : Ep) (b : Bank) := hs.released ep .rx b
  cases h with
  | same h =>
    rw [h]
    exact hexact.of_slots rfl rfl rfl fun _ _ => rfl
  | taken h =>
    rw [(allocPacket_frame _ _ _ h).2]
    exact hexact.of_slots rfl rfl rfl fun _ _ => rfl
  | released => exact hexact.release hreleased _
  | filled | rxTaken => exact hexact.of_slots rfl rfl rfl fun _ _ => rfl
  | submitted _ _ ht => exact submitPacket_starvationExact hexact ht
  | txDone _ ht => exact txDone_starvationExact hexact hreleased ht
  | rxDone _ ht => exact rxDone_starvationExact hexact ht
  | busReset => exact hs.busReset_starvationExact
  | reconfigured ht => exact hs.reconfigure_starvationExact ht
  | ep0Slot d b hpool =>
    cases d with
    | tx => exact hexact.of_slots rfl rfl rfl fun ep' b' => s.slot_rx_setSlot_tx 0 ep' b b' _
    | rx =>
      refine hexact.setSlot rfl rfl rfl (fun _ _ => rfl) (fun hmem => ?_) fun h => ?_
      · cases (isDataEp_of_mem_rxSlots hmem).symm.trans (isDataEp_zero s.cfg)
      · cases hpool.symm.trans h
  | @completed ep d b x hown hx hlow =>
    cases d with
    | tx => exact hexact.of_slots rfl rfl rfl fun ep' b' => s.slot_rx_setSlot_tx ep ep' b b' _
    | rx =>
      refine hexact.setSlot rfl rfl rfl (fun _ _ => rfl) (fun _ => iff_of_false (fun heq => ?_) fun heq => ?_) id
      · exact hlow (congrArg (·.desc.low) heq)
      · rw [heq] at hown
        cases hown

/-- Settles O52: every change keeps it, given Ownership. -/
theorem starvationKept : Obligations.StarvationKept := fun _ _ _ hs hexact ht =>
  exec_induct State.Ownership.starvationExact_change hs hexact ht

end Sys2Proof.Machine
end

section
/-! The block's banks and endpoint-0 slots follow the SIE's (R32, R45(c), R181, R198): the commands but TOKEN_DONE. -/

namespace Sys2Proof.Machine

/-! ### The banks of the entries -/

/-- `State.pending` of a list of entries. -/
def pendingIn (l : List StatEntry) (ep : Ep) (d : Dir) : List Bank :=
  (l.filter (fun e => decide (e.ep = ep) && decide (e.dir = d))).map StatEntry.bank

theorem State.pending_eq (s : State) : s.pending = pendingIn s.stat := rfl

theorem pendingIn_cons (e : StatEntry) (l : List StatEntry) (ep : Ep) (d : Dir) :
    pendingIn (e :: l) ep d = if e.ep = ep ∧ e.dir = d then e.bank :: pendingIn l ep d else pendingIn l ep d := by
  by_cases h : e.ep = ep ∧ e.dir = d
  · simp [pendingIn, h]
  · rw [if_neg h, pendingIn, List.filter_cons_of_neg (by simpa using h), pendingIn]

theorem pendingIn_concat (e : StatEntry) (l : List StatEntry) (ep : Ep) (d : Dir) :
    pendingIn (l ++ [e]) ep d = if e.ep = ep ∧ e.dir = d then pendingIn l ep d ++ [e.bank] else pendingIn l ep d := by
  by_cases h : e.ep = ep ∧ e.dir = d
  · simp [pendingIn, h]
  · rw [if_neg h, pendingIn, List.filter_append, List.filter_cons_of_neg (by simpa using h)]
    simp [pendingIn]

theorem mem_pendingIn {l : List StatEntry} {ep : Ep} {d : Dir} {b : Bank} :
    b ∈ pendingIn l ep d ↔ ⟨ep, d, b⟩ ∈ l := by
  simp only [pendingIn, List.mem_map, List.mem_filter, Bool.and_eq_true, decide_eq_true_eq]
  constructor
  · rintro ⟨⟨ep', d', b'⟩, ⟨hmem, hep, hd⟩, hb⟩
    cases hep
    cases hd
    cases hb
    exact hmem
  · exact fun hmem => ⟨_, ⟨hmem, rfl, rfl⟩, rfl⟩

/-! ### Entries and their slots -/

theorem pidCode_ne_zero (p : Pid) : pidCode p ≠ 0 := by cases p <;> decide

/-- The slot of an entry holds a PID, so it is not a released one. -/
theorem State.EntryMatches.ne_released {s : State} {e : StatEntry} (h : s.EntryMatches e) :
    (s.slot e.ep e.dir e.bank).desc ≠ releasedDesc := fun hreleased => by
  obtain ⟨p, hp, -⟩ := h.pid
  rw [hreleased, pidOf_eq_some_iff] at hp
  exact pidCode_ne_zero p hp.symm

theorem State.EntryMatches.congr {s t : State} {e : StatEntry} (h : s.EntryMatches e) (hcfg : t.cfg = s.cfg)
    (hslot : t.slot e.ep e.dir e.bank = s.slot e.ep e.dir e.bank) : t.EntryMatches e where
  inRange := hcfg ▸ h.inRange
  completed := hslot ▸ h.completed
  pid := by
    rw [hslot, hcfg]
    exact h.pid
  buffer := hslot ▸ h.buffer

theorem State.isSetupEntry_congr {s t : State} {e : StatEntry}
    (hslot : t.slot e.ep e.dir e.bank = s.slot e.ep e.dir e.bank) : t.isSetupEntry e = s.isSetupEntry e := by
  rw [State.isSetupEntry, hslot, State.isSetupEntry]

/-- The SIE's slot is not one of an entry. -/
theorem State.InStep.not_pending {s : State} (hs : s.InStep) {ep : Ep} {d : Dir} {b : Bank}
    (hown : (s.slot ep d b).desc.own = true) : b ∉ s.pending ep d := fun hmem => by
  have hentry := (hs.entries _ (mem_pendingIn.mp hmem)).completed
  cases hentry.symm.trans hown

/-! ### The fields in question -/

/-- `t` has the fields of `s` that InStep speaks of. -/
def State.SameStep (s t : State) : Prop :=
  t = { t with
    cfg := s.cfg
    stat := s.stat
    bdt := s.bdt
    pp := s.pp
    tokenSuspend := s.tokenSuspend
    txState := s.txState
    ep0 := s.ep0
    ctl := s.ctl
    attached := s.attached
    reconnects := s.reconnects }

theorem State.InStep.same {s t : State} (hs : s.InStep) (h : s.SameStep t) : t.InStep := by
  rw [h]
  exact { hs with entries := fun e he => (hs.entries e he).congr rfl rfl }

theorem commit_inStep {s t : State} {body : Except FaultReason State} (hs : s.InStep)
    (hbody : ∀ u, body = .ok u → u.InStep) (ht : commit s body = .next t) : t.InStep :=
  commit_induction (fun _ => hs.same rfl) hbody ht

/-! ### FREE and TX: slots no entry names -/

/-- Slots of data endpoints, and bank states, have been written, but no slot of an entry. -/
theorem State.InStep.unnamed {s t : State} (hs : s.InStep)
    (hframe : t = { t with
      cfg := s.cfg
      stat := s.stat
      pp := s.pp
      tokenSuspend := s.tokenSuspend
      ep0 := s.ep0
      ctl := s.ctl
      attached := s.attached
      reconnects := s.reconnects })
    (hentry : ∀ e ∈ s.stat, t.slot e.ep e.dir e.bank = s.slot e.ep e.dir e.bank)
    (hrx : ∀ ep, isDataEp s.cfg ep = true → ∀ b,
      (t.slot ep .rx b).desc.own = true → (t.slot ep .rx b).addr.isPool = true)
    (htx : ∀ ep, isDataEp s.cfg ep = true → ∀ b,
      (t.slot ep .tx b).desc.own = (txArmed (epGet t.txState ep) b && !decide (b ∈ s.pending ep .tx)))
    (hfirst : ∀ ep, isDataEp s.cfg ep = true → firstBank (epGet t.txState ep) = firstBank (epGet s.txState ep))
    (hzero : ∀ d b, t.slot 0 d b = s.slot 0 d b) : t.InStep := by
  obtain ⟨hcfg, hstat, hpp, hsuspend, hep0, hctl, hattached, hreconnects⟩ : t.cfg = s.cfg ∧ t.stat = s.stat ∧
      t.pp = s.pp ∧ t.tokenSuspend = s.tokenSuspend ∧ t.ep0 = s.ep0 ∧ t.ctl = s.ctl ∧ t.attached = s.attached ∧
      t.reconnects = s.reconnects := by
    rw [hframe]
    exact ⟨rfl, rfl, rfl, rfl, rfl, rfl, rfl, rfl⟩
  have hpending : t.pending = s.pending := by rw [State.pending_eq, hstat, State.pending_eq]
  have hppBank : t.ppBank = s.ppBank := by
    funext ep d
    rw [State.ppBank, hpp, State.ppBank]
  have hsetup (e : StatEntry) (he : e ∈ s.stat) := State.isSetupEntry_congr (hentry e he)
  exact
    { entries := fun e he => by
        rw [hstat] at he
        exact (hs.entries e he).congr hcfg (hentry e he)
      alternate := by
        rw [hpending, hppBank]
        exact hs.alternate
      suspended := fun h => by
        obtain ⟨before, e, heq, he, hbefore⟩ := hs.suspended (hsuspend ▸ h)
        refine ⟨before, e, hstat.trans heq, ?_, fun x hx => ?_⟩
        · rw [hsetup e (heq ▸ List.mem_append_right _ (List.mem_singleton_self e)), he]
        · rw [hsetup x (heq ▸ List.mem_append_left _ hx), hbefore x hx]
      running := fun h x hx => by
        rw [hstat] at hx
        rw [hsetup x hx, hs.running (hsuspend ▸ h) x hx]
      rxOwned := hcfg ▸ hrx
      txOwned := by
        rw [hcfg, hpending]
        exact htx
      txFirst := fun ep hep => by
        rw [hcfg] at hep
        rw [hfirst ep hep, hpending, hppBank, hs.txFirst ep hep]
      ep0First := by
        rw [hep0, hpending, hppBank]
        exact hs.ep0First
      ep0Single := hpending ▸ hs.ep0Single
      ep0Other := by
        rw [hep0, hzero]
        exact hs.ep0Other
      ep0Rx := fun h b => by
        rw [hattached, hreconnects] at h
        rw [hzero, hpending]
        exact hs.ep0Rx h b
      dataOutIdle := fun h => by
        rw [hctl] at h
        rw [hpending, hep0, hzero]
        exact hs.dataOutIdle h }

/-- RX slots of data endpoints that were released may have got a packet, and no other slot has changed (R115). -/
def State.Fed (s t : State) (ep : Ep) (d : Dir) (b : Bank) : Prop :=
  t.slot ep d b = s.slot ep d b ∨
    (isDataEp s.cfg ep = true ∧ d = .rx ∧ (s.slot ep d b).desc = releasedDesc ∧ (t.slot ep d b).addr.isPool = true)

theorem State.release_fed (s : State) (h : Nat) (ep : Ep) (d : Dir) (b : Bank) : s.Fed (s.release h) ep d b := by
  unfold State.release
  split
  · cases ht : s.redirectTarget with
    | none =>
      rw [State.redirect_none s h ht]
      exact .inl rfl
    | some target =>
      obtain ⟨ep', b'⟩ := target
      obtain ⟨hmem, hdesc⟩ := s.redirectTarget_some ep' b' ht
      rw [State.redirect_some s h ep' b' ht]
      by_cases heq : ep = ep' ∧ d = .rx ∧ b = b'
      · obtain ⟨rfl, rfl, rfl⟩ := heq
        refine .inr ⟨isDataEp_of_mem_rxSlots hmem, rfl, hdesc, ?_⟩
        exact congrArg (·.addr.isPool) (s.slot_setSlot_same ep .rx b ⟨armedDesc 64 (bankToggle b), .pool h⟩)
      · exact .inl (s.slot_setSlot_other _ _ _ _ _ _ _ heq)
  · exact .inl rfl

/-- A slot fed is not an entry's. -/
theorem State.Fed.entry {s t : State} {e : StatEntry} (h : s.Fed t e.ep e.dir e.bank) (he : s.EntryMatches e) :
    t.slot e.ep e.dir e.bank = s.slot e.ep e.dir e.bank :=
  h.resolve_right fun ⟨_, _, hdesc, _⟩ => he.ne_released hdesc

theorem State.Fed.tx {s t : State} {ep : Ep} {b : Bank} (h : s.Fed t ep .tx b) : t.slot ep .tx b = s.slot ep .tx b :=
  h.resolve_right fun ⟨_, hd, _⟩ => Dir.noConfusion hd

theorem State.Fed.zero {s t : State} {d : Dir} {b : Bank} (h : s.Fed t 0 d b) : t.slot 0 d b = s.slot 0 d b :=
  h.resolve_right fun ⟨hep, _⟩ => by cases hep

theorem State.Fed.rxOwned {s t : State} {ep : Ep} {b : Bank} (h : s.Fed t ep .rx b)
    (hs : (s.slot ep .rx b).desc.own = true → (s.slot ep .rx b).addr.isPool = true) :
    (t.slot ep .rx b).desc.own = true → (t.slot ep .rx b).addr.isPool = true := by
  obtain heq | ⟨-, -, -, hpool⟩ := h
  · rw [heq]
    exact hs
  · exact fun _ => hpool

theorem State.InStep.release {s : State} (hs : s.InStep) (h : Nat) : (s.release h).InStep := by
  have hfed := s.release_fed h
  have hstate : (s.release h).txState = s.txState := by rw [State.release_frame]
  refine hs.unnamed (by rw [State.release_frame]) (fun e he => (hfed _ _ _).entry (hs.entries e he))
    (fun ep hep b => (hfed ep .rx b).rxOwned (hs.rxOwned ep hep b)) (fun ep hep b => ?_) (fun ep _ => by rw [hstate])
    fun d b => (hfed 0 d b).zero
  rw [(hfed ep .tx b).tx, hstate]
  exact hs.txOwned ep hep b

/-- TX leaves the bank the SIE completes next as it was (R135, R26). -/
theorem submitTable_first {st st' : TxState} {b : Bank} (h : submitTable st = some (b, st')) :
    firstBank st' = firstBank st := by
  cases st <;> cases h <;> rfl

theorem submitPacket_inStep {s t : State} {ep : Ep} {h : Nat} (hs : s.InStep) (howner : s.Ownership)
    (hep : isDataEp s.cfg ep = true) (ht : submitPacket s ep h = .ok t) : t.InStep := by
  obtain ⟨b, st, htable, -, rfl⟩ | ⟨-, rfl⟩ := submitPacket_cases ht
  · have hempty : (s.slot ep .tx b).addr.isPool = false := (howner.txBanks ep hep b).trans (submitTable_free htable)
    obtain ⟨harmed, hother⟩ := submitTable_arms_one htable
    have hslot (ep' : Ep) (d' : Dir) (b' : Bank) := s.slot_setSlot ep ep' .tx d' b b'
      { desc := armedDesc ((s.header h).len.setWidth 10) (bankToggle b), addr := .pool h }
    have hnot : b ∉ s.pending ep .tx := fun hmem => by
      cases hempty.symm.trans ((hs.entries _ (mem_pendingIn.mp hmem)).buffer (isDataEp_ne_zero _ _ hep))
    refine hs.unnamed rfl (fun e he => (hslot _ _ _).trans (if_neg ?_)) (fun ep' hep' b' => ?_) (fun ep' hep' b' => ?_)
      (fun ep' hep' => ?_) fun d' b' => (hslot _ _ _).trans (if_neg fun heq => isDataEp_ne_zero _ _ hep heq.1.symm)
    · rintro ⟨rfl, hd, rfl⟩
      exact hnot (mem_pendingIn.mpr (hd ▸ he))
    · refine fun hown => ?_
      have heq := (hslot ep' .rx b').trans (if_neg fun h => Dir.noConfusion h.2.1)
      exact (congrArg (·.addr.isPool) heq).trans (hs.rxOwned ep' hep' b' ((congrArg (·.desc.own) heq).symm.trans hown))
    · refine (congrArg (·.desc.own) (hslot ep' .tx b')).trans ?_
      show _ = (txArmed (epGet (epPut s.txState ep st) ep') b' && _)
      rw [epGet_epPut]
      by_cases heq : ep' = ep
      · subst heq
        obtain rfl | rfl := b.eq_or_other b'
        · simp [harmed, hnot]
        · simp [Bank.other_ne, hother, hs.txOwned ep' hep']
      · simp [heq, hs.txOwned ep' hep']
    · show firstBank (epGet (epPut s.txState ep st) ep') = _
      rw [epGet_epPut]
      split
      · next heq => rw [heq, submitTable_first htable]
      · rfl
  · rw [State.enqueueTx_eq]
    exact hs.same rfl

/-! ### Bus resets -/

/-- A bus reset starts afresh (R343); what the commands write after it does not matter. -/
theorem State.busReset_inStep {s t : State} (ht : t = { s.busReset with
    attached := t.attached
    reconnects := t.reconnects
    obs := t.obs
    result := t.result }) : t.InStep := by
  have hframe := s.busReset_frame
  have hcfg : t.cfg = s.cfg := by rw [ht, hframe]
  have hep0 : t.ep0.bank = .even := by rw [ht, hframe]
  have hctl : t.ctl = .idle := by rw [ht, hframe]
  have hslot : t.slot = s.busReset.slot := State.slot_congr _ _ (by rw [ht])
  have hstate : t.txState = s.busReset.txState := by rw [ht]
  have hpp : t.ppBank = s.busReset.ppBank := by
    funext ep d
    rw [State.ppBank, ht]
    rfl
  obtain ⟨-, htx, hrx, -, hzero, -⟩ := s.busReset_arrays 0
  refine t.inStep_of_idle (by rw [ht, hframe]) (by rw [ht, hframe]) (fun ep hep b _ => ?_) (fun ep hep b _ => ?_)
    (fun ep hep => ?_) ⟨?_, ?_, ?_⟩ fun _ b _ => ?_
  · rw [hslot, (s.busReset_arrays ep).1 (hcfg ▸ hep)]
    exact fun hown => Bool.noConfusion hown
  · obtain ⟨hcleared, -, -, -, -, -, -, -, hfree, -⟩ := s.busReset_arrays ep
    rw [hslot, hcleared (hcfg ▸ hep), hstate, hfree, if_pos (hcfg ▸ hep)]
    rfl
  · obtain ⟨-, -, -, -, heven, -, -, -, hfree, -⟩ := s.busReset_arrays ep
    rw [hstate, hfree, if_pos (hcfg ▸ hep), hpp, heven, if_pos (isEndpoint_of_isDataEp _ _ (hcfg ▸ hep))]
    rfl
  · rw [hep0, hpp, hzero, if_pos (isEndpoint_zero _)]
  · rw [hslot, htx]
    rfl
  · exact fun h => by cases hctl.symm.trans h
  · rw [hslot, hrx]
    exact ⟨rfl, rfl⟩

theorem State.reinit_inStep {s t : State} (ht : t = { s.reinit with result := t.result }) : t.InStep := by
  refine State.busReset_inStep (s := s) ?_
  rw [State.reinit] at ht
  generalize s.busReset = u at ht ⊢
  rw [ht]
  rfl

theorem execInit_inStep {s t : State} (ht : execInit s = .next t) : t.InStep := by
  obtain ⟨-, ht⟩ := (whenAlive_next _ _ _).mp ht
  cases ht
  refine State.busReset_inStep (s := s) ?_
  generalize s.busReset = u
  rfl

theorem execReinit_inStep {s t : State} (ht : execReinit s = .next t) : t.InStep := by
  obtain ⟨-, ht⟩ := (whenAlive_next _ _ _).mp ht
  cases ht
  refine State.reinit_inStep (s := s) ?_
  generalize s.reinit = u
  rfl

theorem execHostBusReset_inStep {s t : State} (hs : s.InStep) (ht : execHostBusReset s = .next t) : t.InStep := by
  obtain ⟨-, ht⟩ := (whenAlive_next _ _ _).mp ht
  split at ht <;> cases ht
  · exact State.busReset_inStep (s := s) rfl
  · exact hs

theorem execPowerTimeout_inStep {s t : State} (hs : s.InStep) (ht : execPowerTimeout s = .next t) : t.InStep := by
  obtain ⟨-, ht⟩ := (whenAlive_next _ _ _).mp ht
  split at ht
  · refine commit_inStep hs (fun u hu => ?_) ht
    split at hu <;> cases hu
    next v _ => exact State.reinit_inStep (s := v) rfl
  · cases ht
    exact hs

/-! ### The foreground commands -/

theorem execAlloc_inStep {s t : State} (hs : s.InStep) (ht : execAlloc s = .next t) : t.InStep := by
  obtain ⟨-, ht⟩ := (whenAlive_next _ _ _).mp ht
  split at ht <;> cases ht
  · next hu =>
    rw [(allocPacket_frame _ _ _ hu).2]
    exact hs.same rfl
  · exact hs.same rfl

theorem execFree_inStep {h : Half} {s t : State} (hs : s.InStep) (ht : execFree h s = .next t) : t.InStep := by
  obtain ⟨-, ht⟩ := (whenAlive_next _ _ _).mp ht
  split at ht <;> cases ht
  · exact (hs.release _).same rfl
  · exact hs.same rfl

theorem execTx_inStep {ep : Ep} {h : Half} {s t : State} (hs : s.InStep) (howner : s.Ownership)
    (ht : execTx ep h s = .next t) : t.InStep := by
  obtain ⟨-, ht⟩ := (whenAlive_next _ _ _).mp ht
  split at ht
  · cases ht
    exact hs.same rfl
  next hen =>
  iterate 3
    split at ht
    · cases ht
      exact hs.same rfl
  refine commit_inStep hs (fun u hu => ?_) ht
  split at hu <;> cases hu
  next v hv =>
    obtain ⟨hep, -⟩ := Bool.and_eq_true_iff.mp (show txEnabled s.cfg ep = true by simpa using hen)
    exact (submitPacket_inStep hs howner hep hv).same rfl

theorem execRx_inStep {ep : Ep} {s t : State} (hs : s.InStep) (ht : execRx ep s = .next t) : t.InStep := by
  obtain ⟨-, ht⟩ := (whenAlive_next _ _ _).mp ht
  iterate 2
    split at ht
    · cases ht
      exact hs.same rfl
  split at ht <;> cases ht <;> exact hs.same rfl

theorem returnCount_inStep {ep : Ep} {n : Word} {s t : State} (hs : s.InStep) (ht : returnCount s ep n = .next t) :
    t.InStep := by
  obtain ⟨-, ht⟩ := (whenAlive_next _ _ _).mp ht
  split at ht <;> cases ht <;> exact hs.same rfl

theorem execPktFill_inStep {h : Half} {data : List Byte} {s t : State} (hs : s.InStep)
    (ht : execPktFill h data s = .next t) : t.InStep := by
  obtain ⟨-, ht⟩ := (whenAlive_next _ _ _).mp ht
  split at ht
  · cases ht
    exact hs.same rfl
  · refine commit_inStep hs (fun u hu => ?_) ht
    split at hu <;> cases hu
    next v hv =>
      obtain ⟨-, rfl⟩ := (State.writeBuffer_ok _ _ _ _ _).mp hv
      exact hs.same rfl

theorem execPktRead_inStep {h : Half} {s t : State} (hs : s.InStep) (ht : execPktRead h s = .next t) : t.InStep := by
  obtain ⟨-, ht⟩ := (whenAlive_next _ _ _).mp ht
  split at ht
  · cases ht
    exact hs.same rfl
  · refine commit_inStep hs (fun u hu => ?_) ht
    split at hu <;> cases hu
    exact hs.same rfl

/-! ### The SIE's transactions -/

theorem State.slot_completeTransaction (s : State) (ep ep' : Ep) (d d' : Dir) (b' : Bank) (x : Desc) :
    (s.completeTransaction ep d x).slot ep' d' b' =
      if ep' = ep ∧ d' = d ∧ b' = s.ppBank ep d then { s.nextSlot ep d with desc := x } else s.slot ep' d' b' :=
  s.slot_setSlot ep ep' d d' (s.ppBank ep d) b' _

theorem State.ppBank_completeTransaction (s : State) (ep ep' : Ep) (d d' : Dir) (x : Desc) :
    (s.completeTransaction ep d x).ppBank ep' d' =
      if ep' = ep ∧ d' = d then (s.ppBank ep d).other else s.ppBank ep' d' :=
  s.ppBank_setPp ep ep' d d' _

theorem State.pending_completeTransaction (s : State) (ep ep' : Ep) (d d' : Dir) (x : Desc) :
    (s.completeTransaction ep d x).pending ep' d' =
      if ep' = ep ∧ d' = d then s.pending ep d ++ [s.ppBank ep d] else s.pending ep' d' := by
  refine (pendingIn_concat ⟨ep, d, s.ppBank ep d⟩ s.stat ep' d').trans ?_
  by_cases h : ep' = ep ∧ d' = d
  · obtain ⟨rfl, rfl⟩ := h
    rw [if_pos ⟨rfl, rfl⟩, if_pos ⟨rfl, rfl⟩]
    rfl
  · rw [if_neg h, if_neg fun ⟨hep, hd⟩ => h ⟨hep.symm, hd.symm⟩]
    rfl

/-- Before the SIE completes its slot, at most the other bank is waiting. -/
theorem State.InStep.pending_of_next_owned {s : State} (hs : s.InStep) {ep : Ep} {d : Dir}
    (hown : (s.nextSlot ep d).desc.own = true) : s.pending ep d = [] ∨ s.pending ep d = [(s.ppBank ep d).other] := by
  have hnot := hs.not_pending hown
  obtain hnil | hone | htwo := hs.alternate ep d
  · exact .inl hnil
  · exact .inr hone
  · rw [htwo] at hnot
    exact absurd List.mem_cons_self hnot

/-- The oldest bank waiting, or else the SIE's next, does not change as the SIE completes one. -/
theorem head_concat_getD (l : List Bank) (b c : Bank) : ((l ++ [b]).head?).getD c = (l.head?).getD b := by
  cases l <;> rfl

/-- A completed transaction: its slot is the block's, with the PID of its kind, and its entry is the last one. -/
theorem State.InStep.completed {s : State} {ep : Ep} {d : Dir} {x : Desc} {p : Pid} (hs : s.InStep)
    (howner : s.Ownership) (hep : isEndpoint s.cfg ep = true) (hown : (s.nextSlot ep d).desc.own = true)
    (hx : x.own = false) (hlow : x.low = pidCode p) (hlegal : legalToken s.cfg ep d p = true)
    (hrun : s.tokenSuspend = false) :
    ({ s.completeTransaction ep d x with tokenSuspend := decide (p = .setupToken) } : State).InStep := by
  generalize ht : ({ s.completeTransaction ep d x with tokenSuspend := decide (p = .setupToken) } : State) = t
  have hslot (ep' : Ep) (d' : Dir) (b' : Bank) : t.slot ep' d' b' =
      if ep' = ep ∧ d' = d ∧ b' = s.ppBank ep d then { s.nextSlot ep d with desc := x } else s.slot ep' d' b' :=
    ht ▸ s.slot_completeTransaction ep ep' d d' b' x
  have hpp (ep' : Ep) (d' : Dir) : t.ppBank ep' d' = if ep' = ep ∧ d' = d then (s.ppBank ep d).other else s.ppBank ep' d' :=
    ht ▸ s.ppBank_completeTransaction ep ep' d d' x
  have hpending (ep' : Ep) (d' : Dir) : t.pending ep' d' =
      if ep' = ep ∧ d' = d then s.pending ep d ++ [s.ppBank ep d] else s.pending ep' d' :=
    ht ▸ s.pending_completeTransaction ep ep' d d' x
  obtain ⟨hcfg, hstat, hsuspend, hstate, hep0, hctl, hattached, hreconnects⟩ : t.cfg = s.cfg ∧
      t.stat = s.stat ++ [⟨ep, d, s.ppBank ep d⟩] ∧ t.tokenSuspend = decide (p = .setupToken) ∧
      t.txState = s.txState ∧ t.ep0 = s.ep0 ∧ t.ctl = s.ctl ∧ t.attached = s.attached ∧
      t.reconnects = s.reconnects := by
    rw [← ht]
    exact ⟨rfl, rfl, rfl, rfl, rfl, rfl, rfl, rfl⟩
  have hself : t.slot ep d (s.ppBank ep d) = { s.nextSlot ep d with desc := x } := (hslot _ _ _).trans (if_pos ⟨rfl, rfl, rfl⟩)
  have hentry (e : StatEntry) (he : e ∈ s.stat) : t.slot e.ep e.dir e.bank = s.slot e.ep e.dir e.bank := by
    refine (hslot _ _ _).trans (if_neg ?_)
    rintro ⟨hep', hd', hb'⟩
    have hcompleted := (hs.entries e he).completed
    rw [hep', hd', hb'] at hcompleted
    cases hcompleted.symm.trans hown
  have hpool (hne : ep ≠ 0) : (s.nextSlot ep d).addr.isPool = true := by
    have hdata := isDataEp_of_isEndpoint hep hne
    cases d with
    | rx => exact hs.rxOwned ep hdata _ hown
    | tx =>
      have harmed := hs.txOwned ep hdata (s.ppBank ep .tx)
      rw [show (s.slot ep .tx (s.ppBank ep .tx)).desc.own = true from hown] at harmed
      exact (howner.txBanks ep hdata _).trans (Bool.and_eq_true_iff.mp harmed.symm).1
  have hsetup : t.isSetupEntry ⟨ep, d, s.ppBank ep d⟩ = decide (p = .setupToken) := by
    rw [State.isSetupEntry, hself]
    show decide (x.low = _) = _
    rw [hlow]
    cases p <;> decide
  have hold (e : StatEntry) (he : e ∈ s.stat) : t.isSetupEntry e = false := by
    rw [State.isSetupEntry_congr (hentry e he), hs.running hrun e he]
  have hhead (ep' : Ep) (d' : Dir) :
      ((t.pending ep' d').head?).getD (t.ppBank ep' d') = ((s.pending ep' d').head?).getD (s.ppBank ep' d') := by
    rw [hpending, hpp]
    split
    · next heq => rw [head_concat_getD, heq.1, heq.2]
    · rfl
  have hunowned (ep' : Ep) (d' : Dir) (b' : Bank) (h : (s.slot ep' d' b').desc.own = false) :
      (t.slot ep' d' b').desc.own = false := by
    rw [hslot]
    split
    · exact hx
    · exact h
  have hnotEp0In : s.ctl = .dataOut ∨ s.pending 0 .tx ≠ [] → ¬((0 : Ep) = ep ∧ Dir.tx = d) := by
    rintro hidle ⟨rfl, rfl⟩
    have hfirst := hs.ep0First
    obtain hctl | hne := hidle
    · obtain ⟨hnil, hfree⟩ := hs.dataOutIdle hctl
      rw [hnil] at hfirst
      rw [hfirst] at hfree
      cases hfree.symm.trans hown
    · have hone := (hs.pending_of_next_owned hown).resolve_left hne
      rw [hone] at hfirst
      have hother := hs.ep0Other
      rw [hfirst] at hother
      simp only [List.head?_cons, Option.getD_some, Bank.other_other] at hother
      cases hother.symm.trans hown
  exact
    { entries := fun e he => by
        rw [hstat] at he
        obtain he | he := List.mem_append.mp he
        · exact (hs.entries e he).congr hcfg (hentry e he)
        · obtain rfl := List.mem_singleton.mp he
          refine ⟨hcfg ▸ hep, hself ▸ hx, ⟨p, ?_, hcfg ▸ hlegal⟩, fun hne => hself ▸ hpool hne⟩
          rw [hself]
          exact (pidOf_eq_some_iff _ _).mpr hlow
      alternate := fun ep' d' => by
        rw [hpending, hpp]
        split
        · obtain hnil | hone := hs.pending_of_next_owned hown
          · rw [hnil, Bank.other_other]
            exact .inr (.inl rfl)
          · rw [hone, Bank.other_other]
            exact .inr (.inr rfl)
        · exact hs.alternate ep' d'
      suspended := fun h => ⟨s.stat, _, hstat, hsetup.trans (hsuspend ▸ h), hold⟩
      running := fun h e he => by
        rw [hstat] at he
        obtain he | he := List.mem_append.mp he
        · exact hold e he
        · obtain rfl := List.mem_singleton.mp he
          exact hsetup.trans (hsuspend ▸ h)
      rxOwned := fun ep' hep' b => by
        rw [hslot]
        split
        · exact fun h => by cases hx.symm.trans h
        · exact hs.rxOwned ep' (hcfg ▸ hep') b
      txOwned := fun ep' hep' b => by
        rw [hslot, hstate, hpending]
        split
        · next heq =>
          obtain ⟨rfl, rfl, rfl⟩ := heq
          rw [if_pos ⟨rfl, rfl⟩]
          simp [hx]
        · next hne =>
          rw [hs.txOwned ep' (hcfg ▸ hep')]
          split
          · next heq =>
            obtain ⟨rfl, rfl⟩ := heq
            have hb : b ≠ s.ppBank ep' .tx := fun h => hne ⟨rfl, rfl, h⟩
            simp [hb]
          · rfl
      txFirst := fun ep' hep' => by
        rw [hstate, hhead]
        exact hs.txFirst ep' (hcfg ▸ hep')
      ep0First := by
        rw [hep0, hhead]
        exact hs.ep0First
      ep0Single := by
        rw [hpending]
        split
        · next heq =>
          have hnil : s.pending 0 .tx = [] := by_contra fun hne => hnotEp0In (.inr hne) heq
          rw [← heq.1, ← heq.2, hnil]
          rfl
        · exact hs.ep0Single
      ep0Other := by
        rw [hep0]
        exact hunowned _ _ _ hs.ep0Other
      ep0Rx := fun h b => by
        obtain ⟨hrx, haddr⟩ := hs.ep0Rx (hattached ▸ hreconnects ▸ h) b
        rw [hslot, hpending]
        split
        · next heq =>
          obtain ⟨rfl, rfl, rfl⟩ := heq
          rw [if_pos ⟨rfl, rfl⟩]
          exact ⟨by simp [hx], haddr⟩
        · next hne =>
          refine ⟨?_, haddr⟩
          rw [hrx]
          split
          · next heq =>
            obtain ⟨rfl, rfl⟩ := heq
            have hb : b ≠ s.ppBank 0 .rx := fun h => hne ⟨rfl, rfl, h⟩
            simp [hb]
          · rfl
      dataOutIdle := fun h => by
        have hdata : s.ctl = .dataOut := hctl ▸ h
        obtain ⟨hnil, hfree⟩ := hs.dataOutIdle hdata
        refine ⟨?_, hep0 ▸ hunowned _ _ _ hfree⟩
        rw [hpending, if_neg (hnotEp0In (.inl hdata))]
        exact hnil }

/-- Ownership speaks of nothing but what `SameStore` keeps. -/
theorem State.Ownership.same {s t : State} (hs : s.Ownership) (h : s.SameStore t) : t.Ownership := hs.change (.same h)

theorem memWrite_kept {s t : State} {ref : BufRef} {bs : List Byte} (ht : memWrite s ref bs = .ok t) :
    t = { s with mem := t.mem } := by
  obtain ⟨-, -, -, -, rfl⟩ := (memWrite_ok _ _ _ _).mp ht
  rfl

theorem transactionReaches_running {s : State} {ep : Ep} {a : BitVec 7} (h : transactionReaches s ep a = true) :
    s.tokenSuspend = false ∧ isEndpoint s.cfg ep = true := by
  simp only [transactionReaches, Bool.and_eq_true, Bool.not_eq_true'] at h
  obtain ⟨⟨-, hrun⟩, hep⟩ := h
  exact ⟨hrun, hep⟩

theorem legalToken_out {c : Params} {ep : Ep} (h : isEndpoint c ep = true) : legalToken c ep .rx .outToken = true := by
  by_cases hzero : ep = 0
  · simp [legalToken, hzero]
  · simp [legalToken, isDataEp_of_isEndpoint h hzero]

theorem legalToken_in {c : Params} {ep : Ep} (h : isEndpoint c ep = true) : legalToken c ep .tx .inToken = true := by
  by_cases hzero : ep = 0
  · simp [legalToken, hzero]
  · simp [legalToken, isDataEp_of_isEndpoint h hzero]

theorem execHostSetup_inStep {a : BitVec 7} {p : SetupPacket} {s t : State} (hs : s.InStep) (howner : s.Ownership)
    (hrun : s.tokenSuspend = false) (ht : execHostSetup a p s = .next t) : t.InStep := by
  obtain ⟨-, ht⟩ := (whenAlive_next _ _ _).mp ht
  split at ht
  · next hen =>
    have hown : (s.nextSlot 0 .rx).desc.own = true := by
      simp only [setupEnabled, Bool.and_eq_true] at hen
      exact hen.1.2
    refine commit_inStep hs (fun u hu => ?_) ht
    split at hu <;> cases hu
    next v hv =>
      rw [memWrite_kept hv]
      generalize v.mem = m
      have hstored : ({ s with mem := m } : State).InStep := hs.same rfl
      have hcompleted := hstored.completed (p := .setupToken)
        (x := completedRx (s.nextSlot 0 .rx).desc .setupToken 8) (howner.same rfl) (isEndpoint_zero _) hown rfl rfl rfl
        hrun
      exact hcompleted.same rfl
  · cases ht
    exact hs

theorem execHostOut_inStep {ep : Ep} {a : BitVec 7} {data : List Byte} {s t : State} (hs : s.InStep)
    (howner : s.Ownership) (ht : execHostOut ep a data s = .next t) : t.InStep := by
  obtain ⟨-, ht⟩ := (whenAlive_next _ _ _).mp ht
  split at ht
  · next hen =>
    simp only [Bool.and_eq_true] at hen
    obtain ⟨hrun, hep⟩ := transactionReaches_running hen.1.1
    split at ht
    · cases ht
      exact hs.same rfl
    split at ht
    · next hslot =>
      have hown : (s.nextSlot ep .rx).desc.own = true := (Bool.and_eq_true_iff.mp hslot).1
      refine commit_inStep hs (fun u hu => ?_) ht
      unfold receiveOut at hu
      split at hu <;> cases hu
      next v hv =>
        rw [memWrite_kept hv]
        generalize v.mem = m
        have hstored : ({ s with mem := m } : State).InStep := hs.same rfl
        have hcompleted := hstored.completed (p := .outToken)
          (x := completedRx (s.nextSlot ep .rx).desc .outToken data.length) (howner.same rfl) hep hown rfl rfl
          (legalToken_out hep) hrun
        refine hcompleted.same ?_
        show _ = _
        simp only [hrun]
        rfl
    · cases ht
      exact hs
  · cases ht
    exact hs

theorem execHostIn_inStep {ep : Ep} {a : BitVec 7} {s t : State} (hs : s.InStep) (howner : s.Ownership)
    (ht : execHostIn ep a s = .next t) : t.InStep := by
  obtain ⟨-, ht⟩ := (whenAlive_next _ _ _).mp ht
  split at ht
  · next hen =>
    obtain ⟨hrun, hep⟩ := transactionReaches_running (Bool.and_eq_true_iff.mp hen).1
    split at ht
    · cases ht
      exact hs.same rfl
    split at ht
    · next hown =>
      refine commit_inStep hs (fun u hu => ?_) ht
      unfold sendIn at hu
      split at hu <;> cases hu
      next bs v hv =>
        obtain ⟨-, hframe, -⟩ := memRead_ok _ _ _ _ _ hv
        rw [hframe]
        generalize v.draws = ds
        generalize v.drawn = k
        have hread : ({ s with draws := ds, drawn := k } : State).InStep := hs.same rfl
        have hcompleted := hread.completed (p := .inToken) (x := completedTx (s.nextSlot ep .tx).desc) (howner.same rfl)
          hep hown rfl rfl (legalToken_in hep) hrun
        refine hcompleted.same ?_
        show _ = _
        simp only [hrun]
        rfl
    · cases ht
      exact hs
  · cases ht
    exact hs

end Sys2Proof.Machine
end

section
/-! The block's banks and endpoint-0 slots follow the SIE's (R32, R45(c), R181, R198): TOKEN_DONE, which handles the
oldest entry, and the obligation. -/

namespace Sys2Proof.Machine

/-! ### The oldest entry is taken -/

section
variable {s : State} {e : StatEntry} {rest : List StatEntry} (hs : s.InStep) (hstat : s.stat = e :: rest)
include hstat

theorem State.pending_of_cons (ep : Ep) (d : Dir) :
    s.pending ep d = if e.ep = ep ∧ e.dir = d then e.bank :: pendingIn rest ep d else pendingIn rest ep d := by
  rw [State.pending_eq, hstat, pendingIn_cons]

include hs

/-- After an entry comes the other bank of its endpoint and direction. -/
theorem State.InStep.pending_rest : (pendingIn rest e.ep e.dir = [] ∧ s.ppBank e.ep e.dir = e.bank.other) ∨
    (pendingIn rest e.ep e.dir = [e.bank.other] ∧ s.ppBank e.ep e.dir = e.bank) := by
  have hpending := State.pending_of_cons hstat e.ep e.dir
  rw [if_pos ⟨rfl, rfl⟩] at hpending
  obtain hnil | hone | htwo := hs.alternate e.ep e.dir
  · cases hpending.symm.trans hnil
  · obtain ⟨hb, hrest⟩ := List.cons.inj (hpending.symm.trans hone)
    exact .inl ⟨hrest, by rw [hb, Bank.other_other]⟩
  · obtain ⟨hb, hrest⟩ := List.cons.inj (hpending.symm.trans htwo)
    exact .inr ⟨hb ▸ hrest, hb.symm⟩

theorem State.InStep.not_mem_rest : e.bank ∉ pendingIn rest e.ep e.dir := by
  obtain ⟨hnil, -⟩ | ⟨hone, -⟩ := hs.pending_rest hstat
  · rw [hnil]
    exact List.not_mem_nil
  · rw [hone, List.mem_singleton]
    exact (Bank.other_ne _).symm

theorem State.InStep.rest_ne {x : StatEntry} (hx : x ∈ rest) :
    ¬(x.ep = e.ep ∧ x.dir = e.dir ∧ x.bank = e.bank) := by
  rintro ⟨hep, hd, hb⟩
  refine hs.not_mem_rest hstat (mem_pendingIn.mpr ?_)
  rw [← hep, ← hd, ← hb]
  exact hx

/-- The bank the SIE completes next, once the entry has been taken. -/
theorem State.InStep.head_rest :
    ((pendingIn rest e.ep e.dir).head?).getD (s.ppBank e.ep e.dir) = e.bank.other := by
  obtain ⟨hnil, hpp⟩ | ⟨hone, -⟩ := hs.pending_rest hstat
  · rw [hnil]
    exact hpp
  · rw [hone]
    rfl

theorem State.InStep.entry_matches : s.EntryMatches e := hs.entries e (hstat ▸ List.mem_cons_self)

/-- What does not depend on the slots of the entry taken. -/
theorem State.InStep.taken {t : State} (hsetup : s.isSetupEntry e = false)
    (hframe : t = { t with
      cfg := s.cfg
      stat := rest
      pp := s.pp
      tokenSuspend := s.tokenSuspend
      attached := s.attached
      reconnects := s.reconnects })
    (hentry : ∀ x ∈ rest, t.slot x.ep x.dir x.bank = s.slot x.ep x.dir x.bank)
    (hrx : ∀ ep, isDataEp s.cfg ep = true → ∀ b,
      (t.slot ep .rx b).desc.own = true → (t.slot ep .rx b).addr.isPool = true)
    (htx : ∀ ep, isDataEp s.cfg ep = true → ∀ b,
      (t.slot ep .tx b).desc.own = (txArmed (epGet t.txState ep) b && !decide (b ∈ pendingIn rest ep .tx)))
    (hfirst : ∀ ep, isDataEp s.cfg ep = true →
      firstBank (epGet t.txState ep) = ((pendingIn rest ep .tx).head?).getD (s.ppBank ep .tx))
    (hep0First : t.ep0.bank = ((pendingIn rest 0 .tx).head?).getD (s.ppBank 0 .tx))
    (hep0Other : (t.slot 0 .tx t.ep0.bank.other).desc.own = false)
    (hep0Rx : s.attached = true ∨ s.reconnects ≠ 0 → ∀ b,
      (t.slot 0 .rx b).desc.own = !decide (b ∈ pendingIn rest 0 .rx) ∧ (t.slot 0 .rx b).addr = ep0rxRef b)
    (hidle : t.ctl = .dataOut → pendingIn rest 0 .tx = [] ∧ (t.slot 0 .tx t.ep0.bank).desc.own = false) :
    t.InStep := by
  obtain ⟨hcfg, hstat', hpp, hsuspend, hattached, hreconnects⟩ : t.cfg = s.cfg ∧ t.stat = rest ∧ t.pp = s.pp ∧
      t.tokenSuspend = s.tokenSuspend ∧ t.attached = s.attached ∧ t.reconnects = s.reconnects := by
    rw [hframe]
    exact ⟨rfl, rfl, rfl, rfl, rfl, rfl⟩
  have hpending : t.pending = pendingIn rest := by rw [State.pending_eq, hstat']
  have hppBank : t.ppBank = s.ppBank := by
    funext ep d
    rw [State.ppBank, hpp, State.ppBank]
  have hsame (x : StatEntry) (hx : x ∈ rest) : t.isSetupEntry x = s.isSetupEntry x :=
    State.isSetupEntry_congr (hentry x hx)
  have hin (x : StatEntry) (hx : x ∈ rest) : x ∈ s.stat := hstat ▸ List.mem_cons_of_mem e hx
  exact
    { entries := fun x hx => by
        rw [hstat'] at hx
        exact (hs.entries x (hin x hx)).congr hcfg (hentry x hx)
      alternate := fun ep d => by
        rw [hpending, hppBank]
        by_cases heq : e.ep = ep ∧ e.dir = d
        · obtain ⟨rfl, rfl⟩ := heq
          obtain ⟨hnil, -⟩ | ⟨hone, hb⟩ := hs.pending_rest hstat
          · exact .inl hnil
          · exact .inr (.inl (hb ▸ hone))
        · have hkept := State.pending_of_cons hstat ep d
          rw [if_neg heq] at hkept
          exact hkept ▸ hs.alternate ep d
      suspended := fun h => by
        obtain ⟨before, last, heq, hlast, hbefore⟩ := hs.suspended (hsuspend ▸ h)
        cases before with
        | nil =>
          obtain ⟨rfl, -⟩ := List.cons.inj (hstat.symm.trans heq)
          cases hsetup.symm.trans hlast
        | cons first before =>
          obtain ⟨-, rfl⟩ := List.cons.inj (hstat.symm.trans heq)
          refine ⟨before, last, hstat', ?_, fun x hx => ?_⟩
          · rw [hsame last (List.mem_append_right _ (List.mem_singleton_self last)), hlast]
          · rw [hsame x (List.mem_append_left _ hx), hbefore x (List.mem_cons_of_mem _ hx)]
      running := fun h x hx => by
        rw [hstat'] at hx
        rw [hsame x hx, hs.running (hsuspend ▸ h) x (hin x hx)]
      rxOwned := hcfg ▸ hrx
      txOwned := by
        rw [hcfg, hpending]
        exact htx
      txFirst := by
        rw [hcfg, hpending, hppBank]
        exact hfirst
      ep0First := by
        rw [hpending, hppBank]
        exact hep0First
      ep0Single := by
        have hsingle := hs.ep0Single
        rw [State.pending_of_cons hstat] at hsingle
        rw [hpending]
        split at hsingle
        · exact Nat.le_of_succ_le hsingle
        · exact hsingle
      ep0Other := hep0Other
      ep0Rx := fun h => by
        rw [hpending]
        exact hep0Rx (hattached ▸ hreconnects ▸ h)
      dataOutIdle := by
        rw [hpending]
        exact hidle }

/-! ### The completions of the data endpoints (R137, R140) -/

/-- The entry is a data endpoint's: only slots of data endpoints are written, and no slot of another entry. -/
theorem State.InStep.taken_data {t : State} (hep : isDataEp s.cfg e.ep = true)
    (hframe : t = { t with
      cfg := s.cfg
      stat := rest
      pp := s.pp
      tokenSuspend := s.tokenSuspend
      ep0 := s.ep0
      ctl := s.ctl
      attached := s.attached
      reconnects := s.reconnects })
    (hfed : ∀ ep d b, ¬(ep = e.ep ∧ d = e.dir ∧ b = e.bank) → s.Fed t ep d b)
    (hself : e.dir = .rx →
      (t.slot e.ep .rx e.bank).desc.own = true → (t.slot e.ep .rx e.bank).addr.isPool = true)
    (htx : ∀ ep, isDataEp s.cfg ep = true → ∀ b,
      (t.slot ep .tx b).desc.own = (txArmed (epGet t.txState ep) b && !decide (b ∈ pendingIn rest ep .tx)))
    (hfirst : ∀ ep, isDataEp s.cfg ep = true →
      firstBank (epGet t.txState ep) = ((pendingIn rest ep .tx).head?).getD (s.ppBank ep .tx)) : t.InStep := by
  obtain ⟨hep0, hctl⟩ : t.ep0 = s.ep0 ∧ t.ctl = s.ctl := by
    rw [hframe]
    exact ⟨rfl, rfl⟩
  have hnotZero : e.ep ≠ 0 := isDataEp_ne_zero _ _ hep
  have hsetup : s.isSetupEntry e = false := by
    obtain ⟨-, -, ⟨p, hp, hlegal⟩, -⟩ := hs.entry_matches hstat
    refine decide_eq_false fun hlow => ?_
    rw [hlow, (pidOf_eq_some_iff _ .setupToken).mpr rfl] at hp
    cases hp
    cases hd : e.dir <;> simp [legalToken, hd, hnotZero] at hlegal
  have hzero (d : Dir) (b : Bank) : t.slot 0 d b = s.slot 0 d b := (hfed 0 d b fun h => hnotZero h.1.symm).zero
  have hpending (d : Dir) : pendingIn rest 0 d = s.pending 0 d := by
    rw [State.pending_of_cons hstat, if_neg fun h => hnotZero h.1]
  refine hs.taken hstat hsetup (by rw [hframe]) (fun x hx => ?_) (fun ep hep' b => ?_) htx hfirst ?_ ?_ ?_ ?_
  · exact (hfed _ _ _ (hs.rest_ne hstat hx)).entry (hs.entries x (hstat ▸ List.mem_cons_of_mem e hx))
  · by_cases heq : ep = e.ep ∧ Dir.rx = e.dir ∧ b = e.bank
    · obtain ⟨rfl, hd, rfl⟩ := heq
      exact hself hd.symm
    · exact (hfed ep .rx b heq).rxOwned (hs.rxOwned ep hep' b)
  · rw [hep0, hpending]
    exact hs.ep0First
  · rw [hep0, hzero]
    exact hs.ep0Other
  · simp only [hpending, hzero]
    exact hs.ep0Rx
  · rw [hctl, hpending, hep0, hzero]
    exact hs.dataOutIdle

end

/-- An RX completion writes its slot alone, and what it leaves to the SIE holds a packet. -/
theorem rxDone_slots {s t : State} {ep : Ep} {b : Bank} {n : BitVec 10} (ht : rxDone s ep b n = .ok t) :
    ∃ x : Slot, (x.desc.own = true → x.addr.isPool = true) ∧ t.slot = (s.setSlot ep .rx b x).slot := by
  obtain ⟨h, -, -, rfl | ht⟩ := rxDone_cases ht
  · exact ⟨_, fun _ => rfl, rfl⟩
  · obtain ⟨-, ⟨p, u, hu, rfl⟩ | ⟨-, rfl⟩⟩ := refillRx_cases ht
    · refine ⟨⟨armedDesc 64 (bankToggle b), .pool p⟩, fun _ => rfl, State.slot_congr _ _ ?_⟩
      rw [(allocPacket_frame _ _ _ hu).2, acceptRx_eq]
      rfl
    · refine ⟨Slot.cleared, fun h => Bool.noConfusion h, State.slot_congr _ _ ?_⟩
      rw [acceptRx_eq]
      rfl

theorem rxDone_inStep {s t : State} {ep : Ep} {b : Bank} {n : BitVec 10} {rest : List StatEntry} (hs : s.InStep)
    (hstat : s.stat = ⟨ep, .rx, b⟩ :: rest) (hep : isDataEp s.cfg ep = true)
    (ht : rxDone { s with stat := rest } ep b n = .ok t) : t.InStep := by
  have hframe := rxDone_frame ht
  have hstate : t.txState = s.txState := by rw [hframe]
  obtain ⟨x, hx, hslot⟩ := rxDone_slots ht
  have hset (ep' : Ep) (d' : Dir) (b' : Bank) :
      t.slot ep' d' b' = if ep' = ep ∧ d' = .rx ∧ b' = b then x else s.slot ep' d' b' := by
    rw [hslot]
    exact s.slot_setSlot ep ep' .rx d' b b' x
  have htx (ep' : Ep) (b' : Bank) : t.slot ep' .tx b' = s.slot ep' .tx b' :=
    (hset ep' .tx b').trans (if_neg fun h => Dir.noConfusion h.2.1)
  have hpending (ep' : Ep) : pendingIn rest ep' .tx = s.pending ep' .tx := by
    rw [State.pending_of_cons hstat, if_neg fun h => Dir.noConfusion h.2]
  refine hs.taken_data hstat hep (by rw [hframe]) (fun ep' d' b' hne => .inl ((hset ep' d' b').trans (if_neg hne)))
    (fun _ => ?_) (fun ep' hep' b' => ?_) fun ep' hep' => ?_
  · rw [hset, if_pos ⟨rfl, rfl, rfl⟩]
    exact hx
  · rw [htx, hstate, hpending]
    exact hs.txOwned ep' hep' b'
  · rw [hstate, hpending]
    exact hs.txFirst ep' hep'

/-- R138 goes on with the other bank. -/
theorem completionTable_first {st st' : TxState} {c : Bank} {empty refill : Bool} (hfirst : firstBank st = c)
    (h : completionTable st c empty = .ok (refill, st')) : firstBank st' = c.other := by
  subst hfirst
  revert h
  cases st <;> cases empty <;> rintro ⟨⟩ <;> rfl

/-- A TX completion writes its slot and its bank state, and may feed an RX slot (R137, R138, R113). -/
theorem txDone_slots {s t : State} {ep : Ep} {c : Bank} (ht : txDone s ep c = .ok t) :
    ∃ (empty refill : Bool) (st : TxState), completionTable (epGet s.txState ep) c empty = .ok (refill, st) ∧
      t.txState = epPut s.txState ep st ∧ (t.slot ep .tx c).desc.own = refill ∧
      ∀ ep' d' b', ¬(ep' = ep ∧ d' = .tx ∧ b' = c) → s.Fed t ep' d' b' := by
  have hreleased (h : Nat) (ep' : Ep) (d' : Dir) (b' : Bank) (hne : ¬(ep' = ep ∧ d' = .tx ∧ b' = c)) :
      s.Fed (s.txReleased ep c h) ep' d' b' := by
    have hfed := (s.setSlot ep .tx c Slot.cleared).release_fed h ep' d' b'
    rw [State.Fed, State.slot_setSlot_other _ _ _ _ _ _ _ _ hne] at hfed
    exact hfed
  have hself (h : Nat) : (s.txReleased ep c h).slot ep .tx c = Slot.cleared := by
    rw [State.slot_release_tx, State.slot_setSlot_same]
  have hstate (h : Nat) : (s.txReleased ep c h).txState = s.txState := by rw [State.txReleased_frame]
  obtain ⟨h, st, -, -, ⟨-, htable, rfl⟩ | ⟨q, rest, -, htable, rfl⟩⟩ := txDone_cases ht
  · refine ⟨true, false, st, htable, ?_, ?_, hreleased h⟩
    · rw [State.setTxState_txState, hstate]
    · exact congrArg (·.desc.own) (hself h)
  · refine ⟨false, true, st, htable, ?_, ?_, fun ep' d' b' hne => ?_⟩
    · rw [State.setTxState_txState, ← hstate h]
      rfl
    · exact congrArg (·.desc.own) ((s.txReleased ep c h).slot_setSlot_same ep .tx c _)
    · have hkept := (s.txReleased ep c h).slot_setSlot_other ep ep' .tx d' c b'
        ⟨armedDesc (((s.txReleased ep c h).header q).len.setWidth 10) (bankToggle c), .pool q⟩ hne
      have hfed := hreleased h ep' d' b' hne
      rw [State.Fed, ← hkept] at hfed
      exact hfed

theorem txDone_frame {s t : State} {ep : Ep} {c : Bank} (ht : txDone s ep c = .ok t) :
    t = { s with
      free := t.free
      owner := t.owner
      pkt := t.pkt
      bdt := t.bdt
      txState := t.txState
      txq := t.txq
      rxNeeded := t.rxNeeded } := by
  obtain ⟨h, st, -, -, ⟨-, -, rfl⟩ | ⟨q, rest, -, -, rfl⟩⟩ := txDone_cases ht
  all_goals
    rw [State.txReleased_frame]
    rfl

theorem txDone_inStep {s t : State} {ep : Ep} {c : Bank} {rest : List StatEntry} (hs : s.InStep)
    (hstat : s.stat = ⟨ep, .tx, c⟩ :: rest) (hep : isDataEp s.cfg ep = true)
    (ht : txDone { s with stat := rest } ep c = .ok t) : t.InStep := by
  have hframe := txDone_frame ht
  obtain ⟨empty, refill, st, htable, hstate, hself, hfed⟩ := txDone_slots ht
  obtain ⟨hown, hother⟩ := completionTable_disarms_one htable
  have hfirst : firstBank (epGet s.txState ep) = c := by
    rw [hs.txFirst ep hep, State.pending_head hstat]
    rfl
  have hpending (ep' : Ep) (hne : ep' ≠ ep) : pendingIn rest ep' .tx = s.pending ep' .tx := by
    rw [State.pending_of_cons hstat, if_neg fun h => hne h.1.symm]
  have hpendingSelf : s.pending ep .tx = c :: pendingIn rest ep .tx := by
    rw [State.pending_of_cons hstat, if_pos ⟨rfl, rfl⟩]
  refine hs.taken_data hstat hep (by rw [hframe]) (fun ep' d' b' hne => hfed ep' d' b' hne)
    (fun hd => Dir.noConfusion hd) (fun ep' hep' b' => ?_) fun ep' hep' => ?_
  · rw [hstate, epGet_epPut]
    by_cases heq : ep' = ep
    · subst heq
      rw [if_pos rfl]
      obtain rfl | rfl := c.eq_or_other b'
      · rw [hself, hown, decide_eq_false (hs.not_mem_rest hstat), Bool.not_false, Bool.and_true]
      · have hkept : t.slot ep' .tx c.other = s.slot ep' .tx c.other :=
          (hfed ep' .tx c.other fun h => Bank.other_ne c h.2.2).tx
        rw [hkept, hs.txOwned ep' hep, hother, hpendingSelf]
        simp [Bank.other_ne]
    · have hkept : t.slot ep' .tx b' = s.slot ep' .tx b' := (hfed ep' .tx b' fun h => heq h.1).tx
      rw [if_neg heq, hkept, hpending ep' heq]
      exact hs.txOwned ep' hep' b'
  · rw [hstate, epGet_epPut]
    split
    · next heq =>
      rw [completionTable_first hfirst htable, heq]
      exact (hs.head_rest hstat).symm
    · next hne =>
      rw [hpending ep' hne]
      exact hs.txFirst ep' hep'

/-! ### IN and OUT on endpoint 0 (R188, R191) -/

/-- An entry with another PID is no SETUP's. -/
theorem State.not_isSetupEntry {s : State} {e : StatEntry} {p : Pid}
    (hlow : (s.slot e.ep e.dir e.bank).desc.low = pidCode p) (hp : p ≠ .setupToken) : s.isSetupEntry e = false := by
  refine decide_eq_false fun h => hp ?_
  have hcode : pidCode p = pidCode .setupToken := hlow.symm.trans h
  revert hcode
  cases p <;> decide

/-- Only slots of endpoint 0 have been written, no bank state and no slot of another entry. -/
theorem State.InStep.taken_zero {s t : State} {d : Dir} {b : Bank} {rest : List StatEntry} (hs : s.InStep)
    (hstat : s.stat = ⟨0, d, b⟩ :: rest) (hsetup : s.isSetupEntry ⟨0, d, b⟩ = false)
    (hframe : t = { t with
      cfg := s.cfg
      stat := rest
      pp := s.pp
      tokenSuspend := s.tokenSuspend
      txState := s.txState
      attached := s.attached
      reconnects := s.reconnects })
    (hother : ∀ ep d' b', ep ≠ 0 → t.slot ep d' b' = s.slot ep d' b')
    (hentry : ∀ d' b', b' ∈ pendingIn rest 0 d' → t.slot 0 d' b' = s.slot 0 d' b')
    (hep0First : t.ep0.bank = ((pendingIn rest 0 .tx).head?).getD (s.ppBank 0 .tx))
    (hep0Other : (t.slot 0 .tx t.ep0.bank.other).desc.own = false)
    (hep0Rx : s.attached = true ∨ s.reconnects ≠ 0 → ∀ b,
      (t.slot 0 .rx b).desc.own = !decide (b ∈ pendingIn rest 0 .rx) ∧ (t.slot 0 .rx b).addr = ep0rxRef b)
    (hidle : t.ctl = .dataOut → pendingIn rest 0 .tx = [] ∧ (t.slot 0 .tx t.ep0.bank).desc.own = false) :
    t.InStep := by
  have hstate : t.txState = s.txState := by rw [hframe]
  have hpending (ep : Ep) (hep : isDataEp s.cfg ep = true) : pendingIn rest ep .tx = s.pending ep .tx := by
    rw [State.pending_of_cons hstat, if_neg fun h => isDataEp_ne_zero _ _ hep h.1.symm]
  refine hs.taken hstat hsetup (by rw [hframe]) (fun x hx => ?_) (fun ep hep b => ?_) (fun ep hep b => ?_)
    (fun ep hep => ?_) hep0First hep0Other hep0Rx hidle
  · obtain ⟨ep, d', b'⟩ := x
    by_cases hzero : ep = 0
    · subst hzero
      exact hentry d' b' (mem_pendingIn.mpr hx)
    · exact hother ep d' b' hzero
  · rw [hother ep .rx b (isDataEp_ne_zero _ _ hep)]
    exact hs.rxOwned ep hep b
  · rw [hother ep .tx b (isDataEp_ne_zero _ _ hep), hstate, hpending ep hep]
    exact hs.txOwned ep hep b
  · rw [hstate, hpending ep hep]
    exact hs.txFirst ep hep

/-- Arming a TX slot of endpoint 0 touches no other slot. -/
theorem State.TxArmedIn.slot {s t : State} {b : Bank} (h : s.TxArmedIn t b) {ep : Ep} {d : Dir} {b' : Bank}
    (hne : ¬(ep = 0 ∧ d = .tx ∧ b' = b)) : t.slot ep d b' = s.slot ep d b' := by
  obtain ⟨-, x, -, hbdt⟩ := h
  rw [State.slot_congr _ _ hbdt, State.slot_setSlot_other _ _ _ _ _ _ _ _ hne]

theorem ep0InDone_inStep {s t : State} {c : Bank} {rest : List StatEntry} (hs : s.InStep)
    (hstat : s.stat = ⟨0, .tx, c⟩ :: rest) (hsetup : s.isSetupEntry ⟨0, .tx, c⟩ = false)
    (ht : ep0InDone { s with stat := rest } c = .ok t) : t.InStep := by
  have hframe := ep0InDone_frame ht
  obtain ⟨hc, -, hbank, hbdt⟩ := ep0InDone_bdt ht
  have hpending (d : Dir) := State.pending_of_cons hstat 0 d
  have hnil : pendingIn rest 0 .tx = [] := by
    have hsingle := hs.ep0Single
    rw [hpending, if_pos ⟨rfl, rfl⟩] at hsingle
    exact List.length_eq_zero_iff.mp (Nat.le_zero.mp (Nat.le_of_succ_le_succ hsingle))
  have hrx : pendingIn rest 0 .rx = s.pending 0 .rx := by
    rw [hpending, if_neg fun h => Dir.noConfusion h.2]
  have hreleased (ep : Ep) (d : Dir) (b : Bank) : State.slot (State.inCompleted { s with stat := rest }) ep d b =
      if ep = 0 ∧ d = .tx ∧ b = c then Slot.cleared else s.slot ep d b := by
    rw [hc]
    exact s.slot_setSlot 0 ep .tx d _ b Slot.cleared
  have hslot (ep : Ep) (d : Dir) (b : Bank) (hne : ¬(ep = 0 ∧ d = .tx ∧ b = c.other)) :
      t.slot ep d b = if ep = 0 ∧ d = .tx ∧ b = c then Slot.cleared else s.slot ep d b := by
    rw [← hreleased]
    obtain ⟨hbdt, -⟩ | ⟨-, harmed⟩ := hbdt
    · rw [State.slot_congr _ _ hbdt]
    · exact harmed.slot hne
  have hkept (ep : Ep) (d : Dir) (b : Bank) (hne : ¬(ep = 0 ∧ d = .tx)) : t.slot ep d b = s.slot ep d b := by
    rw [hslot ep d b fun h => hne ⟨h.1, h.2.1⟩, if_neg fun h => hne ⟨h.1, h.2.1⟩]
  refine hs.taken_zero hstat hsetup (by rw [hframe]) (fun ep d b hne => hkept ep d b fun h => hne h.1)
    (fun d b hmem => hkept 0 d b ?_) ?_ ?_ (fun hup b => ?_) fun hctl => ?_
  · rintro ⟨-, rfl⟩
    rw [hnil] at hmem
    cases hmem
  · rw [hbank]
    exact (hs.head_rest hstat).symm
  · rw [hbank, Bank.other_other, hslot 0 .tx c fun h => Bank.other_ne c h.2.2.symm, if_pos ⟨rfl, rfl, rfl⟩]
    rfl
  · rw [hkept 0 .rx b fun h => Dir.noConfusion h.2, hrx]
    exact hs.ep0Rx hup b
  · obtain ⟨-, hdata⟩ | ⟨hdata, -⟩ := hbdt
    · obtain ⟨hnone, -⟩ := hs.dataOutIdle (hdata hctl)
      rw [hpending, if_pos ⟨rfl, rfl⟩] at hnone
      cases hnone
    · exact absurd hctl hdata

theorem ep0OutDone_inStep {s t : State} {b : Bank} {n : BitVec 10} {rest : List StatEntry} (hs : s.InStep)
    (hstat : s.stat = ⟨0, .rx, b⟩ :: rest) (hsetup : s.isSetupEntry ⟨0, .rx, b⟩ = false)
    (ht : ep0OutDone { s with stat := rest } b n = .ok t) : t.InStep := by
  have hframe := ep0OutDone_frame ht
  obtain ⟨-, hbank, hbdt⟩ := ep0OutDone_bdt ht
  have hbank : t.ep0.bank = s.ep0.bank := hbank
  have hpending (d : Dir) := State.pending_of_cons hstat 0 d
  have htx : pendingIn rest 0 .tx = s.pending 0 .tx := by
    rw [hpending, if_neg fun h => Dir.noConfusion h.2]
  have hrearmed (ep : Ep) (d : Dir) (b' : Bank) : State.slot (State.outRearmed { s with stat := rest } b) ep d b' =
      if ep = 0 ∧ d = .rx ∧ b' = b then { desc := armedDesc (ep0Count s.cfg) .data1, addr := ep0rxRef b }
      else s.slot ep d b' := s.slot_setSlot 0 ep .rx d b b' _
  have hslot (ep : Ep) (d : Dir) (b' : Bank) (hne : s.ctl = .dataOut → ¬(ep = 0 ∧ d = .tx ∧ b' = s.ep0.bank)) :
      t.slot ep d b' = if ep = 0 ∧ d = .rx ∧ b' = b then
        { desc := armedDesc (ep0Count s.cfg) .data1, addr := ep0rxRef b } else s.slot ep d b' := by
    rw [← hrearmed]
    obtain ⟨hbdt, -⟩ | ⟨hctl, -, harmed⟩ := hbdt
    · rw [State.slot_congr _ _ hbdt]
    · exact harmed.slot (hne hctl)
  have hin (b' : Bank) (hne : s.ctl = .dataOut → b' ≠ s.ep0.bank) : t.slot 0 .tx b' = s.slot 0 .tx b' := by
    rw [hslot 0 .tx b' fun hctl h => hne hctl h.2.2, if_neg fun h => Dir.noConfusion h.2.1]
  have hout (b' : Bank) := hslot 0 .rx b' fun _ h => Dir.noConfusion h.2.1
  refine hs.taken_zero hstat hsetup (by rw [hframe]) (fun ep d b' hne => ?_) (fun d b' hmem => ?_) ?_ ?_
    (fun hup b' => ?_) fun hctl => ?_
  · rw [hslot ep d b' fun _ h => hne h.1, if_neg fun h => hne h.1]
  · cases d with
    | rx =>
      rw [hout, if_neg]
      rintro ⟨-, -, rfl⟩
      exact hs.not_mem_rest hstat hmem
    | tx =>
      refine hin b' fun hctl => ?_
      rw [htx, (hs.dataOutIdle hctl).1] at hmem
      cases hmem
  · rw [hbank, htx]
    exact hs.ep0First
  · rw [hbank, hin _ fun _ => Bank.other_ne _]
    exact hs.ep0Other
  · obtain rfl | rfl := b.eq_or_other b'
    · rw [hout, if_pos ⟨rfl, rfl, rfl⟩, decide_eq_false (hs.not_mem_rest hstat)]
      exact ⟨rfl, rfl⟩
    · obtain ⟨hrx, haddr⟩ := hs.ep0Rx hup b.other
      rw [hout, if_neg fun h => Bank.other_ne b h.2.2]
      refine ⟨?_, haddr⟩
      rw [hrx, hpending, if_pos ⟨rfl, rfl⟩]
      simp [Bank.other_ne]
  · obtain ⟨hbdt, hdata⟩ | ⟨-, hdata, -⟩ := hbdt
    · obtain ⟨hnil, hfree⟩ := hs.dataOutIdle (hdata hctl)
      refine ⟨htx.trans hnil, ?_⟩
      rw [hbank, State.slot_congr _ _ hbdt, hrearmed, if_neg fun h => Dir.noConfusion h.2.1]
      exact hfree
    · exact absurd hctl hdata

/-! ### SETUP (R183) -/

/-- The slots and bank states of the data endpoints agree with the SIE's banks, no entry waiting. -/
structure State.DataIdle (s : State) : Prop where
  rx : ∀ ep : Ep, isDataEp s.cfg ep = true → ∀ b : Bank,
    (s.slot ep .rx b).desc.own = true → (s.slot ep .rx b).addr.isPool = true
  tx : ∀ ep : Ep, isDataEp s.cfg ep = true → ∀ b : Bank,
    (s.slot ep .tx b).desc.own = txArmed (epGet s.txState ep) b
  first : ∀ ep : Ep, isDataEp s.cfg ep = true → firstBank (epGet s.txState ep) = s.ppBank ep .tx

theorem State.DataIdle.congr {s t : State} (hs : s.DataIdle) (hcfg : t.cfg = s.cfg) (hpp : t.pp = s.pp)
    (hstate : t.txState = s.txState) (hslot : ∀ ep d b, ep ≠ 0 → t.slot ep d b = s.slot ep d b) : t.DataIdle where
  rx ep hep b := by
    rw [hcfg] at hep
    rw [hslot ep .rx b (isDataEp_ne_zero _ _ hep)]
    exact hs.rx ep hep b
  tx ep hep b := by
    rw [hcfg] at hep
    rw [hslot ep .tx b (isDataEp_ne_zero _ _ hep), hstate]
    exact hs.tx ep hep b
  first ep hep := by
    rw [hcfg] at hep
    rw [hstate, State.ppBank, hpp]
    exact hs.first ep hep

/-- Both banks free, the SIE's next stays the same (R262). -/
theorem firstBank_bothFree (st : TxState) : firstBank (bothFree st) = firstBank st := by cases st <;> rfl

theorem State.DataIdle.reconfigure {s t : State} {v : Byte} (hs : s.DataIdle) (ht : reconfigure s v = .ok t) :
    t.DataIdle := by
  have hframe := reconfigure_frame s t v ht
  have hcfg : t.cfg = s.cfg := by rw [hframe]
  have hpp : t.pp = s.pp := by rw [hframe]
  refine ⟨fun ep hep b => ?_, fun ep hep b => ?_, fun ep hep => ?_⟩
  all_goals rw [hcfg] at hep
  · by_cases hrx : rxEnabled s.cfg ep = true
    · obtain ⟨k, hk⟩ := List.mem_iff_getElem?.mp ((mem_rxSlots s.cfg ep b).mpr hrx)
      by_cases hlt : k < s.reclaimable
      · obtain ⟨p, hslot, -⟩ := reconfigure_slot_armed ht hk hlt
        rw [hslot]
        exact fun _ => rfl
      · rw [reconfigure_slot_starved ht hk (Nat.le_of_not_lt hlt)]
        exact fun h => Bool.noConfusion h
    · rw [reconfigure_slot ht b fun _ => Bool.eq_false_iff.mpr hrx, if_pos hep]
      exact fun h => Bool.noConfusion h
  · obtain ⟨hslot, harmed⟩ := reconfigure_tx ht hep b
    rw [hslot, harmed]
    rfl
  · obtain ⟨-, -, -, hstate, -⟩ := reconfigure_arrays ht ep
    rw [hstate, if_pos hep, firstBank_bothFree, State.ppBank, hpp]
    exact hs.first ep hep

/-- A request's handler leaves endpoint 0's slots and context, the entries and the SIE alone. -/
theorem requestHandler_kept {i : Instr} {s t : State} {r : HandlerResult} (ht : requestHandler i s = .ok (t, r)) :
    (∀ d b, t.slot 0 d b = s.slot 0 d b) ∧
      t = { t with
        cfg := s.cfg
        stat := s.stat
        ep0 := s.ep0
        pp := s.pp
        attached := s.attached
        reconnects := s.reconnects } := by
  rcases requestHandler_frame ht with ⟨v, w, l, -, hreconf⟩ | hframe
  · exact ⟨fun d b => reconfigure_ep0 _ _ _ hreconf d b, by rw [reconfigure_frame _ _ _ hreconf]⟩
  · rw [hframe]
    exact ⟨fun _ _ => rfl, rfl⟩

theorem requestHandler_dataIdle {i : Instr} {s t : State} {r : HandlerResult} (hs : s.DataIdle)
    (ht : requestHandler i s = .ok (t, r)) : t.DataIdle := by
  rcases requestHandler_frame ht with ⟨v, w, l, -, hreconf⟩ | hframe
  · exact hs.reconfigure hreconf
  · refine hs.congr ?_ ?_ ?_ fun ep d b _ => congrFun (congrFun (congrFun (State.slot_congr t s ?_) ep) d) b
    all_goals rw [hframe]

/-- After a SETUP stage that found no other entry waiting, the block and the SIE agree. -/
theorem setupStage_inStep {p : SetupPacket} {i : Instr} {s t : State} (hidle : s.DataIdle) (hstat : s.stat = [])
    (hbank : s.ep0.bank = s.ppBank 0 .tx)
    (hrx : s.attached = true ∨ s.reconnects ≠ 0 →
      ∀ b, (s.slot 0 .rx b).desc.own = true ∧ (s.slot 0 .rx b).addr = ep0rxRef b)
    (ht : setupStage p (requestHandler i) s = .ok t) : t.InStep := by
  obtain ⟨u, r, v, hu, hv, rfl⟩ := setupStage_ok ht
  have hbegun (ep : Ep) (d : Dir) (b : Bank) := s.slot_beginSetup p ep d b
  have hbegunIdle : (s.beginSetup p).DataIdle :=
    hidle.congr rfl rfl rfl fun ep d b hne => (hbegun ep d b).trans (if_neg fun h => hne h.1)
  obtain ⟨hzero, hkept⟩ := requestHandler_kept hu
  have huIdle := requestHandler_dataIdle hbegunIdle hu
  obtain ⟨hvbank, hbdt⟩ := applyResult_bdt hv
  have hslot (ep : Ep) (d : Dir) (b : Bank) (hne : ¬(ep = 0 ∧ d = .tx ∧ b = u.ep0.bank)) :
      v.slot ep d b = u.slot ep d b := by
    obtain hbdt | ⟨-, harmed⟩ := hbdt
    · rw [State.slot_congr _ _ hbdt]
    · exact harmed.slot hne
  have hvframe := applyResult_frame hv
  have hvIdle : v.DataIdle := by
    refine huIdle.congr ?_ ?_ ?_ fun ep d b hne => hslot ep d b fun h => hne h.1
    all_goals rw [hvframe]
  obtain ⟨hvstat, hvpp, hvup⟩ : v.stat = [] ∧ v.pp = s.pp ∧ (v.attached = s.attached ∧ v.reconnects = s.reconnects) := by
    rw [hvframe, hkept]
    exact ⟨hstat, rfl, rfl, rfl⟩
  have hubank : u.ep0.bank = s.ep0.bank := by
    rw [hkept]
    rfl
  refine State.inStep_of_idle _ hvstat rfl (fun ep hep b _ => hvIdle.rx ep hep b) (fun ep hep b _ => hvIdle.tx ep hep b)
    hvIdle.first ⟨?_, ?_, ?_⟩ fun hup b _ => ?_
  · refine (hvbank.trans hubank).trans (hbank.trans ?_)
    rw [State.ppBank, ← hvpp]
    rfl
  · show (v.slot 0 .tx v.ep0.bank.other).desc.own = false
    rw [hvbank, hslot _ _ _ fun h => Bank.other_ne _ h.2.2, hzero, hbegun, if_pos ⟨rfl, rfl⟩]
    rfl
  · intro hctl
    obtain hbdt | ⟨hne, -⟩ := hbdt
    · show (v.slot 0 .tx v.ep0.bank).desc.own = false
      rw [State.slot_congr _ _ hbdt, hzero, hbegun, if_pos ⟨rfl, rfl⟩]
      rfl
    · exact absurd hctl hne
  · have hrx := hrx (hvup.1 ▸ hvup.2 ▸ hup) b
    show (v.slot 0 .rx b).desc.own = true ∧ (v.slot 0 .rx b).addr = ep0rxRef b
    rw [hslot _ _ _ fun h => Dir.noConfusion h.2.1, hzero, hbegun, if_neg fun h => Dir.noConfusion h.2]
    exact hrx

/-- A SETUP's entry is the only one: the SIE stops at it (R198). -/
theorem State.InStep.stat_of_setup {s : State} {e : StatEntry} {rest : List StatEntry} (hs : s.InStep)
    (hstat : s.stat = e :: rest) (hsetup : s.isSetupEntry e = true) : rest = [] := by
  have hsuspend : s.tokenSuspend = true := by
    by_contra hrun
    cases hsetup.symm.trans (hs.running (Bool.eq_false_iff.mpr hrun) e (hstat ▸ List.mem_cons_self))
  obtain ⟨before, last, heq, -, hbefore⟩ := hs.suspended hsuspend
  cases before with
  | nil => exact (List.cons.inj (hstat.symm.trans heq)).2
  | cons first before =>
    obtain ⟨rfl, -⟩ := List.cons.inj (hstat.symm.trans heq)
    cases hsetup.symm.trans (hbefore e List.mem_cons_self)

theorem ep0Setup_inStep {s t : State} {b : Bank} {rest : List StatEntry} (hs : s.InStep)
    (hstat : s.stat = ⟨0, .rx, b⟩ :: rest) (hsetup : s.isSetupEntry ⟨0, .rx, b⟩ = true)
    (ht : ep0Setup { s with stat := rest } b = .ok t) : t.InStep := by
  obtain rfl := hs.stat_of_setup hstat hsetup
  obtain ⟨p, hp⟩ := ep0Setup_ok ht
  rw [dispatchRequest_eq] at hp
  have htx (ep : Ep) : s.pending ep .tx = [] := by
    rw [State.pending_of_cons hstat, if_neg fun h => Dir.noConfusion h.2]
    rfl
  have hslot (ep : Ep) (d : Dir) (b' : Bank) := s.slot_setSlot 0 ep .rx d b b'
    { desc := armedDesc (ep0Count s.cfg) .data1, addr := ep0rxRef b }
  have hidle : s.DataIdle := by
    refine ⟨hs.rxOwned, fun ep hep b' => ?_, fun ep hep => ?_⟩
    · rw [hs.txOwned ep hep, htx]
      simp
    · rw [hs.txFirst ep hep, htx]
      rfl
  refine setupStage_inStep (s := State.setSlot { s with stat := [] } 0 .rx b _) (hidle.congr rfl rfl rfl
    fun ep d b' hne => (hslot ep d b').trans (if_neg fun h => hne h.1)) rfl ?_ (fun hup b' => ?_) hp
  · refine hs.ep0First.trans ?_
    rw [htx]
    rfl
  · refine (Eq.to_iff (congrArg (fun x : Slot => x.desc.own = true ∧ x.addr = ep0rxRef b') (hslot 0 .rx b'))).mpr ?_
    obtain rfl | rfl := b.eq_or_other b'
    · rw [if_pos ⟨rfl, rfl, rfl⟩]
      exact ⟨rfl, rfl⟩
    · obtain ⟨hrx, haddr⟩ := hs.ep0Rx hup b.other
      rw [if_neg fun h => Bank.other_ne b h.2.2]
      refine ⟨?_, haddr⟩
      rw [hrx, State.pending_of_cons hstat, if_pos ⟨rfl, rfl⟩]
      simp [pendingIn, Bank.other_ne]

/-! ### Every command -/

theorem execTokenDone_inStep {s t : State} (hs : s.InStep) (ht : execTokenDone s = .next t) : t.InStep := by
  obtain ⟨-, ht⟩ := (whenAlive_next _ _ _).mp ht
  split at ht
  · cases ht
    exact hs
  next e rest hstat =>
  refine commit_inStep hs (fun u hu => ?_) ht
  obtain ⟨ep, d, b⟩ := e
  obtain ⟨-, p, hlow, -, ⟨rfl, htoken⟩ | ⟨hep, ⟨rfl, htx⟩ | ⟨rfl, hrx⟩⟩⟩ := handleEntry_cases hu
  · obtain ⟨rfl, rfl, ht⟩ | ⟨rfl, rfl, ht⟩ | ⟨rfl, rfl, ht⟩ := ep0Token_cases htoken
    · exact ep0Setup_inStep hs hstat (decide_eq_true hlow) ht
    · exact ep0InDone_inStep hs hstat (State.not_isSetupEntry hlow Pid.noConfusion) ht
    · exact ep0OutDone_inStep hs hstat (State.not_isSetupEntry hlow Pid.noConfusion) ht
  · exact txDone_inStep hs hstat hep htx
  · exact rxDone_inStep hs hstat hep hrx

/-- Every command keeps the block and the SIE in step, but a SETUP that overtakes one not yet handled. -/
theorem exec_inStep {i : Instr} {s t : State} (hi : i.isCommand = true) (hs : s.InStep) (howner : s.Ownership)
    (hrun : ∀ a p, i = .hostSetup a p → s.tokenSuspend = false) (ht : exec i s = .next t) : t.InStep := by
  cases i with
  | init => exact execInit_inStep ht
  | alloc => exact execAlloc_inStep hs ht
  | free => exact execFree_inStep hs ht
  | tx => exact execTx_inStep hs howner ht
  | rx => exact execRx_inStep hs ht
  | txByteCount | txPacketCount | rxByteCount => exact returnCount_inStep hs ht
  | configured | deviceReload =>
    obtain ⟨-, ht⟩ := (whenAlive_next _ _ _).mp ht
    cases ht
    exact hs.same rfl
  | reinit => exact execReinit_inStep ht
  | pktFill => exact execPktFill_inStep hs ht
  | pktRead => exact execPktRead_inStep hs ht
  | tokenDone => exact execTokenDone_inStep hs ht
  | powerTimeout => exact execPowerTimeout_inStep hs ht
  | hostSetup a p => exact execHostSetup_inStep hs howner (hrun a p rfl) ht
  | hostOut => exact execHostOut_inStep hs howner ht
  | hostIn => exact execHostIn_inStep hs howner ht
  | hostBusReset => exact execHostBusReset_inStep hs ht
  | _ => cases hi

/-- What a command word decodes to is a command (R99). -/
theorem isCommand_of_decodeCommand {c : Command} {i : Instr} (h : decodeCommand c = .ok i) : i.isCommand = true := by
  obtain ⟨hencode, -⟩ := spells_of_decodeCommand h
  cases i with
  | getStatusDevice | getStatusEndpoint | clearFeatureEndpoint | setFeatureEndpoint | setAddress | getDescriptorDevice
  | getDescriptorInterface | getConfiguration | setConfiguration | hidGetReport | hidGetIdle | hidGetProtocol
  | hidSetReport | hidSetIdle | hidSetProtocol | cdcSetLineCoding | cdcGetLineCoding | cdcSetControlLineState =>
    cases hencode
  | _ => rfl

theorem fetchCommand_ok {s u : State} {i : Instr} (h : fetchCommand s = some (.ok i, u)) :
    i.isCommand = true ∧ u = { s with cmds := u.cmds } := by
  unfold fetchCommand at h
  split at h
  · cases h
  · next c cs _ =>
    obtain ⟨hdecode, rfl⟩ := Prod.mk.inj (Option.some.inj h)
    exact ⟨isCommand_of_decodeCommand hdecode, rfl⟩

/-- Settles O53: a step executes a command, and each command keeps the block and the SIE in step. -/
theorem inStepKept : Obligations.InStepKept := fun s t howner hs hrun ht => by
  obtain rfl | ⟨i, u, hfetch, hexec⟩ := step_next ht
  · exact hs
  · obtain ⟨hi, hframe⟩ := fetchCommand_ok hfetch
    refine exec_inStep hi ?_ ?_ (fun a p hsetup => ?_) hexec
    all_goals rw [hframe]
    · exact hs.same rfl
    · exact howner.same rfl
    · exact hrun a p u (hsetup ▸ hfetch)

end Sys2Proof.Machine
end

section
/-! A second SET_CONFIGURATION with the same value (R265): as many packets can be taken back as before, so the same RX
slots are seeded. -/

namespace Sys2Proof.Machine

/-! ### What seeding takes stays in reach (R264) -/

/-- A packet that was free is still free, or in one of the slots seeded. -/
theorem seedSlots_taken {l : List (Ep × Bank)} {s t : State} (hl : l.Nodup) (ht : seedSlots l s = .ok t) {h : Nat}
    (hfree : s.isFree h = true) : t.isFree h = true ∨ ∃ x ∈ l, (t.slot x.1 .rx x.2).addr = .pool h := by
  induction l generalizing s with
  | nil =>
    cases ht
    exact .inl hfree
  | cons x l ih =>
    obtain ⟨ep, b⟩ := x
    obtain ⟨hnew, hl⟩ := List.nodup_cons.mp hl
    rw [seedSlots] at ht
    split at ht
    · next u hu =>
      have hlater (hufree : u.isFree h = true) :
          t.isFree h = true ∨ ∃ x ∈ (ep, b) :: l, (t.slot x.1 .rx x.2).addr = .pool h :=
        (ih hl ht hufree).imp_right fun ⟨x, hx, hslot⟩ => ⟨x, List.mem_cons_of_mem _ hx, hslot⟩
      obtain ⟨p, hp, hset, -, hslot⟩ | ⟨-, rfl⟩ := seedSlot_ok hu
      · by_cases heq : h = p
        · refine .inr ⟨(ep, b), List.mem_cons_self, ?_⟩
          rw [seedSlots_slot _ _ _ ht ep .rx b fun _ => hnew, hslot, heq]
        · exact hlater ((State.isFree_of_set hp hset h).trans ((if_neg heq).trans hfree))
      · exact hlater hfree
    · cases ht

theorem seedSlots_free_length {l : List (Ep × Bank)} {s t : State} (ht : seedSlots l s = .ok t) :
    t.free.length = s.free.length := by
  induction l generalizing s with
  | nil =>
    cases ht
    rfl
  | cons x l ih =>
    rw [seedSlots] at ht
    split at ht
    · next u hu =>
      rw [ih ht]
      obtain ⟨p, -, hset, -⟩ | ⟨-, rfl⟩ := seedSlot_ok hu
      · rw [hset, List.length_set]
      · rfl
    · cases ht

theorem State.inTransit_congr {s t : State} (hcfg : t.cfg = s.cfg) (hrxq : t.rxq = s.rxq) (htxq : t.txq = s.txq)
    (hslot : ∀ ep : Ep, ep ≠ 0 → ∀ d b, t.slot ep d b = s.slot ep d b) : t.inTransit = s.inTransit := by
  funext h
  have hheld : t.heldBy (dataEps s.cfg) h ↔ s.heldBy (dataEps s.cfg) h := by
    refine exists_congr fun ep => and_congr_right fun he => ?_
    simp only [hslot ep (isDataEp_ne_zero s.cfg ep ((mem_dataEps _ _).mp he))]
  rw [Bool.eq_iff_iff, State.inTransit_iff, State.inTransit_iff, hcfg, hrxq, htxq]
  exact or_congr_left hheld

section
variable {s t : State} {v : Byte} (ht : reconfigure s v = .ok t)
include ht

theorem reconfigure_cfg : t.cfg = s.cfg := by rw [reconfigure_frame s t v ht]

theorem reconfigure_free_length : t.free.length = s.free.length := by
  rw [reconfigure_eq] at ht
  rw [seedSlots_free_length ht, State.free_length_unseeded]

/-- After SET_CONFIGURATION only the RX slots it has seeded hold packets of the data endpoints. -/
theorem reconfigure_inTransit (h : Nat) :
    t.inTransit h = true ↔ ∃ x ∈ rxSlots s.cfg, (t.slot x.1 .rx x.2).addr = .pool h := by
  rw [State.inTransit_iff, reconfigure_cfg ht]
  constructor
  · rintro (⟨ep, hep, d, b, hslot⟩ | ⟨ep, hep, hq⟩)
    · have hep := (mem_dataEps _ _).mp hep
      by_cases hrx : d = .rx ∧ rxEnabled s.cfg ep = true
      · obtain ⟨rfl, hen⟩ := hrx
        exact ⟨(ep, b), (mem_rxSlots _ _ _).mpr hen, hslot⟩
      · rw [reconfigure_slot ht b fun hd => Bool.eq_false_iff.mpr fun hen => hrx ⟨hd, hen⟩, if_pos hep] at hslot
        cases hslot
    · obtain ⟨hrxq, htxq, -⟩ := reconfigure_arrays ht ep
      rw [if_pos ((mem_dataEps _ _).mp hep)] at hrxq htxq
      rw [hrxq, htxq] at hq
      simp at hq
  · rintro ⟨x, hx, hslot⟩
    exact .inl ⟨x.1, (mem_dataEps _ _).mpr (isDataEp_of_mem_rxSlots hx), .rx, x.2, hslot⟩

/-- What can be taken back after SET_CONFIGURATION is what could be before. -/
theorem reconfigure_recyclable {h : Nat} (hlt : h < s.free.length) :
    (t.isFree h || t.inTransit h) = (s.isFree h || s.inTransit h) := by
  rw [← s.isFree_unseeded v hlt, Bool.eq_iff_iff, Bool.or_eq_true, reconfigure_inTransit ht]
  constructor
  · rintro (hfree | ⟨x, hx, hslot⟩)
    · exact (reconfigure_seeded ht).taken h hfree
    · obtain ⟨k, hk⟩ := List.mem_iff_getElem?.mp hx
      by_cases hle : s.reclaimable ≤ k
      · rw [reconfigure_slot_starved ht hk hle] at hslot
        cases hslot
      · obtain ⟨p, hp, -, hreclaimed⟩ := reconfigure_slot_armed ht hk (Nat.lt_of_not_le hle)
        rw [hp] at hslot
        cases hslot
        rw [s.isFree_unseeded v hlt, Bool.or_eq_true]
        exact hreclaimed
  · exact seedSlots_taken (nodup_rxSlots _) ht

theorem reconfigure_reclaimable : t.reclaimable = s.reclaimable := by
  rw [State.reclaimable, State.reclaimable, reconfigure_free_length ht]
  exact congrArg List.length (List.filter_congr fun h hh => reconfigure_recyclable ht (List.mem_range.mp hh))

/-- A packet that was neither free nor in transit keeps its owner and its header. -/
theorem reconfigure_packetKept_of_out {h : Nat} (hfree : s.isFree h = false) (htransit : s.inTransit h = false) :
    s.PacketKept t h := by
  have hunseeded : s.PacketKept (s.unseeded v) h :=
    ⟨(s.ownerOf_unseeded v h).trans (if_neg (Bool.eq_false_iff.mp htransit)), by
      rw [State.header, (s.unseeded_spec v).1, State.header]⟩
  refine hunseeded.trans (seedSlots_packetKept (((s.unseeded v).isFree_eq_false_iff h).mpr fun hmem => ?_) ht)
  exact State.notMem_recyclableBytes (b := .pool h) 0 (fun p hp => by
    cases hp
    exact ⟨hfree, htransit⟩) (s.freeBytes_unseeded v hmem)

end

/-! ### The command (R232) -/

/-- SET_CONFIGURATION runs Reconfigure and arms the status packet. -/
theorem exec_setConfiguration_ok {v w l : Half} {s t : State} (ht : exec (.setConfiguration v w l) s = .next t) :
    ∃ x, reconfigure (s.beginSetup (requestPacket 0x00 0x09 v w l)) (lowByte v) = .ok x ∧
      t = x.statusArmed s.ep0.bank := by
  obtain ⟨x, hx⟩ := reconfigure_total (s.beginSetup (requestPacket 0x00 0x09 v w l)) (lowByte v)
  obtain ⟨hs, -⟩ := (whenAlive_next s t _).mp ht
  have hrun := runRequest_of_ok _ _ _ _ hs (setupStage_setConfiguration (w := w) (l := l) hx)
  exact ⟨x, hx, Host.Outcome.next.inj (ht.symm.trans hrun)⟩

theorem exec_setConfiguration_reclaimable {v w l : Half} {s t : State}
    (ht : exec (.setConfiguration v w l) s = .next t) : t.reclaimable = s.reclaimable := by
  obtain ⟨x, hx, rfl⟩ := exec_setConfiguration_ok ht
  have htransit : (x.statusArmed s.ep0.bank).inTransit = x.inTransit := by
    refine State.inTransit_congr rfl rfl rfl fun ep hne d b => ?_
    rw [State.slot_statusArmed, if_neg fun h => hne h.1]
  have hkept : (x.statusArmed s.ep0.bank).reclaimable = x.reclaimable := by
    rw [State.reclaimable, htransit]
    rfl
  rw [hkept, reconfigure_reclaimable hx, State.reclaimable_beginSetup]

theorem exec_setConfiguration_packetKept {v w l : Half} {s t : State} {h : Nat}
    (ht : exec (.setConfiguration v w l) s = .next t) (hfree : s.isFree h = false) (htransit : s.inTransit h = false) :
    s.PacketKept t h := by
  obtain ⟨x, hx, rfl⟩ := exec_setConfiguration_ok ht
  rw [← s.inTransit_beginSetup (requestPacket 0x00 0x09 v w l)] at htransit
  have hbegun : s.PacketKept (s.beginSetup (requestPacket 0x00 0x09 v w l)) h := .of_fields rfl rfl
  exact (hbegun.trans (reconfigure_packetKept_of_out hx hfree htransit)).trans (.of_fields rfl rfl)

/-- A byte of a packet's 64, in range or not, that an instruction cannot store. -/
theorem State.StoresWithin.byteAt_pool {s t : State} {F : ByteSet} (h : s.StoresWithin t F) {p k : Nat} (hk : k < 64)
    (hF : (Buffer.pool p, k) ∉ F) : t.byteAt (.pool p) k = s.byteAt (.pool p) k := by
  have hkb : k < blockSize s.cfg := by
    rw [blockSize, Config.packetSize]
    omega
  rw [State.byteAt, State.byteAt, h.cfg, ← h.outside, h.cfg]
  rintro ⟨b, k'⟩ hx hxb hkey
  obtain ⟨rfl, rfl⟩ := bufferKey_inj _ _ _ _ _ hkb hxb hkey
  exact hF hx

theorem exec_setConfiguration_byteAt {v w l : Half} {s t : State} {h k : Nat}
    (ht : exec (.setConfiguration v w l) s = .next t) (hfree : s.isFree h = false) (htransit : s.inTransit h = false)
    (hk : k < 64) : t.byteAt (.pool h) k = s.byteAt (.pool h) k :=
  (exec_storesWithin ht).byteAt_pool hk (State.notMem_recyclableBytes k fun p hp => by
    cases hp
    exact ⟨hfree, htransit⟩)

theorem bothFree_cases (st : TxState) : bothFree st = .bothFreeEvenFirst ∨ bothFree st = .bothFreeOddFirst := by
  cases st <;> decide

theorem bothFree_bothFree (st : TxState) : bothFree (bothFree st) = bothFree st := by cases st <;> rfl

/-! ### The second time (R265) -/

/-- The fields a SETUP stage and SET_CONFIGURATION set to the same whatever they were before (R183, R232). -/
structure State.Configured (s : State) (v : Byte) : Prop where
  config : s.config = v
  ctl : s.ctl = .statusIn
  ep0 : s.ep0.fresh = s.ep0
  ep0out : s.ep0out = { received := 0, sink := none }
  setAddrPending : s.setAddrPending = none
  pwr : ({ s.pwr with armed := false } : Pwr) = s.pwr
  tokenSuspend : s.tokenSuspend = false

section
variable {s t : State} {v w l : Half} (ht : exec (.setConfiguration v w l) s = .next t)
include ht

theorem exec_setConfiguration_configured : t.Configured (v.extractLsb' 0 8) := by
  obtain ⟨hs, -⟩ := (whenAlive_next s t _).mp ht
  obtain ⟨t', ht', hframe, -⟩ := setConfigurationReseeds s v w l hs
  cases ht.symm.trans ht'
  constructor <;> rw [hframe] <;> rfl

/-- What O43 says, of the state reached. -/
theorem exec_setConfiguration_fields : t = { s.staged (requestPacket 0x00 0x09 v w l) .statusIn s.ep0.fresh t.bdt with
    config := v.extractLsb' 0 8
    rxNeeded := BitVec.ofNat 32 ((rxSlots s.cfg).length - s.reclaimable)
    free := t.free
    owner := t.owner
    pkt := t.pkt
    mem := t.mem
    rxq := t.rxq
    txq := t.txq
    rxBytes := t.rxBytes
    txState := t.txState
    endpt := t.endpt
    draws := t.draws
    drawn := t.drawn } := by
  obtain ⟨hs, -⟩ := (whenAlive_next s t _).mp ht
  obtain ⟨t', ht', hframe, -⟩ := setConfigurationReseeds s v w l hs
  cases ht.symm.trans ht'
  exact hframe

theorem exec_setConfiguration_cfg : t.cfg = s.cfg := by
  rw [exec_setConfiguration_fields ht]
  rfl

theorem exec_setConfiguration_data {ep : Ep} (hep : isDataEp s.cfg ep = true) :
    epGet t.rxq ep = [] ∧ epGet t.txq ep = [] ∧ epGet t.rxBytes ep = 0 ∧
      epGet t.txState ep = bothFree (epGet s.txState ep) ∧ epGet t.endpt ep = epConfigOf s.cfg ep := by
  obtain ⟨hs, -⟩ := (whenAlive_next s t _).mp ht
  obtain ⟨t', ht', -, hdata, -⟩ := setConfigurationReseeds s v w l hs
  cases ht.symm.trans ht'
  obtain ⟨hrxq, htxq, hbytes, hstate, hendpt, -⟩ := hdata ep hep
  exact ⟨hrxq, htxq, hbytes, hstate, hendpt⟩

theorem exec_setConfiguration_elsewhere {ep : Ep} (hep : isDataEp s.cfg ep = false) :
    epGet t.rxq ep = epGet s.rxq ep ∧ epGet t.txq ep = epGet s.txq ep ∧ epGet t.rxBytes ep = epGet s.rxBytes ep ∧
      epGet t.txState ep = epGet s.txState ep ∧ epGet t.endpt ep = epGet s.endpt ep ∧
      ∀ d b, ¬(ep = 0 ∧ d = .tx) → t.slot ep d b = s.slot ep d b := by
  obtain ⟨hs, -⟩ := (whenAlive_next s t _).mp ht
  obtain ⟨t', ht', -, -, helse, -⟩ := setConfigurationReseeds s v w l hs
  cases ht.symm.trans ht'
  exact helse ep hep

/-- The slots of endpoint 0 that TX arms (R183, R189), the data endpoints' that are not seeded, and those that are. -/
theorem exec_setConfiguration_slots :
    (t.slot 0 .tx s.ep0.bank = statusSlot ∧ t.slot 0 .tx s.ep0.bank.other = Slot.cleared) ∧
      (∀ ep, isDataEp s.cfg ep = true → (∀ b, t.slot ep .tx b = Slot.cleared) ∧
        (rxEnabled s.cfg ep = false → ∀ b, t.slot ep .rx b = Slot.cleared)) ∧
      ∀ (k : Nat) (ep : Ep) (b : Bank), (rxSlots s.cfg)[k]? = some (ep, b) →
        (k < s.reclaimable → (t.slot ep .rx b).desc = armedDesc 64 (bankToggle b)) ∧
          (s.reclaimable ≤ k → (t.slot ep .rx b).desc = releasedDesc) := by
  obtain ⟨hs, -⟩ := (whenAlive_next s t _).mp ht
  obtain ⟨t', ht', -, hdata, -, hseeded, -, hstatus⟩ := setConfigurationReseeds s v w l hs
  cases ht.symm.trans ht'
  refine ⟨hstatus, fun ep hep => ?_, fun k ep b hk => ⟨fun hlt => ?_, fun hle => ?_⟩⟩
  · obtain ⟨-, -, -, -, -, hslots⟩ := hdata ep hep
    exact hslots
  · obtain ⟨p, hslot, -⟩ := (hseeded k ep b hk).1 hlt
    rw [hslot]
  · rw [(hseeded k ep b hk).2 hle]
    rfl

theorem exec_setConfiguration_freeIds : t.freeIds.length = s.reclaimable - (rxSlots s.cfg).length := by
  obtain ⟨hs, -⟩ := (whenAlive_next s t _).mp ht
  obtain ⟨t', ht', -, -, -, -, hcount, -⟩ := setConfigurationReseeds s v w l hs
  cases ht.symm.trans ht'
  exact hcount

end

section
variable {s t u : State} {v w l v' w' l' : Half} (ht : exec (.setConfiguration v w l) s = .next t)
  (hu : exec (.setConfiguration v' w' l') t = .next u)
include ht hu

/-- The arrays of the endpoints are as after the first time. -/
theorem setConfiguration_twice_arrays :
    u.rxq = t.rxq ∧ u.txq = t.txq ∧ u.rxBytes = t.rxBytes ∧ u.txState = t.txState ∧ u.endpt = t.endpt := by
  have hcfg := exec_setConfiguration_cfg ht
  have hall (ep : Ep) : epGet u.rxq ep = epGet t.rxq ep ∧ epGet u.txq ep = epGet t.txq ep ∧
      epGet u.rxBytes ep = epGet t.rxBytes ep ∧ epGet u.txState ep = epGet t.txState ep ∧
      epGet u.endpt ep = epGet t.endpt ep := by
    cases hep : isDataEp s.cfg ep with
    | true =>
      obtain ⟨hrxq, htxq, hbytes, hstate, hendpt⟩ := exec_setConfiguration_data ht hep
      obtain ⟨hrxq', htxq', hbytes', hstate', hendpt'⟩ := exec_setConfiguration_data hu (hcfg.symm ▸ hep)
      rw [hstate, bothFree_bothFree] at hstate'
      rw [hcfg] at hendpt'
      exact ⟨hrxq'.trans hrxq.symm, htxq'.trans htxq.symm, hbytes'.trans hbytes.symm, hstate'.trans hstate.symm,
        hendpt'.trans hendpt.symm⟩
    | false =>
      obtain ⟨hrxq, htxq, hbytes, hstate, hendpt, -⟩ := exec_setConfiguration_elsewhere hu (hcfg.symm ▸ hep)
      exact ⟨hrxq, htxq, hbytes, hstate, hendpt⟩
  exact ⟨epGet_ext _ _ fun ep => (hall ep).1, epGet_ext _ _ fun ep => (hall ep).2.1,
    epGet_ext _ _ fun ep => (hall ep).2.2.1, epGet_ext _ _ fun ep => (hall ep).2.2.2.1,
    epGet_ext _ _ fun ep => (hall ep).2.2.2.2⟩

theorem setConfiguration_twice_frame (hv : v'.extractLsb' 0 8 = v.extractLsb' 0 8) :
    u = { t with
      setup := requestPacket 0x00 0x09 v' w' l'
      bdt := u.bdt
      free := u.free
      owner := u.owner
      pkt := u.pkt
      mem := u.mem
      draws := u.draws
      drawn := u.drawn } := by
  obtain ⟨hrxq, htxq, hbytes, hstate, hendpt⟩ := setConfiguration_twice_arrays ht hu
  obtain ⟨hconfig, hctl, hep0, hep0out, haddr, hpwr, hsuspend⟩ := exec_setConfiguration_configured ht
  have hneeded : t.rxNeeded = BitVec.ofNat 32 ((rxSlots t.cfg).length - t.reclaimable) := by
    rw [exec_setConfiguration_reclaimable ht, exec_setConfiguration_cfg ht, exec_setConfiguration_fields ht]
  have hfields := exec_setConfiguration_fields hu
  rw [State.staged, hv, ← hconfig, ← hctl, hep0, ← hep0out, ← haddr, hpwr, ← hsuspend, ← hneeded, hrxq, htxq, hbytes,
    hstate, hendpt] at hfields
  exact hfields

/-- Every slot but the RX slots of the data endpoints is as after the first time. -/
theorem setConfiguration_twice_slot {ep : Ep} {d : Dir} (b : Bank) (hne : ¬(isDataEp s.cfg ep = true ∧ d = .rx)) :
    u.slot ep d b = t.slot ep d b := by
  have hcfg := exec_setConfiguration_cfg ht
  obtain ⟨⟨hbank, hother⟩, hdata, -⟩ := exec_setConfiguration_slots ht
  obtain ⟨⟨hbank', hother'⟩, hdata', -⟩ := exec_setConfiguration_slots hu
  have hep0 : t.ep0.bank = s.ep0.bank := by
    rw [exec_setConfiguration_fields ht]
    rfl
  cases hep : isDataEp s.cfg ep with
  | true =>
    cases d with
    | rx => exact absurd ⟨hep, rfl⟩ hne
    | tx => rw [(hdata' ep (hcfg.symm ▸ hep)).1, (hdata ep hep).1]
  | false =>
    by_cases hzero : ep = 0 ∧ d = .tx
    · obtain ⟨rfl, rfl⟩ := hzero
      rw [hep0] at hbank' hother'
      obtain rfl | rfl := s.ep0.bank.eq_or_other b
      · rw [hbank', hbank]
      · rw [hother', hother]
    · obtain ⟨-, -, -, -, -, hslot⟩ := exec_setConfiguration_elsewhere hu (hcfg.symm ▸ hep)
      exact hslot d b hzero

/-- As many RX slots are seeded as the first time, and in the same order (R264). -/
theorem setConfiguration_twice_desc (ep : Ep) (d : Dir) (b : Bank) : (u.slot ep d b).desc = (t.slot ep d b).desc := by
  have hcfg := exec_setConfiguration_cfg ht
  by_cases hrx : isDataEp s.cfg ep = true ∧ d = .rx
  · obtain ⟨hep, rfl⟩ := hrx
    obtain ⟨-, hdata, hseeded⟩ := exec_setConfiguration_slots ht
    obtain ⟨-, hdata', hseeded'⟩ := exec_setConfiguration_slots hu
    rw [hcfg] at hdata' hseeded'
    cases hen : rxEnabled s.cfg ep with
    | true =>
      obtain ⟨k, hk⟩ := List.mem_iff_getElem?.mp ((mem_rxSlots s.cfg ep b).mpr hen)
      rw [exec_setConfiguration_reclaimable ht] at hseeded'
      by_cases hlt : k < s.reclaimable
      · rw [(hseeded' k ep b hk).1 hlt, (hseeded k ep b hk).1 hlt]
      · have hle := Nat.le_of_not_lt hlt
        rw [(hseeded' k ep b hk).2 hle, (hseeded k ep b hk).2 hle]
    | false => rw [(hdata' ep hep).2 hen, (hdata ep hep).2 hen]
  · rw [setConfiguration_twice_slot ht hu b hrx]

end

/-- Settles O44: what the second Reconfigure can take back is what the first could, and so it seeds the same slots. -/
theorem setConfigurationIdempotent : Obligations.SetConfigurationIdempotent := by
  intro s t u v w l v' w' l' _ hv ht hu
  have hcfg := exec_setConfiguration_cfg ht
  refine ⟨setConfiguration_twice_frame ht hu hv, ?_, setConfiguration_twice_desc ht hu,
    fun ep d b hne => setConfiguration_twice_slot ht hu b hne, fun ep hep => ?_, fun h hfree htransit => ?_⟩
  · rw [exec_setConfiguration_freeIds hu, exec_setConfiguration_freeIds ht, exec_setConfiguration_reclaimable ht, hcfg]
  · obtain ⟨hrxq, htxq, hbytes, hstate, hendpt⟩ := exec_setConfiguration_data hu (hcfg.symm ▸ hep)
    exact ⟨htxq, hrxq, hbytes, hstate ▸ bothFree_cases _, hcfg ▸ hendpt⟩
  · obtain ⟨howner, hheader⟩ := exec_setConfiguration_packetKept hu hfree htransit
    exact ⟨howner, hheader, fun k hk => exec_setConfiguration_byteAt hu hfree htransit hk⟩

end Sys2Proof.Machine
end

section
/-! Power-on (R49, R340, R342): every field and byte the spec gives a value, and every invariant. -/

namespace Sys2Proof.Machine

section
variable (c : Params)

theorem State.slot_powerOn (ep : Ep) (d : Dir) (b : Bank) : (State.powerOn c).slot ep d b = Slot.cleared := by
  rw [State.slot, State.powerOn, epGet_replicate]
  cases d <;> cases b <;> rfl

theorem State.ppBank_powerOn (ep : Ep) (d : Dir) : (State.powerOn c).ppBank ep d = .even := by
  rw [State.ppBank, State.powerOn, epGet_replicate]
  cases d <;> rfl

theorem State.arrays_powerOn (ep : Ep) : epGet (State.powerOn c).txState ep = .bothFreeEvenFirst ∧
    epGet (State.powerOn c).txq ep = [] ∧ epGet (State.powerOn c).rxq ep = [] ∧
      epGet (State.powerOn c).rxBytes ep = 0 ∧ epGet (State.powerOn c).endpt ep = 0 :=
  ⟨epGet_replicate _ ep, epGet_replicate _ ep, epGet_replicate _ ep, epGet_replicate _ ep, epGet_replicate _ ep⟩

theorem State.fifo_powerOn (ep : Ep) (d : Dir) : (State.powerOn c).fifo ep d = [] := by
  cases d <;> exact epGet_replicate _ ep

theorem State.byteAt_powerOn (b : Buffer) (k : Nat) :
    (State.powerOn c).byteAt b k = initialByte c (bufferKey c b k) := rfl

/-! ### The invariants -/

theorem State.placed_powerOn : (State.powerOn c).Placed := by
  refine State.placed_of_none_out List.length_replicate List.length_replicate List.length_replicate
    (fun h hlt => .inl ⟨List.getD_replicate _ hlt, State.isFree_powerOn hlt⟩) (State.fifo_powerOn c) (fun ep d b => ?_)
    fun ep d b _ => ?_
  · rw [State.slot_powerOn]
    rfl
  · rw [State.slot_powerOn]
    rfl

theorem State.ownership_powerOn : (State.powerOn c).Ownership :=
  (State.placed_powerOn c).ownership fun ep _ b => by
    rw [State.slot_powerOn, (State.arrays_powerOn c ep).1]
    rfl

theorem State.starvationExact_powerOn : (State.powerOn c).StarvationExact where
  seededOnly ep b hpool := by
    rw [State.slot_powerOn] at hpool
    cases hpool
  counter h := absurd rfl h

theorem State.inStep_powerOn : (State.powerOn c).InStep := by
  refine State.inStep_of_idle _ rfl rfl (fun ep _ b _ => ?_) (fun ep _ b _ => ?_) (fun ep _ => ?_) ⟨?_, ?_, ?_⟩
    fun h => ?_
  · rw [State.slot_powerOn]
    exact fun hown => Bool.noConfusion hown
  · rw [State.slot_powerOn, (State.arrays_powerOn c ep).1]
    rfl
  · rw [(State.arrays_powerOn c ep).1, State.ppBank_powerOn]
    rfl
  · rw [State.ppBank_powerOn]
    rfl
  · rw [State.slot_powerOn]
    rfl
  · exact fun h => Ctl.noConfusion h
  · exact h.elim (fun h => Bool.noConfusion h) (absurd rfl)

end

/-! ### The obligations -/

/-- Settles O9: the arrays are filled with one value, and what no rule has written reads as DESC_TABLE gives it. -/
theorem powerOnState : Obligations.PowerOnState := fun c => by
  refine ⟨rfl, rfl, rfl, State.slot_powerOn c, fun ep => ?_, rfl, rfl, rfl, rfl, rfl, rfl, rfl, rfl, rfl, rfl, rfl, rfl,
    rfl, rfl, rfl, fun b k hk => ?_⟩
  · obtain ⟨hstate, htxq, hrxq, hbytes, hendpt⟩ := State.arrays_powerOn c ep
    exact ⟨hstate, htxq, hrxq, hbytes, hendpt, State.ppBank_powerOn c ep⟩
  · exact (State.byteAt_powerOn c b k).trans (initialByte_bufferKey c b k (hk.trans_le (bufferLen_le c b)))

/-- Settles O47: no packet is out, no slot is armed, no FIFO holds a packet and no entry waits. -/
theorem invariantsAtPowerOn : Obligations.InvariantsAtPowerOn := fun c => by
  refine ⟨State.wf_powerOn c, fun ep hq => ?_, State.ownership_powerOn c, fun ep => ?_, State.starvationExact_powerOn c,
    (State.linksAgree_iff _).mpr (State.links_of_empty (State.fifo_powerOn c)), fun ep _ d b hown => ?_,
    State.inStep_powerOn c⟩
  · exact absurd (State.fifo_powerOn c ep .tx) hq
  · obtain ⟨-, -, hrxq, hbytes, -⟩ := State.arrays_powerOn c ep
    rw [hbytes, hrxq, State.sumLens_nil]
  · rw [State.slot_powerOn] at hown
    cases hown

end Sys2Proof.Machine
end
